-- ==== Sys2Proof/Word.lean ====
section
/-! DEFINITION. The words of the core: every register and every sample is 32 bits wide (R10, R12), a byte of the
address space 8 bits (R95), an address 24 bits (R86). -/

namespace Sys2Proof

/-- A 32-bit register or memory word (R10). A binary32 value is held in one (R12). -/
abbrev Word := BitVec 32

/-- One byte of the address space (R95). -/
abbrev Byte := BitVec 8

/-- A byte address of the host port (R85, R86). -/
abbrev Addr := BitVec 24

end Sys2Proof
end

