-- ==== Sys2Proof/Syntax.lean ====
section
/-! DEFINITION. The twelve commands of LFS-CMD version 1, one constructor per row of spec/opcode_table.json (R111,
R119). Operands other than these fields are in ARG0..ARG3 (R114, R118). -/

namespace Sys2Proof

/-- A command of the core. `unit` is UNIT (bits 15:8), `sub` is SUB (19:16), `cls` is CLS (bit 20: false a voice, true
a filter); the flags are those of R117. -/
inductive Instr where
  /-- R231 -/
  | nop
  /-- R232 -/
  | init
  /-- R233 -/
  | teardown
  /-- R239 -/
  | processBlock
  /-- R234 -/
  | blockBegin
  /-- R238 -/
  | blockEnd
  /-- R237 -/
  | voiceRender (unit : BitVec 8)
  /-- R161 -/
  | filterBlock (unit : BitVec 8)
  /-- R160 -/
  | filterStep (unit : BitVec 8)
  /-- R200 -/
  | oscNext (unit : BitVec 8) (sub : BitVec 4) (cls : Bool)
  /-- R201 -/
  | oscRender (unit : BitVec 8) (sub : BitVec 4) (cls ovw mono ufm uam : Bool)
  /-- R202 -/
  | lfoProduce (unit : BitVec 8) (sub : BitVec 4) (cls ufm : Bool)
  deriving DecidableEq, Repr

end Sys2Proof
end

