-- ==== Sys2Proof/Decode.lean ====
section
/-! DEFINITION. The command word (R111, R125): the decoder, total on 32-bit words and rejecting by name, and after it
the encoder. A command is one 32-bit value written in one transaction (R95), so there is no byte order to decode. -/

namespace Sys2Proof

/-- Why a word is no command; both depend on the word alone (R272). -/
inductive DecodeError where
  /-- OP in 0x0C..0xFF (R122). -/
  | illegalOpcode
  /-- a bit outside USED_MASK(OP) is set (R120). -/
  | reservedBits
  deriving DecidableEq, Repr

/-- OP, bits 7:0. -/
def fieldOp (w : Word) : BitVec 8 := w.extractLsb' 0 8
/-- UNIT, bits 15:8. -/
def fieldUnit (w : Word) : BitVec 8 := w.extractLsb' 8 8
/-- SUB, bits 19:16. -/
def fieldSub (w : Word) : BitVec 4 := w.extractLsb' 16 4
/-- CLS, bit 20. -/
def fieldCls (w : Word) : Bool := w.getLsbD 20
/-- FL0, bit 21. -/
def fieldFl0 (w : Word) : Bool := w.getLsbD 21
/-- FL1, bit 22. -/
def fieldFl1 (w : Word) : Bool := w.getLsbD 22
/-- FL2, bit 23. -/
def fieldFl2 (w : Word) : Bool := w.getLsbD 23
/-- FL3, bit 24. -/
def fieldFl3 (w : Word) : Bool := w.getLsbD 24

/-- `USED_MASK(op)` for the opcodes 0x00..0x0B (R120). -/
def usedMask (op : Nat) : Word :=
  match op with
  | 6 | 7 | 8 => 0x0000FFFF#32
  | 9 => 0x001FFFFF#32
  | 10 => 0x01FFFFFF#32
  | 11 => 0x003FFFFF#32
  | _ => 0x000000FF#32

/-- The command of opcode `op` with the fields of `w` (R119). -/
def commandOf (op : Nat) (w : Word) : Except DecodeError Instr :=
  match op with
  | 0 => .ok .nop
  | 1 => .ok .init
  | 2 => .ok .teardown
  | 3 => .ok .processBlock
  | 4 => .ok .blockBegin
  | 5 => .ok .blockEnd
  | 6 => .ok (.voiceRender (fieldUnit w))
  | 7 => .ok (.filterBlock (fieldUnit w))
  | 8 => .ok (.filterStep (fieldUnit w))
  | 9 => .ok (.oscNext (fieldUnit w) (fieldSub w) (fieldCls w))
  | 10 => .ok (.oscRender (fieldUnit w) (fieldSub w) (fieldCls w) (fieldFl0 w) (fieldFl1 w) (fieldFl2 w) (fieldFl3 w))
  | 11 => .ok (.lfoProduce (fieldUnit w) (fieldSub w) (fieldCls w) (fieldFl0 w))
  | _ => .error .illegalOpcode

/-- Decodes a command word: the first two checks of R113. -/
def decode (w : Word) : Except DecodeError Instr :=
  let op := (fieldOp w).toNat
  if 12 ≤ op then .error .illegalOpcode
  else if w &&& ~~~(usedMask op) ≠ 0 then .error .reservedBits
  else commandOf op w

/-- The word with these fields: RSV above FL3, FL2, FL1, FL0, CLS, SUB, UNIT, OP (R111). -/
def assemble (op : BitVec 8) (unit : BitVec 8) (sub : BitVec 4) (cls fl0 fl1 fl2 fl3 : Bool) : Word :=
  (0#7 ++ BitVec.ofBool fl3 ++ BitVec.ofBool fl2 ++ BitVec.ofBool fl1 ++ BitVec.ofBool fl0 ++ BitVec.ofBool cls
    ++ sub ++ unit ++ op : BitVec 32)

/-- The command word of a command (R111, R117, R119). -/
def encode : Instr → Word
  | .nop => assemble 0x00 0 0 false false false false false
  | .init => assemble 0x01 0 0 false false false false false
  | .teardown => assemble 0x02 0 0 false false false false false
  | .processBlock => assemble 0x03 0 0 false false false false false
  | .blockBegin => assemble 0x04 0 0 false false false false false
  | .blockEnd => assemble 0x05 0 0 false false false false false
  | .voiceRender unit => assemble 0x06 unit 0 false false false false false
  | .filterBlock unit => assemble 0x07 unit 0 false false false false false
  | .filterStep unit => assemble 0x08 unit 0 false false false false false
  | .oscNext unit sub cls => assemble 0x09 unit sub cls false false false false
  | .oscRender unit sub cls ovw mono ufm uam => assemble 0x0A unit sub cls ovw mono ufm uam
  | .lfoProduce unit sub cls ufm => assemble 0x0B unit sub cls ufm false false false

/-- What the decoder reads from an instruction whose bits are `w`, of `nbits` bits, the rest zero. Every command is one
32-bit word (R125); a wider one is none. -/
def decodeTableWord (nbits w : Nat) : Option Instr :=
  if nbits ≤ 32 then
    match decode (BitVec.ofNat 32 (w % 2 ^ nbits)) with
    | .ok i => some i
    | .error _ => none
  else none

end Sys2Proof
end

