-- ==== Sys2Proof/Config.lean ====
section
/-! DEFINITION. What an implementation fixes (the parameters of R8) and the free values. Every constant here is
opaque: nothing in Lean evaluates it, so a claim about the machine holds whatever its value is. The legal ranges of
R8, R17 and R19 are imposed on them in Sys2Proof/Machine/Parameters.lean. -/

namespace Sys2Proof

/-- The plain-data parameters of R8, read-only for a given core (R46, R74). `rom` is the wavetable ROM as bytes of the
address space (R91), in the canonical form of Sys2Proof/Machine/Memory.lean. -/
structure Params where
  /-- `N_VOICE`, the number of voice slots, 1..32. -/
  nVoice : Nat
  /-- `BLOCK_MAX`, the largest block size, 1..4096. -/
  blockMax : Nat
  /-- `WT_LEN`, samples per wavetable, 2..1024. -/
  wtLen : Nat
  /-- `WT_NOCT`, wavetable octaves, 1..16. -/
  wtNoct : Nat
  /-- `WT_BASE`, the wavetable base frequency, binary32, finite and positive. -/
  wtBase : Word
  /-- `WT_ROM`, any finite binary32 words, at the addresses of R91. -/
  rom : List Host.Cell
  deriving DecidableEq, Repr, Inhabited

/-- The parameters this core is built with, OPEN in R8 (DESIGN CHOICE, safe: log entry 1). -/
opaque Config.given : Params

/-- The hyperbolic tangent this core is built with, OPEN in R8 (DESIGN CHOICE, safe: log entry 2). -/
opaque Config.tanhGiven : Word → Word

/-- The sine this core is built with, OPEN in R8 (DESIGN CHOICE, safe: log entry 2). -/
opaque Config.sinGiven : Word → Word

/-- The value of the `k`-th noise draw, a free value (R19, R78; DESIGN CHOICE, safe: log entry 4). -/
opaque Config.noiseGiven : Nat → Word

/-- The delay between the `k`-th accepted CMD write and that command's completion, in steps: a free finite value
(R320; DESIGN CHOICE, safe: log entry 6). -/
opaque Config.completionDelay : Nat → Nat

end Sys2Proof
end

