-- ==== Sys2Proof/Machine/Binary32.lean ====
section
/-! DEFINITION. IEEE 754 binary32 arithmetic on words (R12, R13). Every finite value is an integral multiple of
2^-149, so each operation is computed exactly on integers and narrowed once, to nearest with ties to even, by
`roundMag`. Every operation whose result is NaN answers the canonical NaN (R12). The bit layout and the default
results are general knowledge that the spec adopts (spec/93_implementation_defined.md I14): PRESUMED, unsafe, log entry 3. -/

namespace Sys2Proof.Machine

/-- The magnitude of an infinity: biased exponent 255, fraction 0. -/
abbrev infMag : Nat := 0x7F800000

/-- The canonical quiet NaN (R12). -/
abbrev qNaN : Word := 0x7FC00000#32
/-- `ONE` (R15). -/
abbrev fOne : Word := 0x3F800000#32
/-- `HALF` (R15). -/
abbrev fHalf : Word := 0x3F000000#32
/-- `FOUR` (R15). -/
abbrev fFour : Word := 0x40800000#32
/-- `MINUS_TWO` (R15). -/
abbrev fMinusTwo : Word := 0xC0000000#32
/-- `TWO_PI` (R15). -/
abbrev fTwoPi : Word := 0x40C90FDB#32
/-- `EPS_DEFAULT` (R15). -/
abbrev epsDefault : Word := 0x3727C5AC#32
/-- `+0.0`. -/
abbrev fZero : Word := 0#32

/-- The sign, bit 31 (R12). -/
def fsign (x : Word) : Bool := x.msb

/-- Bits 30:0: the biased exponent above the fraction (R12). -/
def fmag (x : Word) : Nat := x.toNat % 2 ^ 31

def isNaN (x : Word) : Bool := decide (infMag < fmag x)
def isInf (x : Word) : Bool := decide (fmag x = infMag)
/-- `isfinite(a)` of R13. -/
def isFinite (x : Word) : Bool := decide (fmag x < infMag)
/-- Either zero. -/
def isZero (x : Word) : Bool := decide (fmag x = 0)

/-- |x| of a finite `x`, in units of 2^-149: the fraction alone for a subnormal, with the hidden bit otherwise. -/
def funits (x : Word) : Nat :=
  if fmag x < 2 ^ 23 then fmag x else (2 ^ 23 + fmag x % 2 ^ 23) * 2 ^ (fmag x / 2 ^ 23 - 1)

/-- A finite `x` as an integral multiple of 2^-149. -/
def fexact (x : Word) : Int := if fsign x then -(funits x : Int) else (funits x : Int)

/-- The word with this sign and these bits 30:0. -/
def fpack (neg : Bool) (mag : Nat) : Word := BitVec.ofNat 32 (if neg then 2 ^ 31 + mag else mag)

/-- Bits 30:0 of the binary32 nearest to `(num / den) * 2^-149`, ties to even; an infinity's past the largest finite
value. `sh` is the place of the last kept bit: 24 significant bits are kept, none below 2^-149. -/
def roundMag (num den : Nat) : Nat :=
  let sh := Nat.log2 (num / den) - 23
  let d := den * 2 ^ sh
  let q := num / d
  let r := num % d
  let q' := if d < 2 * r ∨ (2 * r = d ∧ q % 2 = 1) then q + 1 else q
  min (q' + sh * 2 ^ 23) infMag

/-- `-a`: the sign bit alone flips, also on NaN and zero (R13). -/
def fneg (x : Word) : Word := x ^^^ 0x80000000#32

/-- `abs(a)`: the sign bit is cleared (R13). -/
def fabs (x : Word) : Word := x &&& 0x7FFFFFFF#32

/-- `a + b` (R13). An exact zero sum is +0 unless both operands are -0. -/
def fadd (x y : Word) : Word :=
  if isNaN x || isNaN y then qNaN
  else if isInf x then (if isInf y && fsign x != fsign y then qNaN else x)
  else if isInf y then y
  else if fexact x + fexact y = 0 then fpack (fsign x && fsign y) 0
  else fpack (decide (fexact x + fexact y < 0)) (roundMag (fexact x + fexact y).natAbs 1)

/-- `a - b` (R13). -/
def fsub (x y : Word) : Word := fadd x (fneg y)

/-- `a * b` (R13). -/
def fmul (x y : Word) : Word :=
  if isNaN x || isNaN y then qNaN
  else if isInf x || isInf y then
    (if isZero x || isZero y then qNaN else fpack (fsign x != fsign y) infMag)
  else fpack (fsign x != fsign y) (roundMag (funits x * funits y) (2 ^ 149))

/-- `a / b` (R13): 0/0 and infinity/infinity are NaN, any other division by zero is an infinity (R12). -/
def fdiv (x y : Word) : Word :=
  if isNaN x || isNaN y then qNaN
  else if isInf x then (if isInf y then qNaN else fpack (fsign x != fsign y) infMag)
  else if isInf y then fpack (fsign x != fsign y) 0
  else if isZero y then (if isZero x then qNaN else fpack (fsign x != fsign y) infMag)
  else fpack (fsign x != fsign y) (roundMag (funits x * 2 ^ 149) (funits y))

/-- The floor of a finite value, as an integer. -/
def floorInt (x : Word) : Int := fexact x / (2 ^ 149 : Int)

/-- `floor(a)`: roundToIntegralTowardNegative, exact (R13). -/
def ffloor (x : Word) : Word :=
  if isNaN x then qNaN
  else if isInf x || isZero x then x
  else fpack (decide (floorInt x < 0)) (roundMag ((floorInt x).natAbs * 2 ^ 149) 1)

/-- `f32(k)`: an unsigned integer to binary32, to nearest even (R13). -/
def fofNat (k : Nat) : Word := fpack false (roundMag (k * 2 ^ 149) 1)

/-- The order of the non-NaN words, both zeros alike. -/
def fkey (x : Word) : Int := if fsign x then -(fmag x : Int) else (fmag x : Int)

/-- `a < b`, false when either is NaN (R13). -/
def flt (x y : Word) : Bool := !isNaN x && !isNaN y && decide (fkey x < fkey y)
/-- `a <= b`, false when either is NaN (R13). -/
def fle (x y : Word) : Bool := !isNaN x && !isNaN y && decide (fkey x ≤ fkey y)
/-- `a == b`, false when either is NaN; +0 and -0 are equal (R13). -/
def feq (x y : Word) : Bool := !isNaN x && !isNaN y && decide (fkey x = fkey y)

end Sys2Proof.Machine
end

