-- ==== Sys2Proof/Machine/Memory.lean ====
section
/-! DEFINITION. A memory of the core as one canonical list of (address, byte) pairs, and words over it. An unlisted
byte reads as zero: the reset contents of the sample RAM (R73, R79; log entry 7), and what a ROM word outside the tables
reads as (R91). -/

namespace Sys2Proof.Machine

/-- A memory: the bytes that are not zero, each with its byte address. -/
abbrev Memory := List Host.Cell

/-- The byte at address `a`. -/
def readByte : Memory → Nat → Byte
  | [], _ => 0
  | c :: m, a => if c.1 = a then c.2 else readByte m a

/-- Puts `v` at address `a`, keeping the addresses rising and listing no zero byte. -/
def writeByte : Memory → Nat → Byte → Memory
  | [], a, v => if v = 0 then [] else [(a, v)]
  | c :: m, a, v =>
    if a < c.1 then (if v = 0 then c :: m else (a, v) :: c :: m)
    else if a = c.1 then (if v = 0 then m else (a, v) :: m)
    else c :: writeByte m a v

/-- The canonical form: addresses strictly rising, no byte listed that equals what an unlisted one reads as. -/
def memoryWf : Memory → Bool
  | [] => true
  | c :: m => c.2 != 0 && m.all (fun d => decide (c.1 < d.1)) && memoryWf m

/-- The canonical form, under the name the row's instructions give it. -/
abbrev Memory.wf (m : Memory) : Bool := memoryWf m

/-- The word at byte address `a`, little-endian (R95). -/
def readWord (m : Memory) (a : Nat) : Word :=
  readByte m (a + 3) ++ readByte m (a + 2) ++ readByte m (a + 1) ++ readByte m a

/-- Stores the word `v` at byte address `a`, little-endian (R95). -/
def writeWord (m : Memory) (a : Nat) (v : Word) : Memory :=
  writeByte (writeByte (writeByte (writeByte m a (v.extractLsb' 0 8)) (a + 1) (v.extractLsb' 8 8))
    (a + 2) (v.extractLsb' 16 8)) (a + 3) (v.extractLsb' 24 8)

/-- The byte address of sample RAM word `n` of buffer `b` (R92). -/
def bufAddr (b n : Nat) : Nat := 0x100000 + b * 0x4000 + n * 4

/-- The byte address of the wavetable ROM word `WT_ROM(k, o, i)` (R91). -/
def romAddr (k o i : Nat) : Nat := 0x040000 + ((k * 16 + o) * 1024 + i) * 4

end Sys2Proof.Machine
end

