-- ==== Sys2Proof/Machine/Parameters.lean ====
section
/-! DEFINITION. The parameters of R8 within their legal ranges, and the primitives TANH, SIN and NOISE of R16 to R19.
The opaque constants of Sys2Proof/Config.lean are cut down to the admissible ones, and every admissible one remains
possible: a claim about `params` and `prims` holds for every core the spec allows. -/

namespace Sys2Proof.Machine

/-- The ROM word addresses of the parameters' own tables: R74's ranges of kind, octave and sample. -/
def romWordLegal (p : Params) (a : Nat) : Bool :=
  let w := (a - 0x040000) / 4
  decide (0x040000 ≤ a) && decide (w / 0x4000 < 3) && decide (w / 0x400 % 16 < p.wtNoct) && decide (w % 0x400 < p.wtLen)

/-- The ROM is canonical, lies in the tables, and every word of it is finite (R8). -/
def romLegal (p : Params) : Bool :=
  memoryWf p.rom && p.rom.all fun c =>
    romWordLegal p (c.1 - c.1 % 4) && isFinite (readWord p.rom (c.1 - c.1 % 4))

/-- The legal ranges of R8. -/
def paramsLegal (p : Params) : Bool :=
  decide (1 ≤ p.nVoice) && decide (p.nVoice ≤ 32) && decide (1 ≤ p.blockMax) && decide (p.blockMax ≤ 4096) &&
  decide (2 ≤ p.wtLen) && decide (p.wtLen ≤ 1024) && decide (1 ≤ p.wtNoct) && decide (p.wtNoct ≤ 16) &&
  isFinite p.wtBase && flt fZero p.wtBase && romLegal p

/-- The sizes of the test vectors (R8's value column, spec/95_test_vectors.md section 0) with an all-zero ROM: one legal
choice among all, which `params` falls back to where the given ones are not legal (log entry 1). -/
def exampleParams : Params where
  nVoice := 2
  blockMax := 512
  wtLen := 4
  wtNoct := 10
  wtBase := 0x41A00000#32
  rom := []

/-- The parameters of this core: the given ones, where R8 allows them (log entry 1). -/
def params : Params := if paramsLegal Config.given then Config.given else exampleParams

/-- A binary32 value in the closed interval [-1, 1]: the one given where it lies there, else +0. -/
def clampUnit (x : Word) : Word := if fmag x ≤ 0x3F800000 then x else fZero

/-- The primitives beyond arithmetic (R16): what a command's numbers may depend on besides the state. -/
structure Prims where
  /-- `TANH(a)` -/
  tanh : Word → Word
  /-- `SIN(a)` -/
  sin : Word → Word
  /-- the value of the `k`-th `NOISE()` draw -/
  noise : Nat → Word

/-- `TANH` with the constraints of R17: zeros to themselves, NaN to the canonical NaN, the rest into [-1, 1]. -/
def tanhLegal (g : Word → Word) (x : Word) : Word :=
  if isNaN x then qNaN else if isZero x then x else clampUnit (g x)

/-- `SIN` with the constraints of R17: NaN and the infinities to the canonical NaN, the rest into [-1, 1]. -/
def sinLegal (g : Word → Word) (x : Word) : Word :=
  if isNaN x || isInf x then qNaN else clampUnit (g x)

/-- The primitives of this core (R17, R19; log entries 2 and 4). -/
def prims : Prims where
  tanh := tanhLegal Config.tanhGiven
  sin := sinLegal Config.sinGiven
  noise := fun k => clampUnit (Config.noiseGiven k)

end Sys2Proof.Machine
end

