-- ==== Sys2Proof/Machine/State.lean ====
section
/-! DEFINITION. The state of the core, all of it plain data, and its value right after reset (R30, R79). Register bits
that read as zero and ignore writes are not stored. -/

namespace Sys2Proof.Machine

/-- An oscillator record (R50 to R55). -/
structure Osc where
  /-- KIND (R51): 0 sine, 1 saw, 2 square, 3 triangle, 4 noise, 5..7 reserved. -/
  kind : BitVec 3
  /-- SRATE (R52). -/
  srate : Word
  /-- PHASE (R53). -/
  phase : Word
  /-- FREQ (R54). -/
  freq : Word
  /-- OCT (R55). -/
  oct : BitVec 4
  deriving DecidableEq, Repr

/-- An LFO record (R56). -/
structure Lfo where
  /-- its own oscillator -/
  osc : Osc
  /-- DEPTH -/
  depth : Word
  deriving DecidableEq, Repr

/-- VCFG (R59). -/
structure Vcfg where
  /-- ROUTE: 0 none, 1 harsh, 2 soft, 3 reserved -/
  route : BitVec 2
  enMf : Bool
  enF : Bool
  enMa : Bool
  enA : Bool
  ven : Bool
  deriving DecidableEq, Repr

/-- A voice record (R58 to R61). -/
structure Voice where
  vcfg : Vcfg
  volume : Word
  pan : Word
  osc : Osc
  /-- the meta-frequency LFO (sub-unit 1) -/
  mf : Lfo
  /-- the frequency LFO (sub-unit 2) -/
  f : Lfo
  /-- the meta-amplitude LFO (sub-unit 3) -/
  ma : Lfo
  /-- the amplitude LFO (sub-unit 4) -/
  a : Lfo
  deriving DecidableEq, Repr

/-- FCFG (R63). -/
structure Fcfg where
  en : Bool
  s3mode : Bool
  jmode : Bool
  deriving DecidableEq, Repr

/-- FSTAT (R71). -/
structure Fstat where
  noconv : Bool
  detzero : Bool
  nonfinite : Bool
  deriving DecidableEq, Repr

/-- Four binary32 values, one per ladder stage. -/
structure Quad where
  v0 : Word
  v1 : Word
  v2 : Word
  v3 : Word
  deriving DecidableEq, Repr

/-- A filter record (R62 to R72). -/
structure Filter where
  fcfg : Fcfg
  res : Word
  cutoff : Word
  inGain : Word
  outGain : Word
  timestep : Word
  eps : Word
  maxit : BitVec 8
  xprev : Word
  /-- S0..S3 (R69) -/
  s : Quad
  lastIters : BitVec 8
  fstat : Fstat
  /-- the meta-cutoff LFO (sub-unit 1); `meta` is a Lean keyword -/
  metaCut : Lfo
  /-- the cutoff LFO (sub-unit 2) -/
  cut : Lfo
  deriving DecidableEq, Repr

/-- WRITTEN (R45). -/
structure Written where
  direct : Bool
  harsh : Bool
  soft : Bool
  deriving DecidableEq, Repr

/-- The fault codes of R271. Codes 11..255 are never recorded. -/
inductive FaultCode where
  /-- 0 NONE: no fault since reset -/
  | none
  /-- 1 -/
  | illegalOpcode
  /-- 2 -/
  | reservedBits
  /-- 3 -/
  | notReady
  /-- 4 -/
  | badUnit
  /-- 5 -/
  | badBuffer
  /-- 6 -/
  | badBlockSize
  /-- 7 -/
  | badSampleRate
  /-- 8 -/
  | badConfig
  /-- 9 -/
  | busyAccess
  /-- 10 -/
  | busError
  deriving DecidableEq, Repr

/-- The command in flight (R75, R113) and the free delay still to pass before it completes (R320; log entry 6). -/
structure InFlight where
  word : Word
  wait : Nat
  deriving DecidableEq, Repr

/-- An entry of the latch PEND (R279). -/
structure Pend where
  code : FaultCode
  addr : Addr
  deriving DecidableEq, Repr

/-- One thing the host does (R85, R127, R311; log entry 5). -/
inductive HostEvent where
  /-- `MemRead(addr, 4)` -/
  | read (addr : Addr)
  /-- `MemWrite(addr, 4, v)` -/
  | write (addr : Addr) (v : Word)
  /-- `wait`: reads STATUS repeatedly until BUSY = 0 (R127) -/
  | wait
  /-- drives the reset input (R85, R311) -/
  | reset (asserted : Bool)
  deriving DecidableEq, Repr

/-- How the port completed a transaction (R85, R101). R85 names OKAY and BUS_ERROR alone; that a transaction refused
while BUSY = 1 completes at once, and with a third status, is the model's (DESIGN CHOICE, unsafe: log entry 15). -/
inductive PortStatus where
  /-- OKAY (R85) -/
  | okay
  /-- BUS_ERROR (R85, R93, R97) -/
  | busError
  /-- refused while BUSY = 1 (R101): the model's own status, log entry 15 -/
  | busyAccess
  deriving DecidableEq, Repr

/-- The port's answer to a transaction; a write answers data 0. -/
structure PortResp where
  status : PortStatus
  data : Word
  deriving DecidableEq, Repr

/-- The whole state of the core. Everything up to `resetPin` is the spec's; the last four fields are the model's own
(DESIGN CHOICE, unsafe: log entries 4, 5 and 6). -/
structure State where
  /-- P_N_VOICE, P_BLOCK_MAX, P_WT_LEN, P_WT_NOCT, P_WT_BASE (R46) and the wavetable ROM (R74): read-only -/
  hw : Params
  /-- CTRL.IE (R34) -/
  ie : Bool
  /-- STATUS.DONE (R35) -/
  done : Bool
  /-- STATUS.READY (R35) -/
  ready : Bool
  /-- STATUS.FAULT (R35) -/
  fault : Bool
  /-- STATUS.FAULT_CODE (R35) -/
  faultCode : FaultCode
  /-- FAULT_INFO (R47) -/
  faultInfo : Word
  /-- ARG0..ARG3 (R37) -/
  arg0 : Word
  arg1 : Word
  arg2 : Word
  arg3 : Word
  /-- RESULT (R38) -/
  result : Word
  /-- SAMPLE_RATE (R39) -/
  sampleRate : Word
  /-- BLOCK_SIZE (R40) -/
  blockSize : Word
  /-- FADE_LEN (R41) -/
  fadeLen : Word
  /-- FADE_POS (R42) -/
  fadePos : Word
  /-- CMD_COUNT (R43) -/
  cmdCount : Word
  /-- BLOCK_COUNT (R44) -/
  blockCount : Word
  /-- WRITTEN (R45) -/
  written : Written
  /-- the filter records (R62) -/
  filters : Vector Filter 4
  /-- the voice records (R58); slots N_VOICE and up do not exist and stay as they are (DESIGN
  CHOICE, safe: log entry 12) -/
  voices : Vector Voice 32
  /-- the sample RAM (R73), by byte address (R92) -/
  ram : Memory
  /-- the command in flight; STATUS.BUSY is 1 exactly while there is one (R75) -/
  inFlight : Option InFlight
  /-- PEND (R75, R279) -/
  pend : Option Pend
  /-- the reset input (R85, R311): true while it is asserted -/
  resetPin : Bool
  /-- what the host does next, the first first (log entry 5) -/
  inbox : List HostEvent
  /-- the port's answer to the last transaction (log entry 5) -/
  lastResp : Option PortResp
  /-- how many NOISE() values have been drawn (log entry 4) -/
  draws : Nat
  /-- how many commands have been issued (log entry 6) -/
  issues : Nat
  deriving DecidableEq, Repr

/-- The reasons the machine stops with a fault: none. Every fault of R271 is recorded in STATUS and FAULT_INFO and the
core goes on as "a live state" (R285), so a step never answers one of these: safe (DEDUCED, log
entry 13). -/
inductive Fault where
  deriving DecidableEq, Repr

/-- The reasons a step is refused. -/
inductive Refusal where
  /-- An instruction that `exec` has no meaning for yet, by its mnemonic; no arm of `exec` answers it. Safe: the model
  stops where the hardware goes on. -/
  | notModelled (mnemonic : String)
  deriving DecidableEq, Repr

/-- An oscillator after reset (R79). -/
def Osc.reset : Osc where
  kind := 0
  srate := 0
  phase := 0
  freq := 0
  oct := 0

/-- An LFO after reset (R79). -/
def Lfo.reset : Lfo where
  osc := Osc.reset
  depth := 0

/-- A voice after reset (R79). -/
def Voice.reset : Voice where
  vcfg := { route := 0, enMf := false, enF := false, enMa := false, enA := false, ven := false }
  volume := 0
  pan := 0
  osc := Osc.reset
  mf := Lfo.reset
  f := Lfo.reset
  ma := Lfo.reset
  a := Lfo.reset

/-- A filter after reset (R79): EPS 1e-5 and MAXIT 10, everything else zero. -/
def Filter.reset : Filter where
  fcfg := { en := false, s3mode := false, jmode := false }
  res := 0
  cutoff := 0
  inGain := 0
  outGain := 0
  timestep := 0
  eps := 0x3727C5AC#32
  maxit := 10
  xprev := 0
  s := { v0 := 0, v1 := 0, v2 := 0, v3 := 0 }
  lastIters := 0
  fstat := { noconv := false, detzero := false, nonfinite := false }
  metaCut := Lfo.reset
  cut := Lfo.reset

/-- The machine right after reset (R79, R311), with nothing from the host yet. -/
def State.reset : State where
  hw := params
  ie := false
  done := false
  ready := false
  fault := false
  faultCode := .none
  faultInfo := 0
  arg0 := 0
  arg1 := 0
  arg2 := 0
  arg3 := 0
  result := 0
  sampleRate := 0
  blockSize := 0
  fadeLen := 0
  fadePos := 0
  cmdCount := 0
  blockCount := 0
  written := { direct := false, harsh := false, soft := false }
  filters := Vector.replicate 4 Filter.reset
  voices := Vector.replicate 32 Voice.reset
  ram := []
  inFlight := none
  pend := none
  resetPin := false
  inbox := []
  lastResp := none
  draws := 0
  issues := 0

end Sys2Proof.Machine
end

