-- ==== Sys2Proof/Machine/Flags.lean ====
section
/-! DEFINITION. The register words made of bit fields (R34, R35, R45, R59, R63, R71), what a host write does to them,
the flags a per-sample step sets (R156), the written flags (R236) and the interrupt output (R283). -/

namespace Sys2Proof.Machine

/-- Bit `i` of a register word, as a word. -/
def bitAt (i : Nat) (b : Bool) : Word := if b then 1#32 <<< i else 0#32

/-- The value of STATUS.FAULT_CODE (R271). -/
def faultCodeValue : FaultCode → Nat
  | .none => 0
  | .illegalOpcode => 1
  | .reservedBits => 2
  | .notReady => 3
  | .badUnit => 4
  | .badBuffer => 5
  | .badBlockSize => 6
  | .badSampleRate => 7
  | .badConfig => 8
  | .busyAccess => 9
  | .busError => 10

/-- STATUS.BUSY: a command is in flight (R75). -/
def busy (s : State) : Bool := s.inFlight.isSome

/-- STATUS as it reads (R35). -/
def statusWord (s : State) : Word :=
  bitAt 0 (busy s) ||| bitAt 1 s.done ||| bitAt 2 s.ready ||| bitAt 3 s.fault |||
    (BitVec.ofNat 32 (faultCodeValue s.faultCode) <<< 8)

/-- A host write of STATUS: bit 1 clears DONE and changes nothing else (R35). -/
def writeStatus (v : Word) (s : State) : State := if v.getLsbD 1 then { s with done := false } else s

/-- The interrupt output, level-sensitive: `STATUS.DONE AND CTRL.IE` (R283). -/
def irq (s : State) : Bool := s.done && s.ie

/-- VCFG as it reads (R59). -/
def vcfgWord (c : Vcfg) : Word :=
  c.route.setWidth 32 ||| bitAt 4 c.enMf ||| bitAt 5 c.enF ||| bitAt 6 c.enMa ||| bitAt 7 c.enA ||| bitAt 8 c.ven

/-- VCFG after a host write of `v` (R59). -/
def vcfgOf (v : Word) : Vcfg where
  route := v.extractLsb' 0 2
  enMf := v.getLsbD 4
  enF := v.getLsbD 5
  enMa := v.getLsbD 6
  enA := v.getLsbD 7
  ven := v.getLsbD 8

/-- FCFG as it reads (R63). -/
def fcfgWord (c : Fcfg) : Word := bitAt 0 c.en ||| bitAt 1 c.s3mode ||| bitAt 2 c.jmode

/-- FCFG after a host write of `v` (R63). -/
def fcfgOf (v : Word) : Fcfg where
  en := v.getLsbD 0
  s3mode := v.getLsbD 1
  jmode := v.getLsbD 2

/-- FSTAT as it reads (R71). -/
def fstatWord (c : Fstat) : Word := bitAt 0 c.noconv ||| bitAt 1 c.detzero ||| bitAt 2 c.nonfinite

/-- FSTAT after a host write of `v`: each flag written 1 is cleared (R71). -/
def fstatClear (v : Word) (c : Fstat) : Fstat where
  noconv := c.noconv && !v.getLsbD 0
  detzero := c.detzero && !v.getLsbD 1
  nonfinite := c.nonfinite && !v.getLsbD 2

/-- FSTAT with no flag set. -/
def fstatZero : Fstat where
  noconv := false
  detzero := false
  nonfinite := false

/-- FSTAT after a per-sample step: flags are set, never cleared (R156). -/
def fstatAfterStep (c : Fstat) (conv detzero : Bool) (s : Quad) : Fstat where
  noconv := c.noconv || !conv
  detzero := c.detzero || detzero
  nonfinite := c.nonfinite || !(isFinite s.v0 && isFinite s.v1 && isFinite s.v2 && isFinite s.v3)

/-- MAXIT after a host write of `v`: bits 7:0, a written 0 stored as 1 (R67). -/
def maxitOf (v : Word) : BitVec 8 := if v.extractLsb' 0 8 = 0#8 then 1#8 else v.extractLsb' 0 8

/-- The three buffer groups (R235). -/
inductive Group where
  | direct
  | harsh
  | soft
  deriving DecidableEq, Repr

/-- WRITTEN[g] (R45, R235). -/
def writtenBit (w : Written) : Group → Bool
  | .direct => w.direct
  | .harsh => w.harsh
  | .soft => w.soft

/-- WRITTEN with bit `g` set (R236). -/
def setWritten (w : Written) : Group → Written
  | .direct => { w with direct := true }
  | .harsh => { w with harsh := true }
  | .soft => { w with soft := true }

/-- WRITTEN with no bit set (R234). -/
def writtenZero : Written where
  direct := false
  harsh := false
  soft := false

/-- WRITTEN as it reads (R45). -/
def writtenWord (w : Written) : Word := bitAt 0 w.direct ||| bitAt 1 w.harsh ||| bitAt 2 w.soft

end Sys2Proof.Machine
end

