-- ==== Sys2Proof/Machine/Ops.lean ====
section
/-! DEFINITION. The operations shared by the commands and the host port: the sample RAM, taking a fault (R276, R279),
completing a command (R113), and the reset, the only way back from a fault (R285, R311). -/

namespace Sys2Proof.Machine

/-- `BUF[b][n]`, read (R92). -/
def readBuf (s : State) (b n : Nat) : Word := readWord s.ram (bufAddr b n)

/-- `BUF[b][n] <- v` (R92). -/
def writeBuf (s : State) (b n : Nat) (v : Word) : State := { s with ram := writeWord s.ram (bufAddr b n) v }

/-- Fault entry (R276) without its BUSY line, as a host-port fault takes it (R279). The first fault since reset is kept
(R286). -/
def raiseFault (code : FaultCode) (info : Word) (s : State) : State :=
  if s.fault then { s with done := true }
  else { s with fault := true, faultCode := code, faultInfo := info, done := true }

/-- Fault entry for a command fault: the command is no longer in flight (R276). -/
def commandFault (code : FaultCode) (info : Word) (s : State) : State :=
  { raiseFault code info s with inFlight := none }

/-- Completion of a command (the last three lines of R113). -/
def completeCommand (s : State) : State :=
  { s with cmdCount := s.cmdCount + 1, done := true, inFlight := none }

/-- How the command word `w`, issued in `s`, ends: with a fault, no state changed but by the fault entry (R284), or
with the state EXECUTE leaves, completed (R113). -/
def finish (w : Word) (s : State) : Except FaultCode State → State
  | .error code => commandFault code w s
  | .ok t => completeCommand t

/-- When a command has completed or faulted, the fault held in PEND is entered and PEND emptied (R279). -/
def enterPending (s : State) : State :=
  match s.pend with
  | none => s
  | some p => { raiseFault p.code (p.addr.setWidth 32) s with pend := none }

/-- Every piece of state at its reset value (R311). The wavetable ROM and the parameters stay (R46, R74), and so do
the model's own free-value counters and what the host does next (DESIGN CHOICE: log entry 11). -/
def hardReset (s : State) : State :=
  { State.reset with hw := s.hw, inbox := s.inbox, draws := s.draws, issues := s.issues }

/-- Drives the reset input (R311). Asserting it abandons a command in flight; at its release every piece of state has
its reset value (from the assertion on: DESIGN CHOICE, log entry 11). Driving an input that is not asserted to
unasserted is no release and changes nothing (DEDUCED: log entry 11). -/
def driveReset (asserted : Bool) (s : State) : State :=
  if asserted || s.resetPin then { hardReset s with resetPin := asserted } else s

/-- `for n in 0..k-1`, in increasing order (R11). -/
def forSamples : Nat → (Nat → State → State) → State → State
  | 0, _, s => s
  | k + 1, body, s => body k (forSamples k body s)

end Sys2Proof.Machine
end

