-- ==== Sys2Proof/Machine/Operands.lean ====
section
/-! DEFINITION. What the operand fields and the configuration values of a command name: units, oscillators, LFOs and
their buffers (R115, R116, R57), buffer numbers (R198), waveforms (R51), groups and filter wiring (R59, R235). A value
that names nothing is `none`: the command's fault. -/

namespace Sys2Proof.Machine

/-- A voice's LFOs: sub-units 1 to 4 (R58). -/
inductive VoiceLfo where
  | mf
  | f
  | ma
  | a
  deriving DecidableEq, Repr

/-- A filter's LFOs: sub-units 1 and 2 (R62). -/
inductive FilterLfo where
  | metaCut
  | cut
  deriving DecidableEq, Repr

/-- An LFO of the core. -/
inductive LfoSel where
  | voice (v : Fin 32) (j : VoiceLfo)
  | filter (f : Fin 4) (j : FilterLfo)
  deriving DecidableEq, Repr

/-- An oscillator of the core: a voice's, or an LFO's own. -/
inductive OscSel where
  | voice (v : Fin 32)
  | lfo (l : LfoSel)
  deriving DecidableEq, Repr

/-- The voice a UNIT names: below N_VOICE (R114). -/
def voiceUnit (p : Params) (unit : BitVec 8) : Option (Fin 32) :=
  if h : unit.toNat < 32 then (if unit.toNat < p.nVoice then some ⟨unit.toNat, h⟩ else none) else none

/-- The filter a UNIT names: 0..3 (R114). -/
def filterUnit (unit : BitVec 8) : Option (Fin 4) :=
  if h : unit.toNat < 4 then some ⟨unit.toNat, h⟩ else none

/-- The oscillator that SUB selects in a voice (R115). -/
def voiceSub (v : Fin 32) (sub : BitVec 4) : Option OscSel :=
  match sub.toNat with
  | 0 => some (.voice v)
  | 1 => some (.lfo (.voice v .mf))
  | 2 => some (.lfo (.voice v .f))
  | 3 => some (.lfo (.voice v .ma))
  | 4 => some (.lfo (.voice v .a))
  | _ => none

/-- The oscillator that SUB selects in a filter (R115). -/
def filterSub (f : Fin 4) (sub : BitVec 4) : Option OscSel :=
  match sub.toNat with
  | 1 => some (.lfo (.filter f .metaCut))
  | 2 => some (.lfo (.filter f .cut))
  | _ => none

/-- Target resolution (R115). -/
def oscTarget (p : Params) (unit : BitVec 8) (sub : BitVec 4) (cls : Bool) : Option OscSel :=
  if cls then (filterUnit unit).bind (filterSub · sub) else (voiceUnit p unit).bind (voiceSub · sub)

/-- An LFO target (R116). -/
def lfoTarget (p : Params) (unit : BitVec 8) (sub : BitVec 4) (cls : Bool) : Option LfoSel :=
  match oscTarget p unit sub cls with
  | some (.lfo l) => some l
  | _ => none

/-- META(L), the meta-LFO paired with a primary LFO; a meta-LFO has none (R116). -/
def metaOf : LfoSel → Option LfoSel
  | .voice v .f => some (.voice v .mf)
  | .voice v .a => some (.voice v .ma)
  | .filter f .cut => some (.filter f .metaCut)
  | .voice _ .mf => none
  | .voice _ .ma => none
  | .filter _ .metaCut => none

/-- LB(L), the sample buffer an LFO owns (R57). -/
def lfoBuffer : LfoSel → Nat
  | .voice v .mf => 16 + 4 * v.val
  | .voice v .f => 16 + 4 * v.val + 1
  | .voice v .ma => 16 + 4 * v.val + 2
  | .voice v .a => 16 + 4 * v.val + 3
  | .filter f .metaCut => 8 + 2 * f.val
  | .filter f .cut => 9 + 2 * f.val

/-- VALIDBUF (R92, R198). -/
def validBuf (p : Params) (b : Nat) : Bool :=
  decide (b ≤ 5) || (decide (8 ≤ b) && decide (b ≤ 15)) || (decide (16 ≤ b) && decide (b < 16 + 4 * p.nVoice))

/-- BUFFERS_OK of OSC_RENDER, on the full unsigned words (R198). -/
def buffersOk (s : State) (mono ufm uam : Bool) : Bool :=
  validBuf s.hw s.arg0.toNat && (mono || validBuf s.hw (s.arg0.toNat + 1)) &&
    (!ufm || validBuf s.hw s.arg1.toNat) && (!uam || validBuf s.hw s.arg2.toNat)

/-- A voice's LFO. -/
def voiceLfo (V : Voice) : VoiceLfo → Lfo
  | .mf => V.mf
  | .f => V.f
  | .ma => V.ma
  | .a => V.a

/-- A voice with one LFO replaced. -/
def setVoiceLfo (V : Voice) (j : VoiceLfo) (l : Lfo) : Voice :=
  match j with
  | .mf => { V with mf := l }
  | .f => { V with f := l }
  | .ma => { V with ma := l }
  | .a => { V with a := l }

/-- A filter's LFO. -/
def filterLfo (R : Filter) : FilterLfo → Lfo
  | .metaCut => R.metaCut
  | .cut => R.cut

/-- A filter with one LFO replaced. -/
def setFilterLfo (R : Filter) (j : FilterLfo) (l : Lfo) : Filter :=
  match j with
  | .metaCut => { R with metaCut := l }
  | .cut => { R with cut := l }

/-- Filter `f`'s record. -/
def getFilter (s : State) (f : Fin 4) : Filter := s.filters[f.val]

/-- Filter `f`'s record replaced. -/
def setFilter (s : State) (f : Fin 4) (R : Filter) : State := { s with filters := s.filters.set f.val R }

/-- Voice `v`'s record. -/
def getVoice (s : State) (v : Fin 32) : Voice := s.voices[v.val]

/-- Voice `v`'s record replaced. -/
def setVoice (s : State) (v : Fin 32) (V : Voice) : State := { s with voices := s.voices.set v.val V }

/-- An LFO's record. -/
def getLfo (s : State) : LfoSel → Lfo
  | .voice v j => voiceLfo (getVoice s v) j
  | .filter f j => filterLfo (getFilter s f) j

/-- An LFO's record replaced. -/
def setLfo (s : State) (l : LfoSel) (r : Lfo) : State :=
  match l with
  | .voice v j => setVoice s v (setVoiceLfo (getVoice s v) j r)
  | .filter f j => setFilter s f (setFilterLfo (getFilter s f) j r)

/-- An oscillator's record. -/
def getOsc (s : State) : OscSel → Osc
  | .voice v => (getVoice s v).osc
  | .lfo l => (getLfo s l).osc

/-- An oscillator's record replaced. -/
def setOsc (s : State) (t : OscSel) (o : Osc) : State :=
  match t with
  | .voice v => setVoice s v { getVoice s v with osc := o }
  | .lfo l => setLfo s l { getLfo s l with osc := o }

/-- The waveforms of KIND 0..4 (R51); a table is named by its ROM kind index (R74). -/
inductive Waveform where
  | sine
  | table (k : Fin 3)
  | noise
  deriving DecidableEq, Repr

/-- The waveform a KIND names; 5, 6 and 7 are reserved (R51). -/
def waveformOf (kind : BitVec 3) : Option Waveform :=
  match kind.toNat with
  | 0 => some .sine
  | 1 => some (.table 0)
  | 2 => some (.table 1)
  | 3 => some (.table 2)
  | 4 => some .noise
  | _ => none

/-- The group a ROUTE names; 3 is reserved (R59, R235). -/
def groupOf (route : BitVec 2) : Option Group :=
  match route.toNat with
  | 0 => some .direct
  | 1 => some .harsh
  | 2 => some .soft
  | _ => none

/-- The left buffer of a group; the right one follows it (R235). -/
def groupBuf : Group → Nat
  | .direct => 0
  | .harsh => 2
  | .soft => 4

/-- GB(f): filters 0 and 1 read the harsh group, 2 and 3 the soft one (R235). -/
def filterGroup (f : Fin 4) : Group := if f.val < 2 then .harsh else .soft

/-- IB(f) (R235). -/
def filterIn (f : Fin 4) : Nat := 2 + f.val

/-- OB(f) (R235). -/
def filterOut (f : Fin 4) : Nat := f.val % 2

/-- N, the block size of the session (R40). -/
def blockLen (s : State) : Nat := s.blockSize.toNat

end Sys2Proof.Machine
end

