-- ==== Sys2Proof/Machine/Oscillator.lean ====
section
/-! DEFINITION. The sample generator (spec/41_oscillator.md): wrap, octave selection, waveform, the block render and
the LFO run, and the meanings of OSC_NEXT, OSC_RENDER and LFO_PRODUCE. `F` is the core's primitives (R16). -/

namespace Sys2Proof.Machine

/-- WRAP(v): into [0, 1), never -0 (R191). -/
def wrap (v : Word) : Word :=
  if isNaN v || isInf v then fZero
  else if fle fOne (fsub v (ffloor v)) then fZero
  else fsub v (ffloor v)

/-- The loop of OCTSEL from octave `n`, with at most `k` more octaves (R192). -/
def octSelFrom (base fr : Word) : Nat → Nat → Nat
  | 0, n => n
  | k + 1, n => if flt fr (fmul base (fofNat (2 ^ (n + 1)))) then n else octSelFrom base fr k (n + 1)

/-- OCTSEL(fr) (R192). -/
def octSel (p : Params) (fr : Word) : Nat := octSelFrom p.wtBase fr (p.wtNoct - 1) 0

/-- A host write of FREQ: OCT follows in the same access (R54). -/
def setFreq (p : Params) (v : Word) (o : Osc) : Osc := { o with freq := v, oct := BitVec.ofNat 4 (octSel p v) }

/-- The phase increment: the modulation term is left out when there is none (R193). -/
def phaseStep (fm : Option Word) (o : Osc) : Word :=
  match fm with
  | none => fdiv o.freq o.srate
  | some m => fdiv (fadd o.freq m) o.srate

/-- Phase advance (R193). OCT does not change. -/
def advance (fm : Option Word) (o : Osc) : Osc := { o with phase := wrap (fadd o.phase (phaseStep fm o)) }

/-- The table index `i0` at table position `pos` (R194), made total (DESIGN CHOICE, safe: log entry 8). -/
def tableIndex (wtLen : Nat) (pos : Word) : Nat := min (floorInt pos).toNat (wtLen - 1)

/-- The linear interpolation of the table of kind index `k` at phase `ph` (R194). Where `t1 - t0` overflows, the value
is what R194's operators give, an infinity or a NaN, whatever R72, R205, R206 and R242 say of it (DESIGN CHOICE: log
entry 16). -/
def tableValue (p : Params) (k : Fin 3) (oct : BitVec 4) (ph : Word) : Word :=
  let pos := fmul ph (fofNat p.wtLen)
  let i0 := tableIndex p.wtLen pos
  let t0 := readWord p.rom (romAddr k.val oct.toNat i0)
  let t1 := readWord p.rom (romAddr k.val oct.toNat ((i0 + 1) % p.wtLen))
  fadd t0 (fmul (fsub pos (fofNat i0)) (fsub t1 t0))

/-- WAVE(o) at the current phase (R194); `d` is the next noise draw's number. -/
def wave (F : Prims) (p : Params) (wf : Waveform) (d : Nat) (o : Osc) : Word :=
  match wf with
  | .sine => F.sin (fmul fTwoPi o.phase)
  | .table k => tableValue p k o.oct o.phase
  | .noise => F.noise d

/-- How many noise draws one sample takes. -/
def drawsOf : Waveform → Nat
  | .noise => 1
  | _ => 0

/-- The state part of OSC_SAMPLE: the phase moves, a noise draw is used up (R195). -/
def oscAdvance (wf : Waveform) (t : OscSel) (fm : Option Word) (s : State) : State :=
  { setOsc s t (advance fm (getOsc s t)) with draws := s.draws + drawsOf wf }

/-- The value part of OSC_SAMPLE: `amp * WAVE(o)` at the advanced phase (R195). A zero `amp` times an infinity or a NaN
is a NaN, as R195's product gives it, whatever R72, R237 and R242 say of a zero DEPTH or VOLUME (DESIGN CHOICE: log
entry 16). -/
def oscValue (F : Prims) (wf : Waveform) (t : OscSel) (fm : Option Word) (amp : Word) (s : State) : Word :=
  fmul amp (wave F s.hw wf s.draws (advance fm (getOsc s t)))

/-- The operands of RENDER (R196). -/
structure Render where
  /-- the oscillator -/
  osc : OscSel
  /-- its waveform -/
  wf : Waveform
  /-- the destination buffer -/
  buf : Nat
  ovw : Bool
  mono : Bool
  /-- the frequency-modulation buffer -/
  fmb : Option Nat
  /-- the amplitude-modulation buffer -/
  amb : Option Nat
  /-- the base amplitude -/
  amp : Word
  deriving DecidableEq, Repr

/-- Overwrites or accumulates one sample (R196). -/
def putSample (ovw : Bool) (b n : Nat) (v : Word) (s : State) : State :=
  writeBuf s b n (if ovw then v else fadd (readBuf s b n) v)

/-- The frequency modulation of sample `n` (R196). -/
def renderFm (r : Render) (n : Nat) (s : State) : Option Word := r.fmb.map (readBuf s · n)

/-- The amplitude of sample `n`: base plus optional modulation (R196). -/
def renderAmp (r : Render) (n : Nat) (s : State) : Word :=
  match r.amb with
  | none => r.amp
  | some b => fadd r.amp (readBuf s b n)

/-- One sample of RENDER: the reads of sample `n`, then its writes (R110, R196). -/
def renderSample (F : Prims) (r : Render) (n : Nat) (s : State) : State :=
  let v := oscValue F r.wf r.osc (renderFm r n s) (renderAmp r n s) s
  let s := putSample r.ovw r.buf n v (oscAdvance r.wf r.osc (renderFm r n s) s)
  if r.mono then s else putSample r.ovw (r.buf + 1) n v s

/-- RENDER over the block (R196). -/
def render (F : Prims) (r : Render) (s : State) : State := forSamples (blockLen s) (renderSample F r) s

/-- The render that LFO_RUN is (R197). -/
def lfoRender (l : LfoSel) (wf : Waveform) (ufm : Bool) (s : State) : Render where
  osc := .lfo l
  wf := wf
  buf := lfoBuffer l
  ovw := true
  mono := true
  fmb := if ufm then (metaOf l).map lfoBuffer else none
  amb := none
  amp := (getLfo s l).depth

/-- LFO_RUN(L, ufm) (R197). -/
def lfoRun (F : Prims) (l : LfoSel) (wf : Waveform) (ufm : Bool) (s : State) : State :=
  render F (lfoRender l wf ufm s) s

/-- OSC_NEXT: its checks in the order of R113, and its effect (R200). -/
def tryOscNext (F : Prims) (unit : BitVec 8) (sub : BitVec 4) (cls : Bool) (s : State) : Except FaultCode State :=
  if !s.ready then .error .notReady
  else match oscTarget s.hw unit sub cls with
    | none => .error .badUnit
    | some t =>
      match waveformOf (getOsc s t).kind with
      | none => .error .badConfig
      | some wf =>
        .ok { oscAdvance wf t (some s.arg0) s with result := oscValue F wf t (some s.arg0) s.arg1 s }

/-- The render that OSC_RENDER is (R201). -/
def oscRenderOf (t : OscSel) (wf : Waveform) (ovw mono ufm uam : Bool) (s : State) : Render where
  osc := t
  wf := wf
  buf := s.arg0.toNat
  ovw := ovw
  mono := mono
  fmb := if ufm then some s.arg1.toNat else none
  amb := if uam then some s.arg2.toNat else none
  amp := s.arg3

/-- OSC_RENDER: its checks in the order of R113, and its effect (R201). -/
def tryOscRender (F : Prims) (unit : BitVec 8) (sub : BitVec 4) (cls ovw mono ufm uam : Bool) (s : State) :
    Except FaultCode State :=
  if !s.ready then .error .notReady
  else match oscTarget s.hw unit sub cls with
    | none => .error .badUnit
    | some t =>
      if !buffersOk s mono ufm uam then .error .badBuffer
      else match waveformOf (getOsc s t).kind with
        | none => .error .badConfig
        | some wf => .ok (render F (oscRenderOf t wf ovw mono ufm uam s) s)

/-- LFO_PRODUCE: its checks in the order of R113, and its effect (R202). UFM on a meta-LFO is BAD_UNIT (R116). -/
def tryLfoProduce (F : Prims) (unit : BitVec 8) (sub : BitVec 4) (cls ufm : Bool) (s : State) :
    Except FaultCode State :=
  if !s.ready then .error .notReady
  else match lfoTarget s.hw unit sub cls with
    | none => .error .badUnit
    | some l =>
      if ufm && (metaOf l).isNone then .error .badUnit
      else match waveformOf (getLfo s l).osc.kind with
        | none => .error .badConfig
        | some wf => .ok (lfoRun F l wf ufm s)

/-- OSC_NEXT (R200). -/
def execOscNext (unit : BitVec 8) (sub : BitVec 4) (cls : Bool) (s : State) : Host.Outcome State Fault Refusal :=
  .next (finish (encode (.oscNext unit sub cls)) s (tryOscNext prims unit sub cls s))

/-- OSC_RENDER (R201). -/
def execOscRender (unit : BitVec 8) (sub : BitVec 4) (cls ovw mono ufm uam : Bool) (s : State) :
    Host.Outcome State Fault Refusal :=
  .next (finish (encode (.oscRender unit sub cls ovw mono ufm uam)) s
    (tryOscRender prims unit sub cls ovw mono ufm uam s))

/-- LFO_PRODUCE (R202). -/
def execLfoProduce (unit : BitVec 8) (sub : BitVec 4) (cls ufm : Bool) (s : State) :
    Host.Outcome State Fault Refusal :=
  .next (finish (encode (.lfoProduce unit sub cls ufm)) s (tryLfoProduce prims unit sub cls ufm s))

end Sys2Proof.Machine
end

