-- ==== Sys2Proof/Machine/Ladder.lean ====
section
/-! DEFINITION. The ladder filter solver (spec/40_filter.md): the vector field, one Newton update, the iteration, the
per-sample step, and the meanings of FILTER_STEP and FILTER_BLOCK. Every operator rounds once and stands in the order
the pseudocode writes it (R14, R143). -/

namespace Sys2Proof.Machine

/-- What FIELD returns: the field, the tanh of each component, the tanh of the feedback (R142). -/
structure FieldValue where
  e : Quad
  t : Quad
  fb : Word
  deriving DecidableEq, Repr

/-- FIELD(v, z) (R142). With S3MODE = 0 and an infinite or NaN `w` the last component is `w * (+0)` = NaN, as the operators
give it, although R142 calls it a signed zero and R165 says ±0 (DESIGN CHOICE: log entry 16). -/
def field (F : Prims) (s3mode : Bool) (w k4r : Word) (v : Quad) (z : Word) : FieldValue :=
  let t : Quad := { v0 := F.tanh v.v0, v1 := F.tanh v.v1, v2 := F.tanh v.v2, v3 := F.tanh v.v3 }
  let fb := F.tanh (fadd (fmul k4r v.v3) z)
  { e :=
      { v0 := fmul w (fsub (fneg t.v0) fb)
        v1 := fmul w (fadd (fneg t.v1) t.v0)
        v2 := fmul w (fadd (fneg t.v2) t.v1)
        v3 := fmul w (fadd (fneg t.v3) (if s3mode then t.v2 else t.v3)) }
    t := t
    fb := fb }

/-- The values of one step that do not change during its iteration (R143, R144, R145). -/
structure StepConsts where
  s3mode : Bool
  jmode : Bool
  /-- angular cutoff -/
  w : Word
  /-- scaled input -/
  u : Word
  /-- half the timestep -/
  h : Word
  /-- `timestep * w / 2` -/
  a : Word
  /-- `4 * res` -/
  k4r : Word
  /-- the constant part of `Y[0]` -/
  c2 : Word
  /-- the state at the start of the step -/
  s : Quad
  /-- the previous field, from the state and the RAW previous input (R145) -/
  fp : Quad
  deriving DecidableEq, Repr

/-- Steps 1 to 3 of the per-sample step (R143). -/
def stepConsts (F : Prims) (R : Filter) (x m : Word) : StepConsts :=
  let w := fmul (fadd R.cutoff m) fTwoPi
  let h := fmul R.timestep fHalf
  let k4r := fmul fFour R.res
  { s3mode := R.fcfg.s3mode
    jmode := R.fcfg.jmode
    w := w
    u := fmul x R.inGain
    h := h
    a := fmul h w
    k4r := k4r
    c2 := fmul (fmul (fmul fMinusTwo R.timestep) w) R.res
    s := R.s
    fp := (field F R.fcfg.s3mode w k4r R.s R.xprev).e }

/-- One component of the residual F (R146). -/
def residual1 (h g s fg fp : Word) : Word := fsub (fsub g s) (fmul h (fadd fg fp))

/-- The residual F (R146). -/
def residual (c : StepConsts) (g fg : Quad) : Quad where
  v0 := residual1 c.h g.v0 c.s.v0 fg.v0 c.fp.v0
  v1 := residual1 c.h g.v1 c.s.v1 fg.v1 c.fp.v1
  v2 := residual1 c.h g.v2 c.s.v2 fg.v2 c.fp.v2
  v3 := residual1 c.h g.v3 c.s.v3 fg.v3 c.fp.v3

/-- `1 - t * t` (R143). -/
def oneMinusSq (t : Word) : Word := fsub fOne (fmul t t)

/-- `q[i]`, sech squared (R143 step 4d). -/
def sechSq (t : Quad) : Quad where
  v0 := oneMinusSq t.v0
  v1 := oneMinusSq t.v1
  v2 := oneMinusSq t.v2
  v3 := oneMinusSq t.v3

/-- The diagonal `X` (R147). -/
def jacX (a : Word) (q : Quad) : Quad where
  v0 := fadd fOne (fmul a q.v0)
  v1 := fadd fOne (fmul a q.v1)
  v2 := fadd fOne (fmul a q.v2)
  v3 := fadd fOne (fmul a q.v3)

/-- The couplings `Y`, by JMODE (R147). -/
def jacY (c : StepConsts) (q : Quad) (fb : Word) : Quad where
  v0 := fmul c.c2 (oneMinusSq fb)
  v1 := fmul c.a (if c.jmode then q.v0 else q.v1)
  v2 := fmul c.a (if c.jmode then q.v1 else q.v2)
  v3 := fmul c.a (if c.jmode then q.v2 else q.v3)

/-- The product of the four, left to right. -/
def prod4 (x0 x1 x2 x3 : Word) : Word := fmul (fmul (fmul x0 x1) x2) x3

/-- The determinant (R148). -/
def jacDet (X Y : Quad) : Word := fsub (prod4 X.v0 X.v1 X.v2 X.v3) (prod4 Y.v0 Y.v1 Y.v2 Y.v3)

/-- The four weighted terms over the determinant, for one component `i`: `p`, `r`, `l` stand for i+1, i+2, i+3 modulo 4
(R143, R149). -/
def delta1 (det Xp Xr Xl Yi Yl Yr Fi Fp Fr Fl : Word) : Word :=
  fdiv (fadd (fadd (fadd (prod4 Xp Xr Xl Fi) (prod4 Yi Xp Xr Fl)) (prod4 Yi Yl Xp Fr)) (prod4 Yi Yl Yr Fp)) det

/-- The closed-form inverse applied to the residual (R149). -/
def delta (det : Word) (X Y F : Quad) : Quad where
  v0 := delta1 det X.v1 X.v2 X.v3 Y.v0 Y.v3 Y.v2 F.v0 F.v1 F.v2 F.v3
  v1 := delta1 det X.v2 X.v3 X.v0 Y.v1 Y.v0 Y.v3 F.v1 F.v2 F.v3 F.v0
  v2 := delta1 det X.v3 X.v0 X.v1 Y.v2 Y.v1 Y.v0 F.v2 F.v3 F.v0 F.v1
  v3 := delta1 det X.v0 X.v1 X.v2 Y.v3 Y.v2 Y.v1 F.v3 F.v0 F.v1 F.v2

/-- Componentwise subtraction. -/
def quadSub (g d : Quad) : Quad where
  v0 := fsub g.v0 d.v0
  v1 := fsub g.v1 d.v1
  v2 := fsub g.v2 d.v2
  v3 := fsub g.v3 d.v3

/-- The L1 norm of a vector, summed left to right (R151). -/
def l1Norm (d : Quad) : Word := fadd (fadd (fadd (fabs d.v0) (fabs d.v1)) (fabs d.v2)) (fabs d.v3)

/-- One Newton update: the new guess and the determinant it divided by (R143 steps 4a to 4h, R150). -/
def newtonUpdate (F : Prims) (c : StepConsts) (g : Quad) : Quad × Word :=
  let fv := field F c.s3mode c.w c.k4r g c.u
  let q := sechSq fv.t
  let X := jacX c.a q
  let Y := jacY c q fv.fb
  let det := jacDet X Y
  (quadSub g (delta det X Y (residual c g fv.e)), det)

/-- How an iteration ended. -/
structure NewtonEnd where
  /-- the last guess -/
  g : Quad
  /-- the number of updates -/
  k : Nat
  conv : Bool
  detzero : Bool
  deriving DecidableEq, Repr

/-- The iteration with at most `n` more updates (R152); none for MAXIT 0, which never occurs (log entry 9). -/
def newtonLoop (F : Prims) (c : StepConsts) (eps : Word) : Nat → Quad → Nat → Bool → NewtonEnd
  | 0, g, k, dz => { g := g, k := k, conv := false, detzero := dz }
  | n + 1, g, k, dz =>
    let up := newtonUpdate F c g
    if fle (l1Norm (quadSub up.1 g)) eps then { g := up.1, k := k + 1, conv := true, detzero := dz || isZero up.2 }
    else newtonLoop F c eps n up.1 (k + 1) (dz || isZero up.2)

/-- The iteration of one step, from the state as starting guess (R143 step 4). -/
def newtonSolve (F : Prims) (R : Filter) (x m : Word) : NewtonEnd :=
  newtonLoop F (stepConsts F R x m) R.eps R.maxit.toNat R.s 0 false

/-- Filter `R`'s record after STEP: the commit (R155, R156). Where R160's and R315's words on a zero cutoff and a zero
TIMESTEP do not follow from R143 (0 times infinity), R143 is followed (DESIGN CHOICE: log entry 16). -/
def ladderRecord (F : Prims) (R : Filter) (x m : Word) : Filter :=
  let r := newtonSolve F R x m
  { R with
    s := r.g
    xprev := x
    lastIters := BitVec.ofNat 8 r.k
    fstat := fstatAfterStep R.fstat r.conv r.detzero r.g }

/-- The output sample of STEP (R155). An infinite IN_GAIN or OUT_GAIN makes it a NaN on silence, as R143 gives it, whatever
R163 and R242 say (DESIGN CHOICE: log entries 10 and 16). -/
def ladderOut (F : Prims) (R : Filter) (x m : Word) : Word := fmul (newtonSolve F R x m).g.v3 R.outGain

/-- FILTER_STEP: its checks in the order of R113, and its effect (R160). -/
def tryFilterStep (F : Prims) (unit : BitVec 8) (s : State) : Except FaultCode State :=
  if !s.ready then .error .notReady
  else match filterUnit unit with
    | none => .error .badUnit
    | some f =>
      .ok { setFilter s f (ladderRecord F (getFilter s f) s.arg0 s.arg1) with
            result := ladderOut F (getFilter s f) s.arg0 s.arg1 }

/-- The input of filter `f` at sample `n`: +0.0 when no voice wrote its group in this block (R161, R236). -/
def filterInput (f : Fin 4) (n : Nat) (s : State) : Word :=
  if writtenBit s.written (filterGroup f) then readBuf s (filterIn f) n else fZero

/-- The modulation of filter `f` at sample `n`: its cutoff LFO's buffer (R161). -/
def filterMod (f : Fin 4) (n : Nat) (s : State) : Word := readBuf s (lfoBuffer (.filter f .cut)) n

/-- One sample of FILTER_BLOCK: the step, then the output accumulated (R161). -/
def filterSample (F : Prims) (f : Fin 4) (n : Nat) (s : State) : State :=
  putSample false (filterOut f) n (ladderOut F (getFilter s f) (filterInput f n s) (filterMod f n s))
    (setFilter s f (ladderRecord F (getFilter s f) (filterInput f n s) (filterMod f n s)))

/-- The waveforms of a filter's two LFOs, if neither KIND is reserved (R278). -/
structure FilterPlan where
  metaWf : Waveform
  cutWf : Waveform
  deriving DecidableEq, Repr

/-- CONFIG_OK of FILTER_BLOCK (R278). -/
def planFilter (R : Filter) : Option FilterPlan :=
  match waveformOf R.metaCut.osc.kind, waveformOf R.cut.osc.kind with
  | some a, some b => some { metaWf := a, cutWf := b }
  | _, _ => none

/-- The EXECUTE part of FILTER_BLOCK: both LFOs for the whole block, then the samples in order (R161). -/
def filterBlock (F : Prims) (f : Fin 4) (pl : FilterPlan) (s : State) : State :=
  forSamples (blockLen s) (filterSample F f)
    (lfoRun F (.filter f .cut) pl.cutWf true (lfoRun F (.filter f .metaCut) pl.metaWf false s))

/-- FILTER_BLOCK: its checks in the order of R113, and its effect (R161). -/
def tryFilterBlock (F : Prims) (unit : BitVec 8) (s : State) : Except FaultCode State :=
  if !s.ready then .error .notReady
  else match filterUnit unit with
    | none => .error .badUnit
    | some f =>
      match planFilter (getFilter s f) with
      | none => .error .badConfig
      | some pl => .ok (filterBlock F f pl s)

/-- FILTER_STEP (R160). -/
def execFilterStep (unit : BitVec 8) (s : State) : Host.Outcome State Fault Refusal :=
  .next (finish (encode (.filterStep unit)) s (tryFilterStep prims unit s))

/-- FILTER_BLOCK (R161). -/
def execFilterBlock (unit : BitVec 8) (s : State) : Host.Outcome State Fault Refusal :=
  .next (finish (encode (.filterBlock unit)) s (tryFilterBlock prims unit s))

end Sys2Proof.Machine
end

