-- ==== Sys2Proof/Machine/Block.lean ====
section
/-! DEFINITION. The block processor and voice router (spec/42_block.md): the session commands, the routing of voices,
the fade, and the meanings of NOP, INIT, TEARDOWN, BLOCK_BEGIN, VOICE_RENDER, BLOCK_END and PROCESS_BLOCK. -/

namespace Sys2Proof.Machine

/-- INIT on an oscillator (R232). -/
def initOsc (sr : Word) (o : Osc) : Osc := { o with srate := sr, phase := fZero }

/-- INIT on an LFO (R232). -/
def initLfo (sr : Word) (l : Lfo) : Lfo := { l with osc := initOsc sr l.osc }

/-- INIT on a voice: every oscillator of it (R232). -/
def initVoice (sr : Word) (V : Voice) : Voice :=
  { V with osc := initOsc sr V.osc, mf := initLfo sr V.mf, f := initLfo sr V.f, ma := initLfo sr V.ma,
           a := initLfo sr V.a }

/-- Four times +0.0. -/
def quadZero : Quad where
  v0 := fZero
  v1 := fZero
  v2 := fZero
  v3 := fZero

/-- INIT on a filter (R232). TIMESTEP is the quotient `ONE / sr` of R232's pseudocode for every `sr`, the subnormal ones
from 0x00200001 on too, where it is finite although R232's corner case says it is +infinity (DESIGN CHOICE: log entry
17). -/
def initFilter (sr : Word) (R : Filter) : Filter :=
  { R with timestep := fdiv fOne sr, s := quadZero, xprev := fZero, lastIters := 0, fstat := fstatZero,
           metaCut := initLfo sr R.metaCut, cut := initLfo sr R.cut }

/-- The EXECUTE part of INIT (R232). Only the voices that exist are touched. The whole sample RAM becomes zero: no word
of a valid buffer stays listed. -/
def initSession (s : State) : State :=
  { s with
    sampleRate := s.arg0
    blockSize := s.arg1
    filters := s.filters.map (initFilter s.arg0)
    voices := s.voices.mapIdx fun v V => if v < s.hw.nVoice then initVoice s.arg0 V else V
    ram := []
    fadePos := 0
    blockCount := 0
    written := writtenZero
    ready := true }

/-- INIT: the checks of ARGS_OK in order (R232, R277), and its effect. -/
def tryInit (s : State) : Except FaultCode State :=
  if !(isFinite s.arg0 && flt fZero s.arg0) then .error .badSampleRate
  else if s.arg1.toNat = 0 || decide (s.hw.blockMax < s.arg1.toNat) then .error .badBlockSize
  else .ok (initSession s)

/-- TEARDOWN on a filter (R233). -/
def teardownFilter (R : Filter) : Filter := { R with s := quadZero, xprev := fZero }

/-- The EXECUTE part of TEARDOWN (R233). -/
def teardownSession (s : State) : State :=
  { s with ram := [], filters := s.filters.map teardownFilter, written := writtenZero, ready := false }

/-- The EXECUTE part of BLOCK_BEGIN (R234). -/
def blockBegin (s : State) : State := { s with written := writtenZero }

/-- BLOCK_BEGIN: its check, and its effect (R234). -/
def tryBlockBegin (s : State) : Except FaultCode State :=
  if !s.ready then .error .notReady else .ok (blockBegin s)

/-- The fade gain `FADE_POS / FADE_LEN` (R240). -/
def fadeGain (s : State) : Word := fdiv (fofNat s.fadePos.toNat) (fofNat s.fadeLen.toNat)

/-- One sample of the fade (R240). -/
def fadeSample (n : Nat) (s : State) : State :=
  if s.fadePos.toNat < s.fadeLen.toNat then
    let g := fadeGain s
    let s1 := writeBuf s 0 n (fmul (readBuf s 0 n) g)
    { writeBuf s1 1 n (fmul (readBuf s1 1 n) g) with fadePos := s.fadePos + 1 }
  else s

/-- The fade-in over the block (R240). -/
def fadeBlock (s : State) : State := forSamples (blockLen s) fadeSample s

/-- The EXECUTE part of BLOCK_END (R238). -/
def blockEnd (s : State) : State := { fadeBlock s with blockCount := s.blockCount + 1 }

/-- BLOCK_END: its check, and its effect (R238). -/
def tryBlockEnd (s : State) : Except FaultCode State :=
  if !s.ready then .error .notReady else .ok (blockEnd s)

/-- What a voice's configuration says VOICE_RENDER does: its group, its waveform, and the waveform of each enabled LFO
(R237, R278). -/
structure VoicePlan where
  group : Group
  wf : Waveform
  mf : Option Waveform
  f : Option Waveform
  ma : Option Waveform
  a : Option Waveform
  deriving DecidableEq, Repr

/-- The waveform of an LFO if it is enabled; `none` when it is enabled and its KIND is reserved (R278). -/
def planLfo (en : Bool) (l : Lfo) : Option (Option Waveform) :=
  if en then (waveformOf l.osc.kind).map some else some none

/-- CONFIG_OK of VOICE_RENDER: `none` when a value it would use is reserved (R237, R278). -/
def planVoice (V : Voice) : Option VoicePlan := do
  let g ← groupOf V.vcfg.route
  let wf ← waveformOf V.osc.kind
  let mf ← planLfo V.vcfg.enMf V.mf
  let f ← planLfo V.vcfg.enF V.f
  let ma ← planLfo V.vcfg.enMa V.ma
  let a ← planLfo V.vcfg.enA V.a
  return { group := g, wf := wf, mf := mf, f := f, ma := ma, a := a }

/-- LFO_RUN of an LFO that may be disabled (R237). -/
def lfoRunIf (F : Prims) (l : LfoSel) (wf : Option Waveform) (ufm : Bool) (s : State) : State :=
  match wf with
  | none => s
  | some wf => lfoRun F l wf ufm s

/-- The enabled LFOs of a voice, metas first (R237). -/
def voiceLfos (F : Prims) (v : Fin 32) (pl : VoicePlan) (s : State) : State :=
  lfoRunIf F (.voice v .a) pl.a pl.ma.isSome
    (lfoRunIf F (.voice v .f) pl.f pl.mf.isSome
      (lfoRunIf F (.voice v .ma) pl.ma false
        (lfoRunIf F (.voice v .mf) pl.mf false s)))

/-- The render of a voice into its group (R237): the first of the block overwrites, later ones accumulate (R236). -/
def voiceRenderOf (v : Fin 32) (pl : VoicePlan) (s : State) : Render where
  osc := .voice v
  wf := pl.wf
  buf := groupBuf pl.group
  ovw := !writtenBit s.written pl.group
  mono := false
  fmb := if pl.f.isSome then some (lfoBuffer (.voice v .f)) else none
  amb := if pl.a.isSome then some (lfoBuffer (.voice v .a)) else none
  amp := (getVoice s v).volume

/-- The EXECUTE part of VOICE_RENDER (R237). -/
def voiceRender (F : Prims) (v : Fin 32) (pl : VoicePlan) (s : State) : State :=
  let s1 := voiceLfos F v pl s
  let s2 := render F (voiceRenderOf v pl s1) s1
  { s2 with written := setWritten s2.written pl.group }

/-- VOICE_RENDER: its checks in the order of R113, and its effect (R237). -/
def tryVoiceRender (F : Prims) (unit : BitVec 8) (s : State) : Except FaultCode State :=
  if !s.ready then .error .notReady
  else match voiceUnit s.hw unit with
    | none => .error .badUnit
    | some v =>
      match planVoice (getVoice s v) with
      | none => .error .badConfig
      | some pl => .ok (voiceRender F v pl s)

/-- The voices PROCESS_BLOCK renders, in ascending order (R239). -/
def enabledVoices (s : State) : List (Fin 32) :=
  (List.finRange 32).filter fun v => decide (v.val < s.hw.nVoice) && (getVoice s v).vcfg.ven

/-- The filters PROCESS_BLOCK runs, in ascending order (R239). -/
def enabledFilters (s : State) : List (Fin 4) :=
  (List.finRange 4).filter fun f => (getFilter s f).fcfg.en

/-- CONFIG_OK of PROCESS_BLOCK for its voices (R239, R278). -/
def planVoices (s : State) : Option (List (Fin 32 × VoicePlan)) :=
  (enabledVoices s).mapM fun v => (planVoice (getVoice s v)).map fun pl => (v, pl)

/-- CONFIG_OK of PROCESS_BLOCK for its filters (R239, R278). -/
def planFilters (s : State) : Option (List (Fin 4 × FilterPlan)) :=
  (enabledFilters s).mapM fun f => (planFilter (getFilter s f)).map fun pl => (f, pl)

/-- The voices rendered in order (R239). -/
def renderVoices (F : Prims) (vs : List (Fin 32 × VoicePlan)) (s : State) : State :=
  vs.foldl (fun s x => voiceRender F x.1 x.2 s) s

/-- The filters run in order (R239). -/
def runFilters (F : Prims) (fs : List (Fin 4 × FilterPlan)) (s : State) : State :=
  fs.foldl (fun s x => filterBlock F x.1 x.2 s) s

/-- The EXECUTE part of PROCESS_BLOCK (R239). -/
def processBlock (F : Prims) (vs : List (Fin 32 × VoicePlan)) (fs : List (Fin 4 × FilterPlan)) (s : State) : State :=
  blockEnd (runFilters F fs (renderVoices F vs (blockBegin s)))

/-- PROCESS_BLOCK: its checks in the order of R113, and its effect (R239). -/
def tryProcessBlock (F : Prims) (s : State) : Except FaultCode State :=
  if !s.ready then .error .notReady
  else match planVoices s, planFilters s with
    | some vs, some fs => .ok (processBlock F vs fs s)
    | _, _ => .error .badConfig

/-- NOP (R231): the completion is its only effect. -/
def execNop (s : State) : Host.Outcome State Fault Refusal := .next (finish (encode .nop) s (.ok s))

/-- INIT (R232). -/
def execInit (s : State) : Host.Outcome State Fault Refusal := .next (finish (encode .init) s (tryInit s))

/-- TEARDOWN (R233). -/
def execTeardown (s : State) : Host.Outcome State Fault Refusal :=
  .next (finish (encode .teardown) s (.ok (teardownSession s)))

/-- PROCESS_BLOCK (R239). -/
def execProcessBlock (s : State) : Host.Outcome State Fault Refusal :=
  .next (finish (encode .processBlock) s (tryProcessBlock prims s))

/-- BLOCK_BEGIN (R234). -/
def execBlockBegin (s : State) : Host.Outcome State Fault Refusal :=
  .next (finish (encode .blockBegin) s (tryBlockBegin s))

/-- BLOCK_END (R238). -/
def execBlockEnd (s : State) : Host.Outcome State Fault Refusal :=
  .next (finish (encode .blockEnd) s (tryBlockEnd s))

/-- VOICE_RENDER (R237). -/
def execVoiceRender (unit : BitVec 8) (s : State) : Host.Outcome State Fault Refusal :=
  .next (finish (encode (.voiceRender unit)) s (tryVoiceRender prims unit s))

end Sys2Proof.Machine
end

