-- ==== Sys2Proof/Machine/Port.lean ====
section
/-! DEFINITION. The host port (spec/20_memory.md): the address map, what a read answers and a write does at each
location, the port faults, issuing a command, and the host's turn. -/

namespace Sys2Proof.Machine

/-- The global registers (R88). -/
inductive GlobalReg where
  | id
  | ctrl
  | status
  | cmd
  | arg0
  | arg1
  | arg2
  | arg3
  | result
  | sampleRate
  | blockSize
  | fadeLen
  | fadePos
  | cmdCount
  | blockCount
  | written
  | pNVoice
  | pBlockMax
  | pWtLen
  | pWtNoct
  | pWtBase
  | faultInfo
  deriving DecidableEq, Repr

/-- The registers of an oscillator record (R50). -/
inductive OscReg where
  | kind
  | srate
  | phase
  | freq
  | oct
  deriving DecidableEq, Repr

/-- The registers of a filter record outside its LFOs (R62). -/
inductive FilterReg where
  | fcfg
  | res
  | cutoff
  | inGain
  | outGain
  | timestep
  | eps
  | maxit
  | xprev
  | s0
  | s1
  | s2
  | s3
  | lastIters
  | fstat
  deriving DecidableEq, Repr

/-- The registers of a voice record outside its oscillators (R58). -/
inductive VoiceReg where
  | vcfg
  | volume
  | pan
  deriving DecidableEq, Repr

/-- What a mapped word address holds (R87, R94). -/
inductive Loc where
  | global (r : GlobalReg)
  | filter (f : Fin 4) (r : FilterReg)
  | voice (v : Fin 32) (r : VoiceReg)
  | osc (t : OscSel) (r : OscReg)
  | depth (l : LfoSel)
  /-- a wavetable ROM word inside the tables, by byte address (R91) -/
  | rom (a : Nat)
  /-- a sample RAM word below BLOCK_MAX of a valid buffer, by byte address (R92) -/
  | ram (a : Nat)
  /-- a reserved word: RAZ/WI (R94) -/
  | reserved
  deriving DecidableEq, Repr

/-- The global register of word `w` of the window (R88). -/
def locateGlobal (w : Nat) : Loc :=
  match w with
  | 0 => .global .id
  | 1 => .global .ctrl
  | 2 => .global .status
  | 3 => .global .cmd
  | 4 => .global .arg0
  | 5 => .global .arg1
  | 6 => .global .arg2
  | 7 => .global .arg3
  | 8 => .global .result
  | 9 => .global .sampleRate
  | 10 => .global .blockSize
  | 11 => .global .fadeLen
  | 12 => .global .fadePos
  | 13 => .global .cmdCount
  | 14 => .global .blockCount
  | 15 => .global .written
  | 16 => .global .pNVoice
  | 17 => .global .pBlockMax
  | 18 => .global .pWtLen
  | 19 => .global .pWtNoct
  | 20 => .global .pWtBase
  | 21 => .global .faultInfo
  | _ => .reserved

/-- The register of word `w` of an oscillator record (R50). -/
def locateOsc (t : OscSel) (w : Nat) : Loc :=
  match w with
  | 0 => .osc t .kind
  | 1 => .osc t .srate
  | 2 => .osc t .phase
  | 3 => .osc t .freq
  | 4 => .osc t .oct
  | _ => .reserved

/-- The register of word `w` of an LFO record (R56). -/
def locateLfo (l : LfoSel) (w : Nat) : Loc :=
  if w < 8 then locateOsc (.lfo l) w else if w = 8 then .depth l else .reserved

/-- The register of word `w` of a filter record's first 16 words (R62). -/
def locateFilterReg (f : Fin 4) (w : Nat) : Loc :=
  match w with
  | 0 => .filter f .fcfg
  | 1 => .filter f .res
  | 2 => .filter f .cutoff
  | 3 => .filter f .inGain
  | 4 => .filter f .outGain
  | 5 => .filter f .timestep
  | 6 => .filter f .eps
  | 7 => .filter f .maxit
  | 8 => .filter f .xprev
  | 9 => .filter f .s0
  | 10 => .filter f .s1
  | 11 => .filter f .s2
  | 12 => .filter f .s3
  | 13 => .filter f .lastIters
  | 14 => .filter f .fstat
  | _ => .reserved

/-- Word `w` of a filter record (R89): its LFOs are at byte offsets 0x040 and 0x080. -/
def locateFilter (f : Fin 4) (w : Nat) : Loc :=
  if w < 16 then locateFilterReg f w
  else if w < 32 then locateLfo (.filter f .metaCut) (w - 16)
  else if w < 48 then locateLfo (.filter f .cut) (w - 32)
  else .reserved

/-- Word `w` of a voice record (R90): its oscillator is at byte offset 0x020, its LFOs at 0x040, 0x080, 0x0C0, 0x100. -/
def locateVoice (v : Fin 32) (w : Nat) : Loc :=
  if w = 0 then .voice v .vcfg
  else if w = 1 then .voice v .volume
  else if w = 2 then .voice v .pan
  else if w < 8 then .reserved
  else if w < 16 then locateOsc (.voice v) (w - 8)
  else if w < 32 then locateLfo (.voice v .mf) (w - 16)
  else if w < 48 then locateLfo (.voice v .f) (w - 32)
  else if w < 64 then locateLfo (.voice v .ma) (w - 48)
  else if w < 80 then locateLfo (.voice v .a) (w - 64)
  else .reserved

/-- A ROM word (R91): reserved beyond WT_NOCT or WT_LEN. -/
def locateRom (p : Params) (a : Nat) : Loc := if romWordLegal p a then .rom a else .reserved

/-- A sample RAM word (R92): unmapped in an invalid buffer, reserved from BLOCK_MAX on. -/
def locateRam (p : Params) (a : Nat) : Option Loc :=
  if validBuf p ((a - 0x100000) / 0x4000) then
    some (if (a - 0x100000) % 0x4000 / 4 < p.blockMax then .ram a else .reserved)
  else none

/-- The address map (R87) at an aligned byte address; `none` is unmapped (R93). -/
def locate (p : Params) (a : Nat) : Option Loc :=
  if a < 0x001000 then some (locateGlobal (a / 4))
  else if h : 0x001000 ≤ a ∧ a < 0x001800 then
    some (locateFilter ⟨(a - 0x001000) / 0x200, by omega⟩ ((a - 0x001000) % 0x200 / 4))
  else if h : 0x004000 ≤ a ∧ a < 0x008000 then
    if (a - 0x004000) / 0x200 < p.nVoice then
      some (locateVoice ⟨(a - 0x004000) / 0x200, by omega⟩ ((a - 0x004000) % 0x200 / 4))
    else none
  else if 0x040000 ≤ a ∧ a < 0x070000 then some (locateRom p a)
  else if 0x100000 ≤ a ∧ a < 0x340000 then locateRam p a
  else none

/-- Where a host transaction at byte address `a` goes; `none` is BUS_ERROR: misaligned (R97) or unmapped (R93). -/
def hostLoc (p : Params) (a : Addr) : Option Loc := if a.toNat % 4 = 0 then locate p a.toNat else none

/-- What a read of a global register answers (R33 to R47). CMD is write-only (R36). -/
def readGlobal (s : State) : GlobalReg → Word
  | .id => 0x4C465331#32
  | .ctrl => bitAt 0 s.ie
  | .status => statusWord s
  | .cmd => 0
  | .arg0 => s.arg0
  | .arg1 => s.arg1
  | .arg2 => s.arg2
  | .arg3 => s.arg3
  | .result => s.result
  | .sampleRate => s.sampleRate
  | .blockSize => s.blockSize
  | .fadeLen => s.fadeLen
  | .fadePos => s.fadePos
  | .cmdCount => s.cmdCount
  | .blockCount => s.blockCount
  | .written => writtenWord s.written
  | .pNVoice => BitVec.ofNat 32 s.hw.nVoice
  | .pBlockMax => BitVec.ofNat 32 s.hw.blockMax
  | .pWtLen => BitVec.ofNat 32 s.hw.wtLen
  | .pWtNoct => BitVec.ofNat 32 s.hw.wtNoct
  | .pWtBase => s.hw.wtBase
  | .faultInfo => s.faultInfo

/-- What a read of an oscillator register answers (R51 to R55). -/
def readOsc (o : Osc) : OscReg → Word
  | .kind => o.kind.setWidth 32
  | .srate => o.srate
  | .phase => o.phase
  | .freq => o.freq
  | .oct => o.oct.setWidth 32

/-- What a read of a filter register answers (R63 to R71). -/
def readFilter (R : Filter) : FilterReg → Word
  | .fcfg => fcfgWord R.fcfg
  | .res => R.res
  | .cutoff => R.cutoff
  | .inGain => R.inGain
  | .outGain => R.outGain
  | .timestep => R.timestep
  | .eps => R.eps
  | .maxit => R.maxit.setWidth 32
  | .xprev => R.xprev
  | .s0 => R.s.v0
  | .s1 => R.s.v1
  | .s2 => R.s.v2
  | .s3 => R.s.v3
  | .lastIters => R.lastIters.setWidth 32
  | .fstat => fstatWord R.fstat

/-- What a read of a voice register answers (R59 to R61). -/
def readVoice (V : Voice) : VoiceReg → Word
  | .vcfg => vcfgWord V.vcfg
  | .volume => V.volume
  | .pan => V.pan

/-- What a read of a mapped location answers; a reserved word reads 0 (R94). -/
def readLoc (s : State) : Loc → Word
  | .global r => readGlobal s r
  | .filter f r => readFilter (getFilter s f) r
  | .voice v r => readVoice (getVoice s v) r
  | .osc t r => readOsc (getOsc s t) r
  | .depth l => (getLfo s l).depth
  | .rom a => readWord s.hw.rom a
  | .ram a => readWord s.ram a
  | .reserved => 0

/-- A host write of CMD issues the command, unless the core is faulted: then it is dropped (R113, R288). -/
def issueCommand (w : Word) (s : State) : State :=
  if s.fault then s
  else { s with inFlight := some { word := w, wait := Config.completionDelay s.issues }, issues := s.issues + 1 }

/-- What a write of a global register does (R33 to R47); a read-only one ignores it (R94). -/
def writeGlobal (r : GlobalReg) (v : Word) (s : State) : State :=
  match r with
  | .id => s
  | .ctrl => { s with ie := v.getLsbD 0 }
  | .status => writeStatus v s
  | .cmd => issueCommand v s
  | .arg0 => { s with arg0 := v }
  | .arg1 => { s with arg1 := v }
  | .arg2 => { s with arg2 := v }
  | .arg3 => { s with arg3 := v }
  | .result => s
  | .sampleRate => s
  | .blockSize => s
  | .fadeLen => { s with fadeLen := v }
  | .fadePos => s
  | .cmdCount => s
  | .blockCount => s
  | .written => s
  | .pNVoice => s
  | .pBlockMax => s
  | .pWtLen => s
  | .pWtNoct => s
  | .pWtBase => s
  | .faultInfo => s

/-- What a write of an oscillator register does: PHASE stores the wrapped value, FREQ recomputes OCT (R51 to R55). -/
def writeOsc (p : Params) (r : OscReg) (v : Word) (o : Osc) : Osc :=
  match r with
  | .kind => { o with kind := v.extractLsb' 0 3 }
  | .srate => { o with srate := v }
  | .phase => { o with phase := wrap v }
  | .freq => setFreq p v o
  | .oct => o

/-- What a write of a filter register does (R63 to R71). -/
def writeFilter (r : FilterReg) (v : Word) (R : Filter) : Filter :=
  match r with
  | .fcfg => { R with fcfg := fcfgOf v }
  | .res => { R with res := v }
  | .cutoff => { R with cutoff := v }
  | .inGain => { R with inGain := v }
  | .outGain => { R with outGain := v }
  | .timestep => { R with timestep := v }
  | .eps => { R with eps := v }
  | .maxit => { R with maxit := maxitOf v }
  | .xprev => { R with xprev := v }
  | .s0 => { R with s := { R.s with v0 := v } }
  | .s1 => { R with s := { R.s with v1 := v } }
  | .s2 => { R with s := { R.s with v2 := v } }
  | .s3 => { R with s := { R.s with v3 := v } }
  | .lastIters => R
  | .fstat => { R with fstat := fstatClear v R.fstat }

/-- What a write of a voice register does (R59 to R61). -/
def writeVoice (r : VoiceReg) (v : Word) (V : Voice) : Voice :=
  match r with
  | .vcfg => { V with vcfg := vcfgOf v }
  | .volume => { V with volume := v }
  | .pan => { V with pan := v }

/-- What a write of a mapped location does (R99); a reserved or ROM word ignores it (R91, R94). -/
def writeLoc (l : Loc) (v : Word) (s : State) : State :=
  match l with
  | .global r => writeGlobal r v s
  | .filter f r => setFilter s f (writeFilter r v (getFilter s f))
  | .voice i r => setVoice s i (writeVoice r v (getVoice s i))
  | .osc t r => setOsc s t (writeOsc s.hw r v (getOsc s t))
  | .depth l => setLfo s l { getLfo s l with depth := v }
  | .rom _ => s
  | .ram a => { s with ram := writeWord s.ram a v }
  | .reserved => s

/-- The port's answer to a transaction. -/
def respond (st : PortStatus) (d : Word) (s : State) : State := { s with lastResp := some { status := st, data := d } }

/-- Holds a host-port fault in PEND; the first while BUSY = 1 is kept (R279). -/
def holdPending (code : FaultCode) (a : Addr) (s : State) : State :=
  match s.pend with
  | some _ => s
  | none => { s with pend := some { code := code, addr := a } }

/-- A transaction refused while BUSY = 1: BUSY_ACCESS, not performed, read data 0 (R101, R275, R279). The spec names no
status for its completion: that it completes at once with a status of its own is a DESIGN CHOICE (log entry 15). -/
def busyRefuse (a : Addr) (s : State) : State := respond .busyAccess 0 (holdPending .busyAccess a s)

/-- A transaction at no mapped aligned address: BUS_ERROR, entered at once, read data 0 (R93, R97, R279). -/
def busRefuse (a : Addr) (s : State) : State := respond .busError 0 (raiseFault .busError (a.setWidth 32) s)

/-- The two addresses a host may read while BUSY = 1: ID and STATUS (R101). -/
def readableWhileBusy (a : Addr) : Bool := a == 0x000000#24 || a == 0x000008#24

/-- `MemRead(a, 4)` (R85). -/
def hostRead (a : Addr) (s : State) : State :=
  if busy s && !readableWhileBusy a then busyRefuse a s
  else match hostLoc s.hw a with
    | none => busRefuse a s
    | some l => respond .okay (readLoc s l) s

/-- `MemWrite(a, 4, v)` (R85). -/
def hostWrite (a : Addr) (v : Word) (s : State) : State :=
  if busy s then busyRefuse a s
  else match hostLoc s.hw a with
    | none => busRefuse a s
    | some l => respond .okay 0 (writeLoc l v s)

/-- One host event; while the reset input is asserted the core ignores the port (R311). -/
def hostEvent (e : HostEvent) (s : State) : State :=
  match e with
  | .read a => if s.resetPin then s else hostRead a s
  | .write a v => if s.resetPin then s else hostWrite a v s
  | .wait => if s.resetPin then s else hostRead 0x000008#24 s
  | .reset b => driveReset b s

/-- The host's turn: its next event, if it has one. A `wait` stays the next one while BUSY = 1 (R127). -/
def hostTurn (s : State) : State :=
  match s.inbox with
  | [] => s
  | e :: rest =>
    if e = .wait && busy s then hostRead 0x000008#24 s else hostEvent e { s with inbox := rest }

/-- One step of the delay of the command in flight, if it is still in flight (R320). -/
def countDown (s : State) : State :=
  match s.inFlight with
  | none => s
  | some c => { s with inFlight := some { c with wait := c.wait - 1 } }

/-- The fault of a word that is no command (R122). -/
def decodeFault : DecodeError → FaultCode
  | .illegalOpcode => .illegalOpcode
  | .reservedBits => .reservedBits

end Sys2Proof.Machine
end

