-- ==== Sys2Proof/Machine/Dispatch.lean ====
section
/-! DEFINITION. One arm per command: what executing it, once decoded, does (R113 from NEEDS_READY on). -/

namespace Sys2Proof.Machine

/-- Executes a decoded command on the state it was issued in. -/
def exec (i : Instr) (s : State) : Host.Outcome State Fault Refusal :=
  match i with
  | .nop => Sys2Proof.Machine.execNop s
  | .init => Sys2Proof.Machine.execInit s
  | .teardown => Sys2Proof.Machine.execTeardown s
  | .processBlock => Sys2Proof.Machine.execProcessBlock s
  | .blockBegin => Sys2Proof.Machine.execBlockBegin s
  | .blockEnd => Sys2Proof.Machine.execBlockEnd s
  | .voiceRender unit => Sys2Proof.Machine.execVoiceRender unit s
  | .filterBlock unit => Sys2Proof.Machine.execFilterBlock unit s
  | .filterStep unit => Sys2Proof.Machine.execFilterStep unit s
  | .oscNext unit sub cls => Sys2Proof.Machine.execOscNext unit sub cls s
  | .oscRender unit sub cls ovw mono ufm uam => Sys2Proof.Machine.execOscRender unit sub cls ovw mono ufm uam s
  | .lfoProduce unit sub cls ufm => Sys2Proof.Machine.execLfoProduce unit sub cls ufm s

end Sys2Proof.Machine
end

