-- ==== Sys2Proof/Machine/Sequencer.lean ====
section
/-! DEFINITION. The sequencer: completing the command in flight, and whose turn it is (R112, R113, R320). -/

namespace Sys2Proof.Machine

/-- A next state passed on through `g`; a stop stays. -/
def andThen (o : Host.Outcome State Fault Refusal) (g : State → State) : Host.Outcome State Fault Refusal :=
  match o with
  | .next t => .next (g t)
  | .fault r => .fault r
  | .refused r => .refused r

/-- The completion step of the command word `w` (R113): its own outcome first, then a fault held in PEND (R279). -/
def completeWord (w : Word) (s : State) : Host.Outcome State Fault Refusal :=
  match decode w with
  | .ok i => andThen (exec i s) enterPending
  | .error e => .next (enterPending (commandFault (decodeFault e) w s))

/-- One step: the command in flight completes once its delay has run out; until then, and with none in flight, it is
the host's turn (R112, R113, R320). With no command and no host event the core does nothing (R112). -/
def turn (s : State) : Host.Outcome State Fault Refusal :=
  match s.inFlight with
  | none => .next (hostTurn s)
  | some c => if c.wait = 0 then completeWord c.word s else .next (countDown (hostTurn s))

end Sys2Proof.Machine
end

