-- ==== Sys2Proof/Machine/Step.lean ====
section
/-! DEFINITION. The step function, and the place a command word stands in when the next step runs it. -/

namespace Sys2Proof.Machine

/-- One step of the machine. -/
def step (s : State) : Host.Outcome State Fault Refusal := turn s

/-- `s` with the command word `w` issued and its delay over, so that the very next step decodes and completes it. It
stands for the host's write of `w` to CMD (R36, R113; log entry 5). -/
def State.withFetchWord (s : State) (nbits w : Nat) : State :=
  { s with inFlight := some { word := BitVec.ofNat 32 (w % 2 ^ nbits), wait := 0 } }

end Sys2Proof.Machine
end

