-- ==== Sys2Proof/WellFormed.lean ====
section
/-! DEFINITION. Which commands name a unit that exists: the unit legality of R121, as a check on the syntax and the
number of voices alone. Every field value of the encoding is expressible in `Instr`, so this is the only check. A
command that fails it is the fault BAD_UNIT when it runs (Machine/Operands.lean). -/

namespace Sys2Proof

/-- R115: an oscillator. With CLS 0 a voice below N_VOICE and SUB 0..4; with CLS 1 a filter 0..3 and SUB 1 or 2. -/
def oscTargetExists (nVoice : Nat) (unit : BitVec 8) (sub : BitVec 4) (cls : Bool) : Bool :=
  if cls then decide (unit.toNat ≤ 3) && (sub == 1 || sub == 2)
  else decide (unit.toNat < nVoice) && decide (sub.toNat ≤ 4)

/-- R116: an LFO, so SUB is not 0. -/
def lfoTargetExists (nVoice : Nat) (unit : BitVec 8) (sub : BitVec 4) (cls : Bool) : Bool :=
  oscTargetExists nVoice unit sub cls && sub != 0

/-- R116: the primary LFOs are SUB 2 and SUB 4. -/
def isPrimarySub (sub : BitVec 4) : Bool := sub == 2 || sub == 4

/-- R121, per opcode. -/
def Instr.wellFormed (nVoice : Nat) : Instr → Bool
  | .nop => true
  | .init => true
  | .teardown => true
  | .processBlock => true
  | .blockBegin => true
  | .blockEnd => true
  | .voiceRender unit => decide (unit.toNat < nVoice)
  | .filterBlock unit => decide (unit.toNat ≤ 3)
  | .filterStep unit => decide (unit.toNat ≤ 3)
  | .oscNext unit sub cls => oscTargetExists nVoice unit sub cls
  | .oscRender unit sub cls _ _ _ _ => oscTargetExists nVoice unit sub cls
  | .lfoProduce unit sub cls ufm => lfoTargetExists nVoice unit sub cls && (!ufm || isPrimarySub sub)

end Sys2Proof
end

