-- ==== Sys2Proof/Safety.lean ====
section
/-! DEFINITION. What counts as a good state and a good run, in the terms the statements use: the invariants of the
machine, the checks a command must pass (an account of R113 and R278 apart from the machine's own), and small helpers
to say what a block does. -/

namespace Sys2Proof.Machine

/-- Every step that answers a next state keeps `P`. -/
def KeptByStep (P : State → Prop) : Prop := ∀ s t : State, P s → step s = .next t → P t

/-- A word in [0, 1), neither -0 nor NaN (R53, R203). -/
def inUnitInterval (x : Word) : Bool := decide (x.toNat < 0x3F800000)

/-- Every PHASE lies in [0, 1) (R53, R203). -/
def PhasesWrapped (s : State) : Prop := ∀ t : OscSel, inUnitInterval (getOsc s t).phase = true

/-- Every OCT is the octave selected for its FREQ (R54, R55), for a core with legal parameters (R8). -/
def OctavesFollowFreq (s : State) : Prop :=
  paramsLegal s.hw = true ∧ ∀ t : OscSel, (getOsc s t).oct = BitVec.ofNat 4 (octSel s.hw (getOsc s t).freq)

/-- The sample RAM has the canonical form. -/
def RamCanonical (s : State) : Prop := memoryWf s.ram = true

/-- A byte of a word `n < BLOCK_MAX` of a valid buffer (R73, R92). -/
def ramByteMapped (p : Params) (a : Nat) : Bool :=
  decide (0x100000 ≤ a) && validBuf p ((a - 0x100000) / 0x4000) && decide ((a - 0x100000) % 0x4000 / 4 < p.blockMax)

/-- The session's registers make sense (R40, R232): BLOCK_SIZE at most BLOCK_MAX; in a session at least 1, and a
finite positive SAMPLE_RATE. -/
def SessionSized (s : State) : Prop :=
  paramsLegal s.hw = true ∧ s.blockSize.toNat ≤ s.hw.blockMax ∧
    (s.ready = true → 1 ≤ s.blockSize.toNat ∧ isFinite s.sampleRate = true ∧ flt fZero s.sampleRate = true)

/-- The sample RAM holds nothing outside the words that exist (R73), in a sized session. -/
def RamMapped (s : State) : Prop := SessionSized s ∧ ∀ c ∈ s.ram, ramByteMapped s.hw c.1 = true

/-- FAULT_CODE and FAULT_INFO say something exactly when FAULT = 1 (R35, R47); while a command is in flight no fault
shows and the core is not in reset (R279, R288, R311); PEND holds a BUSY_ACCESS of the command in flight (R279). -/
def FaultRecordSound (s : State) : Prop :=
  (s.fault = false → s.faultCode = .none ∧ s.faultInfo = 0) ∧
  (s.fault = true → s.faultCode ≠ .none) ∧
  (busy s = true → s.fault = false ∧ s.resetPin = false) ∧
  (∀ q, s.pend = some q → busy s = true ∧ q.code = .busyAccess)

/-- Every iteration cap is at least 1 (R67). -/
def CapsPositive (s : State) : Prop := ∀ f : Fin 4, (getFilter s f).maxit ≠ 0

/-- NEEDS_READY (R119). -/
def needsReady : Instr → Bool
  | .nop => false
  | .init => false
  | .teardown => false
  | .processBlock => true
  | .blockBegin => true
  | .blockEnd => true
  | .voiceRender _ => true
  | .filterBlock _ => true
  | .filterStep _ => true
  | .oscNext _ _ _ => true
  | .oscRender _ _ _ _ _ _ _ => true
  | .lfoProduce _ _ _ _ => true

/-- A KIND that is not reserved (R51). -/
def kindOk (o : Osc) : Bool := decide (o.kind.toNat ≤ 4)

/-- The configuration values VOICE_RENDER checks (R278). -/
def voiceConfigOk (V : Voice) : Bool :=
  V.vcfg.route != 3 && kindOk V.osc && (!V.vcfg.enMf || kindOk V.mf.osc) && (!V.vcfg.enF || kindOk V.f.osc) &&
    (!V.vcfg.enMa || kindOk V.ma.osc) && (!V.vcfg.enA || kindOk V.a.osc)

/-- The configuration values FILTER_BLOCK checks (R278). -/
def filterConfigOk (R : Filter) : Bool := kindOk R.metaCut.osc && kindOk R.cut.osc

/-- CONFIG_OK (R278); a command whose unit does not exist has been turned away before. -/
def configOk (s : State) : Instr → Bool
  | .nop => true
  | .init => true
  | .teardown => true
  | .processBlock =>
    (List.finRange 32).all (fun v =>
      !(decide (v.val < s.hw.nVoice) && (getVoice s v).vcfg.ven) || voiceConfigOk (getVoice s v)) &&
    (List.finRange 4).all (fun f => !(getFilter s f).fcfg.en || filterConfigOk (getFilter s f))
  | .blockBegin => true
  | .blockEnd => true
  | .voiceRender unit => (voiceUnit s.hw unit).all fun v => voiceConfigOk (getVoice s v)
  | .filterBlock unit => (filterUnit unit).all fun f => filterConfigOk (getFilter s f)
  | .filterStep _ => true
  | .oscNext unit sub cls => (oscTarget s.hw unit sub cls).all fun t => kindOk (getOsc s t)
  | .oscRender unit sub cls _ _ _ _ => (oscTarget s.hw unit sub cls).all fun t => kindOk (getOsc s t)
  | .lfoProduce unit sub cls _ => (lfoTarget s.hw unit sub cls).all fun l => kindOk (getLfo s l).osc

/-- BUFFERS_OK (R198). -/
def buffersOkOf (s : State) : Instr → Bool
  | .oscRender _ _ _ _ mono ufm uam => buffersOk s mono ufm uam
  | _ => true

/-- The first check of R113, from NEEDS_READY on, that a command fails in `s`; `none` (NONE) when it fails none
(R281). -/
def firstFault (s : State) (i : Instr) : FaultCode :=
  if needsReady i && !s.ready then .notReady
  else if !i.wellFormed s.hw.nVoice then .badUnit
  else if !buffersOkOf s i then .badBuffer
  else if i = .init && !(isFinite s.arg0 && flt fZero s.arg0) then .badSampleRate
  else if i = .init && (s.arg1.toNat = 0 || decide (s.hw.blockMax < s.arg1.toNat)) then .badBlockSize
  else if !configOk s i then .badConfig
  else .none

/-- What every completed command leaves (R113): counted, DONE set, not in flight, no fault recorded. -/
def Completed (s t : State) : Prop :=
  t.cmdCount = s.cmdCount + 1 ∧ t.done = true ∧ t.inFlight = none ∧ t.fault = s.fault ∧
    t.faultCode = s.faultCode ∧ t.faultInfo = s.faultInfo

/-- The bytes of the words 0..N-1 of buffer `b`. -/
def inBuffer (b N a : Nat) : Prop := bufAddr b 0 ≤ a ∧ a < bufAddr b 0 + 4 * N

/-- The PHASE of `o` after `k` phase advances, the `n`-th of them modulated by `fm n` if that is a value (R193). -/
def phaseAfter (fm : Nat → Option Word) (o : Osc) : Nat → Word
  | 0 => o.phase
  | k + 1 =>
    wrap (fadd (phaseAfter fm o k)
      (match fm k with
        | none => fdiv o.freq o.srate
        | some m => fdiv (fadd o.freq m) o.srate))

/-- The value of sample `n` of a block that renders `o` with frequency modulation `fm` and amplitudes `amp`, where `d` is
the number of the block's first noise draw (R194, R195, R196). -/
def blockSample (F : Prims) (p : Params) (wf : Waveform) (o : Osc) (fm : Nat → Option Word) (amp : Nat → Word)
    (d n : Nat) : Word :=
  fmul (amp n) (match wf with
    | .sine => F.sin (fmul fTwoPi (phaseAfter fm o (n + 1)))
    | .table k => tableValue p k o.oct (phaseAfter fm o (n + 1))
    | .noise => F.noise (d + n))

/-- Sample `n` of buffer `b` as frequency modulation, if it is used (R196). -/
def modulation (s : State) (used : Bool) (b n : Nat) : Option Word := if used then some (readBuf s b n) else none

/-- The base amplitude, and sample `n` of buffer `b` added to it if amplitude modulation is used (R196). -/
def amplitude (s : State) (base : Word) (used : Bool) (b n : Nat) : Word :=
  if used then fadd base (readBuf s b n) else base

/-- How many noise draws a block of `N` samples takes, if it is produced at all (R194). -/
def drawsIf (used : Bool) (wf : Waveform) (N : Nat) : Nat := if used && decide (wf = .noise) then N else 0

/-- `o` with another PHASE. -/
def rephased (o : Osc) (ph : Word) : Osc := { o with phase := ph }

/-- `l` with another PHASE. -/
def rephasedLfo (l : Lfo) (ph : Word) : Lfo := { l with osc := rephased l.osc ph }

/-- The state a command leaves, as commands run one after another. -/
def runCommands : List Instr → State → Host.Outcome State Fault Refusal
  | [], s => .next s
  | i :: is, s =>
    match exec i s with
    | .next t => runCommands is t
    | .fault r => .fault r
    | .refused r => .refused r

/-- One FILTER_STEP with ARG0 = x and ARG1 = m written before it. -/
def fedStep (unit : BitVec 8) (x m : Word) (s : State) : State :=
  match exec (.filterStep unit) { s with arg0 := x, arg1 := m } with
  | .next t => t
  | .fault _ => s
  | .refused _ => s

/-- The states after 0, 1, 2, ... FILTER_STEPs fed with the samples `xm n`. -/
def fedSteps (unit : BitVec 8) (xm : Nat → Word × Word) (s : State) : Nat → State
  | 0 => s
  | n + 1 => fedStep unit (xm n).1 (xm n).2 (fedSteps unit xm s n)

/-- `s` with another PAN in voice `v`. -/
def withPan (s : State) (v : Fin 32) (p : Word) : State := setVoice s v { getVoice s v with pan := p }

/-- The magnitude, in units of 2^-149, of the finite word with bits 30:0 `m`: the fraction alone for biased exponent 0,
with the hidden bit otherwise (R12). -/
def magUnits (m : Nat) : Nat :=
  if m / 2 ^ 23 = 0 then m % 2 ^ 23 else (2 ^ 23 + m % 2 ^ 23) * 2 ^ (m / 2 ^ 23 - 1)

/-- The magnitude of a finite word, in units of 2^-149. -/
def wordUnits (x : Word) : Nat := magUnits (x.toNat % 2 ^ 31)

/-- A finite word's value, in units of 2^-149 (R12); an infinity's lies beyond every finite one's. -/
def wordValue (x : Word) : Int := if x.getLsbD 31 then -(wordUnits x : Int) else (wordUnits x : Int)

/-- The infinity of this sign (R12). -/
def infinity (neg : Bool) : Word := if neg then 0xFF800000#32 else 0x7F800000#32

/-! ### The ladder step, component by component (R142, R143) -/

/-- Component `i` of four. -/
def quadAt (q : Quad) (i : Fin 4) : Word :=
  match i with
  | 0 => q.v0
  | 1 => q.v1
  | 2 => q.v2
  | 3 => q.v3

/-- The feedback tanh of FIELD (R142). -/
def feedbackAt (F : Prims) (k4r : Word) (v : Fin 4 → Word) (z : Word) : Word := F.tanh (fadd (fmul k4r (v 3)) z)

/-- Component `i` of FIELD(v, z), by index (R142). -/
def fieldAt (F : Prims) (s3mode : Bool) (w k4r : Word) (v : Fin 4 → Word) (z : Word) (i : Fin 4) : Word :=
  if i = 0 then fmul w (fsub (fneg (F.tanh (v 0))) (feedbackAt F k4r v z))
  else fmul w (fadd (fneg (F.tanh (v i))) (F.tanh (v (if i = 3 && !s3mode then 3 else i - 1))))

/-- Component `i` of the residual (R143 step 4c, R146). -/
def residualAt (h : Word) (g s fg fp : Fin 4 → Word) (i : Fin 4) : Word :=
  fsub (fsub (g i) (s i)) (fmul h (fadd (fg i) (fp i)))

/-- Component `i` of the diagonal X (R143 step 4e, R147). -/
def diagonalAt (F : Prims) (a : Word) (g : Fin 4 → Word) (i : Fin 4) : Word :=
  fadd fOne (fmul a (fsub fOne (fmul (F.tanh (g i)) (F.tanh (g i)))))

/-- Component `i` of the coupling Y (R143 step 4f, R147). -/
def couplingAt (F : Prims) (jmode : Bool) (a c2 fb : Word) (g : Fin 4 → Word) (i : Fin 4) : Word :=
  if i = 0 then fmul c2 (fsub fOne (fmul fb fb))
  else
    let j : Fin 4 := if jmode then i - 1 else i
    fmul a (fsub fOne (fmul (F.tanh (g j)) (F.tanh (g j))))

/-- The determinant of the Jacobian (R143 step 4g, R148). -/
def detOf (X Y : Fin 4 → Word) : Word :=
  fsub (fmul (fmul (fmul (X 0) (X 1)) (X 2)) (X 3)) (fmul (fmul (fmul (Y 0) (Y 1)) (Y 2)) (Y 3))

/-- Component `i` of the update's quotient; indices are modulo 4 (R143 steps 4g and 4h, R149). -/
def deltaAt (X Y E : Fin 4 → Word) (i : Fin 4) : Word :=
  let n0 := fmul (fmul (fmul (X (i + 1)) (X (i + 2))) (X (i + 3))) (E i)
  let n1 := fmul (fmul (fmul (Y i) (X (i + 1))) (X (i + 2))) (E (i + 3))
  let n2 := fmul (fmul (fmul (Y i) (Y (i + 3))) (X (i + 1))) (E (i + 2))
  let n3 := fmul (fmul (fmul (Y i) (Y (i + 3))) (Y (i + 2))) (E (i + 1))
  fdiv (fadd (fadd (fadd n0 n1) n2) n3) (detOf X Y)

/-- One Newton update of filter `R` with input `x` and modulation `m` from the guess `g`: the new guess by component, and
the determinant (R143, R150). -/
def updateAt (F : Prims) (R : Filter) (x m : Word) (g : Fin 4 → Word) : (Fin 4 → Word) × Word :=
  let w := fmul (fadd R.cutoff m) 0x40C90FDB#32
  let u := fmul x R.inGain
  let h := fmul R.timestep 0x3F000000#32
  let a := fmul h w
  let k4r := fmul 0x40800000#32 R.res
  let c2 := fmul (fmul (fmul 0xC0000000#32 R.timestep) w) R.res
  let fp := fieldAt F R.fcfg.s3mode w k4r (quadAt R.s) R.xprev
  let fg := fieldAt F R.fcfg.s3mode w k4r g u
  let X := diagonalAt F a g
  let Y := couplingAt F R.fcfg.jmode a c2 (feedbackAt F k4r g u) g
  (fun i => fsub (g i) (deltaAt X Y (residualAt h g (quadAt R.s) fg fp) i), detOf X Y)

/-- The guess after `k` Newton updates from the state of `R` (R143 step 4, R152). -/
def guessAfter (F : Prims) (R : Filter) (x m : Word) : Nat → Quad
  | 0 => R.s
  | k + 1 => (newtonUpdate F (stepConsts F R x m) (guessAfter F R x m k)).1

/-- The convergence test of the update from guess `j` to guess `j + 1` (R151, R152). -/
def testMet (F : Prims) (R : Filter) (x m : Word) (j : Nat) : Bool :=
  let d := fun i => fabs (fsub (quadAt (guessAfter F R x m (j + 1)) i) (quadAt (guessAfter F R x m j) i))
  fle (fadd (fadd (fadd (d 0) (d 1)) (d 2)) (d 3)) R.eps

/-! ### The address map (R87 to R92) -/

/-- The offset of a global register (R88). -/
def globalOffset : GlobalReg → Nat
  | .id => 0x000
  | .ctrl => 0x004
  | .status => 0x008
  | .cmd => 0x00C
  | .arg0 => 0x010
  | .arg1 => 0x014
  | .arg2 => 0x018
  | .arg3 => 0x01C
  | .result => 0x020
  | .sampleRate => 0x024
  | .blockSize => 0x028
  | .fadeLen => 0x02C
  | .fadePos => 0x030
  | .cmdCount => 0x034
  | .blockCount => 0x038
  | .written => 0x03C
  | .pNVoice => 0x040
  | .pBlockMax => 0x044
  | .pWtLen => 0x048
  | .pWtNoct => 0x04C
  | .pWtBase => 0x050
  | .faultInfo => 0x054

/-- The offset of a register in an oscillator record (R50). -/
def oscOffset : OscReg → Nat
  | .kind => 0x00
  | .srate => 0x04
  | .phase => 0x08
  | .freq => 0x0C
  | .oct => 0x10

/-- The offset of a register in a filter record (R62). -/
def filterOffset : FilterReg → Nat
  | .fcfg => 0x000
  | .res => 0x004
  | .cutoff => 0x008
  | .inGain => 0x00C
  | .outGain => 0x010
  | .timestep => 0x014
  | .eps => 0x018
  | .maxit => 0x01C
  | .xprev => 0x020
  | .s0 => 0x024
  | .s1 => 0x028
  | .s2 => 0x02C
  | .s3 => 0x030
  | .lastIters => 0x034
  | .fstat => 0x038

/-- The offset of a register in a voice record (R58). -/
def voiceOffset : VoiceReg → Nat
  | .vcfg => 0x000
  | .volume => 0x004
  | .pan => 0x008

/-- The address of an LFO record (R89, R90). -/
def lfoAddr : LfoSel → Nat
  | .voice v .mf => 0x004000 + v.val * 0x200 + 0x040
  | .voice v .f => 0x004000 + v.val * 0x200 + 0x080
  | .voice v .ma => 0x004000 + v.val * 0x200 + 0x0C0
  | .voice v .a => 0x004000 + v.val * 0x200 + 0x100
  | .filter f .metaCut => 0x001000 + f.val * 0x200 + 0x040
  | .filter f .cut => 0x001000 + f.val * 0x200 + 0x080

/-- The address of an oscillator record (R89, R90). -/
def oscAddr : OscSel → Nat
  | .voice v => 0x004000 + v.val * 0x200 + 0x020
  | .lfo l => lfoAddr l

/-- The address of a location; a reserved word has none of its own (R88 to R92). -/
def locAddr : Loc → Nat
  | .global r => globalOffset r
  | .filter f r => 0x001000 + f.val * 0x200 + filterOffset r
  | .voice v r => 0x004000 + v.val * 0x200 + voiceOffset r
  | .osc t r => oscAddr t + oscOffset r
  | .depth l => lfoAddr l + 0x20
  | .rom a => a
  | .ram a => a
  | .reserved => 0

/-- An LFO of a voice that exists, or of a filter (R8). -/
def lfoExists (p : Params) : LfoSel → Prop
  | .voice v _ => v.val < p.nVoice
  | .filter _ _ => True

/-- A buffer number that names a buffer (R92). -/
def bufferExists (p : Params) (b : Nat) : Prop := b ≤ 5 ∨ (8 ≤ b ∧ b ≤ 15) ∨ (16 ≤ b ∧ b < 16 + 4 * p.nVoice)

/-- The locations this core has (R89 to R92). -/
def locExists (p : Params) : Loc → Prop
  | .global _ => True
  | .filter _ _ => True
  | .voice v _ => v.val < p.nVoice
  | .osc (.voice v) _ => v.val < p.nVoice
  | .osc (.lfo l) _ => lfoExists p l
  | .depth l => lfoExists p l
  | .rom a => ∃ k < 3, ∃ o < p.wtNoct, ∃ i < p.wtLen, a = 0x040000 + ((k * 16 + o) * 1024 + i) * 4
  | .ram a => ∃ b, bufferExists p b ∧ ∃ n < p.blockMax, a = 0x100000 + b * 0x4000 + n * 4
  | .reserved => False

/-- The byte addresses in a row of the address map (R87, R90, R92). -/
def addressMapped (p : Params) (a : Nat) : Prop :=
  a < 0x001000 ∨ (0x001000 ≤ a ∧ a < 0x001800) ∨ (0x004000 ≤ a ∧ a < 0x004000 + p.nVoice * 0x200) ∨
    (0x040000 ≤ a ∧ a < 0x070000) ∨
    ∃ b, bufferExists p b ∧ 0x100000 + b * 0x4000 ≤ a ∧ a < 0x100000 + (b + 1) * 0x4000

end Sys2Proof.Machine
end

