-- ==== Sys2Proof/Certificates/Slice0/Obligations.lean ====
section
/-! DEFINITION. The statements for the provers. Each says which rule of the spec it formalises; log entries are those
of notes/assumptions/. -/

open Sys2Proof Sys2Proof.Machine

/-! ### Encoding (spec/30_encoding.md) -/

/-- R111, R119: decoding the encoding of any command gives that command back, every field at every value. -/
def Obligations.DecodeOfEncodeIsTheCommand : Prop := ∀ i : Instr, decode (encode i) = .ok i

/-- R111, R125: a word that decodes to a command is that command's encoding, so no bit is dropped. -/
def Obligations.EncodeOfDecodeIsTheWord : Prop := ∀ (w : Word) (i : Instr), decode w = .ok i → encode i = w

/-- R120: USED_MASK, RESERVED_BITS, and the exact match/mask pair of every opcode. -/
def Obligations.DecodeFollowsMatchAndMask : Prop :=
  (∀ op : Nat, op < 12 → usedMask op =
    0xFF#32 ||| (if 6 ≤ op ∧ op ≤ 8 then 0xFF00#32 else if op = 9 then 0x1FFF00#32
      else if op = 10 then 0x1FFFF00#32 else if op = 11 then 0x3FFF00#32 else 0#32)) ∧
  ∀ w : Word,
    (decode w = .error .reservedBits ↔ (fieldOp w).toNat < 12 ∧ w &&& ~~~(usedMask (fieldOp w).toNat) ≠ 0) ∧
    (decode w = .ok .nop ↔ w &&& 0xFFFFFFFF#32 = 0x00000000#32) ∧
    (decode w = .ok .init ↔ w &&& 0xFFFFFFFF#32 = 0x00000001#32) ∧
    (decode w = .ok .teardown ↔ w &&& 0xFFFFFFFF#32 = 0x00000002#32) ∧
    (decode w = .ok .processBlock ↔ w &&& 0xFFFFFFFF#32 = 0x00000003#32) ∧
    (decode w = .ok .blockBegin ↔ w &&& 0xFFFFFFFF#32 = 0x00000004#32) ∧
    (decode w = .ok .blockEnd ↔ w &&& 0xFFFFFFFF#32 = 0x00000005#32) ∧
    ((∃ u, decode w = .ok (.voiceRender u)) ↔ w &&& 0xFFFF00FF#32 = 0x00000006#32) ∧
    ((∃ u, decode w = .ok (.filterBlock u)) ↔ w &&& 0xFFFF00FF#32 = 0x00000007#32) ∧
    ((∃ u, decode w = .ok (.filterStep u)) ↔ w &&& 0xFFFF00FF#32 = 0x00000008#32) ∧
    ((∃ u b c, decode w = .ok (.oscNext u b c)) ↔ w &&& 0xFFE000FF#32 = 0x00000009#32) ∧
    ((∃ u b c o m f a, decode w = .ok (.oscRender u b c o m f a)) ↔ w &&& 0xFE0000FF#32 = 0x0000000A#32) ∧
    ((∃ u b c f, decode w = .ok (.lfoProduce u b c f)) ↔ w &&& 0xFFC000FF#32 = 0x0000000B#32)

/-- R126: the example words of the assembler syntax decode to the commands they are written for. -/
def Obligations.SpecExampleWordsDecode : Prop :=
  decode 0x00000108#32 = .ok (.filterStep 1) ∧
  decode 0x00010109#32 = .ok (.oscNext 1 1 false) ∧
  decode 0x00120209#32 = .ok (.oscNext 2 2 true) ∧
  decode 0x0060000A#32 = .ok (.oscRender 0 0 false true true false false) ∧
  decode 0x0022000B#32 = .ok (.lfoProduce 0 2 false true) ∧
  decode 0x0032030B#32 = .ok (.lfoProduce 3 2 true true)

/-! ### The sequencer and faults (R112, R113, spec/60_exceptions.md) -/

/-- R113: when the delay of the command in flight is over and its word decodes to `i`, the step is `exec i`, followed
by the entry of a fault held in PEND. -/
def Obligations.StepRunsTheDecodedCommand : Prop :=
  ∀ (s : State) (c : InFlight) (i : Instr), s.inFlight = some c → c.wait = 0 → decode c.word = .ok i →
    step s = andThen (exec i s) enterPending

/-- R122, R272, R276, R279: a word that is no command faults ILLEGAL_OPCODE or RESERVED_BITS and changes nothing but the
fault record, DONE and BUSY; a fault held in PEND comes second, so it is dropped and PEND emptied. -/
def Obligations.WordThatIsNoCommandFaults : Prop :=
  ∀ (s : State) (w : Word) (e : DecodeError),
    s.inFlight = some { word := w, wait := 0 } → s.fault = false → decode w = .error e →
    step s = .next { s with
      fault := true
      faultCode := if 12 ≤ (fieldOp w).toNat then .illegalOpcode else .reservedBits
      faultInfo := w
      done := true
      inFlight := none
      pend := none }

/-- R113, R278, R281, R284: a command ends with the first check it fails, and then nothing but the fault entry changes;
when it fails none it completes. This is where every command completes. -/
def Obligations.CommandEndsWithFirstFailedCheck : Prop :=
  ∀ (i : Instr) (s : State), s.hw.nVoice ≤ 32 →
    (firstFault s i ≠ .none → exec i s = .next (commandFault (firstFault s i) (encode i) s)) ∧
    (firstFault s i = .none → ∃ t, exec i s = .next t ∧ Completed s t)

/-- R276: the fault entry. The first fault since reset is kept; DONE is set; BUSY is cleared by a command fault alone. -/
def Obligations.FaultEntryWritesOnlyTheFaultRecord : Prop :=
  ∀ (code : FaultCode) (info : Word) (s : State),
    (s.fault = false → commandFault code info s =
      { s with fault := true, faultCode := code, faultInfo := info, done := true, inFlight := none }) ∧
    (s.fault = true → commandFault code info s = { s with done := true, inFlight := none }) ∧
    (s.fault = false → raiseFault code info s =
      { s with fault := true, faultCode := code, faultInfo := info, done := true }) ∧
    (s.fault = true → raiseFault code info s = { s with done := true })

/-- R285, R286: once FAULT = 1, no step but one that takes a reset event changes FAULT, FAULT_CODE or FAULT_INFO. -/
def Obligations.FirstFaultIsKeptUntilReset : Prop :=
  ∀ s t : State, s.fault = true → (∀ b rest, s.inbox ≠ .reset b :: rest) → step s = .next t →
    t.fault = true ∧ t.faultCode = s.faultCode ∧ t.faultInfo = s.faultInfo

/-- R288: a CMD write while FAULT = 1 is dropped: only the port answers. -/
def Obligations.FaultedCoreDropsCommands : Prop :=
  ∀ (s : State) (w : Word) (rest : List HostEvent),
    s.fault = true → s.inFlight = none → s.resetPin = false → s.inbox = .write 0x00000C#24 w :: rest →
    step s = .next { s with inbox := rest, lastResp := some { status := .okay, data := 0 } }

/-- R112, R113: a command comes into flight only by a CMD write to a core that is not faulted. -/
def Obligations.OnlyCmdWritesStartCommands : Prop :=
  ∀ (s t : State) (c : InFlight), s.inFlight = none → step s = .next t → t.inFlight = some c →
    ∃ rest, s.inbox = .write 0x00000C#24 c.word :: rest ∧ s.fault = false ∧ s.resetPin = false

/-- R320: whatever the free delay of a command (log entry 6), it completes, and its effect does not depend on the delay:
the host may meanwhile poll STATUS and ID any number of times, and what it then reads in STATUS shows BUSY = 1. -/
def Obligations.CompletionDoesNotDependOnTheDelay : Prop :=
  ∀ (k : Nat) (s : State) (w : Word), s.inFlight = some { word := w, wait := k } →
    (s.inbox = [] →
      Host.Core.run Sys2Proof.core (k + 1) s = step { s with inFlight := some { word := w, wait := 0 } }) ∧
    ∀ t : State, (∀ e ∈ s.inbox, e = .wait ∨ e = .read 0x000000#24 ∨ e = .read 0x000008#24) →
      step { s with inFlight := some { word := w, wait := 0 } } = .next t →
      ∃ pre rest resp, s.inbox = pre ++ rest ∧ pre.length ≤ k ∧
        (resp = s.lastResp ∨ resp = some { status := .okay, data := 0x4C465331#32 } ∨
          resp = some { status := .okay, data := statusWord s }) ∧
        Host.Core.run Sys2Proof.core (k + 1) s = .next { t with inbox := rest, lastResp := resp }

/-- R85, R99, R101, R103, R112, R127, R279: while BUSY = 1 a write, or a read of anything but STATUS and ID, is not performed and is
held in PEND as BUSY_ACCESS with its address, unless PEND already holds one; reads of STATUS and ID are answered, and a
wait polls STATUS and goes on waiting. While BUSY = 0 a read of any mapped address is answered, a wait is one answered read
of STATUS, and a write is performed (what it does at each address, the statements on hostWrite say). No read changes
anything but the port's answer. With no command and no host event the core does nothing. The status busyAccess, and that it comes at once, are the model's choice (log entry 15). -/
def Obligations.BusyAccessIsHeld : Prop :=
  (∀ (s : State) (w : Word) (k : Nat) (e : HostEvent) (rest : List HostEvent),
    s.inFlight = some { word := w, wait := k + 1 } → s.resetPin = false → s.inbox = e :: rest →
    (∀ a, (∃ v, e = .write a v) ∨ (e = .read a ∧ a ≠ 0x000000#24 ∧ a ≠ 0x000008#24) →
      step s = .next { s with
        inbox := rest
        pend := match s.pend with
          | some q => some q
          | none => some { code := .busyAccess, addr := a }
        lastResp := some { status := .busyAccess, data := 0 }
        inFlight := some { word := w, wait := k } }) ∧
    (e = .read 0x000000#24 → step s = .next { s with
      inbox := rest
      lastResp := some { status := .okay, data := 0x4C465331#32 }
      inFlight := some { word := w, wait := k } }) ∧
    (e = .read 0x000008#24 → step s = .next { s with
      inbox := rest
      lastResp := some { status := .okay, data := statusWord s }
      inFlight := some { word := w, wait := k } }) ∧
    (e = .wait → step s = .next { s with
      lastResp := some { status := .okay, data := statusWord s }
      inFlight := some { word := w, wait := k } })) ∧
  (∀ (s : State) (a : Addr) (l : Loc) (rest : List HostEvent),
    s.inFlight = none → s.resetPin = false → s.inbox = .read a :: rest → hostLoc s.hw a = some l →
    step s = .next { s with inbox := rest, lastResp := some { status := .okay, data := readLoc s l } }) ∧
  (∀ (s : State) (a : Addr) (rest : List HostEvent),
    s.inFlight = none → s.resetPin = false → s.inbox = .read a :: rest → hostLoc s.hw a = none →
    step s = .next (hostRead a { s with inbox := rest })) ∧
  (∀ (s : State) (a : Addr) (v : Word) (rest : List HostEvent),
    s.inFlight = none → s.resetPin = false → s.inbox = .write a v :: rest →
    step s = .next (hostWrite a v { s with inbox := rest })) ∧
  (∀ (s : State) (rest : List HostEvent),
    s.inFlight = none → s.resetPin = false → s.inbox = .wait :: rest →
    step s = .next { s with inbox := rest, lastResp := some { status := .okay, data := statusWord s } }) ∧
  ∀ s : State, s.inFlight = none → s.inbox = [] → step s = .next s

/-- R279: the completion step applies the command's own outcome, then enters the fault held in PEND and empties it. -/
def Obligations.PendingFaultIsEnteredAfterTheCommand : Prop :=
  ∀ (s : State) (w : Word) (i : Instr) (q : Pend) (u : State),
    s.inFlight = some { word := w, wait := 0 } → s.pend = some q → decode w = .ok i → exec i s = .next u →
    step s = .next { u with
      pend := none
      done := true
      fault := true
      faultCode := if u.fault then u.faultCode else q.code
      faultInfo := if u.fault then u.faultInfo else q.addr.setWidth 32 }

/-- R279, R281, R286: FAULT_CODE and FAULT_INFO stay sound, PEND and BUSY stay consistent, at every step. -/
def Obligations.FaultRecordSoundIsKept : Prop := KeptByStep FaultRecordSound

/-! ### The host port (spec/20_memory.md, spec/10_state.md) -/

/-- R87 to R93, R97, R279: where every location of the core is, and that every other aligned address in a row of the map
is reserved. A transaction at a misaligned or unmapped address, with BUSY = 0, is BUS_ERROR: not performed, read data 0,
FAULT_INFO its address; while FAULT = 1 it sets DONE and the first fault's record is kept (R286). -/
def Obligations.BadAddressIsBusError : Prop :=
  (∀ (s : State) (a : Addr) (v : Word), s.inFlight = none → s.fault = false → hostLoc s.hw a = none →
    hostRead a s = { s with
      fault := true, faultCode := .busError, faultInfo := a.setWidth 32, done := true
      lastResp := some { status := .busError, data := 0 } } ∧
    hostWrite a v s = hostRead a s) ∧
  (∀ (s : State) (a : Addr) (v : Word), s.inFlight = none → s.fault = true → hostLoc s.hw a = none →
    hostRead a s = { s with done := true, lastResp := some { status := .busError, data := 0 } } ∧
    hostWrite a v s = hostRead a s) ∧
  (∀ (p : Params) (a : Addr), a.toNat % 4 ≠ 0 → hostLoc p a = none) ∧
  (∀ (p : Params) (a : Addr), a.toNat % 4 = 0 → p.nVoice ≤ 32 →
    (hostLoc p a = none ↔ ¬ addressMapped p a.toNat)) ∧
  ∀ (p : Params) (l : Loc), paramsLegal p = true →
    (locExists p l → hostLoc p (BitVec.ofNat 24 (locAddr l)) = some l) ∧
    ∀ a : Addr, hostLoc p a = some l → l = .reserved ∨ (locExists p l ∧ a.toNat = locAddr l)

/-- R87 to R92: no two mapped, unreserved words are the same piece of state. -/
def Obligations.AddressMapHasNoOverlap : Prop :=
  ∀ (p : Params) (a b : Addr) (l : Loc),
    hostLoc p a = some l → hostLoc p b = some l → l ≠ .reserved → a = b

/-- R99, R100, R113, R282: reads and writes are idempotent, except the write to CMD, which issues one command per write: the word
comes into flight with a free delay and the model's own counter of issues moves by one (DESIGN CHOICE: log entry 6), the
port answers, and nothing else changes, DONE neither. -/
def Obligations.TransactionsAreIdempotent : Prop :=
  ∀ (s : State) (a : Addr) (v : Word),
    hostRead a (hostRead a s) = hostRead a s ∧
    (a ≠ 0x00000C#24 → RamCanonical s → hostWrite a v (hostWrite a v s) = hostWrite a v s) ∧
    (a = 0x00000C#24 → s.inFlight = none → s.fault = false →
      (hostWrite a v s).issues = s.issues + 1 ∧ ((hostWrite a v s).inFlight.map InFlight.word) = some v ∧
      hostWrite a v s = { s with
        inFlight := some { word := v, wait := Config.completionDelay s.issues }
        issues := s.issues + 1
        lastResp := some { status := .okay, data := 0 } })

/-- R92, R95: a written sample RAM word reads back, little-endian, and no other byte changes. -/
def Obligations.SampleRamHoldsWrittenWords : Prop :=
  ∀ (s : State) (a : Addr) (k : Nat) (v : Word),
    s.inFlight = none → RamCanonical s → hostLoc s.hw a = some (.ram k) →
    readLoc (hostWrite a v s) (.ram k) = v ∧
    (∀ j < 4, readByte (hostWrite a v s).ram (a.toNat + j) = v.extractLsb' (8 * j) 8) ∧
    (∀ x, x < a.toNat ∨ a.toNat + 4 ≤ x → readByte (hostWrite a v s).ram x = readByte s.ram x) ∧
    hostWrite a v s = { s with
      ram := (hostWrite a v s).ram, lastResp := some { status := .okay, data := 0 } }

/-- R91, R94: reserved words and ROM words ignore writes; a reserved word reads 0. -/
def Obligations.ReservedAndRomWordsIgnoreWrites : Prop :=
  ∀ (s : State) (a : Addr) (v : Word) (l : Loc), s.inFlight = none → hostLoc s.hw a = some l →
    (l = .reserved ∨ ∃ k, l = .rom k) →
    hostWrite a v s = { s with lastResp := some { status := .okay, data := 0 } } ∧
    (l = .reserved → readLoc s l = 0)

/-- R51 to R56: what a host write of each oscillator register, and of an LFO's DEPTH, stores. A FREQ write sets OCT in the
same access. -/
def Obligations.OscillatorRegisterWrites : Prop :=
  (∀ (s : State) (a : Addr) (v : Word) (t : OscSel) (r : OscReg),
    s.inFlight = none → hostLoc s.hw a = some (.osc t r) →
    hostWrite a v s = { setOsc s t
      (match r with
        | .kind => { getOsc s t with kind := v.extractLsb' 0 3 }
        | .srate => { getOsc s t with srate := v }
        | .phase => { getOsc s t with phase := wrap v }
        | .freq => { getOsc s t with freq := v, oct := BitVec.ofNat 4 (octSel s.hw v) }
        | .oct => getOsc s t) with lastResp := some { status := .okay, data := 0 } } ∧
    getOsc (hostWrite a v s) t = writeOsc s.hw r v (getOsc s t) ∧
    ∀ u, u ≠ t → getOsc (hostWrite a v s) u = getOsc s u) ∧
  ∀ (s : State) (a : Addr) (v : Word) (l : LfoSel),
    s.inFlight = none → hostLoc s.hw a = some (.depth l) →
    hostWrite a v s = { setLfo s l { getLfo s l with depth := v } with
      lastResp := some { status := .okay, data := 0 } } ∧
    readLoc (hostWrite a v s) (.depth l) = v ∧
    ∀ k, k ≠ l → getLfo (hostWrite a v s) k = getLfo s k

/-- R63 to R71: what a host write of each filter register stores, as read back; every other register of the filter, its
LFOs and everything else stay as they are. -/
def Obligations.FilterRegisterWrites : Prop :=
  ∀ (s : State) (a : Addr) (v : Word) (f : Fin 4) (r : FilterReg),
    s.inFlight = none → hostLoc s.hw a = some (.filter f r) →
    ∃ R : Filter, hostWrite a v s = { setFilter s f R with lastResp := some { status := .okay, data := 0 } } ∧
      R.metaCut = (getFilter s f).metaCut ∧ R.cut = (getFilter s f).cut ∧
      readFilter R r =
        (match r with
          | .fcfg => v &&& 7#32
          | .maxit => if v &&& 0xFF#32 = 0#32 then 1#32 else v &&& 0xFF#32
          | .lastIters => readFilter (getFilter s f) r
          | .fstat => readFilter (getFilter s f) r &&& ~~~v
          | _ => v) ∧
      ∀ r', r' ≠ r → readFilter R r' = readFilter (getFilter s f) r'

/-- R34, R35, R37, R41: what host writes of the global registers do, as read back; the read-only ones ignore them, and
nothing but these registers changes. CMD is apart. -/
def Obligations.GlobalRegisterWrites : Prop :=
  ∀ (s : State) (a : Addr) (v : Word) (r : GlobalReg),
    s.inFlight = none → hostLoc s.hw a = some (.global r) → r ≠ .cmd →
    readLoc (hostWrite a v s) (.global r) =
      (match r with
        | .ctrl => v &&& 1#32
        | .status => if v.getLsbD 1 then readLoc s (.global r) &&& ~~~2#32 else readLoc s (.global r)
        | .arg0 => v
        | .arg1 => v
        | .arg2 => v
        | .arg3 => v
        | .fadeLen => v
        | _ => readLoc s (.global r)) ∧
    (∀ r', r' ≠ r → readLoc (hostWrite a v s) (.global r') = readLoc s (.global r')) ∧
    ∃ t : State, hostWrite a v s = { s with
      ie := t.ie, done := t.done, arg0 := t.arg0, arg1 := t.arg1, arg2 := t.arg2, arg3 := t.arg3
      fadeLen := t.fadeLen, lastResp := some { status := .okay, data := 0 } }

/-- R59, R60, R61: what host writes of VCFG, VOLUME and PAN store, as read back; everything else stays as it is. -/
def Obligations.VoiceRegisterWrites : Prop :=
  ∀ (s : State) (a : Addr) (v : Word) (i : Fin 32) (r : VoiceReg),
    s.inFlight = none → hostLoc s.hw a = some (.voice i r) →
    ∃ V : Voice, hostWrite a v s = { setVoice s i V with lastResp := some { status := .okay, data := 0 } } ∧
      V = { getVoice s i with vcfg := V.vcfg, volume := V.volume, pan := V.pan } ∧
      readVoice V r =
        (match r with
          | .vcfg => v &&& 0x1F3#32
          | .volume => v
          | .pan => v) ∧
      ∀ r', r' ≠ r → readVoice V r' = readVoice (getVoice s i) r'

/-- R35, R283: the bits of STATUS, and the interrupt output. -/
def Obligations.StatusWordAndInterrupt : Prop :=
  ∀ s : State,
    (statusWord s).getLsbD 0 = busy s ∧ (statusWord s).getLsbD 1 = s.done ∧
    (statusWord s).getLsbD 2 = s.ready ∧ (statusWord s).getLsbD 3 = s.fault ∧
    (statusWord s).extractLsb' 4 4 = 0#4 ∧
    ((statusWord s).extractLsb' 8 8).toNat = faultCodeValue s.faultCode ∧
    (statusWord s).extractLsb' 16 16 = 0#16 ∧
    irq s = ((readLoc s (.global .status)).getLsbD 1 && (readLoc s (.global .ctrl)).getLsbD 0)

/-! ### Reset and invariants (spec/70_reset_and_hazards.md) -/

/-- R79: every piece of state right after reset. -/
def Obligations.ResetValues : Prop :=
  readLoc State.reset (.global .id) = 0x4C465331#32 ∧ readLoc State.reset (.global .ctrl) = 0 ∧
  readLoc State.reset (.global .status) = 0 ∧ readLoc State.reset (.global .arg0) = 0 ∧
  readLoc State.reset (.global .arg1) = 0 ∧ readLoc State.reset (.global .arg2) = 0 ∧
  readLoc State.reset (.global .arg3) = 0 ∧ readLoc State.reset (.global .result) = 0 ∧
  readLoc State.reset (.global .sampleRate) = 0 ∧ readLoc State.reset (.global .blockSize) = 0 ∧
  readLoc State.reset (.global .fadeLen) = 0 ∧ readLoc State.reset (.global .fadePos) = 0 ∧
  readLoc State.reset (.global .cmdCount) = 0 ∧ readLoc State.reset (.global .blockCount) = 0 ∧
  readLoc State.reset (.global .written) = 0 ∧ readLoc State.reset (.global .faultInfo) = 0 ∧
  readLoc State.reset (.global .pNVoice) = BitVec.ofNat 32 params.nVoice ∧
  readLoc State.reset (.global .pBlockMax) = BitVec.ofNat 32 params.blockMax ∧
  readLoc State.reset (.global .pWtLen) = BitVec.ofNat 32 params.wtLen ∧
  readLoc State.reset (.global .pWtNoct) = BitVec.ofNat 32 params.wtNoct ∧
  readLoc State.reset (.global .pWtBase) = params.wtBase ∧
  (∀ (t : OscSel) (r : OscReg), readLoc State.reset (.osc t r) = 0) ∧
  (∀ l : LfoSel, readLoc State.reset (.depth l) = 0) ∧
  (∀ (v : Fin 32) (r : VoiceReg), readLoc State.reset (.voice v r) = 0) ∧
  (∀ (f : Fin 4) (r : FilterReg), readLoc State.reset (.filter f r) =
    match r with
    | .eps => 0x3727C5AC#32
    | .maxit => 10#32
    | _ => 0#32) ∧
  (∀ a : Nat, readByte State.reset.ram a = 0) ∧
  (∀ a : Nat, readLoc State.reset (.rom a) = readWord params.rom a) ∧
  State.reset.inFlight = none ∧ State.reset.pend = none ∧ irq State.reset = false

/-- R311: while the reset input is asserted the port is ignored; asserting it abandons a command in flight whose
completion has not come; at its release every piece of state has its reset value, but for the parameters, what the host
does next, and the model's free-value counters (log entries 4, 5, 6). That the state has its reset values from the
assertion on is the model's choice, and that driving an input that is not asserted to unasserted changes nothing is
DEDUCED (log entry 11). -/
def Obligations.ResetInputRestoresResetValues : Prop :=
  ∀ (s : State) (rest : List HostEvent), (∀ c, s.inFlight = some c → c.wait ≠ 0) →
    (s.resetPin = true → s.inbox = .reset false :: rest → step s = .next { State.reset with
      hw := s.hw, inbox := rest, draws := s.draws, issues := s.issues }) ∧
    (s.resetPin = false → s.inFlight = none → s.inbox = .reset false :: rest →
      step s = .next { s with inbox := rest }) ∧
    (s.inbox = .reset true :: rest → step s = .next { State.reset with
      hw := s.hw, inbox := rest, draws := s.draws, issues := s.issues, resetPin := true }) ∧
    (∀ a v, s.inFlight = none → s.resetPin = true → s.inbox = .write a v :: rest →
      step s = .next { s with inbox := rest }) ∧
    (∀ a, s.inFlight = none → s.resetPin = true → s.inbox = .read a :: rest →
      step s = .next { s with inbox := rest }) ∧
    (s.inFlight = none → s.resetPin = true → s.inbox = .wait :: rest → step s = .next { s with inbox := rest })

/-- The invariants of Sys2Proof/Safety.lean hold right after reset. -/
def Obligations.ResetMeetsTheInvariants : Prop :=
  PhasesWrapped State.reset ∧ OctavesFollowFreq State.reset ∧ RamCanonical State.reset ∧ RamMapped State.reset ∧
    FaultRecordSound State.reset ∧ CapsPositive State.reset

/-- R46, R74: no step changes the parameters or the wavetable ROM. -/
def Obligations.ParametersNeverChange : Prop := ∀ s t : State, step s = .next t → t.hw = s.hw

/-- The sample RAM keeps its canonical form at every step. -/
def Obligations.RamCanonicalIsKept : Prop := KeptByStep RamCanonical

/-- R53, R203: every step keeps every PHASE in [0, 1), whatever FREQ, SRATE and the modulation. -/
def Obligations.PhasesStayWrapped : Prop := KeptByStep PhasesWrapped

/-- R54, R55: every step keeps every OCT the octave selected for its FREQ. -/
def Obligations.OctavesKeepFollowingFreq : Prop := KeptByStep OctavesFollowFreq

/-- R40, R73: every step keeps the session sized and the sample RAM inside the words that exist. -/
def Obligations.RamStaysMapped : Prop := KeptByStep RamMapped

/-- R67: every step keeps every iteration cap at least 1. -/
def Obligations.CapsStayPositive : Prop := KeptByStep CapsPositive

/-! ### Session commands and blocks (spec/42_block.md) -/

/-- R231: NOP completes, and that is its only effect. -/
def Obligations.NopOnlyCompletes : Prop :=
  ∀ s : State, exec .nop s = .next { s with cmdCount := s.cmdCount + 1, done := true, inFlight := none }

/-- R232: what a successful INIT sets, and that it changes nothing else. TIMESTEP is the quotient of R232's pseudocode; for
the sample rates 0x00200001 to 0x007FFFFF, where R232's corner case says +infinity, that is the model's choice (log
entry 17). -/
def Obligations.InitStartsASession : Prop :=
  ∀ s : State, isFinite s.arg0 = true → flt fZero s.arg0 = true → 1 ≤ s.arg1.toNat →
    s.arg1.toNat ≤ s.hw.blockMax →
    ∃ t, exec .init s = .next t ∧
      t = { s with
        sampleRate := s.arg0, blockSize := s.arg1, fadePos := 0, blockCount := 0
        written := { direct := false, harsh := false, soft := false }
        ready := true, filters := t.filters, voices := t.voices, ram := t.ram
        cmdCount := s.cmdCount + 1, done := true, inFlight := none } ∧
      (∀ a, readByte t.ram a = 0) ∧
      (∀ f : Fin 4, getFilter t f = { getFilter s f with
        timestep := fdiv fOne s.arg0, s := { v0 := 0, v1 := 0, v2 := 0, v3 := 0 }, xprev := 0, lastIters := 0
        fstat := { noconv := false, detzero := false, nonfinite := false }
        metaCut := { (getFilter s f).metaCut with
          osc := { (getFilter s f).metaCut.osc with srate := s.arg0, phase := 0 } }
        cut := { (getFilter s f).cut with osc := { (getFilter s f).cut.osc with srate := s.arg0, phase := 0 } } }) ∧
      (∀ v : Fin 32, v.val < s.hw.nVoice →
        (∀ o : OscSel, (o = .voice v ∨ ∃ j, o = .lfo (.voice v j)) →
          getOsc t o = { getOsc s o with srate := s.arg0, phase := 0 }) ∧
        (∀ j, (getLfo t (.voice v j)).depth = (getLfo s (.voice v j)).depth) ∧
        (getVoice t v).vcfg = (getVoice s v).vcfg ∧ (getVoice t v).volume = (getVoice s v).volume ∧
        (getVoice t v).pan = (getVoice s v).pan) ∧
      (∀ v : Fin 32, s.hw.nVoice ≤ v.val → getVoice t v = getVoice s v)

/-- R233: what TEARDOWN clears, and that every other register keeps its value. -/
def Obligations.TeardownEndsTheSession : Prop :=
  ∀ s : State, ∃ t, exec .teardown s = .next t ∧
    t = { s with
      written := { direct := false, harsh := false, soft := false }
      ready := false, filters := t.filters, ram := t.ram
      cmdCount := s.cmdCount + 1, done := true, inFlight := none } ∧
    (∀ a, readByte t.ram a = 0) ∧
    (∀ f : Fin 4, getFilter t f = { getFilter s f with s := { v0 := 0, v1 := 0, v2 := 0, v3 := 0 }, xprev := 0 })

/-- R234: BLOCK_BEGIN clears WRITTEN and touches nothing else. -/
def Obligations.BlockBeginClearsWritten : Prop :=
  ∀ s : State, s.ready = true → exec .blockBegin s = .next { s with
    written := { direct := false, harsh := false, soft := false }
    cmdCount := s.cmdCount + 1, done := true, inFlight := none }

/-- R238, R240: BLOCK_END multiplies the output sample at session position k by k / FADE_LEN while k < FADE_LEN, leaves
the later ones alone, moves FADE_POS, and counts the block. -/
def Obligations.BlockEndAppliesTheFade : Prop :=
  ∀ s : State, s.ready = true → RamCanonical s → s.blockSize.toNat ≤ 4096 →
    ∃ t, exec .blockEnd s = .next t ∧
      t = { s with
        ram := t.ram, blockCount := s.blockCount + 1
        fadePos := if s.fadePos.toNat < s.fadeLen.toNat then
          BitVec.ofNat 32 (min (s.fadePos.toNat + s.blockSize.toNat) s.fadeLen.toNat) else s.fadePos
        cmdCount := s.cmdCount + 1, done := true, inFlight := none } ∧
      (∀ b < 2, ∀ n < s.blockSize.toNat, readBuf t b n =
        if s.fadePos.toNat + n < s.fadeLen.toNat then
          fmul (readBuf s b n) (fdiv (fofNat (s.fadePos.toNat + n)) (fofNat s.fadeLen.toNat))
        else readBuf s b n) ∧
      (∀ a, ¬ inBuffer 0 s.blockSize.toNat a → ¬ inBuffer 1 s.blockSize.toNat a →
        readByte t.ram a = readByte s.ram a)

/-- R237: VOICE_RENDER completes, sets its group's WRITTEN bit, and changes only the voice's phases, its LFO buffers and
the group's two buffers. -/
def Obligations.VoiceRenderFrame : Prop :=
  ∀ (s : State) (unit : BitVec 8) (v : Fin 32) (g : Group), s.ready = true → s.blockSize.toNat ≤ 4096 →
    voiceUnit s.hw unit = some v → voiceConfigOk (getVoice s v) = true →
    groupOf (getVoice s v).vcfg.route = some g →
    ∃ t, exec (.voiceRender unit) s = .next t ∧
      t = { s with
        voices := t.voices, ram := t.ram, draws := t.draws, written := setWritten s.written g
        cmdCount := s.cmdCount + 1, done := true, inFlight := none } ∧
      (∀ v', v' ≠ v → getVoice t v' = getVoice s v') ∧
      (∃ p p1 p2 p3 p4 : Word, getVoice t v = { getVoice s v with
        osc := rephased (getVoice s v).osc p
        mf := rephasedLfo (getVoice s v).mf p1, f := rephasedLfo (getVoice s v).f p2
        ma := rephasedLfo (getVoice s v).ma p3, a := rephasedLfo (getVoice s v).a p4 } ∧
        ((getVoice s v).vcfg.enMf = false → p1 = (getVoice s v).mf.osc.phase) ∧
        ((getVoice s v).vcfg.enF = false → p2 = (getVoice s v).f.osc.phase) ∧
        ((getVoice s v).vcfg.enMa = false → p3 = (getVoice s v).ma.osc.phase) ∧
        ((getVoice s v).vcfg.enA = false → p4 = (getVoice s v).a.osc.phase)) ∧
      (∀ a, ¬ inBuffer (groupBuf g) s.blockSize.toNat a → ¬ inBuffer (groupBuf g + 1) s.blockSize.toNat a →
        ¬ ((getVoice s v).vcfg.enMf = true ∧ inBuffer (16 + 4 * v.val) s.blockSize.toNat a) →
        ¬ ((getVoice s v).vcfg.enF = true ∧ inBuffer (17 + 4 * v.val) s.blockSize.toNat a) →
        ¬ ((getVoice s v).vcfg.enMa = true ∧ inBuffer (18 + 4 * v.val) s.blockSize.toNat a) →
        ¬ ((getVoice s v).vcfg.enA = true ∧ inBuffer (19 + 4 * v.val) s.blockSize.toNat a) →
        readByte t.ram a = readByte s.ram a)

/-- R195, R196, R197, R236, R237: the values VOICE_RENDER writes. Each enabled LFO fills its buffer, a primary LFO
modulated by its meta-LFO's buffer if that is enabled; then the voice, modulated by the buffers of its enabled primary
LFOs, overwrites its group's two buffers when the group is not written yet and accumulates into both when it is. Noise
draws are taken in that order (log entry 4). -/
def Obligations.VoiceRenderOverwritesThenAccumulates : Prop :=
  ∀ (s t : State) (unit : BitVec 8) (v : Fin 32) (V : Voice) (c : Vcfg) (g : Group) (N d1 d2 d3 d4 : Nat)
    (wf mfWf fWf maWf aWf : Waveform),
    s.ready = true → N = s.blockSize.toNat → N ≤ 4096 → RamCanonical s → voiceUnit s.hw unit = some v →
    V = getVoice s v → c = V.vcfg → groupOf c.route = some g → waveformOf V.osc.kind = some wf →
    (c.enMf = true → waveformOf V.mf.osc.kind = some mfWf) → (c.enF = true → waveformOf V.f.osc.kind = some fWf) →
    (c.enMa = true → waveformOf V.ma.osc.kind = some maWf) → (c.enA = true → waveformOf V.a.osc.kind = some aWf) →
    d1 = s.draws + drawsIf c.enMf mfWf N → d2 = d1 + drawsIf c.enMa maWf N → d3 = d2 + drawsIf c.enF fWf N →
    d4 = d3 + drawsIf c.enA aWf N → exec (.voiceRender unit) s = .next t →
    (c.enMf = true → (getVoice t v).mf.osc.phase = phaseAfter (fun _ => none) V.mf.osc N ∧
      ∀ n < N, readBuf t (16 + 4 * v.val) n =
        blockSample prims s.hw mfWf V.mf.osc (fun _ => none) (fun _ => V.mf.depth) s.draws n) ∧
    (c.enMa = true → (getVoice t v).ma.osc.phase = phaseAfter (fun _ => none) V.ma.osc N ∧
      ∀ n < N, readBuf t (18 + 4 * v.val) n =
        blockSample prims s.hw maWf V.ma.osc (fun _ => none) (fun _ => V.ma.depth) d1 n) ∧
    (c.enF = true →
      (getVoice t v).f.osc.phase = phaseAfter (modulation t c.enMf (16 + 4 * v.val)) V.f.osc N ∧
      ∀ n < N, readBuf t (17 + 4 * v.val) n =
        blockSample prims s.hw fWf V.f.osc (modulation t c.enMf (16 + 4 * v.val)) (fun _ => V.f.depth) d2 n) ∧
    (c.enA = true →
      (getVoice t v).a.osc.phase = phaseAfter (modulation t c.enMa (18 + 4 * v.val)) V.a.osc N ∧
      ∀ n < N, readBuf t (19 + 4 * v.val) n =
        blockSample prims s.hw aWf V.a.osc (modulation t c.enMa (18 + 4 * v.val)) (fun _ => V.a.depth) d3 n) ∧
    (getVoice t v).osc.phase = phaseAfter (modulation t c.enF (17 + 4 * v.val)) V.osc N ∧
    t.draws = d4 + drawsIf true wf N ∧
    ∀ b < 2, ∀ n < N, ∀ x,
      x = blockSample prims s.hw wf V.osc (modulation t c.enF (17 + 4 * v.val))
        (amplitude t V.volume c.enA (19 + 4 * v.val)) d4 n →
      readBuf t (groupBuf g + b) n = if writtenBit s.written g then fadd (readBuf s (groupBuf g + b) n) x else x

/-- R239, R241: PROCESS_BLOCK gives the same end state as its parts issued one by one, except that CMD_COUNT grows by
one. -/
def Obligations.ProcessBlockIsItsPartsInOrder : Prop :=
  ∀ s : State, s.ready = true → configOk s .processBlock = true →
    ∃ t u, exec .processBlock s = .next t ∧
      runCommands (.blockBegin :: ((enabledVoices s).map fun v => Instr.voiceRender (BitVec.ofNat 8 v.val)) ++
        ((enabledFilters s).map fun f => Instr.filterBlock (BitVec.ofNat 8 f.val)) ++ [.blockEnd]) s = .next u ∧
      t = { u with cmdCount := s.cmdCount + 1 }

/-- R61: no command reads PAN: changing it before a command is changing it after. -/
def Obligations.PanIsNeverRead : Prop :=
  ∀ (i : Instr) (s t : State) (v : Fin 32) (p : Word),
    exec i s = .next t → exec i (withPan s v p) = .next (withPan t v p)

/-- R38: RESULT is written only by FILTER_STEP and OSC_NEXT, is read-only at offset 0x020, and resets to +0.0. -/
def Obligations.ResultIsWrittenByScalarCommandsOnly : Prop :=
  (∀ (i : Instr) (s t : State), exec i s = .next t → t.result ≠ s.result →
    (∃ u, i = .filterStep u) ∨ (∃ u b c, i = .oscNext u b c)) ∧
  (∀ (s : State) (v : Word), hostLoc s.hw 0x000020#24 = some (.global .result) ∧
    readLoc s (.global .result) = s.result ∧ (hostWrite 0x000020#24 v s).result = s.result) ∧
  State.reset.result = 0x00000000#32

/-! ### The ladder filter (spec/40_filter.md) -/

/-- R155, R156, R160: FILTER_STEP commits the last guess, the raw input, the iteration count and the flags, and puts
S3 * OUT_GAIN in RESULT; it changes nothing else. A NaN input or modulation makes every state component and RESULT the
canonical NaN after MAXIT updates. With CUTOFF + m zero the state does not move, bit for bit, where no other operand makes
a NaN (the bounds are the model's choice, log entry 16). -/
def Obligations.FilterStepCommits : Prop :=
  ∀ (s : State) (unit : BitVec 8) (f : Fin 4) (R : Filter) (r : NewtonEnd),
    s.ready = true → filterUnit unit = some f → R = getFilter s f → r = newtonSolve prims R s.arg0 s.arg1 →
    (exec (.filterStep unit) s = .next { setFilter s f { R with
        s := r.g
        xprev := s.arg0
        lastIters := BitVec.ofNat 8 r.k
        fstat :=
          { noconv := R.fstat.noconv || !r.conv
            detzero := R.fstat.detzero || r.detzero
            nonfinite := R.fstat.nonfinite ||
              !(isFinite r.g.v0 && isFinite r.g.v1 && isFinite r.g.v2 && isFinite r.g.v3) } } with
      result := fmul r.g.v3 R.outGain
      cmdCount := s.cmdCount + 1
      done := true
      inFlight := none }) ∧
    (isNaN s.arg0 = true ∨ isNaN s.arg1 = true → R.maxit ≠ 0 →
      r.g = { v0 := qNaN, v1 := qNaN, v2 := qNaN, v3 := qNaN } ∧ r.k = R.maxit.toNat ∧ r.conv = false ∧
        r.detzero = false ∧ fmul r.g.v3 R.outGain = qNaN) ∧
    (isZero (fadd R.cutoff s.arg1) = true → isFinite (fmul fMinusTwo R.timestep) = true → isFinite R.res = true →
      isFinite R.s.v0 = true → isFinite R.s.v1 = true → isFinite R.s.v2 = true → isFinite R.s.v3 = true →
      isNaN (fadd (fmul (fmul fFour R.res) R.s.v3) R.xprev) = false →
      isNaN (fadd (fmul (fmul fFour R.res) R.s.v3) (fmul s.arg0 R.inGain)) = false →
      r.g = R.s ∧ r.detzero = false ∧ (R.maxit ≠ 0 → fle fZero R.eps = true → r.k = 1 ∧ r.conv = true))

/-- R142, R143, R146 to R152, R162, R165, R166: each update is the step's pseudocode, component by component, with S3MODE
and JMODE as they say; a step makes between 1 and MAXIT updates from the state; the committed guess is the last one; it
stops at the first update whose L1 norm is at most EPS, and otherwise at the cap; DETZERO says whether a determinant was
zero. With S3MODE = 0 the fourth field component is a zero where w is finite and v3 no NaN; R142 and
R165 do not bound w, and for an infinite or NaN w the update follows the operators, to a NaN, which is the model's choice
(log entry 16). -/
def Obligations.NewtonIterationIsBounded : Prop :=
  (∀ (F : Prims) (R : Filter) (x m : Word) (r : NewtonEnd), R.maxit ≠ 0 → r = newtonSolve F R x m →
    1 ≤ r.k ∧ r.k ≤ R.maxit.toNat ∧ (r.conv = false → r.k = R.maxit.toNat) ∧
    r.g = guessAfter F R x m r.k ∧
    (r.conv = true ↔ testMet F R x m (r.k - 1) = true) ∧
    (∀ j < r.k - 1, testMet F R x m j = false) ∧
    (r.detzero = true ↔
      ∃ j < r.k, isZero (newtonUpdate F (stepConsts F R x m) (guessAfter F R x m j)).2 = true)) ∧
  (∀ (F : Prims) (R : Filter) (x m : Word) (g : Quad),
    (∀ i, quadAt (newtonUpdate F (stepConsts F R x m) g).1 i = (updateAt F R x m (quadAt g)).1 i) ∧
    (newtonUpdate F (stepConsts F R x m) g).2 = (updateAt F R x m (quadAt g)).2) ∧
  ∀ (w k4r z : Word) (v : Quad), isFinite w = true → isNaN v.v3 = false →
    isZero (field prims false w k4r v z).e.v3 = true

/-- R161: FILTER_BLOCK completes and overwrites both LFO buffers, the cutoff LFO's modulated by the meta-cutoff LFO's, for
the whole block; it changes only the filter's record, these two buffers and its output buffer. The values it adds to the
output buffer are FilterBlockIsStepsFedOneAtATime's. -/
def Obligations.FilterBlockFrame : Prop :=
  ∀ (s : State) (unit : BitVec 8) (f : Fin 4) (R : Filter) (N : Nat) (metaWf cutWf : Waveform), s.ready = true →
    N = s.blockSize.toNat → N ≤ 4096 → filterUnit unit = some f → R = getFilter s f →
    waveformOf R.metaCut.osc.kind = some metaWf → waveformOf R.cut.osc.kind = some cutWf →
    ∃ t, exec (.filterBlock unit) s = .next t ∧
      t = { s with
        filters := t.filters, ram := t.ram, draws := s.draws + drawsIf true metaWf N + drawsIf true cutWf N
        cmdCount := s.cmdCount + 1, done := true, inFlight := none } ∧
      (∀ f', f' ≠ f → getFilter t f' = getFilter s f') ∧
      getFilter t f = { R with
        s := (getFilter t f).s, xprev := (getFilter t f).xprev, lastIters := (getFilter t f).lastIters
        fstat := (getFilter t f).fstat
        metaCut := rephasedLfo R.metaCut (phaseAfter (fun _ => none) R.metaCut.osc N)
        cut := rephasedLfo R.cut (phaseAfter (modulation t true (8 + 2 * f.val)) R.cut.osc N) } ∧
      (∀ a, ¬ inBuffer (f.val % 2) N a → ¬ inBuffer (8 + 2 * f.val) N a →
        ¬ inBuffer (9 + 2 * f.val) N a → readByte t.ram a = readByte s.ram a) ∧
      (RamCanonical s → ∀ n < N,
        readBuf t (8 + 2 * f.val) n =
          blockSample prims s.hw metaWf R.metaCut.osc (fun _ => none) (fun _ => R.metaCut.depth) s.draws n ∧
        readBuf t (9 + 2 * f.val) n =
          blockSample prims s.hw cutWf R.cut.osc (modulation t true (8 + 2 * f.val)) (fun _ => R.cut.depth)
            (s.draws + drawsIf true metaWf N) n)

/-- R164: FILTER_BLOCK gives the filter state, and adds to the output, exactly what FILTER_STEPs fed with the same
samples and the same modulation give. -/
def Obligations.FilterBlockIsStepsFedOneAtATime : Prop :=
  ∀ (s t : State) (unit : BitVec 8) (f : Fin 4), s.ready = true → s.blockSize.toNat ≤ 4096 → RamCanonical s →
    filterUnit unit = some f → filterConfigOk (getFilter s f) = true → exec (.filterBlock unit) s = .next t →
    ∀ xm : Nat → Word × Word,
      (∀ n, xm n = (if writtenBit s.written (filterGroup f) then readBuf s (2 + f.val) n else fZero,
        readBuf t (9 + 2 * f.val) n)) →
      (getFilter t f).s = (getFilter (fedSteps unit xm s s.blockSize.toNat) f).s ∧
      (getFilter t f).xprev = (getFilter (fedSteps unit xm s s.blockSize.toNat) f).xprev ∧
      (getFilter t f).fstat = (getFilter (fedSteps unit xm s s.blockSize.toNat) f).fstat ∧
      (getFilter t f).lastIters = (getFilter (fedSteps unit xm s s.blockSize.toNat) f).lastIters ∧
      ∀ n < s.blockSize.toNat, readBuf t (f.val % 2) n =
        fadd (readBuf s (f.val % 2) n) (fedSteps unit xm s (n + 1)).result

/-- R244: a filter never reads a voice record: changing a voice before FILTER_BLOCK is changing it after. -/
def Obligations.FiltersDoNotReadVoices : Prop :=
  ∀ (s t : State) (unit : BitVec 8) (v : Fin 32) (V : Voice),
    exec (.filterBlock unit) s = .next t → exec (.filterBlock unit) (setVoice s v V) = .next (setVoice t v V)

/-- R163 as the spec writes it: with zero state and inputs, finite non-negative TIMESTEP, w and RES, and EPS at least 0,
a step makes one update and everything stays zero. It does not bound IN_GAIN, OUT_GAIN or the products, and it FAILS (an
infinite IN_GAIN makes the scaled input NaN); log entry 10. -/
def Obligations.SilentStepStaysSilentAsWritten : Prop :=
  ∀ (R : Filter) (x m : Word) (r : NewtonEnd), r = newtonSolve prims R x m → R.maxit ≠ 0 →
    isZero R.s.v0 = true → isZero R.s.v1 = true → isZero R.s.v2 = true → isZero R.s.v3 = true →
    isZero R.xprev = true → isZero x = true →
    isFinite R.timestep = true → fle fZero R.timestep = true →
    isFinite (fmul (fadd R.cutoff m) fTwoPi) = true → fle fZero (fmul (fadd R.cutoff m) fTwoPi) = true →
    isFinite R.res = true → fle fZero R.res = true → fle fZero R.eps = true →
    r.k = 1 ∧ isZero r.g.v0 = true ∧ isZero r.g.v1 = true ∧ isZero r.g.v2 = true ∧ isZero r.g.v3 = true ∧
      isZero (ladderOut prims R x m) = true

/-- R163 where the gains are finite and the Jacobian's constants are moderate (0 <= a <= 1, -1 <= c2 <= 0): a silent
step stays silent; log entry 10 says why the bounds are there. -/
def Obligations.SilentStepStaysSilentWhenModerate : Prop :=
  ∀ (R : Filter) (x m : Word) (r : NewtonEnd) (c : StepConsts),
    r = newtonSolve prims R x m → c = stepConsts prims R x m → R.maxit ≠ 0 →
    isZero R.s.v0 = true → isZero R.s.v1 = true → isZero R.s.v2 = true → isZero R.s.v3 = true →
    isZero R.xprev = true → isZero x = true → fle fZero R.eps = true →
    isFinite R.inGain = true → isFinite R.outGain = true → isFinite c.w = true → isFinite c.h = true →
    isFinite c.k4r = true → fle fZero c.a = true → fle c.a fOne = true →
    fle 0xBF800000#32 c.c2 = true → fle c.c2 fZero = true →
    r.k = 1 ∧ r.conv = true ∧ isZero r.g.v0 = true ∧ isZero r.g.v1 = true ∧ isZero r.g.v2 = true ∧
      isZero r.g.v3 = true ∧ isZero (ladderOut prims R x m) = true

/-! ### Oscillators and LFOs (spec/41_oscillator.md) -/

/-- R193, R194, R195, R200, R205: OSC_NEXT advances the phase with ARG0 as modulation, evaluates at the new phase, and puts
ARG1 times the value in RESULT. A noise value is the next free draw (log entry 4), whatever it is. A table value
interpolates between two neighbouring words of the table, the second wrapping round, both in range; where their
difference overflows it is what the operators give (log entry 16). -/
def Obligations.OscNextAdvancesThenEvaluates : Prop :=
  (∀ (s : State) (unit : BitVec 8) (sub : BitVec 4) (cls : Bool) (t : OscSel) (wf : Waveform) (o : Osc),
    s.ready = true → oscTarget s.hw unit sub cls = some t → waveformOf (getOsc s t).kind = some wf →
    o = { getOsc s t with
      phase := wrap (fadd (getOsc s t).phase (fdiv (fadd (getOsc s t).freq s.arg0) (getOsc s t).srate)) } →
    exec (.oscNext unit sub cls) s = .next { setOsc s t o with
      result := fmul s.arg1 (match wf with
        | .sine => prims.sin (fmul fTwoPi o.phase)
        | .table k => tableValue s.hw k o.oct o.phase
        | .noise => prims.noise s.draws)
      draws := if wf = .noise then s.draws + 1 else s.draws
      cmdCount := s.cmdCount + 1
      done := true
      inFlight := none }) ∧
  ∀ (p : Params) (k : Fin 3) (oct : BitVec 4) (ph pos t0 t1 : Word) (i0 i1 : Nat),
    paramsLegal p = true → oct.toNat < p.wtNoct → inUnitInterval ph = true →
    pos = fmul ph (fofNat p.wtLen) → i0 = min (floorInt pos).toNat (p.wtLen - 1) → i1 = (i0 + 1) % p.wtLen →
    t0 = readWord p.rom (romAddr k.val oct.toNat i0) → t1 = readWord p.rom (romAddr k.val oct.toNat i1) →
    tableValue p k oct ph = fadd t0 (fmul (fsub pos (fofNat i0)) (fsub t1 t0)) ∧
    0 ≤ floorInt pos ∧ fle pos (fofNat p.wtLen) = true ∧
    fle fZero (fsub pos (fofNat i0)) = true ∧ fle (fsub pos (fofNat i0)) fOne = true ∧
    locate p (romAddr k.val oct.toNat i0) = some (.rom (romAddr k.val oct.toNat i0)) ∧
    locate p (romAddr k.val oct.toNat i1) = some (.rom (romAddr k.val oct.toNat i1))

/-- R193, R195, R196, R201: OSC_RENDER completes and changes only the oscillator's PHASE and words 0..N-1 of its
destination, the buffer after it too unless MONO. With OVW each of them is the sample's value, without OVW the old word
plus it; UFM and UAM take the modulation from the buffers of ARG1 and ARG2, as they were before the command. -/
def Obligations.OscRenderFrame : Prop :=
  ∀ (s : State) (unit : BitVec 8) (sub : BitVec 4) (cls ovw mono ufm uam : Bool) (o : OscSel) (wf : Waveform) (N : Nat),
    s.ready = true → N = s.blockSize.toNat → N ≤ 4096 → oscTarget s.hw unit sub cls = some o →
    buffersOk s mono ufm uam = true → waveformOf (getOsc s o).kind = some wf →
    ∃ t, exec (.oscRender unit sub cls ovw mono ufm uam) s = .next t ∧
      t = { setOsc s o (rephased (getOsc s o) (phaseAfter (modulation s ufm s.arg1.toNat) (getOsc s o) N)) with
        ram := t.ram, draws := s.draws + drawsIf true wf N
        cmdCount := s.cmdCount + 1, done := true, inFlight := none } ∧
      (∀ a, ¬ inBuffer s.arg0.toNat N a → ¬ (mono = false ∧ inBuffer (s.arg0.toNat + 1) N a) →
        readByte t.ram a = readByte s.ram a) ∧
      (RamCanonical s → ∀ b, b = s.arg0.toNat ∨ (mono = false ∧ b = s.arg0.toNat + 1) → ∀ n < N, ∀ x,
        x = blockSample prims s.hw wf (getOsc s o) (modulation s ufm s.arg1.toNat)
          (amplitude s s.arg3 uam s.arg2.toNat) s.draws n →
        readBuf t b n = if ovw then x else fadd (readBuf s b n) x)

/-- R57, R193, R195, R196, R197, R202: LFO_PRODUCE completes and changes only the LFO's PHASE and words 0..N-1 of its own
buffer, which it overwrites, never accumulating, with DEPTH times the waveform at the successive phases; with UFM the
phases are modulated by the buffer of the paired meta-LFO as it stands. -/
def Obligations.LfoProduceOverwritesItsOwnBuffer : Prop :=
  ∀ (s : State) (unit : BitVec 8) (sub : BitVec 4) (cls ufm : Bool) (l : LfoSel) (wf : Waveform) (N : Nat)
    (fm : Nat → Option Word),
    s.ready = true → N = s.blockSize.toNat → N ≤ 4096 → lfoTarget s.hw unit sub cls = some l →
    (ufm = true → (metaOf l).isSome = true) → waveformOf (getLfo s l).osc.kind = some wf →
    fm = (fun n => if ufm then (metaOf l).map (fun j => readBuf s (lfoBuffer j) n) else none) →
    ∃ t, exec (.lfoProduce unit sub cls ufm) s = .next t ∧
      t = { setLfo s l (rephasedLfo (getLfo s l) (phaseAfter fm (getLfo s l).osc N)) with
        ram := t.ram, draws := s.draws + drawsIf true wf N
        cmdCount := s.cmdCount + 1, done := true, inFlight := none } ∧
      (∀ a, ¬ inBuffer (lfoBuffer l) N a → readByte t.ram a = readByte s.ram a) ∧
      (RamCanonical s → ∀ n < N, readBuf t (lfoBuffer l) n =
        blockSample prims s.hw wf (getLfo s l).osc fm (fun _ => (getLfo s l).depth) s.draws n)

/-- R203: after any phase advance and after any host write of PHASE, PHASE lies in [0, 1) and is neither -0 nor NaN, for
every FREQ, SRATE and modulation. R191: WRAP(v) is v - FLOOR(v) where that is below 1, and +0 where it is not or v is not
finite. -/
def Obligations.PhaseAdvanceLandsInUnitInterval : Prop :=
  (∀ (fm : Option Word) (o : Osc), inUnitInterval (advance fm o).phase = true) ∧
  (∀ (p : Params) (v : Word) (o : Osc), inUnitInterval (writeOsc p .phase v o).phase = true) ∧
  (∀ v : Word, isFinite v = false → wrap v = 0x00000000#32) ∧
  (∀ v : Word, isFinite v = true → flt (fsub v (ffloor v)) fOne = true → wrap v = fsub v (ffloor v)) ∧
  (∀ v : Word, isFinite v = true → flt (fsub v (ffloor v)) fOne = false →
    feq (fsub v (ffloor v)) fOne = true ∧ wrap v = 0x00000000#32)

/-- R204: octave selection is monotone; a NaN selects the last octave. R192: it selects the smallest octave n with
WT_BASE * 2^(n+1) > f, capped at the last octave. -/
def Obligations.OctaveSelectionIsMonotone : Prop :=
  (∀ (p : Params) (f1 f2 : Word), fle f1 f2 = true → octSel p f1 ≤ octSel p f2) ∧
  (∀ (p : Params) (fr : Word), isNaN fr = true → octSel p fr = p.wtNoct - 1) ∧
  ∀ (p : Params) (fr : Word) (n : Nat), n = octSel p fr →
    n ≤ p.wtNoct - 1 ∧ (n = p.wtNoct - 1 ∨ flt fr (fmul p.wtBase (fofNat (2 ^ (n + 1)))) = true) ∧
    ∀ k < n, flt fr (fmul p.wtBase (fofNat (2 ^ (k + 1)))) = false

/-! ### Arithmetic and primitives (spec/00_scope.md) -/

/-- R12, R13: the one rounding of every operation is to nearest, ties to even, subnormals kept; from the midpoint above
the largest finite value on it overflows to infinity. On finite operands a + b, a * b, a / b (b not zero) and the integer
conversion are the exact result so rounded, a - b is a + (-b), and floor is exact. The sign of an exact zero sum is
DEDUCED (log entry 3). -/
def Obligations.RoundingIsToNearestEven : Prop :=
  (∀ num den : Nat, 0 < den →
    (roundMag num den = infMag ↔ (2 ^ 25 - 1) * 2 ^ 252 * den ≤ num) ∧
    (roundMag num den < infMag → ∀ m < infMag,
      ((num : Int) - (den * magUnits (roundMag num den) : Nat)).natAbs ≤
        ((num : Int) - (den * magUnits m : Nat)).natAbs ∧
      (((num : Int) - (den * magUnits (roundMag num den) : Nat)).natAbs =
        ((num : Int) - (den * magUnits m : Nat)).natAbs → m ≠ roundMag num den →
        roundMag num den % 2 = 0))) ∧
  ∀ x y : Word, isFinite x = true → isFinite y = true →
    (wordValue x + wordValue y ≠ 0 → fadd x y =
      fpack (decide (wordValue x + wordValue y < 0)) (roundMag (wordValue x + wordValue y).natAbs 1)) ∧
    (wordValue x + wordValue y = 0 → fadd x y = fpack (x.getLsbD 31 && y.getLsbD 31) 0) ∧
    (fsub x y = fadd x (fneg y) ∧ isFinite (fneg y) = true ∧ wordValue (fneg y) = -wordValue y) ∧
    fmul x y = fpack (x.getLsbD 31 != y.getLsbD 31) (roundMag (wordUnits x * wordUnits y) (2 ^ 149)) ∧
    (wordUnits y ≠ 0 → fdiv x y =
      fpack (x.getLsbD 31 != y.getLsbD 31) (roundMag (wordUnits x * 2 ^ 149) (wordUnits y))) ∧
    (isFinite (ffloor x) = true ∧ wordValue (ffloor x) = wordValue x / 2 ^ 149 * 2 ^ 149) ∧
    ∀ k : Nat, fofNat k = fpack false (roundMag (k * 2 ^ 149) 1)

/-- R12, R13: a sum, difference, product or quotient that is NaN is the canonical NaN, whatever the operands were, and it
is one where an operand is NaN; so is floor of a NaN (DEDUCED: log entry 3). Unary minus and abs touch the sign bit alone,
also on a NaN. The IEEE results for infinite operands and for division by zero (PRESUMED: log entry 3). The comparisons
are false on a NaN and otherwise order the values, both zeros equal and the infinities outermost. -/
def Obligations.NanResultsAreCanonical : Prop :=
  ∀ x y : Word, ∀ neg : Bool, neg = (x.getLsbD 31 != y.getLsbD 31) →
    ((isNaN (fadd x y) = true → fadd x y = 0x7FC00000#32) ∧ (isNaN (fsub x y) = true → fsub x y = 0x7FC00000#32) ∧
      (isNaN (fmul x y) = true → fmul x y = 0x7FC00000#32) ∧ (isNaN (fdiv x y) = true → fdiv x y = 0x7FC00000#32) ∧
      (isNaN (ffloor x) = true → ffloor x = 0x7FC00000#32) ∧
      (isNaN x = true ∨ isNaN y = true → isNaN (fadd x y) = true ∧ isNaN (fsub x y) = true ∧
        isNaN (fmul x y) = true ∧ isNaN (fdiv x y) = true) ∧
      (isNaN x = true → isNaN (ffloor x) = true) ∧ fneg x = x ^^^ 0x80000000#32 ∧ fabs x = x &&& 0x7FFFFFFF#32) ∧
    (isNaN x = false → isNaN y = false →
      (isInf x = true → isInf y = true →
        fadd x y = (if neg then 0x7FC00000#32 else x) ∧ fsub x y = (if neg then x else 0x7FC00000#32) ∧
        fdiv x y = 0x7FC00000#32) ∧
      (isInf x = true → isInf y = false → fadd x y = x ∧ fsub x y = x ∧ fdiv x y = infinity neg) ∧
      (isInf x = false → isInf y = true → fadd x y = y ∧ fsub x y = fneg y ∧
        fdiv x y = (if neg then 0x80000000#32 else 0x00000000#32)) ∧
      (isInf x = true ∨ isInf y = true →
        fmul x y = if isZero x || isZero y then 0x7FC00000#32 else infinity neg) ∧
      (isZero y = true → fdiv x y = if isZero x then 0x7FC00000#32 else infinity neg) ∧
      (isInf x = true ∨ isZero x = true → ffloor x = x)) ∧
    (isNaN x = true ∨ isNaN y = true → flt x y = false ∧ fle x y = false ∧ feq x y = false) ∧
    (isNaN x = false → isNaN y = false →
      (flt x y = true ↔ wordValue x < wordValue y) ∧ (fle x y = true ↔ wordValue x ≤ wordValue y) ∧
      (feq x y = true ↔ wordValue x = wordValue y))

/-- R17: what the spec requires of TANH and SIN; the model's prims meet it because they are cut down to it (DESIGN CHOICE:
log entry 2). -/
def Obligations.TanhAndSinMeetTheirConstraints : Prop :=
  prims.tanh 0x00000000#32 = 0x00000000#32 ∧ prims.tanh 0x80000000#32 = 0x80000000#32 ∧
  ∀ a : Word,
    (isNaN a = true → prims.tanh a = 0x7FC00000#32) ∧
    (isNaN a = false → fle 0xBF800000#32 (prims.tanh a) = true ∧ fle (prims.tanh a) fOne = true) ∧
    (isNaN a = true ∨ isInf a = true → prims.sin a = 0x7FC00000#32) ∧
    (isNaN a = false → isInf a = false →
      fle 0xBF800000#32 (prims.sin a) = true ∧ fle (prims.sin a) fOne = true)

/-- R8, R19: the parameters are in their legal ranges, and every noise draw lies in [-1, 1]. -/
def Obligations.ParametersAndNoiseAreLegal : Prop :=
  paramsLegal params = true ∧
  ∀ k : Nat, fle 0xBF800000#32 (prims.noise k) = true ∧ fle (prims.noise k) fOne = true
end

