-- ==== Sys2Proof/Laws/Decode.lean ====
section
/-! SUPPORT. The fields of an assembled command word (R111), bit by bit. -/

namespace Sys2Proof

/-- The bits of an assembled word, by place (R111). -/
theorem getLsbD_assemble (op unit : BitVec 8) (sub : BitVec 4) (cls fl0 fl1 fl2 fl3 : Bool) (i : Nat) :
    (assemble op unit sub cls fl0 fl1 fl2 fl3).getLsbD i =
      if i < 8 then op.getLsbD i
      else if i < 16 then unit.getLsbD (i - 8)
      else if i < 20 then sub.getLsbD (i - 16)
      else if i = 20 then cls
      else if i = 21 then fl0
      else if i = 22 then fl1
      else if i = 23 then fl2
      else if i = 24 then fl3
      else false := by
  unfold assemble
  simp only [BitVec.getLsbD_append, BitVec.getLsbD_ofBool, BitVec.getLsbD_zero]
  by_cases h1 : i < 8
  · simp [h1]
  by_cases h2 : i < 16
  · simp [h1, h2, show i - 8 < 8 by omega]
  by_cases h3 : i < 20
  · obtain rfl | rfl | rfl | rfl : i = 16 ∨ i = 17 ∨ i = 18 ∨ i = 19 := by omega
    all_goals simp
  by_cases h4 : i < 25
  · obtain rfl | rfl | rfl | rfl | rfl : i = 20 ∨ i = 21 ∨ i = 22 ∨ i = 23 ∨ i = 24 := by omega
    all_goals simp
  · simp only [h1, h2, h3, if_false]
    simp [show ¬ i - 8 < 8 by omega, show ¬ i - 8 - 8 < 4 by omega, show ¬ i - 8 - 8 - 4 < 1 by omega,
      show ¬ i - 8 - 8 - 4 - 1 < 1 by omega, show ¬ i - 8 - 8 - 4 - 1 - 1 < 1 by omega,
      show ¬ i - 8 - 8 - 4 - 1 - 1 - 1 < 1 by omega, show ¬ i - 8 - 8 - 4 - 1 - 1 - 1 - 1 < 1 by omega,
      show i ≠ 20 by omega, show i ≠ 21 by omega, show i ≠ 22 by omega, show i ≠ 23 by omega,
      show i ≠ 24 by omega]

@[simp] theorem fieldOp_assemble (op unit : BitVec 8) (sub : BitVec 4) (cls fl0 fl1 fl2 fl3 : Bool) :
    fieldOp (assemble op unit sub cls fl0 fl1 fl2 fl3) = op := by
  apply BitVec.eq_of_getLsbD_eq
  intro i hi
  simp [fieldOp, getLsbD_assemble, hi]

@[simp] theorem fieldUnit_assemble (op unit : BitVec 8) (sub : BitVec 4) (cls fl0 fl1 fl2 fl3 : Bool) :
    fieldUnit (assemble op unit sub cls fl0 fl1 fl2 fl3) = unit := by
  apply BitVec.eq_of_getLsbD_eq
  intro i hi
  simp [fieldUnit, getLsbD_assemble, hi, show 8 + i < 16 by omega]

@[simp] theorem fieldSub_assemble (op unit : BitVec 8) (sub : BitVec 4) (cls fl0 fl1 fl2 fl3 : Bool) :
    fieldSub (assemble op unit sub cls fl0 fl1 fl2 fl3) = sub := by
  apply BitVec.eq_of_getLsbD_eq
  intro i hi
  simp [fieldSub, getLsbD_assemble, hi, show ¬ 16 + i < 8 by omega, show 16 + i < 20 by omega]

@[simp] theorem fieldCls_assemble (op unit : BitVec 8) (sub : BitVec 4) (cls fl0 fl1 fl2 fl3 : Bool) :
    fieldCls (assemble op unit sub cls fl0 fl1 fl2 fl3) = cls := by
  unfold fieldCls
  rw [getLsbD_assemble]
  simp

@[simp] theorem fieldFl0_assemble (op unit : BitVec 8) (sub : BitVec 4) (cls fl0 fl1 fl2 fl3 : Bool) :
    fieldFl0 (assemble op unit sub cls fl0 fl1 fl2 fl3) = fl0 := by
  unfold fieldFl0
  rw [getLsbD_assemble]
  simp

@[simp] theorem fieldFl1_assemble (op unit : BitVec 8) (sub : BitVec 4) (cls fl0 fl1 fl2 fl3 : Bool) :
    fieldFl1 (assemble op unit sub cls fl0 fl1 fl2 fl3) = fl1 := by
  unfold fieldFl1
  rw [getLsbD_assemble]
  simp

@[simp] theorem fieldFl2_assemble (op unit : BitVec 8) (sub : BitVec 4) (cls fl0 fl1 fl2 fl3 : Bool) :
    fieldFl2 (assemble op unit sub cls fl0 fl1 fl2 fl3) = fl2 := by
  unfold fieldFl2
  rw [getLsbD_assemble]
  simp

@[simp] theorem fieldFl3_assemble (op unit : BitVec 8) (sub : BitVec 4) (cls fl0 fl1 fl2 fl3 : Bool) :
    fieldFl3 (assemble op unit sub cls fl0 fl1 fl2 fl3) = fl3 := by
  unfold fieldFl3
  rw [getLsbD_assemble]
  simp

/-- The bits from 25 up are zero. -/
theorem assemble_mask_flags (op unit : BitVec 8) (sub : BitVec 4) (cls fl0 fl1 fl2 fl3 : Bool) :
    assemble op unit sub cls fl0 fl1 fl2 fl3 &&& ~~~0x01FFFFFF#32 = 0#32 := by
  apply BitVec.eq_of_getLsbD_eq
  intro i hi
  simp only [BitVec.getLsbD_and, getLsbD_assemble, BitVec.getLsbD_zero]
  interval_cases i <;> simp

/-- With FL1, FL2, FL3 clear the bits from 22 up are zero. -/
theorem assemble_mask_fl0 (op unit : BitVec 8) (sub : BitVec 4) (cls fl0 : Bool) :
    assemble op unit sub cls fl0 false false false &&& ~~~0x003FFFFF#32 = 0#32 := by
  apply BitVec.eq_of_getLsbD_eq
  intro i hi
  simp only [BitVec.getLsbD_and, getLsbD_assemble, BitVec.getLsbD_zero]
  interval_cases i <;> simp

/-- With no flag set the bits from 21 up are zero. -/
theorem assemble_mask_cls (op unit : BitVec 8) (sub : BitVec 4) (cls : Bool) :
    assemble op unit sub cls false false false false &&& ~~~0x001FFFFF#32 = 0#32 := by
  apply BitVec.eq_of_getLsbD_eq
  intro i hi
  simp only [BitVec.getLsbD_and, getLsbD_assemble, BitVec.getLsbD_zero]
  interval_cases i <;> simp

/-- With a unit alone the bits from 16 up are zero. -/
theorem assemble_mask_unit (op unit : BitVec 8) :
    assemble op unit 0 false false false false false &&& ~~~0x0000FFFF#32 = 0#32 := by
  apply BitVec.eq_of_getLsbD_eq
  intro i hi
  simp only [BitVec.getLsbD_and, getLsbD_assemble, BitVec.getLsbD_zero]
  interval_cases i <;> simp

end Sys2Proof
end

