-- ==== Sys2Proof/Laws/Memory.lean ====
section
/-! SUPPORT. The laws of memory: what a byte and a word read after a write, that every write keeps the canonical form,
that equal reads make equal memories, and that buffers do not overlap. -/

namespace Sys2Proof.Machine

@[simp] theorem readByte_nil (a : Nat) : readByte [] a = 0 := rfl

/-- A write leaves every other byte alone, on any list. -/
theorem readByte_writeByte_ne (m : Memory) (a x : Nat) (v : Byte) (h : x ≠ a) :
    readByte (writeByte m a v) x = readByte m x := by
  induction m with
  | nil => by_cases hv : v = 0#8 <;> simp [writeByte, hv, readByte, Ne.symm h]
  | cons c m ih =>
    unfold writeByte
    by_cases h1 : a < c.1
    · by_cases hv : v = 0#8 <;> simp [h1, hv, readByte, Ne.symm h]
    · by_cases h2 : a = c.1
      · have hc : c.1 ≠ x := fun e => h (e ▸ h2 ▸ rfl)
        by_cases hv : v = 0#8
        · simp [h2, hv, readByte, hc]
        · simp [h2, hv, readByte, hc]
      · simp [h1, h2, readByte, ih]

/-- Below every listed address nothing is listed. -/
theorem readByte_of_lt (m : Memory) (a : Nat) (h : ∀ d ∈ m, a < d.1) : readByte m a = 0 := by
  induction m with
  | nil => rfl
  | cons c m ih =>
    have hc : c.1 ≠ a := Nat.ne_of_gt (h c (by simp))
    simp [readByte, hc, ih fun d hd => h d (by simp [hd])]

/-- The canonical form of a non-empty memory. -/
theorem memoryWf_cons (c : Host.Cell) (m : Memory) :
    memoryWf (c :: m) = true ↔ c.2 ≠ 0 ∧ (∀ d ∈ m, c.1 < d.1) ∧ memoryWf m = true := by
  simp [memoryWf, and_assoc]

/-- In a canonical memory the written byte reads back. -/
theorem readByte_writeByte_same (m : Memory) (a : Nat) (v : Byte) (h : memoryWf m = true) :
    readByte (writeByte m a v) a = v := by
  induction m with
  | nil => by_cases hv : v = 0#8 <;> simp [writeByte, hv, readByte]
  | cons c m ih =>
    obtain ⟨-, hlt, hm⟩ := (memoryWf_cons c m).1 h
    unfold writeByte
    by_cases h1 : a < c.1
    · by_cases hv : v = 0#8
      · have hc : c.1 ≠ a := Nat.ne_of_gt h1
        simp [h1, hv, readByte, hc, readByte_of_lt m a fun d hd => Nat.lt_trans h1 (hlt d hd)]
      · simp [h1, hv, readByte]
    · by_cases h2 : a = c.1
      · by_cases hv : v = 0#8
        · simp [h2, hv, readByte_of_lt m c.1 hlt]
        · simp [h2, hv, readByte]
      · simp [h1, h2, readByte, Ne.symm h2, ih hm]

/-- What a byte reads after a write to a canonical memory. -/
theorem readByte_writeByte (m : Memory) (a x : Nat) (v : Byte) (h : memoryWf m = true) :
    readByte (writeByte m a v) x = if x = a then v else readByte m x := by
  by_cases hx : x = a
  · simp [hx, readByte_writeByte_same m a v h]
  · simp [hx, readByte_writeByte_ne m a x v hx]

/-- Every address a write lists is the one written or was listed before. -/
theorem mem_writeByte (m : Memory) (a : Nat) (v : Byte) (d : Host.Cell) (h : d ∈ writeByte m a v) :
    d = (a, v) ∨ d ∈ m := by
  induction m with
  | nil => by_cases hv : v = 0#8 <;> simp_all [writeByte]
  | cons c m ih =>
    unfold writeByte at h
    split at h
    · split at h <;> simp_all
    · split at h
      · split at h
        · exact .inr (List.mem_cons_of_mem _ h)
        · rcases List.mem_cons.1 h with rfl | h
          · exact .inl rfl
          · exact .inr (List.mem_cons_of_mem _ h)
      · rcases List.mem_cons.1 h with rfl | h
        · simp
        · rcases ih h with h | h <;> simp [h]

/-- A byte write keeps the canonical form. -/
theorem memoryWf_writeByte (m : Memory) (a : Nat) (v : Byte) (h : memoryWf m = true) :
    memoryWf (writeByte m a v) = true := by
  induction m with
  | nil => by_cases hv : v = 0#8 <;> simp [writeByte, hv, memoryWf]
  | cons c m ih =>
    obtain ⟨hc, hlt, hm⟩ := (memoryWf_cons c m).1 h
    unfold writeByte
    split
    · rename_i h1
      split
      · exact h
      · rename_i hv
        refine (memoryWf_cons _ _).2 ⟨hv, fun d hd => ?_, h⟩
        rcases List.mem_cons.1 hd with rfl | hd
        · exact h1
        · exact Nat.lt_trans h1 (hlt d hd)
    · split
      · rename_i h2
        split
        · exact hm
        · rename_i hv
          exact (memoryWf_cons _ _).2 ⟨hv, fun d hd => h2 ▸ hlt d hd, hm⟩
      · rename_i h1 h2
        refine (memoryWf_cons _ _).2 ⟨hc, fun d hd => ?_, ih hm⟩
        rcases mem_writeByte m a v d hd with rfl | hd
        · exact Nat.lt_of_le_of_ne (Nat.le_of_not_lt h1) (Ne.symm h2)
        · exact hlt d hd

/-- A word write keeps the canonical form. -/
theorem memoryWf_writeWord (m : Memory) (a : Nat) (v : Word) (h : memoryWf m = true) :
    memoryWf (writeWord m a v) = true :=
  memoryWf_writeByte _ _ _ (memoryWf_writeByte _ _ _ (memoryWf_writeByte _ _ _ (memoryWf_writeByte _ _ _ h)))

/-- Every address a word write lists is one of the four written or was listed before. -/
theorem mem_writeWord (m : Memory) (a : Nat) (v : Word) (d : Host.Cell) (h : d ∈ writeWord m a v) :
    (a ≤ d.1 ∧ d.1 < a + 4) ∨ d ∈ m := by
  rcases mem_writeByte _ _ _ _ h with rfl | h
  · simp
  rcases mem_writeByte _ _ _ _ h with rfl | h
  · simp
  rcases mem_writeByte _ _ _ _ h with rfl | h
  · simp
  rcases mem_writeByte _ _ _ _ h with rfl | h
  · simp
  exact .inr h

/-- A word write leaves every byte outside its four alone, on any list. -/
theorem readByte_writeWord_ne (m : Memory) (a x : Nat) (v : Word) (h : x < a ∨ a + 4 ≤ x) :
    readByte (writeWord m a v) x = readByte m x := by
  unfold writeWord
  rw [readByte_writeByte_ne _ _ _ _ (by omega), readByte_writeByte_ne _ _ _ _ (by omega),
    readByte_writeByte_ne _ _ _ _ (by omega), readByte_writeByte_ne _ _ _ _ (by omega)]

/-- The four bytes of a written word, little-endian (R95). -/
theorem readByte_writeWord_same (m : Memory) (a j : Nat) (v : Word) (h : memoryWf m = true) (hj : j < 4) :
    readByte (writeWord m a v) (a + j) = v.extractLsb' (8 * j) 8 := by
  have h1 := memoryWf_writeByte m a (v.extractLsb' 0 8) h
  have h2 := memoryWf_writeByte _ (a + 1) (v.extractLsb' 8 8) h1
  have h3 := memoryWf_writeByte _ (a + 2) (v.extractLsb' 16 8) h2
  unfold writeWord
  rw [readByte_writeByte _ _ _ _ h3, readByte_writeByte _ _ _ _ h2, readByte_writeByte _ _ _ _ h1,
    readByte_writeByte _ _ _ _ h]
  match j, hj with
  | 0, _ => simp
  | 1, _ => simp
  | 2, _ => simp
  | 3, _ => simp

/-- A word put together from its own bytes is itself. -/
theorem word_of_bytes (v : Word) :
    (v.extractLsb' 24 8 ++ v.extractLsb' 16 8 ++ v.extractLsb' 8 8 ++ v.extractLsb' 0 8 : BitVec 32) = v := by
  apply BitVec.eq_of_getLsbD_eq
  intro i hi
  simp only [BitVec.getLsbD_append, BitVec.getLsbD_extractLsb']
  by_cases h1 : i < 8
  · simp [h1]
  · by_cases h2 : i < 16
    · simp [h1, show i - 8 < 8 by omega, show 8 + (i - 8) = i by omega]
    · by_cases h3 : i < 24
      · simp [h1, show ¬ i - 8 < 8 by omega, show i - 8 - 8 < 8 by omega, show 16 + (i - 8 - 8) = i by omega]
      · simp [h1, show ¬ i - 8 < 8 by omega, show ¬ i - 8 - 8 < 8 by omega, show i - 8 - 8 - 8 < 8 by omega,
          show 24 + (i - 8 - 8 - 8) = i by omega]

/-- In a canonical memory the written word reads back. -/
theorem readWord_writeWord_same (m : Memory) (a : Nat) (v : Word) (h : memoryWf m = true) :
    readWord (writeWord m a v) a = v := by
  have h0 := readByte_writeWord_same m a 0 v h (by omega)
  have h1 := readByte_writeWord_same m a 1 v h (by omega)
  have h2 := readByte_writeWord_same m a 2 v h (by omega)
  have h3 := readByte_writeWord_same m a 3 v h (by omega)
  unfold readWord
  rw [Nat.add_zero] at h0
  rw [h0, h1, h2, h3]
  exact word_of_bytes v

/-- A word write leaves every word apart from it alone, on any list. -/
theorem readWord_writeWord_ne (m : Memory) (a x : Nat) (v : Word) (h : x + 4 ≤ a ∨ a + 4 ≤ x) :
    readWord (writeWord m a v) x = readWord m x := by
  unfold readWord
  rw [readByte_writeWord_ne _ _ _ _ (by omega), readByte_writeWord_ne _ _ _ _ (by omega),
    readByte_writeWord_ne _ _ _ _ (by omega), readByte_writeWord_ne _ _ _ _ (by omega)]

/-- A word depends on its four bytes alone. -/
theorem readWord_congr (m m' : Memory) (a : Nat) (h : ∀ j < 4, readByte m (a + j) = readByte m' (a + j)) :
    readWord m a = readWord m' a := by
  have h0 := h 0 (by omega)
  rw [Nat.add_zero] at h0
  unfold readWord
  rw [h0, h 1 (by omega), h 2 (by omega), h 3 (by omega)]

@[simp] theorem readWord_nil (a : Nat) : readWord [] a = 0 := by
  simp [readWord]

/-- Canonical memories that read alike everywhere are equal. -/
theorem memory_ext (m m' : Memory) (h : memoryWf m = true) (h' : memoryWf m' = true)
    (hr : ∀ a, readByte m a = readByte m' a) : m = m' := by
  induction m generalizing m' with
  | nil =>
    cases m' with
    | nil => rfl
    | cons c m' =>
      have := hr c.1
      exact absurd this.symm (by simpa [readByte] using ((memoryWf_cons c m').1 h').1)
  | cons c m ih =>
    obtain ⟨hc, hlt, hm⟩ := (memoryWf_cons c m).1 h
    cases m' with
    | nil => exact absurd (hr c.1) (by simpa [readByte] using hc)
    | cons c' m' =>
      obtain ⟨hc', hlt', hm'⟩ := (memoryWf_cons c' m').1 h'
      have e1 : c.1 = c'.1 := by
        rcases Nat.lt_trichotomy c.1 c'.1 with hl | he | hl
        · have := hr c.1
          rw [readByte_of_lt (c' :: m') c.1 (by
            intro d hd
            rcases List.mem_cons.1 hd with rfl | hd
            · exact hl
            · exact Nat.lt_trans hl (hlt' d hd))] at this
          exact absurd this (by simpa [readByte] using hc)
        · exact he
        · have := hr c'.1
          rw [readByte_of_lt (c :: m) c'.1 (by
            intro d hd
            rcases List.mem_cons.1 hd with rfl | hd
            · exact hl
            · exact Nat.lt_trans hl (hlt d hd))] at this
          exact absurd this.symm (by simpa [readByte] using hc')
      have e2 : c.2 = c'.2 := by
        have := hr c.1
        simpa [readByte, e1] using this
      have e3 : m = m' := by
        refine ih m' hm hm' fun a => ?_
        by_cases ha : c.1 = a
        · rw [readByte_of_lt m a fun d hd => ha ▸ hlt d hd,
            readByte_of_lt m' a fun d hd => ha ▸ e1 ▸ hlt' d hd]
        · have := hr a
          simpa [readByte, ha, e1 ▸ ha] using this
      rw [e3, Prod.ext e1 e2]

/-- Writing the same word twice is writing it once. -/
theorem writeWord_writeWord_same (m : Memory) (a : Nat) (v : Word) (h : memoryWf m = true) :
    writeWord (writeWord m a v) a v = writeWord m a v := by
  have h1 := memoryWf_writeWord m a v h
  refine memory_ext _ _ (memoryWf_writeWord _ a v h1) h1 fun x => ?_
  by_cases hx : x < a ∨ a + 4 ≤ x
  · exact readByte_writeWord_ne _ _ _ _ hx
  · obtain ⟨j, hj, rfl⟩ : ∃ j, j < 4 ∧ x = a + j := ⟨x - a, by omega, by omega⟩
    rw [readByte_writeWord_same _ _ _ _ h1 hj, readByte_writeWord_same _ _ _ _ h hj]

/-- Different words of the buffers are apart (R92). -/
theorem bufAddr_apart (b b' n n' : Nat) (hn : n < 4096) (hn' : n' < 4096) (h : b ≠ b' ∨ n ≠ n') :
    bufAddr b n + 4 ≤ bufAddr b' n' ∨ bufAddr b' n' + 4 ≤ bufAddr b n := by
  unfold bufAddr
  omega

end Sys2Proof.Machine
end

