-- ==== Sys2Proof/Laws/State.lean ====
section
/-! SUPPORT. What each update of the state leaves in each field, one lemma per field per update, and what reading one
record gives after another is replaced. -/

namespace Sys2Proof.Machine

/-! ### writeBuf -/

@[simp] theorem writeBuf_hw (s : State) (b n : Nat) (v : Word) : (writeBuf s b n v).hw = s.hw := rfl
@[simp] theorem writeBuf_ie (s : State) (b n : Nat) (v : Word) : (writeBuf s b n v).ie = s.ie := rfl
@[simp] theorem writeBuf_done (s : State) (b n : Nat) (v : Word) : (writeBuf s b n v).done = s.done := rfl
@[simp] theorem writeBuf_ready (s : State) (b n : Nat) (v : Word) : (writeBuf s b n v).ready = s.ready := rfl
@[simp] theorem writeBuf_fault (s : State) (b n : Nat) (v : Word) : (writeBuf s b n v).fault = s.fault := rfl
@[simp] theorem writeBuf_faultCode (s : State) (b n : Nat) (v : Word) :
    (writeBuf s b n v).faultCode = s.faultCode := rfl
@[simp] theorem writeBuf_faultInfo (s : State) (b n : Nat) (v : Word) :
    (writeBuf s b n v).faultInfo = s.faultInfo := rfl
@[simp] theorem writeBuf_arg0 (s : State) (b n : Nat) (v : Word) : (writeBuf s b n v).arg0 = s.arg0 := rfl
@[simp] theorem writeBuf_arg1 (s : State) (b n : Nat) (v : Word) : (writeBuf s b n v).arg1 = s.arg1 := rfl
@[simp] theorem writeBuf_arg2 (s : State) (b n : Nat) (v : Word) : (writeBuf s b n v).arg2 = s.arg2 := rfl
@[simp] theorem writeBuf_arg3 (s : State) (b n : Nat) (v : Word) : (writeBuf s b n v).arg3 = s.arg3 := rfl
@[simp] theorem writeBuf_result (s : State) (b n : Nat) (v : Word) : (writeBuf s b n v).result = s.result := rfl
@[simp] theorem writeBuf_sampleRate (s : State) (b n : Nat) (v : Word) :
    (writeBuf s b n v).sampleRate = s.sampleRate := rfl
@[simp] theorem writeBuf_blockSize (s : State) (b n : Nat) (v : Word) :
    (writeBuf s b n v).blockSize = s.blockSize := rfl
@[simp] theorem writeBuf_fadeLen (s : State) (b n : Nat) (v : Word) : (writeBuf s b n v).fadeLen = s.fadeLen := rfl
@[simp] theorem writeBuf_fadePos (s : State) (b n : Nat) (v : Word) : (writeBuf s b n v).fadePos = s.fadePos := rfl
@[simp] theorem writeBuf_cmdCount (s : State) (b n : Nat) (v : Word) : (writeBuf s b n v).cmdCount = s.cmdCount := rfl
@[simp] theorem writeBuf_blockCount (s : State) (b n : Nat) (v : Word) :
    (writeBuf s b n v).blockCount = s.blockCount := rfl
@[simp] theorem writeBuf_written (s : State) (b n : Nat) (v : Word) : (writeBuf s b n v).written = s.written := rfl
@[simp] theorem writeBuf_filters (s : State) (b n : Nat) (v : Word) : (writeBuf s b n v).filters = s.filters := rfl
@[simp] theorem writeBuf_voices (s : State) (b n : Nat) (v : Word) : (writeBuf s b n v).voices = s.voices := rfl
@[simp] theorem writeBuf_ram (s : State) (b n : Nat) (v : Word) :
    (writeBuf s b n v).ram = writeWord s.ram (bufAddr b n) v := rfl
@[simp] theorem writeBuf_inFlight (s : State) (b n : Nat) (v : Word) : (writeBuf s b n v).inFlight = s.inFlight := rfl
@[simp] theorem writeBuf_pend (s : State) (b n : Nat) (v : Word) : (writeBuf s b n v).pend = s.pend := rfl
@[simp] theorem writeBuf_resetPin (s : State) (b n : Nat) (v : Word) : (writeBuf s b n v).resetPin = s.resetPin := rfl
@[simp] theorem writeBuf_inbox (s : State) (b n : Nat) (v : Word) : (writeBuf s b n v).inbox = s.inbox := rfl
@[simp] theorem writeBuf_lastResp (s : State) (b n : Nat) (v : Word) : (writeBuf s b n v).lastResp = s.lastResp := rfl
@[simp] theorem writeBuf_draws (s : State) (b n : Nat) (v : Word) : (writeBuf s b n v).draws = s.draws := rfl
@[simp] theorem writeBuf_issues (s : State) (b n : Nat) (v : Word) : (writeBuf s b n v).issues = s.issues := rfl

/-! ### putSample -/

@[simp] theorem putSample_hw (ovw : Bool) (b n : Nat) (v : Word) (s : State) : (putSample ovw b n v s).hw = s.hw := rfl
@[simp] theorem putSample_ie (ovw : Bool) (b n : Nat) (v : Word) (s : State) : (putSample ovw b n v s).ie = s.ie := rfl
@[simp] theorem putSample_done (ovw : Bool) (b n : Nat) (v : Word) (s : State) :
    (putSample ovw b n v s).done = s.done := rfl
@[simp] theorem putSample_ready (ovw : Bool) (b n : Nat) (v : Word) (s : State) :
    (putSample ovw b n v s).ready = s.ready := rfl
@[simp] theorem putSample_fault (ovw : Bool) (b n : Nat) (v : Word) (s : State) :
    (putSample ovw b n v s).fault = s.fault := rfl
@[simp] theorem putSample_faultCode (ovw : Bool) (b n : Nat) (v : Word) (s : State) :
    (putSample ovw b n v s).faultCode = s.faultCode := rfl
@[simp] theorem putSample_faultInfo (ovw : Bool) (b n : Nat) (v : Word) (s : State) :
    (putSample ovw b n v s).faultInfo = s.faultInfo := rfl
@[simp] theorem putSample_arg0 (ovw : Bool) (b n : Nat) (v : Word) (s : State) :
    (putSample ovw b n v s).arg0 = s.arg0 := rfl
@[simp] theorem putSample_arg1 (ovw : Bool) (b n : Nat) (v : Word) (s : State) :
    (putSample ovw b n v s).arg1 = s.arg1 := rfl
@[simp] theorem putSample_arg2 (ovw : Bool) (b n : Nat) (v : Word) (s : State) :
    (putSample ovw b n v s).arg2 = s.arg2 := rfl
@[simp] theorem putSample_arg3 (ovw : Bool) (b n : Nat) (v : Word) (s : State) :
    (putSample ovw b n v s).arg3 = s.arg3 := rfl
@[simp] theorem putSample_result (ovw : Bool) (b n : Nat) (v : Word) (s : State) :
    (putSample ovw b n v s).result = s.result := rfl
@[simp] theorem putSample_sampleRate (ovw : Bool) (b n : Nat) (v : Word) (s : State) :
    (putSample ovw b n v s).sampleRate = s.sampleRate := rfl
@[simp] theorem putSample_blockSize (ovw : Bool) (b n : Nat) (v : Word) (s : State) :
    (putSample ovw b n v s).blockSize = s.blockSize := rfl
@[simp] theorem putSample_fadeLen (ovw : Bool) (b n : Nat) (v : Word) (s : State) :
    (putSample ovw b n v s).fadeLen = s.fadeLen := rfl
@[simp] theorem putSample_fadePos (ovw : Bool) (b n : Nat) (v : Word) (s : State) :
    (putSample ovw b n v s).fadePos = s.fadePos := rfl
@[simp] theorem putSample_cmdCount (ovw : Bool) (b n : Nat) (v : Word) (s : State) :
    (putSample ovw b n v s).cmdCount = s.cmdCount := rfl
@[simp] theorem putSample_blockCount (ovw : Bool) (b n : Nat) (v : Word) (s : State) :
    (putSample ovw b n v s).blockCount = s.blockCount := rfl
@[simp] theorem putSample_written (ovw : Bool) (b n : Nat) (v : Word) (s : State) :
    (putSample ovw b n v s).written = s.written := rfl
@[simp] theorem putSample_filters (ovw : Bool) (b n : Nat) (v : Word) (s : State) :
    (putSample ovw b n v s).filters = s.filters := rfl
@[simp] theorem putSample_voices (ovw : Bool) (b n : Nat) (v : Word) (s : State) :
    (putSample ovw b n v s).voices = s.voices := rfl
@[simp] theorem putSample_ram (ovw : Bool) (b n : Nat) (v : Word) (s : State) :
    (putSample ovw b n v s).ram = writeWord s.ram (bufAddr b n) (if ovw then v else fadd (readBuf s b n) v) := rfl
@[simp] theorem putSample_inFlight (ovw : Bool) (b n : Nat) (v : Word) (s : State) :
    (putSample ovw b n v s).inFlight = s.inFlight := rfl
@[simp] theorem putSample_pend (ovw : Bool) (b n : Nat) (v : Word) (s : State) :
    (putSample ovw b n v s).pend = s.pend := rfl
@[simp] theorem putSample_resetPin (ovw : Bool) (b n : Nat) (v : Word) (s : State) :
    (putSample ovw b n v s).resetPin = s.resetPin := rfl
@[simp] theorem putSample_inbox (ovw : Bool) (b n : Nat) (v : Word) (s : State) :
    (putSample ovw b n v s).inbox = s.inbox := rfl
@[simp] theorem putSample_lastResp (ovw : Bool) (b n : Nat) (v : Word) (s : State) :
    (putSample ovw b n v s).lastResp = s.lastResp := rfl
@[simp] theorem putSample_draws (ovw : Bool) (b n : Nat) (v : Word) (s : State) :
    (putSample ovw b n v s).draws = s.draws := rfl
@[simp] theorem putSample_issues (ovw : Bool) (b n : Nat) (v : Word) (s : State) :
    (putSample ovw b n v s).issues = s.issues := rfl

/-! ### setFilter -/

@[simp] theorem setFilter_hw (s : State) (f : Fin 4) (R : Filter) : (setFilter s f R).hw = s.hw := rfl
@[simp] theorem setFilter_ie (s : State) (f : Fin 4) (R : Filter) : (setFilter s f R).ie = s.ie := rfl
@[simp] theorem setFilter_done (s : State) (f : Fin 4) (R : Filter) : (setFilter s f R).done = s.done := rfl
@[simp] theorem setFilter_ready (s : State) (f : Fin 4) (R : Filter) : (setFilter s f R).ready = s.ready := rfl
@[simp] theorem setFilter_fault (s : State) (f : Fin 4) (R : Filter) : (setFilter s f R).fault = s.fault := rfl
@[simp] theorem setFilter_faultCode (s : State) (f : Fin 4) (R : Filter) :
    (setFilter s f R).faultCode = s.faultCode := rfl
@[simp] theorem setFilter_faultInfo (s : State) (f : Fin 4) (R : Filter) :
    (setFilter s f R).faultInfo = s.faultInfo := rfl
@[simp] theorem setFilter_arg0 (s : State) (f : Fin 4) (R : Filter) : (setFilter s f R).arg0 = s.arg0 := rfl
@[simp] theorem setFilter_arg1 (s : State) (f : Fin 4) (R : Filter) : (setFilter s f R).arg1 = s.arg1 := rfl
@[simp] theorem setFilter_arg2 (s : State) (f : Fin 4) (R : Filter) : (setFilter s f R).arg2 = s.arg2 := rfl
@[simp] theorem setFilter_arg3 (s : State) (f : Fin 4) (R : Filter) : (setFilter s f R).arg3 = s.arg3 := rfl
@[simp] theorem setFilter_result (s : State) (f : Fin 4) (R : Filter) : (setFilter s f R).result = s.result := rfl
@[simp] theorem setFilter_sampleRate (s : State) (f : Fin 4) (R : Filter) :
    (setFilter s f R).sampleRate = s.sampleRate := rfl
@[simp] theorem setFilter_blockSize (s : State) (f : Fin 4) (R : Filter) :
    (setFilter s f R).blockSize = s.blockSize := rfl
@[simp] theorem setFilter_fadeLen (s : State) (f : Fin 4) (R : Filter) : (setFilter s f R).fadeLen = s.fadeLen := rfl
@[simp] theorem setFilter_fadePos (s : State) (f : Fin 4) (R : Filter) : (setFilter s f R).fadePos = s.fadePos := rfl
@[simp] theorem setFilter_cmdCount (s : State) (f : Fin 4) (R : Filter) : (setFilter s f R).cmdCount = s.cmdCount := rfl
@[simp] theorem setFilter_blockCount (s : State) (f : Fin 4) (R : Filter) :
    (setFilter s f R).blockCount = s.blockCount := rfl
@[simp] theorem setFilter_written (s : State) (f : Fin 4) (R : Filter) : (setFilter s f R).written = s.written := rfl
@[simp] theorem setFilter_filters (s : State) (f : Fin 4) (R : Filter) :
    (setFilter s f R).filters = s.filters.set f.val R := rfl
@[simp] theorem setFilter_voices (s : State) (f : Fin 4) (R : Filter) : (setFilter s f R).voices = s.voices := rfl
@[simp] theorem setFilter_ram (s : State) (f : Fin 4) (R : Filter) : (setFilter s f R).ram = s.ram := rfl
@[simp] theorem setFilter_inFlight (s : State) (f : Fin 4) (R : Filter) : (setFilter s f R).inFlight = s.inFlight := rfl
@[simp] theorem setFilter_pend (s : State) (f : Fin 4) (R : Filter) : (setFilter s f R).pend = s.pend := rfl
@[simp] theorem setFilter_resetPin (s : State) (f : Fin 4) (R : Filter) : (setFilter s f R).resetPin = s.resetPin := rfl
@[simp] theorem setFilter_inbox (s : State) (f : Fin 4) (R : Filter) : (setFilter s f R).inbox = s.inbox := rfl
@[simp] theorem setFilter_lastResp (s : State) (f : Fin 4) (R : Filter) : (setFilter s f R).lastResp = s.lastResp := rfl
@[simp] theorem setFilter_draws (s : State) (f : Fin 4) (R : Filter) : (setFilter s f R).draws = s.draws := rfl
@[simp] theorem setFilter_issues (s : State) (f : Fin 4) (R : Filter) : (setFilter s f R).issues = s.issues := rfl

/-! ### setVoice -/

@[simp] theorem setVoice_hw (s : State) (v : Fin 32) (V : Voice) : (setVoice s v V).hw = s.hw := rfl
@[simp] theorem setVoice_ie (s : State) (v : Fin 32) (V : Voice) : (setVoice s v V).ie = s.ie := rfl
@[simp] theorem setVoice_done (s : State) (v : Fin 32) (V : Voice) : (setVoice s v V).done = s.done := rfl
@[simp] theorem setVoice_ready (s : State) (v : Fin 32) (V : Voice) : (setVoice s v V).ready = s.ready := rfl
@[simp] theorem setVoice_fault (s : State) (v : Fin 32) (V : Voice) : (setVoice s v V).fault = s.fault := rfl
@[simp] theorem setVoice_faultCode (s : State) (v : Fin 32) (V : Voice) :
    (setVoice s v V).faultCode = s.faultCode := rfl
@[simp] theorem setVoice_faultInfo (s : State) (v : Fin 32) (V : Voice) :
    (setVoice s v V).faultInfo = s.faultInfo := rfl
@[simp] theorem setVoice_arg0 (s : State) (v : Fin 32) (V : Voice) : (setVoice s v V).arg0 = s.arg0 := rfl
@[simp] theorem setVoice_arg1 (s : State) (v : Fin 32) (V : Voice) : (setVoice s v V).arg1 = s.arg1 := rfl
@[simp] theorem setVoice_arg2 (s : State) (v : Fin 32) (V : Voice) : (setVoice s v V).arg2 = s.arg2 := rfl
@[simp] theorem setVoice_arg3 (s : State) (v : Fin 32) (V : Voice) : (setVoice s v V).arg3 = s.arg3 := rfl
@[simp] theorem setVoice_result (s : State) (v : Fin 32) (V : Voice) : (setVoice s v V).result = s.result := rfl
@[simp] theorem setVoice_sampleRate (s : State) (v : Fin 32) (V : Voice) :
    (setVoice s v V).sampleRate = s.sampleRate := rfl
@[simp] theorem setVoice_blockSize (s : State) (v : Fin 32) (V : Voice) :
    (setVoice s v V).blockSize = s.blockSize := rfl
@[simp] theorem setVoice_fadeLen (s : State) (v : Fin 32) (V : Voice) : (setVoice s v V).fadeLen = s.fadeLen := rfl
@[simp] theorem setVoice_fadePos (s : State) (v : Fin 32) (V : Voice) : (setVoice s v V).fadePos = s.fadePos := rfl
@[simp] theorem setVoice_cmdCount (s : State) (v : Fin 32) (V : Voice) : (setVoice s v V).cmdCount = s.cmdCount := rfl
@[simp] theorem setVoice_blockCount (s : State) (v : Fin 32) (V : Voice) :
    (setVoice s v V).blockCount = s.blockCount := rfl
@[simp] theorem setVoice_written (s : State) (v : Fin 32) (V : Voice) : (setVoice s v V).written = s.written := rfl
@[simp] theorem setVoice_filters (s : State) (v : Fin 32) (V : Voice) : (setVoice s v V).filters = s.filters := rfl
@[simp] theorem setVoice_voices (s : State) (v : Fin 32) (V : Voice) :
    (setVoice s v V).voices = s.voices.set v.val V := rfl
@[simp] theorem setVoice_ram (s : State) (v : Fin 32) (V : Voice) : (setVoice s v V).ram = s.ram := rfl
@[simp] theorem setVoice_inFlight (s : State) (v : Fin 32) (V : Voice) : (setVoice s v V).inFlight = s.inFlight := rfl
@[simp] theorem setVoice_pend (s : State) (v : Fin 32) (V : Voice) : (setVoice s v V).pend = s.pend := rfl
@[simp] theorem setVoice_resetPin (s : State) (v : Fin 32) (V : Voice) : (setVoice s v V).resetPin = s.resetPin := rfl
@[simp] theorem setVoice_inbox (s : State) (v : Fin 32) (V : Voice) : (setVoice s v V).inbox = s.inbox := rfl
@[simp] theorem setVoice_lastResp (s : State) (v : Fin 32) (V : Voice) : (setVoice s v V).lastResp = s.lastResp := rfl
@[simp] theorem setVoice_draws (s : State) (v : Fin 32) (V : Voice) : (setVoice s v V).draws = s.draws := rfl
@[simp] theorem setVoice_issues (s : State) (v : Fin 32) (V : Voice) : (setVoice s v V).issues = s.issues := rfl

/-! ### setLfo -/

@[simp] theorem setLfo_hw (s : State) (l : LfoSel) (r : Lfo) : (setLfo s l r).hw = s.hw := by cases l <;> rfl
@[simp] theorem setLfo_ie (s : State) (l : LfoSel) (r : Lfo) : (setLfo s l r).ie = s.ie := by cases l <;> rfl
@[simp] theorem setLfo_done (s : State) (l : LfoSel) (r : Lfo) : (setLfo s l r).done = s.done := by cases l <;> rfl
@[simp] theorem setLfo_ready (s : State) (l : LfoSel) (r : Lfo) : (setLfo s l r).ready = s.ready := by cases l <;> rfl
@[simp] theorem setLfo_fault (s : State) (l : LfoSel) (r : Lfo) : (setLfo s l r).fault = s.fault := by cases l <;> rfl
@[simp] theorem setLfo_faultCode (s : State) (l : LfoSel) (r : Lfo) :
    (setLfo s l r).faultCode = s.faultCode := by cases l <;> rfl
@[simp] theorem setLfo_faultInfo (s : State) (l : LfoSel) (r : Lfo) :
    (setLfo s l r).faultInfo = s.faultInfo := by cases l <;> rfl
@[simp] theorem setLfo_arg0 (s : State) (l : LfoSel) (r : Lfo) : (setLfo s l r).arg0 = s.arg0 := by cases l <;> rfl
@[simp] theorem setLfo_arg1 (s : State) (l : LfoSel) (r : Lfo) : (setLfo s l r).arg1 = s.arg1 := by cases l <;> rfl
@[simp] theorem setLfo_arg2 (s : State) (l : LfoSel) (r : Lfo) : (setLfo s l r).arg2 = s.arg2 := by cases l <;> rfl
@[simp] theorem setLfo_arg3 (s : State) (l : LfoSel) (r : Lfo) : (setLfo s l r).arg3 = s.arg3 := by cases l <;> rfl
@[simp] theorem setLfo_result (s : State) (l : LfoSel) (r : Lfo) :
    (setLfo s l r).result = s.result := by cases l <;> rfl
@[simp] theorem setLfo_sampleRate (s : State) (l : LfoSel) (r : Lfo) :
    (setLfo s l r).sampleRate = s.sampleRate := by cases l <;> rfl
@[simp] theorem setLfo_blockSize (s : State) (l : LfoSel) (r : Lfo) :
    (setLfo s l r).blockSize = s.blockSize := by cases l <;> rfl
@[simp] theorem setLfo_fadeLen (s : State) (l : LfoSel) (r : Lfo) :
    (setLfo s l r).fadeLen = s.fadeLen := by cases l <;> rfl
@[simp] theorem setLfo_fadePos (s : State) (l : LfoSel) (r : Lfo) :
    (setLfo s l r).fadePos = s.fadePos := by cases l <;> rfl
@[simp] theorem setLfo_cmdCount (s : State) (l : LfoSel) (r : Lfo) :
    (setLfo s l r).cmdCount = s.cmdCount := by cases l <;> rfl
@[simp] theorem setLfo_blockCount (s : State) (l : LfoSel) (r : Lfo) :
    (setLfo s l r).blockCount = s.blockCount := by cases l <;> rfl
@[simp] theorem setLfo_written (s : State) (l : LfoSel) (r : Lfo) :
    (setLfo s l r).written = s.written := by cases l <;> rfl
@[simp] theorem setLfo_ram (s : State) (l : LfoSel) (r : Lfo) : (setLfo s l r).ram = s.ram := by cases l <;> rfl
@[simp] theorem setLfo_inFlight (s : State) (l : LfoSel) (r : Lfo) :
    (setLfo s l r).inFlight = s.inFlight := by cases l <;> rfl
@[simp] theorem setLfo_pend (s : State) (l : LfoSel) (r : Lfo) : (setLfo s l r).pend = s.pend := by cases l <;> rfl
@[simp] theorem setLfo_resetPin (s : State) (l : LfoSel) (r : Lfo) :
    (setLfo s l r).resetPin = s.resetPin := by cases l <;> rfl
@[simp] theorem setLfo_inbox (s : State) (l : LfoSel) (r : Lfo) : (setLfo s l r).inbox = s.inbox := by cases l <;> rfl
@[simp] theorem setLfo_lastResp (s : State) (l : LfoSel) (r : Lfo) :
    (setLfo s l r).lastResp = s.lastResp := by cases l <;> rfl
@[simp] theorem setLfo_draws (s : State) (l : LfoSel) (r : Lfo) : (setLfo s l r).draws = s.draws := by cases l <;> rfl
@[simp] theorem setLfo_issues (s : State) (l : LfoSel) (r : Lfo) :
    (setLfo s l r).issues = s.issues := by cases l <;> rfl

/-! ### setOsc -/

@[simp] theorem setOsc_hw (s : State) (t : OscSel) (o : Osc) :
    (setOsc s t o).hw = s.hw := by cases t with | voice v => rfl | lfo l => exact setLfo_hw s l _
@[simp] theorem setOsc_ie (s : State) (t : OscSel) (o : Osc) :
    (setOsc s t o).ie = s.ie := by cases t with | voice v => rfl | lfo l => exact setLfo_ie s l _
@[simp] theorem setOsc_done (s : State) (t : OscSel) (o : Osc) :
    (setOsc s t o).done = s.done := by cases t with | voice v => rfl | lfo l => exact setLfo_done s l _
@[simp] theorem setOsc_ready (s : State) (t : OscSel) (o : Osc) :
    (setOsc s t o).ready = s.ready := by cases t with | voice v => rfl | lfo l => exact setLfo_ready s l _
@[simp] theorem setOsc_fault (s : State) (t : OscSel) (o : Osc) :
    (setOsc s t o).fault = s.fault := by cases t with | voice v => rfl | lfo l => exact setLfo_fault s l _
@[simp] theorem setOsc_faultCode (s : State) (t : OscSel) (o : Osc) :
    (setOsc s t o).faultCode = s.faultCode := by cases t with | voice v => rfl | lfo l => exact setLfo_faultCode s l _
@[simp] theorem setOsc_faultInfo (s : State) (t : OscSel) (o : Osc) :
    (setOsc s t o).faultInfo = s.faultInfo := by cases t with | voice v => rfl | lfo l => exact setLfo_faultInfo s l _
@[simp] theorem setOsc_arg0 (s : State) (t : OscSel) (o : Osc) :
    (setOsc s t o).arg0 = s.arg0 := by cases t with | voice v => rfl | lfo l => exact setLfo_arg0 s l _
@[simp] theorem setOsc_arg1 (s : State) (t : OscSel) (o : Osc) :
    (setOsc s t o).arg1 = s.arg1 := by cases t with | voice v => rfl | lfo l => exact setLfo_arg1 s l _
@[simp] theorem setOsc_arg2 (s : State) (t : OscSel) (o : Osc) :
    (setOsc s t o).arg2 = s.arg2 := by cases t with | voice v => rfl | lfo l => exact setLfo_arg2 s l _
@[simp] theorem setOsc_arg3 (s : State) (t : OscSel) (o : Osc) :
    (setOsc s t o).arg3 = s.arg3 := by cases t with | voice v => rfl | lfo l => exact setLfo_arg3 s l _
@[simp] theorem setOsc_result (s : State) (t : OscSel) (o : Osc) :
    (setOsc s t o).result = s.result := by cases t with | voice v => rfl | lfo l => exact setLfo_result s l _
@[simp] theorem setOsc_sampleRate (s : State) (t : OscSel) (o : Osc) :
    (setOsc s t o).sampleRate = s.sampleRate :=
  by cases t with | voice v => rfl | lfo l => exact setLfo_sampleRate s l _
@[simp] theorem setOsc_blockSize (s : State) (t : OscSel) (o : Osc) :
    (setOsc s t o).blockSize = s.blockSize := by cases t with | voice v => rfl | lfo l => exact setLfo_blockSize s l _
@[simp] theorem setOsc_fadeLen (s : State) (t : OscSel) (o : Osc) :
    (setOsc s t o).fadeLen = s.fadeLen := by cases t with | voice v => rfl | lfo l => exact setLfo_fadeLen s l _
@[simp] theorem setOsc_fadePos (s : State) (t : OscSel) (o : Osc) :
    (setOsc s t o).fadePos = s.fadePos := by cases t with | voice v => rfl | lfo l => exact setLfo_fadePos s l _
@[simp] theorem setOsc_cmdCount (s : State) (t : OscSel) (o : Osc) :
    (setOsc s t o).cmdCount = s.cmdCount := by cases t with | voice v => rfl | lfo l => exact setLfo_cmdCount s l _
@[simp] theorem setOsc_blockCount (s : State) (t : OscSel) (o : Osc) :
    (setOsc s t o).blockCount = s.blockCount :=
  by cases t with | voice v => rfl | lfo l => exact setLfo_blockCount s l _
@[simp] theorem setOsc_written (s : State) (t : OscSel) (o : Osc) :
    (setOsc s t o).written = s.written := by cases t with | voice v => rfl | lfo l => exact setLfo_written s l _
@[simp] theorem setOsc_ram (s : State) (t : OscSel) (o : Osc) :
    (setOsc s t o).ram = s.ram := by cases t with | voice v => rfl | lfo l => exact setLfo_ram s l _
@[simp] theorem setOsc_inFlight (s : State) (t : OscSel) (o : Osc) :
    (setOsc s t o).inFlight = s.inFlight := by cases t with | voice v => rfl | lfo l => exact setLfo_inFlight s l _
@[simp] theorem setOsc_pend (s : State) (t : OscSel) (o : Osc) :
    (setOsc s t o).pend = s.pend := by cases t with | voice v => rfl | lfo l => exact setLfo_pend s l _
@[simp] theorem setOsc_resetPin (s : State) (t : OscSel) (o : Osc) :
    (setOsc s t o).resetPin = s.resetPin := by cases t with | voice v => rfl | lfo l => exact setLfo_resetPin s l _
@[simp] theorem setOsc_inbox (s : State) (t : OscSel) (o : Osc) :
    (setOsc s t o).inbox = s.inbox := by cases t with | voice v => rfl | lfo l => exact setLfo_inbox s l _
@[simp] theorem setOsc_lastResp (s : State) (t : OscSel) (o : Osc) :
    (setOsc s t o).lastResp = s.lastResp := by cases t with | voice v => rfl | lfo l => exact setLfo_lastResp s l _
@[simp] theorem setOsc_draws (s : State) (t : OscSel) (o : Osc) :
    (setOsc s t o).draws = s.draws := by cases t with | voice v => rfl | lfo l => exact setLfo_draws s l _
@[simp] theorem setOsc_issues (s : State) (t : OscSel) (o : Osc) :
    (setOsc s t o).issues = s.issues := by cases t with | voice v => rfl | lfo l => exact setLfo_issues s l _

/-! ### oscAdvance -/

@[simp] theorem oscAdvance_hw (wf : Waveform) (t : OscSel) (fm : Option Word) (s : State) :
    (oscAdvance wf t fm s).hw = s.hw := setOsc_hw s t _
@[simp] theorem oscAdvance_ie (wf : Waveform) (t : OscSel) (fm : Option Word) (s : State) :
    (oscAdvance wf t fm s).ie = s.ie := setOsc_ie s t _
@[simp] theorem oscAdvance_done (wf : Waveform) (t : OscSel) (fm : Option Word) (s : State) :
    (oscAdvance wf t fm s).done = s.done := setOsc_done s t _
@[simp] theorem oscAdvance_ready (wf : Waveform) (t : OscSel) (fm : Option Word) (s : State) :
    (oscAdvance wf t fm s).ready = s.ready := setOsc_ready s t _
@[simp] theorem oscAdvance_fault (wf : Waveform) (t : OscSel) (fm : Option Word) (s : State) :
    (oscAdvance wf t fm s).fault = s.fault := setOsc_fault s t _
@[simp] theorem oscAdvance_faultCode (wf : Waveform) (t : OscSel) (fm : Option Word) (s : State) :
    (oscAdvance wf t fm s).faultCode = s.faultCode := setOsc_faultCode s t _
@[simp] theorem oscAdvance_faultInfo (wf : Waveform) (t : OscSel) (fm : Option Word) (s : State) :
    (oscAdvance wf t fm s).faultInfo = s.faultInfo := setOsc_faultInfo s t _
@[simp] theorem oscAdvance_arg0 (wf : Waveform) (t : OscSel) (fm : Option Word) (s : State) :
    (oscAdvance wf t fm s).arg0 = s.arg0 := setOsc_arg0 s t _
@[simp] theorem oscAdvance_arg1 (wf : Waveform) (t : OscSel) (fm : Option Word) (s : State) :
    (oscAdvance wf t fm s).arg1 = s.arg1 := setOsc_arg1 s t _
@[simp] theorem oscAdvance_arg2 (wf : Waveform) (t : OscSel) (fm : Option Word) (s : State) :
    (oscAdvance wf t fm s).arg2 = s.arg2 := setOsc_arg2 s t _
@[simp] theorem oscAdvance_arg3 (wf : Waveform) (t : OscSel) (fm : Option Word) (s : State) :
    (oscAdvance wf t fm s).arg3 = s.arg3 := setOsc_arg3 s t _
@[simp] theorem oscAdvance_result (wf : Waveform) (t : OscSel) (fm : Option Word) (s : State) :
    (oscAdvance wf t fm s).result = s.result := setOsc_result s t _
@[simp] theorem oscAdvance_sampleRate (wf : Waveform) (t : OscSel) (fm : Option Word) (s : State) :
    (oscAdvance wf t fm s).sampleRate = s.sampleRate := setOsc_sampleRate s t _
@[simp] theorem oscAdvance_blockSize (wf : Waveform) (t : OscSel) (fm : Option Word) (s : State) :
    (oscAdvance wf t fm s).blockSize = s.blockSize := setOsc_blockSize s t _
@[simp] theorem oscAdvance_fadeLen (wf : Waveform) (t : OscSel) (fm : Option Word) (s : State) :
    (oscAdvance wf t fm s).fadeLen = s.fadeLen := setOsc_fadeLen s t _
@[simp] theorem oscAdvance_fadePos (wf : Waveform) (t : OscSel) (fm : Option Word) (s : State) :
    (oscAdvance wf t fm s).fadePos = s.fadePos := setOsc_fadePos s t _
@[simp] theorem oscAdvance_cmdCount (wf : Waveform) (t : OscSel) (fm : Option Word) (s : State) :
    (oscAdvance wf t fm s).cmdCount = s.cmdCount := setOsc_cmdCount s t _
@[simp] theorem oscAdvance_blockCount (wf : Waveform) (t : OscSel) (fm : Option Word) (s : State) :
    (oscAdvance wf t fm s).blockCount = s.blockCount := setOsc_blockCount s t _
@[simp] theorem oscAdvance_written (wf : Waveform) (t : OscSel) (fm : Option Word) (s : State) :
    (oscAdvance wf t fm s).written = s.written := setOsc_written s t _
@[simp] theorem oscAdvance_filters (wf : Waveform) (t : OscSel) (fm : Option Word) (s : State) :
    (oscAdvance wf t fm s).filters = (setOsc s t (advance fm (getOsc s t))).filters := rfl
@[simp] theorem oscAdvance_voices (wf : Waveform) (t : OscSel) (fm : Option Word) (s : State) :
    (oscAdvance wf t fm s).voices = (setOsc s t (advance fm (getOsc s t))).voices := rfl
@[simp] theorem oscAdvance_ram (wf : Waveform) (t : OscSel) (fm : Option Word) (s : State) :
    (oscAdvance wf t fm s).ram = s.ram := setOsc_ram s t _
@[simp] theorem oscAdvance_inFlight (wf : Waveform) (t : OscSel) (fm : Option Word) (s : State) :
    (oscAdvance wf t fm s).inFlight = s.inFlight := setOsc_inFlight s t _
@[simp] theorem oscAdvance_pend (wf : Waveform) (t : OscSel) (fm : Option Word) (s : State) :
    (oscAdvance wf t fm s).pend = s.pend := setOsc_pend s t _
@[simp] theorem oscAdvance_resetPin (wf : Waveform) (t : OscSel) (fm : Option Word) (s : State) :
    (oscAdvance wf t fm s).resetPin = s.resetPin := setOsc_resetPin s t _
@[simp] theorem oscAdvance_inbox (wf : Waveform) (t : OscSel) (fm : Option Word) (s : State) :
    (oscAdvance wf t fm s).inbox = s.inbox := setOsc_inbox s t _
@[simp] theorem oscAdvance_lastResp (wf : Waveform) (t : OscSel) (fm : Option Word) (s : State) :
    (oscAdvance wf t fm s).lastResp = s.lastResp := setOsc_lastResp s t _
@[simp] theorem oscAdvance_draws (wf : Waveform) (t : OscSel) (fm : Option Word) (s : State) :
    (oscAdvance wf t fm s).draws = s.draws + drawsOf wf := rfl
@[simp] theorem oscAdvance_issues (wf : Waveform) (t : OscSel) (fm : Option Word) (s : State) :
    (oscAdvance wf t fm s).issues = s.issues := setOsc_issues s t _

/-! ### raiseFault -/

@[simp] theorem raiseFault_hw (c : FaultCode) (i : Word) (s : State) :
    (raiseFault c i s).hw = s.hw := by unfold raiseFault; split <;> simp_all
@[simp] theorem raiseFault_ie (c : FaultCode) (i : Word) (s : State) :
    (raiseFault c i s).ie = s.ie := by unfold raiseFault; split <;> simp_all
@[simp] theorem raiseFault_done (c : FaultCode) (i : Word) (s : State) :
    (raiseFault c i s).done = true := by unfold raiseFault; split <;> simp_all
@[simp] theorem raiseFault_ready (c : FaultCode) (i : Word) (s : State) :
    (raiseFault c i s).ready = s.ready := by unfold raiseFault; split <;> simp_all
@[simp] theorem raiseFault_fault (c : FaultCode) (i : Word) (s : State) :
    (raiseFault c i s).fault = true := by unfold raiseFault; split <;> simp_all
@[simp] theorem raiseFault_faultCode (c : FaultCode) (i : Word) (s : State) :
    (raiseFault c i s).faultCode = if s.fault then s.faultCode else c := by unfold raiseFault; split <;> simp_all
@[simp] theorem raiseFault_faultInfo (c : FaultCode) (i : Word) (s : State) :
    (raiseFault c i s).faultInfo = if s.fault then s.faultInfo else i := by unfold raiseFault; split <;> simp_all
@[simp] theorem raiseFault_arg0 (c : FaultCode) (i : Word) (s : State) :
    (raiseFault c i s).arg0 = s.arg0 := by unfold raiseFault; split <;> simp_all
@[simp] theorem raiseFault_arg1 (c : FaultCode) (i : Word) (s : State) :
    (raiseFault c i s).arg1 = s.arg1 := by unfold raiseFault; split <;> simp_all
@[simp] theorem raiseFault_arg2 (c : FaultCode) (i : Word) (s : State) :
    (raiseFault c i s).arg2 = s.arg2 := by unfold raiseFault; split <;> simp_all
@[simp] theorem raiseFault_arg3 (c : FaultCode) (i : Word) (s : State) :
    (raiseFault c i s).arg3 = s.arg3 := by unfold raiseFault; split <;> simp_all
@[simp] theorem raiseFault_result (c : FaultCode) (i : Word) (s : State) :
    (raiseFault c i s).result = s.result := by unfold raiseFault; split <;> simp_all
@[simp] theorem raiseFault_sampleRate (c : FaultCode) (i : Word) (s : State) :
    (raiseFault c i s).sampleRate = s.sampleRate := by unfold raiseFault; split <;> simp_all
@[simp] theorem raiseFault_blockSize (c : FaultCode) (i : Word) (s : State) :
    (raiseFault c i s).blockSize = s.blockSize := by unfold raiseFault; split <;> simp_all
@[simp] theorem raiseFault_fadeLen (c : FaultCode) (i : Word) (s : State) :
    (raiseFault c i s).fadeLen = s.fadeLen := by unfold raiseFault; split <;> simp_all
@[simp] theorem raiseFault_fadePos (c : FaultCode) (i : Word) (s : State) :
    (raiseFault c i s).fadePos = s.fadePos := by unfold raiseFault; split <;> simp_all
@[simp] theorem raiseFault_cmdCount (c : FaultCode) (i : Word) (s : State) :
    (raiseFault c i s).cmdCount = s.cmdCount := by unfold raiseFault; split <;> simp_all
@[simp] theorem raiseFault_blockCount (c : FaultCode) (i : Word) (s : State) :
    (raiseFault c i s).blockCount = s.blockCount := by unfold raiseFault; split <;> simp_all
@[simp] theorem raiseFault_written (c : FaultCode) (i : Word) (s : State) :
    (raiseFault c i s).written = s.written := by unfold raiseFault; split <;> simp_all
@[simp] theorem raiseFault_filters (c : FaultCode) (i : Word) (s : State) :
    (raiseFault c i s).filters = s.filters := by unfold raiseFault; split <;> simp_all
@[simp] theorem raiseFault_voices (c : FaultCode) (i : Word) (s : State) :
    (raiseFault c i s).voices = s.voices := by unfold raiseFault; split <;> simp_all
@[simp] theorem raiseFault_ram (c : FaultCode) (i : Word) (s : State) :
    (raiseFault c i s).ram = s.ram := by unfold raiseFault; split <;> simp_all
@[simp] theorem raiseFault_inFlight (c : FaultCode) (i : Word) (s : State) :
    (raiseFault c i s).inFlight = s.inFlight := by unfold raiseFault; split <;> simp_all
@[simp] theorem raiseFault_pend (c : FaultCode) (i : Word) (s : State) :
    (raiseFault c i s).pend = s.pend := by unfold raiseFault; split <;> simp_all
@[simp] theorem raiseFault_resetPin (c : FaultCode) (i : Word) (s : State) :
    (raiseFault c i s).resetPin = s.resetPin := by unfold raiseFault; split <;> simp_all
@[simp] theorem raiseFault_inbox (c : FaultCode) (i : Word) (s : State) :
    (raiseFault c i s).inbox = s.inbox := by unfold raiseFault; split <;> simp_all
@[simp] theorem raiseFault_lastResp (c : FaultCode) (i : Word) (s : State) :
    (raiseFault c i s).lastResp = s.lastResp := by unfold raiseFault; split <;> simp_all
@[simp] theorem raiseFault_draws (c : FaultCode) (i : Word) (s : State) :
    (raiseFault c i s).draws = s.draws := by unfold raiseFault; split <;> simp_all
@[simp] theorem raiseFault_issues (c : FaultCode) (i : Word) (s : State) :
    (raiseFault c i s).issues = s.issues := by unfold raiseFault; split <;> simp_all

/-! ### commandFault -/

@[simp] theorem commandFault_hw (c : FaultCode) (i : Word) (s : State) :
    (commandFault c i s).hw = s.hw := raiseFault_hw c i s
@[simp] theorem commandFault_ie (c : FaultCode) (i : Word) (s : State) :
    (commandFault c i s).ie = s.ie := raiseFault_ie c i s
@[simp] theorem commandFault_done (c : FaultCode) (i : Word) (s : State) :
    (commandFault c i s).done = true := raiseFault_done c i s
@[simp] theorem commandFault_ready (c : FaultCode) (i : Word) (s : State) :
    (commandFault c i s).ready = s.ready := raiseFault_ready c i s
@[simp] theorem commandFault_fault (c : FaultCode) (i : Word) (s : State) :
    (commandFault c i s).fault = true := raiseFault_fault c i s
@[simp] theorem commandFault_faultCode (c : FaultCode) (i : Word) (s : State) :
    (commandFault c i s).faultCode = if s.fault then s.faultCode else c := raiseFault_faultCode c i s
@[simp] theorem commandFault_faultInfo (c : FaultCode) (i : Word) (s : State) :
    (commandFault c i s).faultInfo = if s.fault then s.faultInfo else i := raiseFault_faultInfo c i s
@[simp] theorem commandFault_arg0 (c : FaultCode) (i : Word) (s : State) :
    (commandFault c i s).arg0 = s.arg0 := raiseFault_arg0 c i s
@[simp] theorem commandFault_arg1 (c : FaultCode) (i : Word) (s : State) :
    (commandFault c i s).arg1 = s.arg1 := raiseFault_arg1 c i s
@[simp] theorem commandFault_arg2 (c : FaultCode) (i : Word) (s : State) :
    (commandFault c i s).arg2 = s.arg2 := raiseFault_arg2 c i s
@[simp] theorem commandFault_arg3 (c : FaultCode) (i : Word) (s : State) :
    (commandFault c i s).arg3 = s.arg3 := raiseFault_arg3 c i s
@[simp] theorem commandFault_result (c : FaultCode) (i : Word) (s : State) :
    (commandFault c i s).result = s.result := raiseFault_result c i s
@[simp] theorem commandFault_sampleRate (c : FaultCode) (i : Word) (s : State) :
    (commandFault c i s).sampleRate = s.sampleRate := raiseFault_sampleRate c i s
@[simp] theorem commandFault_blockSize (c : FaultCode) (i : Word) (s : State) :
    (commandFault c i s).blockSize = s.blockSize := raiseFault_blockSize c i s
@[simp] theorem commandFault_fadeLen (c : FaultCode) (i : Word) (s : State) :
    (commandFault c i s).fadeLen = s.fadeLen := raiseFault_fadeLen c i s
@[simp] theorem commandFault_fadePos (c : FaultCode) (i : Word) (s : State) :
    (commandFault c i s).fadePos = s.fadePos := raiseFault_fadePos c i s
@[simp] theorem commandFault_cmdCount (c : FaultCode) (i : Word) (s : State) :
    (commandFault c i s).cmdCount = s.cmdCount := raiseFault_cmdCount c i s
@[simp] theorem commandFault_blockCount (c : FaultCode) (i : Word) (s : State) :
    (commandFault c i s).blockCount = s.blockCount := raiseFault_blockCount c i s
@[simp] theorem commandFault_written (c : FaultCode) (i : Word) (s : State) :
    (commandFault c i s).written = s.written := raiseFault_written c i s
@[simp] theorem commandFault_filters (c : FaultCode) (i : Word) (s : State) :
    (commandFault c i s).filters = s.filters := raiseFault_filters c i s
@[simp] theorem commandFault_voices (c : FaultCode) (i : Word) (s : State) :
    (commandFault c i s).voices = s.voices := raiseFault_voices c i s
@[simp] theorem commandFault_ram (c : FaultCode) (i : Word) (s : State) :
    (commandFault c i s).ram = s.ram := raiseFault_ram c i s
@[simp] theorem commandFault_inFlight (c : FaultCode) (i : Word) (s : State) :
    (commandFault c i s).inFlight = none := rfl
@[simp] theorem commandFault_pend (c : FaultCode) (i : Word) (s : State) :
    (commandFault c i s).pend = s.pend := raiseFault_pend c i s
@[simp] theorem commandFault_resetPin (c : FaultCode) (i : Word) (s : State) :
    (commandFault c i s).resetPin = s.resetPin := raiseFault_resetPin c i s
@[simp] theorem commandFault_inbox (c : FaultCode) (i : Word) (s : State) :
    (commandFault c i s).inbox = s.inbox := raiseFault_inbox c i s
@[simp] theorem commandFault_lastResp (c : FaultCode) (i : Word) (s : State) :
    (commandFault c i s).lastResp = s.lastResp := raiseFault_lastResp c i s
@[simp] theorem commandFault_draws (c : FaultCode) (i : Word) (s : State) :
    (commandFault c i s).draws = s.draws := raiseFault_draws c i s
@[simp] theorem commandFault_issues (c : FaultCode) (i : Word) (s : State) :
    (commandFault c i s).issues = s.issues := raiseFault_issues c i s

/-! ### completeCommand -/

@[simp] theorem completeCommand_hw (s : State) : (completeCommand s).hw = s.hw := rfl
@[simp] theorem completeCommand_ie (s : State) : (completeCommand s).ie = s.ie := rfl
@[simp] theorem completeCommand_done (s : State) : (completeCommand s).done = true := rfl
@[simp] theorem completeCommand_ready (s : State) : (completeCommand s).ready = s.ready := rfl
@[simp] theorem completeCommand_fault (s : State) : (completeCommand s).fault = s.fault := rfl
@[simp] theorem completeCommand_faultCode (s : State) : (completeCommand s).faultCode = s.faultCode := rfl
@[simp] theorem completeCommand_faultInfo (s : State) : (completeCommand s).faultInfo = s.faultInfo := rfl
@[simp] theorem completeCommand_arg0 (s : State) : (completeCommand s).arg0 = s.arg0 := rfl
@[simp] theorem completeCommand_arg1 (s : State) : (completeCommand s).arg1 = s.arg1 := rfl
@[simp] theorem completeCommand_arg2 (s : State) : (completeCommand s).arg2 = s.arg2 := rfl
@[simp] theorem completeCommand_arg3 (s : State) : (completeCommand s).arg3 = s.arg3 := rfl
@[simp] theorem completeCommand_result (s : State) : (completeCommand s).result = s.result := rfl
@[simp] theorem completeCommand_sampleRate (s : State) : (completeCommand s).sampleRate = s.sampleRate := rfl
@[simp] theorem completeCommand_blockSize (s : State) : (completeCommand s).blockSize = s.blockSize := rfl
@[simp] theorem completeCommand_fadeLen (s : State) : (completeCommand s).fadeLen = s.fadeLen := rfl
@[simp] theorem completeCommand_fadePos (s : State) : (completeCommand s).fadePos = s.fadePos := rfl
@[simp] theorem completeCommand_cmdCount (s : State) : (completeCommand s).cmdCount = s.cmdCount + 1 := rfl
@[simp] theorem completeCommand_blockCount (s : State) : (completeCommand s).blockCount = s.blockCount := rfl
@[simp] theorem completeCommand_written (s : State) : (completeCommand s).written = s.written := rfl
@[simp] theorem completeCommand_filters (s : State) : (completeCommand s).filters = s.filters := rfl
@[simp] theorem completeCommand_voices (s : State) : (completeCommand s).voices = s.voices := rfl
@[simp] theorem completeCommand_ram (s : State) : (completeCommand s).ram = s.ram := rfl
@[simp] theorem completeCommand_inFlight (s : State) : (completeCommand s).inFlight = none := rfl
@[simp] theorem completeCommand_pend (s : State) : (completeCommand s).pend = s.pend := rfl
@[simp] theorem completeCommand_resetPin (s : State) : (completeCommand s).resetPin = s.resetPin := rfl
@[simp] theorem completeCommand_inbox (s : State) : (completeCommand s).inbox = s.inbox := rfl
@[simp] theorem completeCommand_lastResp (s : State) : (completeCommand s).lastResp = s.lastResp := rfl
@[simp] theorem completeCommand_draws (s : State) : (completeCommand s).draws = s.draws := rfl
@[simp] theorem completeCommand_issues (s : State) : (completeCommand s).issues = s.issues := rfl

/-! ### enterPending -/

@[simp] theorem enterPending_hw (s : State) : (enterPending s).hw = s.hw := by unfold enterPending; split <;> simp_all
@[simp] theorem enterPending_ie (s : State) : (enterPending s).ie = s.ie := by unfold enterPending; split <;> simp_all
@[simp] theorem enterPending_ready (s : State) :
    (enterPending s).ready = s.ready := by unfold enterPending; split <;> simp_all
@[simp] theorem enterPending_arg0 (s : State) :
    (enterPending s).arg0 = s.arg0 := by unfold enterPending; split <;> simp_all
@[simp] theorem enterPending_arg1 (s : State) :
    (enterPending s).arg1 = s.arg1 := by unfold enterPending; split <;> simp_all
@[simp] theorem enterPending_arg2 (s : State) :
    (enterPending s).arg2 = s.arg2 := by unfold enterPending; split <;> simp_all
@[simp] theorem enterPending_arg3 (s : State) :
    (enterPending s).arg3 = s.arg3 := by unfold enterPending; split <;> simp_all
@[simp] theorem enterPending_result (s : State) :
    (enterPending s).result = s.result := by unfold enterPending; split <;> simp_all
@[simp] theorem enterPending_sampleRate (s : State) :
    (enterPending s).sampleRate = s.sampleRate := by unfold enterPending; split <;> simp_all
@[simp] theorem enterPending_blockSize (s : State) :
    (enterPending s).blockSize = s.blockSize := by unfold enterPending; split <;> simp_all
@[simp] theorem enterPending_fadeLen (s : State) :
    (enterPending s).fadeLen = s.fadeLen := by unfold enterPending; split <;> simp_all
@[simp] theorem enterPending_fadePos (s : State) :
    (enterPending s).fadePos = s.fadePos := by unfold enterPending; split <;> simp_all
@[simp] theorem enterPending_cmdCount (s : State) :
    (enterPending s).cmdCount = s.cmdCount := by unfold enterPending; split <;> simp_all
@[simp] theorem enterPending_blockCount (s : State) :
    (enterPending s).blockCount = s.blockCount := by unfold enterPending; split <;> simp_all
@[simp] theorem enterPending_written (s : State) :
    (enterPending s).written = s.written := by unfold enterPending; split <;> simp_all
@[simp] theorem enterPending_filters (s : State) :
    (enterPending s).filters = s.filters := by unfold enterPending; split <;> simp_all
@[simp] theorem enterPending_voices (s : State) :
    (enterPending s).voices = s.voices := by unfold enterPending; split <;> simp_all
@[simp] theorem enterPending_ram (s : State) :
    (enterPending s).ram = s.ram := by unfold enterPending; split <;> simp_all
@[simp] theorem enterPending_inFlight (s : State) :
    (enterPending s).inFlight = s.inFlight := by unfold enterPending; split <;> simp_all
@[simp] theorem enterPending_pend (s : State) :
    (enterPending s).pend = none := by unfold enterPending; split <;> simp_all
@[simp] theorem enterPending_resetPin (s : State) :
    (enterPending s).resetPin = s.resetPin := by unfold enterPending; split <;> simp_all
@[simp] theorem enterPending_inbox (s : State) :
    (enterPending s).inbox = s.inbox := by unfold enterPending; split <;> simp_all
@[simp] theorem enterPending_lastResp (s : State) :
    (enterPending s).lastResp = s.lastResp := by unfold enterPending; split <;> simp_all
@[simp] theorem enterPending_draws (s : State) :
    (enterPending s).draws = s.draws := by unfold enterPending; split <;> simp_all
@[simp] theorem enterPending_issues (s : State) :
    (enterPending s).issues = s.issues := by unfold enterPending; split <;> simp_all

/-! ### respond -/

@[simp] theorem respond_hw (st : PortStatus) (d : Word) (s : State) : (respond st d s).hw = s.hw := rfl
@[simp] theorem respond_ie (st : PortStatus) (d : Word) (s : State) : (respond st d s).ie = s.ie := rfl
@[simp] theorem respond_done (st : PortStatus) (d : Word) (s : State) : (respond st d s).done = s.done := rfl
@[simp] theorem respond_ready (st : PortStatus) (d : Word) (s : State) : (respond st d s).ready = s.ready := rfl
@[simp] theorem respond_fault (st : PortStatus) (d : Word) (s : State) : (respond st d s).fault = s.fault := rfl
@[simp] theorem respond_faultCode (st : PortStatus) (d : Word) (s : State) :
    (respond st d s).faultCode = s.faultCode := rfl
@[simp] theorem respond_faultInfo (st : PortStatus) (d : Word) (s : State) :
    (respond st d s).faultInfo = s.faultInfo := rfl
@[simp] theorem respond_arg0 (st : PortStatus) (d : Word) (s : State) : (respond st d s).arg0 = s.arg0 := rfl
@[simp] theorem respond_arg1 (st : PortStatus) (d : Word) (s : State) : (respond st d s).arg1 = s.arg1 := rfl
@[simp] theorem respond_arg2 (st : PortStatus) (d : Word) (s : State) : (respond st d s).arg2 = s.arg2 := rfl
@[simp] theorem respond_arg3 (st : PortStatus) (d : Word) (s : State) : (respond st d s).arg3 = s.arg3 := rfl
@[simp] theorem respond_result (st : PortStatus) (d : Word) (s : State) : (respond st d s).result = s.result := rfl
@[simp] theorem respond_sampleRate (st : PortStatus) (d : Word) (s : State) :
    (respond st d s).sampleRate = s.sampleRate := rfl
@[simp] theorem respond_blockSize (st : PortStatus) (d : Word) (s : State) :
    (respond st d s).blockSize = s.blockSize := rfl
@[simp] theorem respond_fadeLen (st : PortStatus) (d : Word) (s : State) : (respond st d s).fadeLen = s.fadeLen := rfl
@[simp] theorem respond_fadePos (st : PortStatus) (d : Word) (s : State) : (respond st d s).fadePos = s.fadePos := rfl
@[simp] theorem respond_cmdCount (st : PortStatus) (d : Word) (s : State) :
    (respond st d s).cmdCount = s.cmdCount := rfl
@[simp] theorem respond_blockCount (st : PortStatus) (d : Word) (s : State) :
    (respond st d s).blockCount = s.blockCount := rfl
@[simp] theorem respond_written (st : PortStatus) (d : Word) (s : State) : (respond st d s).written = s.written := rfl
@[simp] theorem respond_filters (st : PortStatus) (d : Word) (s : State) : (respond st d s).filters = s.filters := rfl
@[simp] theorem respond_voices (st : PortStatus) (d : Word) (s : State) : (respond st d s).voices = s.voices := rfl
@[simp] theorem respond_ram (st : PortStatus) (d : Word) (s : State) : (respond st d s).ram = s.ram := rfl
@[simp] theorem respond_inFlight (st : PortStatus) (d : Word) (s : State) :
    (respond st d s).inFlight = s.inFlight := rfl
@[simp] theorem respond_pend (st : PortStatus) (d : Word) (s : State) : (respond st d s).pend = s.pend := rfl
@[simp] theorem respond_resetPin (st : PortStatus) (d : Word) (s : State) :
    (respond st d s).resetPin = s.resetPin := rfl
@[simp] theorem respond_inbox (st : PortStatus) (d : Word) (s : State) : (respond st d s).inbox = s.inbox := rfl
@[simp] theorem respond_lastResp (st : PortStatus) (d : Word) (s : State) :
    (respond st d s).lastResp = some { status := st, data := d } := rfl
@[simp] theorem respond_draws (st : PortStatus) (d : Word) (s : State) : (respond st d s).draws = s.draws := rfl
@[simp] theorem respond_issues (st : PortStatus) (d : Word) (s : State) : (respond st d s).issues = s.issues := rfl

/-! ### holdPending -/

@[simp] theorem holdPending_hw (c : FaultCode) (a : Addr) (s : State) :
    (holdPending c a s).hw = s.hw := by unfold holdPending; split <;> rfl
@[simp] theorem holdPending_ie (c : FaultCode) (a : Addr) (s : State) :
    (holdPending c a s).ie = s.ie := by unfold holdPending; split <;> rfl
@[simp] theorem holdPending_done (c : FaultCode) (a : Addr) (s : State) :
    (holdPending c a s).done = s.done := by unfold holdPending; split <;> rfl
@[simp] theorem holdPending_ready (c : FaultCode) (a : Addr) (s : State) :
    (holdPending c a s).ready = s.ready := by unfold holdPending; split <;> rfl
@[simp] theorem holdPending_fault (c : FaultCode) (a : Addr) (s : State) :
    (holdPending c a s).fault = s.fault := by unfold holdPending; split <;> rfl
@[simp] theorem holdPending_faultCode (c : FaultCode) (a : Addr) (s : State) :
    (holdPending c a s).faultCode = s.faultCode := by unfold holdPending; split <;> rfl
@[simp] theorem holdPending_faultInfo (c : FaultCode) (a : Addr) (s : State) :
    (holdPending c a s).faultInfo = s.faultInfo := by unfold holdPending; split <;> rfl
@[simp] theorem holdPending_arg0 (c : FaultCode) (a : Addr) (s : State) :
    (holdPending c a s).arg0 = s.arg0 := by unfold holdPending; split <;> rfl
@[simp] theorem holdPending_arg1 (c : FaultCode) (a : Addr) (s : State) :
    (holdPending c a s).arg1 = s.arg1 := by unfold holdPending; split <;> rfl
@[simp] theorem holdPending_arg2 (c : FaultCode) (a : Addr) (s : State) :
    (holdPending c a s).arg2 = s.arg2 := by unfold holdPending; split <;> rfl
@[simp] theorem holdPending_arg3 (c : FaultCode) (a : Addr) (s : State) :
    (holdPending c a s).arg3 = s.arg3 := by unfold holdPending; split <;> rfl
@[simp] theorem holdPending_result (c : FaultCode) (a : Addr) (s : State) :
    (holdPending c a s).result = s.result := by unfold holdPending; split <;> rfl
@[simp] theorem holdPending_sampleRate (c : FaultCode) (a : Addr) (s : State) :
    (holdPending c a s).sampleRate = s.sampleRate := by unfold holdPending; split <;> rfl
@[simp] theorem holdPending_blockSize (c : FaultCode) (a : Addr) (s : State) :
    (holdPending c a s).blockSize = s.blockSize := by unfold holdPending; split <;> rfl
@[simp] theorem holdPending_fadeLen (c : FaultCode) (a : Addr) (s : State) :
    (holdPending c a s).fadeLen = s.fadeLen := by unfold holdPending; split <;> rfl
@[simp] theorem holdPending_fadePos (c : FaultCode) (a : Addr) (s : State) :
    (holdPending c a s).fadePos = s.fadePos := by unfold holdPending; split <;> rfl
@[simp] theorem holdPending_cmdCount (c : FaultCode) (a : Addr) (s : State) :
    (holdPending c a s).cmdCount = s.cmdCount := by unfold holdPending; split <;> rfl
@[simp] theorem holdPending_blockCount (c : FaultCode) (a : Addr) (s : State) :
    (holdPending c a s).blockCount = s.blockCount := by unfold holdPending; split <;> rfl
@[simp] theorem holdPending_written (c : FaultCode) (a : Addr) (s : State) :
    (holdPending c a s).written = s.written := by unfold holdPending; split <;> rfl
@[simp] theorem holdPending_filters (c : FaultCode) (a : Addr) (s : State) :
    (holdPending c a s).filters = s.filters := by unfold holdPending; split <;> rfl
@[simp] theorem holdPending_voices (c : FaultCode) (a : Addr) (s : State) :
    (holdPending c a s).voices = s.voices := by unfold holdPending; split <;> rfl
@[simp] theorem holdPending_ram (c : FaultCode) (a : Addr) (s : State) :
    (holdPending c a s).ram = s.ram := by unfold holdPending; split <;> rfl
@[simp] theorem holdPending_inFlight (c : FaultCode) (a : Addr) (s : State) :
    (holdPending c a s).inFlight = s.inFlight := by unfold holdPending; split <;> rfl
@[simp] theorem holdPending_resetPin (c : FaultCode) (a : Addr) (s : State) :
    (holdPending c a s).resetPin = s.resetPin := by unfold holdPending; split <;> rfl
@[simp] theorem holdPending_inbox (c : FaultCode) (a : Addr) (s : State) :
    (holdPending c a s).inbox = s.inbox := by unfold holdPending; split <;> rfl
@[simp] theorem holdPending_lastResp (c : FaultCode) (a : Addr) (s : State) :
    (holdPending c a s).lastResp = s.lastResp := by unfold holdPending; split <;> rfl
@[simp] theorem holdPending_draws (c : FaultCode) (a : Addr) (s : State) :
    (holdPending c a s).draws = s.draws := by unfold holdPending; split <;> rfl
@[simp] theorem holdPending_issues (c : FaultCode) (a : Addr) (s : State) :
    (holdPending c a s).issues = s.issues := by unfold holdPending; split <;> rfl

/-! ### writeStatus -/

@[simp] theorem writeStatus_hw (v : Word) (s : State) :
    (writeStatus v s).hw = s.hw := by unfold writeStatus; split <;> rfl
@[simp] theorem writeStatus_ie (v : Word) (s : State) :
    (writeStatus v s).ie = s.ie := by unfold writeStatus; split <;> rfl
@[simp] theorem writeStatus_ready (v : Word) (s : State) :
    (writeStatus v s).ready = s.ready := by unfold writeStatus; split <;> rfl
@[simp] theorem writeStatus_fault (v : Word) (s : State) :
    (writeStatus v s).fault = s.fault := by unfold writeStatus; split <;> rfl
@[simp] theorem writeStatus_faultCode (v : Word) (s : State) :
    (writeStatus v s).faultCode = s.faultCode := by unfold writeStatus; split <;> rfl
@[simp] theorem writeStatus_faultInfo (v : Word) (s : State) :
    (writeStatus v s).faultInfo = s.faultInfo := by unfold writeStatus; split <;> rfl
@[simp] theorem writeStatus_arg0 (v : Word) (s : State) :
    (writeStatus v s).arg0 = s.arg0 := by unfold writeStatus; split <;> rfl
@[simp] theorem writeStatus_arg1 (v : Word) (s : State) :
    (writeStatus v s).arg1 = s.arg1 := by unfold writeStatus; split <;> rfl
@[simp] theorem writeStatus_arg2 (v : Word) (s : State) :
    (writeStatus v s).arg2 = s.arg2 := by unfold writeStatus; split <;> rfl
@[simp] theorem writeStatus_arg3 (v : Word) (s : State) :
    (writeStatus v s).arg3 = s.arg3 := by unfold writeStatus; split <;> rfl
@[simp] theorem writeStatus_result (v : Word) (s : State) :
    (writeStatus v s).result = s.result := by unfold writeStatus; split <;> rfl
@[simp] theorem writeStatus_sampleRate (v : Word) (s : State) :
    (writeStatus v s).sampleRate = s.sampleRate := by unfold writeStatus; split <;> rfl
@[simp] theorem writeStatus_blockSize (v : Word) (s : State) :
    (writeStatus v s).blockSize = s.blockSize := by unfold writeStatus; split <;> rfl
@[simp] theorem writeStatus_fadeLen (v : Word) (s : State) :
    (writeStatus v s).fadeLen = s.fadeLen := by unfold writeStatus; split <;> rfl
@[simp] theorem writeStatus_fadePos (v : Word) (s : State) :
    (writeStatus v s).fadePos = s.fadePos := by unfold writeStatus; split <;> rfl
@[simp] theorem writeStatus_cmdCount (v : Word) (s : State) :
    (writeStatus v s).cmdCount = s.cmdCount := by unfold writeStatus; split <;> rfl
@[simp] theorem writeStatus_blockCount (v : Word) (s : State) :
    (writeStatus v s).blockCount = s.blockCount := by unfold writeStatus; split <;> rfl
@[simp] theorem writeStatus_written (v : Word) (s : State) :
    (writeStatus v s).written = s.written := by unfold writeStatus; split <;> rfl
@[simp] theorem writeStatus_filters (v : Word) (s : State) :
    (writeStatus v s).filters = s.filters := by unfold writeStatus; split <;> rfl
@[simp] theorem writeStatus_voices (v : Word) (s : State) :
    (writeStatus v s).voices = s.voices := by unfold writeStatus; split <;> rfl
@[simp] theorem writeStatus_ram (v : Word) (s : State) :
    (writeStatus v s).ram = s.ram := by unfold writeStatus; split <;> rfl
@[simp] theorem writeStatus_inFlight (v : Word) (s : State) :
    (writeStatus v s).inFlight = s.inFlight := by unfold writeStatus; split <;> rfl
@[simp] theorem writeStatus_pend (v : Word) (s : State) :
    (writeStatus v s).pend = s.pend := by unfold writeStatus; split <;> rfl
@[simp] theorem writeStatus_resetPin (v : Word) (s : State) :
    (writeStatus v s).resetPin = s.resetPin := by unfold writeStatus; split <;> rfl
@[simp] theorem writeStatus_inbox (v : Word) (s : State) :
    (writeStatus v s).inbox = s.inbox := by unfold writeStatus; split <;> rfl
@[simp] theorem writeStatus_lastResp (v : Word) (s : State) :
    (writeStatus v s).lastResp = s.lastResp := by unfold writeStatus; split <;> rfl
@[simp] theorem writeStatus_draws (v : Word) (s : State) :
    (writeStatus v s).draws = s.draws := by unfold writeStatus; split <;> rfl
@[simp] theorem writeStatus_issues (v : Word) (s : State) :
    (writeStatus v s).issues = s.issues := by unfold writeStatus; split <;> rfl

/-! ### issueCommand -/

@[simp] theorem issueCommand_hw (w : Word) (s : State) :
    (issueCommand w s).hw = s.hw := by unfold issueCommand; split <;> rfl
@[simp] theorem issueCommand_ie (w : Word) (s : State) :
    (issueCommand w s).ie = s.ie := by unfold issueCommand; split <;> rfl
@[simp] theorem issueCommand_done (w : Word) (s : State) :
    (issueCommand w s).done = s.done := by unfold issueCommand; split <;> rfl
@[simp] theorem issueCommand_ready (w : Word) (s : State) :
    (issueCommand w s).ready = s.ready := by unfold issueCommand; split <;> rfl
@[simp] theorem issueCommand_fault (w : Word) (s : State) :
    (issueCommand w s).fault = s.fault := by unfold issueCommand; split <;> rfl
@[simp] theorem issueCommand_faultCode (w : Word) (s : State) :
    (issueCommand w s).faultCode = s.faultCode := by unfold issueCommand; split <;> rfl
@[simp] theorem issueCommand_faultInfo (w : Word) (s : State) :
    (issueCommand w s).faultInfo = s.faultInfo := by unfold issueCommand; split <;> rfl
@[simp] theorem issueCommand_arg0 (w : Word) (s : State) :
    (issueCommand w s).arg0 = s.arg0 := by unfold issueCommand; split <;> rfl
@[simp] theorem issueCommand_arg1 (w : Word) (s : State) :
    (issueCommand w s).arg1 = s.arg1 := by unfold issueCommand; split <;> rfl
@[simp] theorem issueCommand_arg2 (w : Word) (s : State) :
    (issueCommand w s).arg2 = s.arg2 := by unfold issueCommand; split <;> rfl
@[simp] theorem issueCommand_arg3 (w : Word) (s : State) :
    (issueCommand w s).arg3 = s.arg3 := by unfold issueCommand; split <;> rfl
@[simp] theorem issueCommand_result (w : Word) (s : State) :
    (issueCommand w s).result = s.result := by unfold issueCommand; split <;> rfl
@[simp] theorem issueCommand_sampleRate (w : Word) (s : State) :
    (issueCommand w s).sampleRate = s.sampleRate := by unfold issueCommand; split <;> rfl
@[simp] theorem issueCommand_blockSize (w : Word) (s : State) :
    (issueCommand w s).blockSize = s.blockSize := by unfold issueCommand; split <;> rfl
@[simp] theorem issueCommand_fadeLen (w : Word) (s : State) :
    (issueCommand w s).fadeLen = s.fadeLen := by unfold issueCommand; split <;> rfl
@[simp] theorem issueCommand_fadePos (w : Word) (s : State) :
    (issueCommand w s).fadePos = s.fadePos := by unfold issueCommand; split <;> rfl
@[simp] theorem issueCommand_cmdCount (w : Word) (s : State) :
    (issueCommand w s).cmdCount = s.cmdCount := by unfold issueCommand; split <;> rfl
@[simp] theorem issueCommand_blockCount (w : Word) (s : State) :
    (issueCommand w s).blockCount = s.blockCount := by unfold issueCommand; split <;> rfl
@[simp] theorem issueCommand_written (w : Word) (s : State) :
    (issueCommand w s).written = s.written := by unfold issueCommand; split <;> rfl
@[simp] theorem issueCommand_filters (w : Word) (s : State) :
    (issueCommand w s).filters = s.filters := by unfold issueCommand; split <;> rfl
@[simp] theorem issueCommand_voices (w : Word) (s : State) :
    (issueCommand w s).voices = s.voices := by unfold issueCommand; split <;> rfl
@[simp] theorem issueCommand_ram (w : Word) (s : State) :
    (issueCommand w s).ram = s.ram := by unfold issueCommand; split <;> rfl
@[simp] theorem issueCommand_pend (w : Word) (s : State) :
    (issueCommand w s).pend = s.pend := by unfold issueCommand; split <;> rfl
@[simp] theorem issueCommand_resetPin (w : Word) (s : State) :
    (issueCommand w s).resetPin = s.resetPin := by unfold issueCommand; split <;> rfl
@[simp] theorem issueCommand_inbox (w : Word) (s : State) :
    (issueCommand w s).inbox = s.inbox := by unfold issueCommand; split <;> rfl
@[simp] theorem issueCommand_lastResp (w : Word) (s : State) :
    (issueCommand w s).lastResp = s.lastResp := by unfold issueCommand; split <;> rfl
@[simp] theorem issueCommand_draws (w : Word) (s : State) :
    (issueCommand w s).draws = s.draws := by unfold issueCommand; split <;> rfl

/-! ### countDown -/

@[simp] theorem countDown_hw (s : State) : (countDown s).hw = s.hw := by unfold countDown; split <;> simp_all
@[simp] theorem countDown_ie (s : State) : (countDown s).ie = s.ie := by unfold countDown; split <;> simp_all
@[simp] theorem countDown_done (s : State) : (countDown s).done = s.done := by unfold countDown; split <;> simp_all
@[simp] theorem countDown_ready (s : State) : (countDown s).ready = s.ready := by unfold countDown; split <;> simp_all
@[simp] theorem countDown_fault (s : State) : (countDown s).fault = s.fault := by unfold countDown; split <;> simp_all
@[simp] theorem countDown_faultCode (s : State) :
    (countDown s).faultCode = s.faultCode := by unfold countDown; split <;> simp_all
@[simp] theorem countDown_faultInfo (s : State) :
    (countDown s).faultInfo = s.faultInfo := by unfold countDown; split <;> simp_all
@[simp] theorem countDown_arg0 (s : State) : (countDown s).arg0 = s.arg0 := by unfold countDown; split <;> simp_all
@[simp] theorem countDown_arg1 (s : State) : (countDown s).arg1 = s.arg1 := by unfold countDown; split <;> simp_all
@[simp] theorem countDown_arg2 (s : State) : (countDown s).arg2 = s.arg2 := by unfold countDown; split <;> simp_all
@[simp] theorem countDown_arg3 (s : State) : (countDown s).arg3 = s.arg3 := by unfold countDown; split <;> simp_all
@[simp] theorem countDown_result (s : State) :
    (countDown s).result = s.result := by unfold countDown; split <;> simp_all
@[simp] theorem countDown_sampleRate (s : State) :
    (countDown s).sampleRate = s.sampleRate := by unfold countDown; split <;> simp_all
@[simp] theorem countDown_blockSize (s : State) :
    (countDown s).blockSize = s.blockSize := by unfold countDown; split <;> simp_all
@[simp] theorem countDown_fadeLen (s : State) :
    (countDown s).fadeLen = s.fadeLen := by unfold countDown; split <;> simp_all
@[simp] theorem countDown_fadePos (s : State) :
    (countDown s).fadePos = s.fadePos := by unfold countDown; split <;> simp_all
@[simp] theorem countDown_cmdCount (s : State) :
    (countDown s).cmdCount = s.cmdCount := by unfold countDown; split <;> simp_all
@[simp] theorem countDown_blockCount (s : State) :
    (countDown s).blockCount = s.blockCount := by unfold countDown; split <;> simp_all
@[simp] theorem countDown_written (s : State) :
    (countDown s).written = s.written := by unfold countDown; split <;> simp_all
@[simp] theorem countDown_filters (s : State) :
    (countDown s).filters = s.filters := by unfold countDown; split <;> simp_all
@[simp] theorem countDown_voices (s : State) :
    (countDown s).voices = s.voices := by unfold countDown; split <;> simp_all
@[simp] theorem countDown_ram (s : State) : (countDown s).ram = s.ram := by unfold countDown; split <;> simp_all
@[simp] theorem countDown_inFlight (s : State) :
    (countDown s).inFlight = s.inFlight.map fun c => { c with wait := c.wait - 1 } :=
  by unfold countDown; split <;> simp_all
@[simp] theorem countDown_pend (s : State) : (countDown s).pend = s.pend := by unfold countDown; split <;> simp_all
@[simp] theorem countDown_resetPin (s : State) :
    (countDown s).resetPin = s.resetPin := by unfold countDown; split <;> simp_all
@[simp] theorem countDown_inbox (s : State) : (countDown s).inbox = s.inbox := by unfold countDown; split <;> simp_all
@[simp] theorem countDown_lastResp (s : State) :
    (countDown s).lastResp = s.lastResp := by unfold countDown; split <;> simp_all
@[simp] theorem countDown_draws (s : State) : (countDown s).draws = s.draws := by unfold countDown; split <;> simp_all
@[simp] theorem countDown_issues (s : State) :
    (countDown s).issues = s.issues := by unfold countDown; split <;> simp_all

end Sys2Proof.Machine
end

