-- ==== Sys2Proof/Laws/Ops.lean ====
section
/-! SUPPORT. For each shared operation, once, everything it can do; and when each command's checks let it execute. -/

namespace Sys2Proof.Machine

/-! ### Loops -/

@[simp] theorem forSamples_zero (body : Nat → State → State) (s : State) : forSamples 0 body s = s := rfl

theorem forSamples_succ (k : Nat) (body : Nat → State → State) (s : State) :
    forSamples (k + 1) body s = body k (forSamples k body s) := rfl

/-- A property that holds before the loop and that each sample passes on holds after it. -/
theorem forSamples_induct (P : Nat → State → Prop) (body : Nat → State → State) (s : State) (k : Nat) (h0 : P 0 s)
    (hs : ∀ n t, n < k → P n t → P (n + 1) (body n t)) : P k (forSamples k body s) := by
  induction k with
  | zero => exact h0
  | succ k ih => exact hs k _ (Nat.lt_succ_self k) (ih fun n t hn => hs n t (Nat.lt_succ_of_lt hn))

/-- What every sample leaves alone, the loop leaves alone. -/
theorem forSamples_const {α : Type} (g : State → α) (body : Nat → State → State) (s : State) (k : Nat)
    (h : ∀ n t, g (body n t) = g t) : g (forSamples k body s) = g s := by
  induction k with
  | zero => rfl
  | succ k ih => rw [forSamples_succ, h, ih]

/-! ### Faults and completion -/

/-- The first fault since reset is recorded (R276). -/
theorem raiseFault_of_clear (c : FaultCode) (i : Word) (s : State) (h : s.fault = false) :
    raiseFault c i s = { s with fault := true, faultCode := c, faultInfo := i, done := true } := by
  simp [raiseFault, h]

/-- A later fault sets DONE alone (R286). -/
theorem raiseFault_of_faulted (c : FaultCode) (i : Word) (s : State) (h : s.fault = true) :
    raiseFault c i s = { s with done := true } := by
  simp [raiseFault, h]

theorem finish_error (w : Word) (s : State) (c : FaultCode) : finish w s (.error c) = commandFault c w s := rfl

theorem finish_ok (w : Word) (s t : State) : finish w s (.ok t) = completeCommand t := rfl

theorem enterPending_of_none (s : State) (h : s.pend = none) : enterPending s = s := by
  simp [enterPending, h]

theorem enterPending_of_some (s : State) (q : Pend) (h : s.pend = some q) :
    enterPending s = { raiseFault q.code (q.addr.setWidth 32) s with pend := none } := by
  simp [enterPending, h]

/-- What an asserted or released reset input leaves, whatever was there (R311). -/
theorem driveReset_of_asserted (b : Bool) (s : State) (h : b = true ∨ s.resetPin = true) : driveReset b s =
    { State.reset with hw := s.hw, inbox := s.inbox, draws := s.draws, issues := s.issues, resetPin := b } := by
  have e : (b || s.resetPin) = true := by simpa using h
  simp only [driveReset, e, if_true]
  rfl

/-- With the reset input not asserted, driving it to unasserted changes nothing (log entry 11). -/
theorem driveReset_of_unasserted (s : State) (h : s.resetPin = false) : driveReset false s = s := by
  simp [driveReset, h]

/-! ### When a command executes -/

/-- The checks and the effect of a command. -/
def tryCommand : Instr → State → Except FaultCode State
  | .nop => fun s => .ok s
  | .init => tryInit
  | .teardown => fun s => .ok (teardownSession s)
  | .processBlock => tryProcessBlock prims
  | .blockBegin => tryBlockBegin
  | .blockEnd => tryBlockEnd
  | .voiceRender unit => tryVoiceRender prims unit
  | .filterBlock unit => tryFilterBlock prims unit
  | .filterStep unit => tryFilterStep prims unit
  | .oscNext unit sub cls => tryOscNext prims unit sub cls
  | .oscRender unit sub cls ovw mono ufm uam => tryOscRender prims unit sub cls ovw mono ufm uam
  | .lfoProduce unit sub cls ufm => tryLfoProduce prims unit sub cls ufm

/-- Every command answers a next state: its effect completed, or its fault entry. -/
theorem exec_eq (i : Instr) (s : State) : exec i s = .next (finish (encode i) s (tryCommand i s)) := by
  cases i <;> rfl

theorem tryBlockBegin_ok (s t : State) : tryBlockBegin s = .ok t ↔ s.ready = true ∧ t = blockBegin s := by
  unfold tryBlockBegin
  cases s.ready <;> simp [eq_comm]

theorem tryBlockEnd_ok (s t : State) : tryBlockEnd s = .ok t ↔ s.ready = true ∧ t = blockEnd s := by
  unfold tryBlockEnd
  cases s.ready <;> simp [eq_comm]

theorem tryInit_ok (s t : State) : tryInit s = .ok t ↔
    isFinite s.arg0 = true ∧ flt fZero s.arg0 = true ∧ 1 ≤ s.arg1.toNat ∧ s.arg1.toNat ≤ s.hw.blockMax ∧
      t = initSession s := by
  unfold tryInit
  split
  · rename_i h
    simp only [reduceCtorEq, false_iff]
    rintro ⟨h1, h2, -⟩
    simp [h1, h2] at h
  · rename_i h
    simp only [Bool.not_eq_true', Bool.and_eq_false_iff, not_or, Bool.not_eq_false] at h
    split
    · rename_i h2
      simp only [reduceCtorEq, false_iff]
      rintro ⟨-, -, h3, h4, -⟩
      simp only [Bool.or_eq_true, decide_eq_true_eq] at h2
      omega
    · rename_i h2
      simp only [Bool.or_eq_true, decide_eq_true_eq] at h2
      simp only [Except.ok.injEq, h.1, h.2, true_and]
      constructor
      · rintro rfl
        exact ⟨by omega, by omega, rfl⟩
      · rintro ⟨-, -, rfl⟩
        rfl

theorem tryOscNext_ok (F : Prims) (unit : BitVec 8) (sub : BitVec 4) (cls : Bool) (s t : State) :
    tryOscNext F unit sub cls s = .ok t ↔ s.ready = true ∧ ∃ o wf, oscTarget s.hw unit sub cls = some o ∧
      waveformOf (getOsc s o).kind = some wf ∧
      t = { oscAdvance wf o (some s.arg0) s with result := oscValue F wf o (some s.arg0) s.arg1 s } := by
  unfold tryOscNext
  cases s.ready <;> simp only [Bool.not_true, Bool.not_false, if_true, Bool.false_eq_true, if_false, reduceCtorEq,
    false_and, true_and]
  cases h : oscTarget s.hw unit sub cls with
  | none => simp
  | some o => cases h2 : waveformOf (getOsc s o).kind <;> simp [h2, eq_comm]

theorem tryOscRender_ok (F : Prims) (unit : BitVec 8) (sub : BitVec 4) (cls ovw mono ufm uam : Bool) (s t : State) :
    tryOscRender F unit sub cls ovw mono ufm uam s = .ok t ↔ s.ready = true ∧ buffersOk s mono ufm uam = true ∧
      ∃ o wf, oscTarget s.hw unit sub cls = some o ∧ waveformOf (getOsc s o).kind = some wf ∧
      t = render F (oscRenderOf o wf ovw mono ufm uam s) s := by
  unfold tryOscRender
  cases s.ready <;> simp only [Bool.not_true, Bool.not_false, if_true, Bool.false_eq_true, if_false, reduceCtorEq,
    false_and, true_and]
  cases h : oscTarget s.hw unit sub cls with
  | none => simp
  | some o => cases hb : buffersOk s mono ufm uam <;> cases h2 : waveformOf (getOsc s o).kind <;> simp [h2, eq_comm]

theorem tryLfoProduce_ok (F : Prims) (unit : BitVec 8) (sub : BitVec 4) (cls ufm : Bool) (s t : State) :
    tryLfoProduce F unit sub cls ufm s = .ok t ↔ s.ready = true ∧ ∃ l wf, lfoTarget s.hw unit sub cls = some l ∧
      (ufm = true → (metaOf l).isSome = true) ∧ waveformOf (getLfo s l).osc.kind = some wf ∧
      t = lfoRun F l wf ufm s := by
  unfold tryLfoProduce
  cases s.ready <;> simp only [Bool.not_true, Bool.not_false, if_true, Bool.false_eq_true, if_false, reduceCtorEq,
    false_and, true_and]
  cases h : lfoTarget s.hw unit sub cls with
  | none => simp
  | some l =>
    by_cases hu : (ufm && (metaOf l).isNone) = true
    · have hn : ¬ (ufm = true → (metaOf l).isSome = true) := by
        cases ufm <;> cases hm : metaOf l <;> simp_all
      simp only [hu, if_true, reduceCtorEq, Option.some.injEq, false_iff]
      rintro ⟨k, wf, rfl, hk, -⟩
      exact hn hk
    · have hn : ufm = true → (metaOf l).isSome = true := by
        cases ufm <;> cases hm : metaOf l <;> simp_all
      cases h2 : waveformOf (getLfo s l).osc.kind with
      | none =>
        simp only [hu, Bool.false_eq_true, if_false, h2, reduceCtorEq, Option.some.injEq, false_iff]
        rintro ⟨k, wf, rfl, -, hw, -⟩
        simp [h2] at hw
      | some wf =>
        simp only [hu, Bool.false_eq_true, if_false, h2, Except.ok.injEq, Option.some.injEq]
        constructor
        · rintro rfl
          exact ⟨l, wf, rfl, hn, h2, rfl⟩
        · rintro ⟨k, wf', rfl, -, hw, rfl⟩
          rw [h2] at hw
          cases hw
          rfl

theorem tryFilterStep_ok (F : Prims) (unit : BitVec 8) (s t : State) :
    tryFilterStep F unit s = .ok t ↔ s.ready = true ∧ ∃ f, filterUnit unit = some f ∧
      t = { setFilter s f (ladderRecord F (getFilter s f) s.arg0 s.arg1) with
            result := ladderOut F (getFilter s f) s.arg0 s.arg1 } := by
  unfold tryFilterStep
  cases s.ready <;> simp only [Bool.not_true, Bool.not_false, if_true, Bool.false_eq_true, if_false, reduceCtorEq,
    false_and, true_and]
  cases h : filterUnit unit <;> simp [eq_comm]

theorem tryFilterBlock_ok (F : Prims) (unit : BitVec 8) (s t : State) :
    tryFilterBlock F unit s = .ok t ↔ s.ready = true ∧ ∃ f pl, filterUnit unit = some f ∧
      planFilter (getFilter s f) = some pl ∧ t = filterBlock F f pl s := by
  unfold tryFilterBlock
  cases s.ready <;> simp only [Bool.not_true, Bool.not_false, if_true, Bool.false_eq_true, if_false, reduceCtorEq,
    false_and, true_and]
  cases h : filterUnit unit with
  | none => simp
  | some f => cases h2 : planFilter (getFilter s f) <;> simp [h2, eq_comm]

theorem tryVoiceRender_ok (F : Prims) (unit : BitVec 8) (s t : State) :
    tryVoiceRender F unit s = .ok t ↔ s.ready = true ∧ ∃ v pl, voiceUnit s.hw unit = some v ∧
      planVoice (getVoice s v) = some pl ∧ t = voiceRender F v pl s := by
  unfold tryVoiceRender
  cases s.ready <;> simp only [Bool.not_true, Bool.not_false, if_true, Bool.false_eq_true, if_false, reduceCtorEq,
    false_and, true_and]
  cases h : voiceUnit s.hw unit with
  | none => simp
  | some v => cases h2 : planVoice (getVoice s v) <;> simp [h2, eq_comm]

theorem tryProcessBlock_ok (F : Prims) (s t : State) :
    tryProcessBlock F s = .ok t ↔ s.ready = true ∧ ∃ vs fs, planVoices s = some vs ∧ planFilters s = some fs ∧
      t = processBlock F vs fs s := by
  unfold tryProcessBlock
  cases s.ready <;> simp only [Bool.not_true, Bool.not_false, if_true, Bool.false_eq_true, if_false, reduceCtorEq,
    false_and, true_and]
  cases h : planVoices s <;> cases h2 : planFilters s <;> simp [eq_comm]

/-! ### Steps -/

/-- Everything a step can do (R112, R113, R320). -/
theorem step_cases (s t : State) (h : step s = .next t) :
    (s.inFlight = none ∧ t = hostTurn s) ∨
    (∃ c, s.inFlight = some c ∧ c.wait ≠ 0 ∧ t = countDown (hostTurn s)) ∨
    (∃ c i, s.inFlight = some c ∧ c.wait = 0 ∧ decode c.word = .ok i ∧
      t = enterPending (finish (encode i) s (tryCommand i s))) ∨
    (∃ c e, s.inFlight = some c ∧ c.wait = 0 ∧ decode c.word = .error e ∧
      t = enterPending (commandFault (decodeFault e) c.word s)) := by
  unfold step turn at h
  split at h
  · rename_i hc
    exact .inl ⟨hc, by cases h; rfl⟩
  · rename_i c hc
    split at h
    · rename_i hw
      unfold completeWord at h
      split at h
      · rename_i i hi
        rw [exec_eq] at h
        exact .inr (.inr (.inl ⟨c, i, hc, hw, hi, by cases h; rfl⟩))
      · rename_i e he
        exact .inr (.inr (.inr ⟨c, e, hc, hw, he, by cases h; rfl⟩))
    · rename_i hw
      exact .inr (.inl ⟨c, hc, hw, by cases h; rfl⟩)

/-- Everything a host turn can do (R85, R127, R311). -/
theorem hostTurn_cases (s : State) :
    (s.inbox = [] ∧ hostTurn s = s) ∨
    (∃ rest, s.inbox = .wait :: rest ∧ busy s = true ∧ hostTurn s = hostRead 0x000008#24 s) ∨
    (∃ e rest, s.inbox = e :: rest ∧ hostTurn s = hostEvent e { s with inbox := rest }) := by
  unfold hostTurn
  split
  · rename_i h
    exact .inl ⟨h, rfl⟩
  · rename_i e rest h
    split
    · rename_i hw
      simp only [Bool.and_eq_true, decide_eq_true_eq] at hw
      exact .inr (.inl ⟨rest, by rw [h, hw.1], hw.2, rfl⟩)
    · exact .inr (.inr ⟨e, rest, h, rfl⟩)

/-- Everything a port read can do (R93, R99, R101). -/
theorem hostRead_cases (a : Addr) (s : State) :
    (busy s = true ∧ hostRead a s = busyRefuse a s) ∨
    (hostLoc s.hw a = none ∧ hostRead a s = busRefuse a s) ∨
    (∃ l, hostLoc s.hw a = some l ∧ hostRead a s = respond .okay (readLoc s l) s) := by
  unfold hostRead
  split
  · rename_i h
    simp only [Bool.and_eq_true] at h
    exact .inl ⟨h.1, rfl⟩
  · split
    · rename_i h
      exact .inr (.inl ⟨h, rfl⟩)
    · rename_i l h
      exact .inr (.inr ⟨l, h, rfl⟩)

/-- Everything a port write can do (R93, R99, R101). -/
theorem hostWrite_cases (a : Addr) (v : Word) (s : State) :
    (busy s = true ∧ hostWrite a v s = busyRefuse a s) ∨
    (busy s = false ∧ hostLoc s.hw a = none ∧ hostWrite a v s = busRefuse a s) ∨
    (∃ l, busy s = false ∧ hostLoc s.hw a = some l ∧ hostWrite a v s = respond .okay 0 (writeLoc l v s)) := by
  unfold hostWrite
  split
  · rename_i h
    exact .inl ⟨h, rfl⟩
  · rename_i hb
    simp only [Bool.not_eq_true] at hb
    split
    · rename_i h
      exact .inr (.inl ⟨hb, h, rfl⟩)
    · rename_i l h
      exact .inr (.inr ⟨l, hb, h, rfl⟩)

end Sys2Proof.Machine
end

