-- ==== Sys2Proof/Laws/Records.lean ====
section
/-! SUPPORT. What reading one record gives after a record is replaced (R50 to R72), and that records depend on the
record fields alone. -/

namespace Sys2Proof.Machine

theorem getFilter_congr {s t : State} (h : s.filters = t.filters) (f : Fin 4) : getFilter s f = getFilter t f := by
  simp [getFilter, h]

theorem getVoice_congr {s t : State} (h : s.voices = t.voices) (v : Fin 32) : getVoice s v = getVoice t v := by
  simp [getVoice, h]

theorem getLfo_congr {s t : State} (hf : s.filters = t.filters) (hv : s.voices = t.voices) (l : LfoSel) :
    getLfo s l = getLfo t l := by
  cases l <;> simp [getLfo, getVoice_congr hv, getFilter_congr hf]

theorem getOsc_congr {s t : State} (hf : s.filters = t.filters) (hv : s.voices = t.voices) (o : OscSel) :
    getOsc s o = getOsc t o := by
  cases o <;> simp [getOsc, getVoice_congr hv, getLfo_congr hf hv]

theorem readBuf_congr {s t : State} (h : s.ram = t.ram) (b n : Nat) : readBuf s b n = readBuf t b n := by
  simp [readBuf, h]

@[simp] theorem getFilter_setFilter_same (s : State) (f : Fin 4) (R : Filter) : getFilter (setFilter s f R) f = R := by
  simp [getFilter, setFilter]

theorem getFilter_setFilter_ne (s : State) (f g : Fin 4) (R : Filter) (h : g ≠ f) :
    getFilter (setFilter s f R) g = getFilter s g := by
  have : f.val ≠ g.val := fun e => h (Fin.ext e.symm)
  simp [getFilter, setFilter, this]

@[simp] theorem getVoice_setVoice_same (s : State) (v : Fin 32) (V : Voice) : getVoice (setVoice s v V) v = V := by
  simp [getVoice, setVoice]

theorem getVoice_setVoice_ne (s : State) (v w : Fin 32) (V : Voice) (h : w ≠ v) :
    getVoice (setVoice s v V) w = getVoice s w := by
  have : v.val ≠ w.val := fun e => h (Fin.ext e.symm)
  simp [getVoice, setVoice, this]

@[simp] theorem getVoice_setFilter (s : State) (f : Fin 4) (R : Filter) (v : Fin 32) :
    getVoice (setFilter s f R) v = getVoice s v := rfl

@[simp] theorem getFilter_setVoice (s : State) (v : Fin 32) (V : Voice) (f : Fin 4) :
    getFilter (setVoice s v V) f = getFilter s f := rfl

@[simp] theorem getFilter_writeBuf (s : State) (b n : Nat) (w : Word) (f : Fin 4) :
    getFilter (writeBuf s b n w) f = getFilter s f := rfl

@[simp] theorem getVoice_writeBuf (s : State) (b n : Nat) (w : Word) (v : Fin 32) :
    getVoice (writeBuf s b n w) v = getVoice s v := rfl

@[simp] theorem getOsc_writeBuf (s : State) (b n : Nat) (w : Word) (t : OscSel) :
    getOsc (writeBuf s b n w) t = getOsc s t := getOsc_congr rfl rfl t

@[simp] theorem getFilter_putSample (ovw : Bool) (b n : Nat) (w : Word) (s : State) (f : Fin 4) :
    getFilter (putSample ovw b n w s) f = getFilter s f := rfl

@[simp] theorem getVoice_putSample (ovw : Bool) (b n : Nat) (w : Word) (s : State) (v : Fin 32) :
    getVoice (putSample ovw b n w s) v = getVoice s v := rfl

@[simp] theorem getOsc_putSample (ovw : Bool) (b n : Nat) (w : Word) (s : State) (t : OscSel) :
    getOsc (putSample ovw b n w s) t = getOsc s t := getOsc_congr rfl rfl t

@[simp] theorem voiceLfo_setVoiceLfo_same (V : Voice) (j : VoiceLfo) (l : Lfo) : voiceLfo (setVoiceLfo V j l) j = l := by
  cases j <;> rfl

theorem voiceLfo_setVoiceLfo_ne (V : Voice) (j k : VoiceLfo) (l : Lfo) (h : k ≠ j) :
    voiceLfo (setVoiceLfo V j l) k = voiceLfo V k := by
  cases j <;> cases k <;> first | rfl | exact absurd rfl h

@[simp] theorem setVoiceLfo_osc (V : Voice) (j : VoiceLfo) (l : Lfo) : (setVoiceLfo V j l).osc = V.osc := by
  cases j <;> rfl

@[simp] theorem setVoiceLfo_vcfg (V : Voice) (j : VoiceLfo) (l : Lfo) : (setVoiceLfo V j l).vcfg = V.vcfg := by
  cases j <;> rfl

@[simp] theorem filterLfo_setFilterLfo_same (R : Filter) (j : FilterLfo) (l : Lfo) :
    filterLfo (setFilterLfo R j l) j = l := by
  cases j <;> rfl

theorem filterLfo_setFilterLfo_ne (R : Filter) (j k : FilterLfo) (l : Lfo) (h : k ≠ j) :
    filterLfo (setFilterLfo R j l) k = filterLfo R k := by
  cases j <;> cases k <;> first | rfl | exact absurd rfl h

@[simp] theorem getLfo_setLfo_same (s : State) (l : LfoSel) (r : Lfo) : getLfo (setLfo s l r) l = r := by
  cases l <;> simp [getLfo, setLfo]

theorem getLfo_setLfo_ne (s : State) (l k : LfoSel) (r : Lfo) (h : k ≠ l) : getLfo (setLfo s l r) k = getLfo s k := by
  cases l with
  | voice v j =>
    cases k with
    | voice w i =>
      by_cases hv : w = v
      · subst hv
        have hi : i ≠ j := fun e => h (e ▸ rfl)
        simp [getLfo, setLfo, voiceLfo_setVoiceLfo_ne _ _ _ _ hi]
      · simp [getLfo, setLfo, getVoice_setVoice_ne _ _ _ _ hv]
    | filter g i => simp [getLfo, setLfo]
  | filter f j =>
    cases k with
    | voice w i => simp [getLfo, setLfo]
    | filter g i =>
      by_cases hf : g = f
      · subst hf
        have hi : i ≠ j := fun e => h (e ▸ rfl)
        simp [getLfo, setLfo, filterLfo_setFilterLfo_ne _ _ _ _ hi]
      · simp [getLfo, setLfo, getFilter_setFilter_ne _ _ _ _ hf]

@[simp] theorem getOsc_setOsc_same (s : State) (t : OscSel) (o : Osc) : getOsc (setOsc s t o) t = o := by
  cases t <;> simp [getOsc, setOsc]

theorem getOsc_setOsc_ne (s : State) (t u : OscSel) (o : Osc) (h : u ≠ t) : getOsc (setOsc s t o) u = getOsc s u := by
  cases t with
  | voice v =>
    cases u with
    | voice w =>
      have hw : w ≠ v := fun e => h (e ▸ rfl)
      simp [getOsc, setOsc, getVoice_setVoice_ne _ _ _ _ hw]
    | lfo k =>
      cases k with
      | voice w i =>
        by_cases hv : w = v
        · subst hv
          cases i <;> simp [getOsc, setOsc, getLfo, voiceLfo]
        · simp [getOsc, setOsc, getLfo, getVoice_setVoice_ne _ _ _ _ hv]
      | filter g i => simp [getOsc, setOsc, getLfo]
  | lfo l =>
    cases u with
    | voice w =>
      cases l with
      | voice v j =>
        by_cases hv : w = v
        · subst hv
          simp [getOsc, setOsc, setLfo]
        · simp [getOsc, setOsc, setLfo, getVoice_setVoice_ne _ _ _ _ hv]
      | filter f j => simp [getOsc, setOsc, setLfo]
    | lfo k =>
      have hk : k ≠ l := fun e => h (e ▸ rfl)
      simp [getOsc, setOsc, getLfo_setLfo_ne _ _ _ _ hk]

@[simp] theorem setFilter_getFilter (s : State) (f : Fin 4) : setFilter s f (getFilter s f) = s := by
  simp [setFilter, getFilter]

@[simp] theorem setVoice_getVoice (s : State) (v : Fin 32) : setVoice s v (getVoice s v) = s := by
  simp [setVoice, getVoice]

@[simp] theorem setFilter_setFilter (s : State) (f : Fin 4) (R R' : Filter) :
    setFilter (setFilter s f R) f R' = setFilter s f R' := by
  simp [setFilter]

@[simp] theorem setVoice_setVoice (s : State) (v : Fin 32) (V V' : Voice) :
    setVoice (setVoice s v V) v V' = setVoice s v V' := by
  simp [setVoice]

@[simp] theorem setVoiceLfo_voiceLfo (V : Voice) (j : VoiceLfo) : setVoiceLfo V j (voiceLfo V j) = V := by
  cases j <;> rfl

@[simp] theorem setVoiceLfo_setVoiceLfo (V : Voice) (j : VoiceLfo) (l l' : Lfo) :
    setVoiceLfo (setVoiceLfo V j l) j l' = setVoiceLfo V j l' := by
  cases j <;> rfl

@[simp] theorem setFilterLfo_filterLfo (R : Filter) (j : FilterLfo) : setFilterLfo R j (filterLfo R j) = R := by
  cases j <;> rfl

@[simp] theorem setFilterLfo_setFilterLfo (R : Filter) (j : FilterLfo) (l l' : Lfo) :
    setFilterLfo (setFilterLfo R j l) j l' = setFilterLfo R j l' := by
  cases j <;> rfl

@[simp] theorem setLfo_getLfo (s : State) (l : LfoSel) : setLfo s l (getLfo s l) = s := by
  cases l <;> simp [setLfo, getLfo]

@[simp] theorem setLfo_setLfo (s : State) (l : LfoSel) (r r' : Lfo) : setLfo (setLfo s l r) l r' = setLfo s l r' := by
  cases l <;> simp [setLfo]

@[simp] theorem setOsc_getOsc (s : State) (t : OscSel) : setOsc s t (getOsc s t) = s := by
  cases t with
  | voice v => exact setVoice_getVoice s v
  | lfo l => exact setLfo_getLfo s l

@[simp] theorem setOsc_setOsc (s : State) (t : OscSel) (o o' : Osc) : setOsc (setOsc s t o) t o' = setOsc s t o' := by
  cases t <;> simp [setOsc]

@[simp] theorem rephased_self (o : Osc) : rephased o o.phase = o := rfl

@[simp] theorem rephased_rephased (o : Osc) (p q : Word) : rephased (rephased o p) q = rephased o q := rfl

@[simp] theorem rephasedLfo_self (l : Lfo) : rephasedLfo l l.osc.phase = l := rfl

@[simp] theorem rephasedLfo_rephasedLfo (l : Lfo) (p q : Word) : rephasedLfo (rephasedLfo l p) q = rephasedLfo l q := rfl

/-- A phase advance is another PHASE, and nothing else (R193). -/
theorem advance_rephased (fm : Option Word) (o : Osc) :
    advance fm o = rephased o (wrap (fadd o.phase (phaseStep fm o))) := rfl

end Sys2Proof.Machine
end

