-- ==== Sys2Proof/Laws/Frames.lean ====
section
/-! SUPPORT. The samples of the buffers, and what a render (R196), an LFO run (R197), one sample of the filter (R161)
and one sample of the fade (R240) change. -/

namespace Sys2Proof.Machine

/-! ### Samples -/

theorem readBuf_writeBuf_same (s : State) (b n : Nat) (v : Word) (h : memoryWf s.ram = true) :
    readBuf (writeBuf s b n v) b n = v := readWord_writeWord_same s.ram _ v h

theorem readBuf_writeBuf_ne (s : State) (b b' n n' : Nat) (v : Word) (hn : n < 4096) (hn' : n' < 4096)
    (h : b' ≠ b ∨ n' ≠ n) : readBuf (writeBuf s b n v) b' n' = readBuf s b' n' :=
  readWord_writeWord_ne s.ram _ _ v (bufAddr_apart b' b n' n hn' hn h)

theorem readBuf_putSample_same (ovw : Bool) (b n : Nat) (v : Word) (s : State) (h : memoryWf s.ram = true) :
    readBuf (putSample ovw b n v s) b n = if ovw then v else fadd (readBuf s b n) v :=
  readBuf_writeBuf_same s b n _ h

theorem readBuf_putSample_ne (ovw : Bool) (b b' n n' : Nat) (v : Word) (s : State) (hn : n < 4096) (hn' : n' < 4096)
    (h : b' ≠ b ∨ n' ≠ n) : readBuf (putSample ovw b n v s) b' n' = readBuf s b' n' :=
  readBuf_writeBuf_ne s b b' n n' _ hn hn' h

theorem memoryWf_putSample (ovw : Bool) (b n : Nat) (v : Word) (s : State) (h : memoryWf s.ram = true) :
    memoryWf (putSample ovw b n v s).ram = true := memoryWf_writeWord s.ram _ _ h

theorem readByte_putSample_ne (ovw : Bool) (b n : Nat) (v : Word) (s : State) (a : Nat)
    (h : a < bufAddr b n ∨ bufAddr b n + 4 ≤ a) : readByte (putSample ovw b n v s).ram a = readByte s.ram a :=
  readByte_writeWord_ne s.ram _ a _ h

theorem mem_putSample (ovw : Bool) (b n : Nat) (v : Word) (s : State) (d : Host.Cell)
    (h : d ∈ (putSample ovw b n v s).ram) : (bufAddr b n ≤ d.1 ∧ d.1 < bufAddr b n + 4) ∨ d ∈ s.ram :=
  mem_writeWord s.ram _ _ d h

/-- The bytes of one word of a buffer are bytes of the buffer. -/
theorem inBuffer_of_word (b N n a : Nat) (hn : n < N) (h : bufAddr b n ≤ a ∧ a < bufAddr b n + 4) : inBuffer b N a := by
  unfold inBuffer
  unfold bufAddr at *
  omega

/-! ### RENDER and LFO_RUN -/

/-- A buffer's bytes only grow with the block. -/
theorem inBuffer_succ (b n a : Nat) (h : inBuffer b n a) : inBuffer b (n + 1) a := by
  unfold inBuffer at *
  omega

/-- Replacing an oscillator looks at the records alone. -/
theorem setOsc_records_congr {s t : State} (hf : s.filters = t.filters) (hv : s.voices = t.voices) (o : OscSel)
    (x : Osc) : (setOsc s o x).filters = (setOsc t o x).filters ∧ (setOsc s o x).voices = (setOsc t o x).voices := by
  rcases o with v | ⟨v, j⟩ | ⟨f, j⟩ <;>
    simp [setOsc, setLfo, setVoice, setFilter, getLfo, getVoice, getFilter, hf, hv]

/-- `u` differs from `s` in the records, the memory and the draws alone. -/
def RecordsMoved (s u : State) : Prop :=
  u = { s with filters := u.filters, voices := u.voices, ram := u.ram, draws := u.draws }

/-- Two such changes are one. -/
theorem recordsMoved_trans {s t u : State} (h1 : RecordsMoved s t) (h2 : RecordsMoved t u) : RecordsMoved s u :=
  Eq.trans h2 (congrArg (fun x : State =>
    { x with filters := u.filters, voices := u.voices, ram := u.ram, draws := u.draws }) h1)

/-- One stored sample is such a change. -/
theorem recordsMoved_putSample (ovw : Bool) (b n : Nat) (v : Word) (s : State) :
    RecordsMoved s (putSample ovw b n v s) := rfl

/-- A phase advance is such a change. -/
theorem recordsMoved_oscAdvance (wf : Waveform) (o : OscSel) (fm : Option Word) (s : State) :
    RecordsMoved s (oscAdvance wf o fm s) := by
  rcases o with v | ⟨v, j⟩ | ⟨f, j⟩ <;> rfl

/-- One sample of a render is such a change. -/
theorem recordsMoved_renderSample (F : Prims) (r : Render) (n : Nat) (s : State) :
    RecordsMoved s (renderSample F r n s) := by
  have h1 := fun v => recordsMoved_trans (recordsMoved_oscAdvance r.wf r.osc (renderFm r n s) s)
    (recordsMoved_putSample r.ovw r.buf n v _)
  unfold renderSample
  cases r.mono
  · exact recordsMoved_trans (h1 _) (recordsMoved_putSample _ _ _ _ _)
  · exact h1 _

/-- What `n` samples of a render leave: another PHASE, another count of draws, and a memory that differs only in the
words written so far. -/
def RenderLeaves (r : Render) (s : State) (n : Nat) (t : State) : Prop :=
  RecordsMoved s t ∧
  (∃ p, (p = (getOsc s r.osc).phase ∨ ∃ v, p = wrap v) ∧
    t.filters = (setOsc s r.osc (rephased (getOsc s r.osc) p)).filters ∧
    t.voices = (setOsc s r.osc (rephased (getOsc s r.osc) p)).voices) ∧
  t.draws = s.draws + n * drawsOf r.wf ∧
  (memoryWf s.ram = true → memoryWf t.ram = true) ∧
  (∀ a, ¬ inBuffer r.buf n a → ¬ (r.mono = false ∧ inBuffer (r.buf + 1) n a) → readByte t.ram a = readByte s.ram a) ∧
  (∀ d ∈ t.ram, inBuffer r.buf n d.1 ∨ (r.mono = false ∧ inBuffer (r.buf + 1) n d.1) ∨ d ∈ s.ram)

/-- One more sample of a render. -/
theorem renderSample_leaves (F : Prims) (r : Render) (s t : State) (n : Nat) (h : RenderLeaves r s n t) :
    RenderLeaves r s (n + 1) (renderSample F r n t) := by
  obtain ⟨ht, ⟨p, -, hf, hv⟩, hd, hw, hb, hm⟩ := h
  have ho : getOsc t r.osc = rephased (getOsc s r.osc) p := by
    rw [getOsc_congr hf hv, getOsc_setOsc_same]
  refine ⟨recordsMoved_trans ht (recordsMoved_renderSample F r n t),
    ⟨wrap (fadd (getOsc t r.osc).phase (phaseStep (renderFm r n t) (getOsc t r.osc))), .inr ⟨_, rfl⟩, ?_, ?_⟩,
    ?_, ?_, ?_, ?_⟩
  · have e : (renderSample F r n t).filters =
        (setOsc t r.osc (advance (renderFm r n t) (getOsc t r.osc))).filters := by
      unfold renderSample
      cases r.mono <;> rfl
    rw [e, (setOsc_records_congr hf hv r.osc _).1, setOsc_setOsc, advance_rephased, ho, rephased_rephased]
  · have e : (renderSample F r n t).voices =
        (setOsc t r.osc (advance (renderFm r n t) (getOsc t r.osc))).voices := by
      unfold renderSample
      cases r.mono <;> rfl
    rw [e, (setOsc_records_congr hf hv r.osc _).2, setOsc_setOsc, advance_rephased, ho, rephased_rephased]
  · have : (renderSample F r n t).draws = t.draws + drawsOf r.wf := by
      unfold renderSample
      cases r.mono <;> rfl
    rw [this, hd]
    ring
  · intro h
    have h1 := memoryWf_putSample r.ovw r.buf n (oscValue F r.wf r.osc (renderFm r n t) (renderAmp r n t) t)
      (oscAdvance r.wf r.osc (renderFm r n t) t) (by simpa using hw h)
    unfold renderSample
    cases r.mono
    · exact memoryWf_putSample _ _ _ _ _ h1
    · exact h1
  · intro a h1 h2
    rw [← hb a (fun h => h1 (inBuffer_succ _ _ _ h)) (fun h => h2 ⟨h.1, inBuffer_succ _ _ _ h.2⟩)]
    have e1 : a < bufAddr r.buf n ∨ bufAddr r.buf n + 4 ≤ a := by
      by_contra hc
      exact h1 (inBuffer_of_word r.buf (n + 1) n a (by omega) (by omega))
    unfold renderSample
    cases hmo : r.mono
    · have e2 : a < bufAddr (r.buf + 1) n ∨ bufAddr (r.buf + 1) n + 4 ≤ a := by
        by_contra hc
        exact h2 ⟨hmo, inBuffer_of_word (r.buf + 1) (n + 1) n a (by omega) (by omega)⟩
      exact (readByte_putSample_ne _ _ _ _ _ a e2).trans
        ((readByte_putSample_ne _ _ _ _ _ a e1).trans (by simp))
    · exact (readByte_putSample_ne _ _ _ _ _ a e1).trans (by simp)
  · intro d hd
    have back : d ∈ t.ram → inBuffer r.buf (n + 1) d.1 ∨ (r.mono = false ∧ inBuffer (r.buf + 1) (n + 1) d.1) ∨
        d ∈ s.ram := by
      intro h
      rcases hm d h with h | ⟨h0, h⟩ | h
      · exact .inl (inBuffer_succ _ _ _ h)
      · exact .inr (.inl ⟨h0, inBuffer_succ _ _ _ h⟩)
      · exact .inr (.inr h)
    have first : ∀ v, d ∈ (putSample r.ovw r.buf n v (oscAdvance r.wf r.osc (renderFm r n t) t)).ram →
        inBuffer r.buf (n + 1) d.1 ∨ (r.mono = false ∧ inBuffer (r.buf + 1) (n + 1) d.1) ∨ d ∈ s.ram := by
      intro v h
      rcases mem_putSample _ _ _ _ _ _ h with h | h
      · exact .inl (inBuffer_of_word _ _ n _ (by omega) h)
      · exact back (by simpa using h)
    unfold renderSample at hd
    cases hmo : r.mono
    · simp only [hmo, Bool.false_eq_true, if_false] at hd
      rcases mem_putSample _ _ _ _ _ _ hd with h | h
      · exact .inr (.inl ⟨rfl, inBuffer_of_word _ _ n _ (by omega) h⟩)
      · simpa [hmo] using first _ h
    · simp only [hmo, if_true] at hd
      simpa [hmo] using first _ hd

/-- Everything RENDER changes (R196). -/
theorem render_leaves (F : Prims) (r : Render) (s : State) : RenderLeaves r s (blockLen s) (render F r s) := by
  refine forSamples_induct (RenderLeaves r s) _ s _ ⟨rfl, ⟨(getOsc s r.osc).phase, .inl rfl, ?_, ?_⟩, by simp, id,
    fun _ _ _ => rfl, fun d hd => .inr (.inr hd)⟩ fun n t _ h => renderSample_leaves F r s t n h
  · rw [rephased_self, setOsc_getOsc]
  · rw [rephased_self, setOsc_getOsc]

/-- Everything LFO_RUN changes: the LFO's PHASE, the draws, and its own buffer (R57, R197). -/
theorem lfoRun_leaves (F : Prims) (l : LfoSel) (wf : Waveform) (ufm : Bool) (s : State) :
    RenderLeaves (lfoRender l wf ufm s) s (blockLen s) (lfoRun F l wf ufm s) :=
  render_leaves F _ s

/-! ### One sample of FILTER_BLOCK and of the fade -/

/-- The configuration of a filter is what STEP leaves alone (R141). -/
theorem ladderRecord_config (F : Prims) (R : Filter) (x m : Word) :
    ladderRecord F R x m = { R with
      s := (ladderRecord F R x m).s, xprev := x, lastIters := (ladderRecord F R x m).lastIters
      fstat := (ladderRecord F R x m).fstat } := rfl

/-- One sample of FILTER_BLOCK changes the filter's record and one word of its output buffer (R161). -/
theorem filterSample_eq (F : Prims) (f : Fin 4) (n : Nat) (s : State) :
    filterSample F f n s = { s with
      filters := s.filters.set f.val (ladderRecord F (getFilter s f) (filterInput f n s) (filterMod f n s))
      ram := writeWord s.ram (bufAddr (filterOut f) n)
        (fadd (readBuf s (filterOut f) n) (ladderOut F (getFilter s f) (filterInput f n s) (filterMod f n s))) } := rfl

/-- Past FADE_LEN a sample of the fade changes nothing (R240). -/
theorem fadeSample_done (n : Nat) (s : State) (h : s.fadeLen.toNat ≤ s.fadePos.toNat) : fadeSample n s = s := by
  simp [fadeSample, Nat.not_lt.2 h]

/-- Below FADE_LEN a sample of the fade scales one word of each output buffer and moves FADE_POS (R240). -/
theorem fadeSample_fading (n : Nat) (s : State) (h : s.fadePos.toNat < s.fadeLen.toNat) (hn : n < 4096) :
    fadeSample n s = { s with
      ram := writeWord (writeWord s.ram (bufAddr 0 n) (fmul (readBuf s 0 n) (fadeGain s))) (bufAddr 1 n)
        (fmul (readBuf s 1 n) (fadeGain s))
      fadePos := s.fadePos + 1 } := by
  have e : readBuf (writeBuf s 0 n (fmul (readBuf s 0 n) (fadeGain s))) 1 n = readBuf s 1 n :=
    readBuf_writeBuf_ne s 0 1 n n _ hn hn (.inl (by omega))
  simp only [fadeSample, h, if_true, e]
  rfl

/-! ### Reset -/

@[simp] theorem getFilter_reset (f : Fin 4) : getFilter State.reset f = Filter.reset := by
  simp [getFilter, State.reset]

@[simp] theorem getVoice_reset (v : Fin 32) : getVoice State.reset v = Voice.reset := by
  simp [getVoice, State.reset]

@[simp] theorem getLfo_reset (l : LfoSel) : getLfo State.reset l = Lfo.reset := by
  rcases l with ⟨v, j⟩ | ⟨f, j⟩ <;> cases j <;> simp [getLfo, voiceLfo, filterLfo, Voice.reset, Filter.reset]

@[simp] theorem getOsc_reset (t : OscSel) : getOsc State.reset t = Osc.reset := by
  cases t <;> simp [getOsc, Voice.reset, Lfo.reset]

/-- The sample RAM right after reset has the canonical form. -/
theorem memoryWf_reset : memoryWf State.reset.ram = true := rfl

end Sys2Proof.Machine
end

