-- ==== Sys2Proof/Laws/PerInstr.lean ====
section
/-! SUPPORT. The statements made of every command, one lemma per constructor. -/

namespace Sys2Proof.Laws

/-- The OP of a command (R119). -/
def opcodeOf : Instr → BitVec 8
  | .nop => 0x00
  | .init => 0x01
  | .teardown => 0x02
  | .processBlock => 0x03
  | .blockBegin => 0x04
  | .blockEnd => 0x05
  | .voiceRender _ => 0x06
  | .filterBlock _ => 0x07
  | .filterStep _ => 0x08
  | .oscNext _ _ _ => 0x09
  | .oscRender _ _ _ _ _ _ _ => 0x0A
  | .lfoProduce _ _ _ _ => 0x0B

/-- The encoding carries the command's OP and sets no bit outside USED_MASK of it (R119, R120). -/
def EncodingFitsTable.Statement (i : Instr) : Prop :=
  fieldOp (encode i) = opcodeOf i ∧ encode i &&& ~~~(usedMask (opcodeOf i).toNat) = 0#32

theorem EncodingFitsTable.nop : EncodingFitsTable.Statement .nop := ⟨by decide, by decide⟩
theorem EncodingFitsTable.init : EncodingFitsTable.Statement .init := ⟨by decide, by decide⟩
theorem EncodingFitsTable.teardown : EncodingFitsTable.Statement .teardown := ⟨by decide, by decide⟩
theorem EncodingFitsTable.processBlock : EncodingFitsTable.Statement .processBlock := ⟨by decide, by decide⟩
theorem EncodingFitsTable.blockBegin : EncodingFitsTable.Statement .blockBegin := ⟨by decide, by decide⟩
theorem EncodingFitsTable.blockEnd : EncodingFitsTable.Statement .blockEnd := ⟨by decide, by decide⟩

theorem EncodingFitsTable.voiceRender (unit : BitVec 8) : EncodingFitsTable.Statement (.voiceRender unit) :=
  ⟨fieldOp_assemble _ _ _ _ _ _ _ _, assemble_mask_unit _ _⟩

theorem EncodingFitsTable.filterBlock (unit : BitVec 8) : EncodingFitsTable.Statement (.filterBlock unit) :=
  ⟨fieldOp_assemble _ _ _ _ _ _ _ _, assemble_mask_unit _ _⟩

theorem EncodingFitsTable.filterStep (unit : BitVec 8) : EncodingFitsTable.Statement (.filterStep unit) :=
  ⟨fieldOp_assemble _ _ _ _ _ _ _ _, assemble_mask_unit _ _⟩

theorem EncodingFitsTable.oscNext (unit : BitVec 8) (sub : BitVec 4) (cls : Bool) :
    EncodingFitsTable.Statement (.oscNext unit sub cls) :=
  ⟨fieldOp_assemble _ _ _ _ _ _ _ _, assemble_mask_cls _ _ _ _⟩

theorem EncodingFitsTable.oscRender (unit : BitVec 8) (sub : BitVec 4) (cls ovw mono ufm uam : Bool) :
    EncodingFitsTable.Statement (.oscRender unit sub cls ovw mono ufm uam) :=
  ⟨fieldOp_assemble _ _ _ _ _ _ _ _, assemble_mask_flags _ _ _ _ _ _ _ _⟩

theorem EncodingFitsTable.lfoProduce (unit : BitVec 8) (sub : BitVec 4) (cls ufm : Bool) :
    EncodingFitsTable.Statement (.lfoProduce unit sub cls ufm) :=
  ⟨fieldOp_assemble _ _ _ _ _ _ _ _, assemble_mask_fl0 _ _ _ _ _⟩

end Sys2Proof.Laws
end

