-- ==== Sys2Proof/Laws/Renders.lean ====
section
/-! SUPPORT. What a render computes (R193 to R197): its phases, its noise draws, and the value of every sample. -/

namespace Sys2Proof.Machine

/-- The buffers a render writes (R196). -/
def Render.Writes (r : Render) (b : Nat) : Prop := b = r.buf ∨ (r.mono = false ∧ b = r.buf + 1)

/-- The value of sample `n` of the render `r` started in `s` (R195, R196). -/
def renderValue (F : Prims) (r : Render) (s : State) (n : Nat) : Word :=
  blockSample F s.hw r.wf (getOsc s r.osc) (fun k => renderFm r k s) (fun k => renderAmp r k s) s.draws n

/-- What `n` samples of a render compute: the oscillator's phase after `n` advances, every sample not yet written as it
was, and every sample written so far with its value. -/
def RenderComputes (F : Prims) (r : Render) (s : State) (n : Nat) (t : State) : Prop :=
  t.hw = s.hw ∧ t.draws = s.draws + n * drawsOf r.wf ∧
  getOsc t r.osc = rephased (getOsc s r.osc) (phaseAfter (fun k => renderFm r k s) (getOsc s r.osc) n) ∧
  (∀ b m, m < 4096 → n ≤ m ∨ ¬ r.Writes b → readBuf t b m = readBuf s b m) ∧
  (memoryWf s.ram = true → memoryWf t.ram = true ∧ ∀ b m, m < n → r.Writes b →
    readBuf t b m = if r.ovw then renderValue F r s m else fadd (readBuf s b m) (renderValue F r s m))

theorem renderFm_congr (r : Render) (n : Nat) {s t : State} (h : ∀ b, readBuf t b n = readBuf s b n) :
    renderFm r n t = renderFm r n s := by
  unfold renderFm
  cases r.fmb <;> simp [h]

theorem renderAmp_congr (r : Render) (n : Nat) {s t : State} (h : ∀ b, readBuf t b n = readBuf s b n) :
    renderAmp r n t = renderAmp r n s := by
  unfold renderAmp
  cases r.amb <;> simp [h]

/-- The advance of the next sample is the next phase of the block (R193). -/
theorem advance_phaseAfter (fm : Nat → Option Word) (o : Osc) (n : Nat) :
    advance (fm n) (rephased o (phaseAfter fm o n)) = rephased o (phaseAfter fm o (n + 1)) := by
  rw [advance_rephased, rephased_rephased]
  cases h : fm n <;> simp only [phaseStep, phaseAfter, h, rephased]

@[simp] theorem readBuf_oscAdvance (wf : Waveform) (o : OscSel) (fm : Option Word) (s : State) (b n : Nat) :
    readBuf (oscAdvance wf o fm s) b n = readBuf s b n := readBuf_congr (by simp) b n

/-- The value of the next sample is the block's (R194, R195). -/
theorem oscValue_eq_renderValue (F : Prims) (r : Render) (s t : State) (n : Nat) (hn : n < 4096)
    (h : RenderComputes F r s n t) :
    oscValue F r.wf r.osc (renderFm r n t) (renderAmp r n t) t = renderValue F r s n := by
  obtain ⟨h1, h2, h3, h4, -⟩ := h
  have hr : ∀ b, readBuf t b n = readBuf s b n := fun b => h4 b n hn (.inl le_rfl)
  unfold oscValue renderValue blockSample
  rw [renderFm_congr r n hr, renderAmp_congr r n hr, h3, advance_phaseAfter (fun k => renderFm r k s)]
  cases hw : r.wf <;> simp [wave, h1, h2, hw, drawsOf, rephased]

/-- One more sample of a render. -/
theorem renderSample_computes (F : Prims) (r : Render) (s t : State) (n : Nat) (hn : n < 4096)
    (h : RenderComputes F r s n t) : RenderComputes F r s (n + 1) (renderSample F r n t) := by
  have hv := oscValue_eq_renderValue F r s t n hn h
  obtain ⟨h1, h2, h3, h4, h5⟩ := h
  have hr : ∀ b, readBuf t b n = readBuf s b n := fun b => h4 b n hn (.inl le_rfl)
  refine ⟨?_, ?_, ?_, ?_, ?_⟩
  · exact (congrArg State.hw (recordsMoved_renderSample F r n t)).trans h1
  · have : (renderSample F r n t).draws = t.draws + drawsOf r.wf := by
      unfold renderSample
      cases r.mono <;> rfl
    rw [this, h2]
    ring
  · have e : getOsc (renderSample F r n t) r.osc = advance (renderFm r n t) (getOsc t r.osc) := by
      unfold renderSample
      have e0 : getOsc (oscAdvance r.wf r.osc (renderFm r n t) t) r.osc = advance (renderFm r n t) (getOsc t r.osc) :=
        (getOsc_congr rfl rfl r.osc).trans (getOsc_setOsc_same t r.osc _)
      cases r.mono <;> simp [e0]
    rw [e, h3, renderFm_congr r n hr]
    exact advance_phaseAfter (fun k => renderFm r k s) _ n
  · intro b m hm hb
    rw [← h4 b m hm (hb.imp (by omega) id)]
    have e1 : ∀ v u, b ≠ r.buf ∨ m ≠ n → readBuf (putSample r.ovw r.buf n v u) b m = readBuf u b m :=
      fun v u hne => readBuf_putSample_ne _ _ _ _ _ _ _ hn hm hne
    have e2 : ∀ v u, b ≠ r.buf + 1 ∨ m ≠ n → readBuf (putSample r.ovw (r.buf + 1) n v u) b m = readBuf u b m :=
      fun v u hne => readBuf_putSample_ne _ _ _ _ _ _ _ hn hm hne
    have n1 : b ≠ r.buf ∨ m ≠ n := by
      rcases hb with hb | hb
      · exact .inr (by omega)
      · exact .inl fun e => hb (.inl e)
    unfold renderSample
    cases hmo : r.mono
    · have n2 : b ≠ r.buf + 1 ∨ m ≠ n := by
        rcases hb with hb | hb
        · exact .inr (by omega)
        · exact .inl fun e => hb (.inr ⟨hmo, e⟩)
      simp only [Bool.false_eq_true, if_false]
      rw [e2 _ _ n2, e1 _ _ n1, readBuf_oscAdvance]
    · simp only [if_true]
      rw [e1 _ _ n1, readBuf_oscAdvance]
  · intro hw
    obtain ⟨h6, h7⟩ := h5 hw
    have w0 : memoryWf (oscAdvance r.wf r.osc (renderFm r n t) t).ram = true := by simpa using h6
    have w1 := fun v => memoryWf_putSample r.ovw r.buf n v _ w0
    refine ⟨?_, ?_⟩
    · unfold renderSample
      cases r.mono
      · exact memoryWf_putSample _ _ _ _ _ (w1 _)
      · exact w1 _
    · intro b m hm hb
      have hm4 : m < 4096 := by omega
      by_cases hmn : m = n
      · subst hmn
        unfold renderSample
        rw [hv]
        cases hmo : r.mono
        · simp only [Bool.false_eq_true, if_false]
          by_cases hbb : b = r.buf
          · subst hbb
            rw [readBuf_putSample_ne _ _ _ _ _ _ _ hn hm4 (.inl (by omega)), readBuf_putSample_same _ _ _ _ _ w0,
              readBuf_oscAdvance, hr]
          · obtain rfl : b = r.buf + 1 := by
              rcases hb with hb | hb
              · exact absurd hb hbb
              · exact hb.2
            rw [readBuf_putSample_same _ _ _ _ _ (w1 _), readBuf_putSample_ne _ _ _ _ _ _ _ hn hm4 (.inl hbb),
              readBuf_oscAdvance, hr]
        · obtain rfl : b = r.buf := by
            rcases hb with hb | hb
            · exact hb
            · simp [hmo] at hb
          simp only [if_true]
          rw [readBuf_putSample_same _ _ _ _ _ w0, readBuf_oscAdvance, hr]
      · rw [← h7 b m (by omega) hb]
        have e1 : ∀ c v u, readBuf (putSample r.ovw c n v u) b m = readBuf u b m :=
          fun c v u => readBuf_putSample_ne _ _ _ _ _ _ _ hn hm4 (.inr hmn)
        unfold renderSample
        cases r.mono
        · simp only [Bool.false_eq_true, if_false]
          rw [e1, e1, readBuf_oscAdvance]
        · simp only [if_true]
          rw [e1, readBuf_oscAdvance]

/-- Everything RENDER computes (R196), for a block of at most 4096 samples. -/
theorem render_computes (F : Prims) (r : Render) (s : State) (h : blockLen s ≤ 4096) :
    RenderComputes F r s (blockLen s) (render F r s) := by
  refine forSamples_induct (RenderComputes F r s) _ s _ ⟨rfl, by simp, rfl, fun _ _ _ _ => rfl,
    fun hw => ⟨hw, fun _ _ hm => absurd hm (Nat.not_lt_zero _)⟩⟩ fun n t hn ht => renderSample_computes F r s t n (by omega) ht

/-- The records after RENDER: the oscillator's phase after the block's advances, and nothing else new (R193, R196). -/
theorem render_records (F : Prims) (r : Render) (s : State) (h : blockLen s ≤ 4096) :
    ∃ o, o = rephased (getOsc s r.osc) (phaseAfter (fun k => renderFm r k s) (getOsc s r.osc) (blockLen s)) ∧
      (render F r s).filters = (setOsc s r.osc o).filters ∧ (render F r s).voices = (setOsc s r.osc o).voices := by
  obtain ⟨-, ⟨p, -, hf, hv⟩, -⟩ := render_leaves F r s
  obtain ⟨-, -, ho, -⟩ := render_computes F r s h
  have hp : rephased (getOsc s r.osc) p = getOsc (render F r s) r.osc := by
    rw [getOsc_congr hf hv, getOsc_setOsc_same]
  exact ⟨_, rfl, by rw [hf, hp, ho], by rw [hv, hp, ho]⟩

theorem drawsIf_true (wf : Waveform) (N : Nat) : drawsIf true wf N = N * drawsOf wf := by
  cases wf <;> simp [drawsIf, drawsOf]

theorem drawsIf_false (wf : Waveform) (N : Nat) : drawsIf false wf N = 0 := by
  simp [drawsIf]

end Sys2Proof.Machine
end

