-- ==== Sys2Proof/Laws/Units.lean ====
section
/-! SUPPORT. When the operand fields of a command name a unit (R114, R115, R116), in the terms of the syntax check
(Sys2Proof/WellFormed.lean). -/

namespace Sys2Proof.Machine

theorem voiceUnit_eq_some (p : Params) (unit : BitVec 8) (v : Fin 32) :
    voiceUnit p unit = some v ↔ unit.toNat = v.val ∧ v.val < p.nVoice := by
  unfold voiceUnit
  split
  · split
    · simp only [Option.some.injEq, Fin.ext_iff]
      omega
    · simp only [reduceCtorEq, false_iff]
      omega
  · simp only [reduceCtorEq, false_iff]
    omega

theorem filterUnit_eq_some (unit : BitVec 8) (f : Fin 4) : filterUnit unit = some f ↔ unit.toNat = f.val := by
  unfold filterUnit
  split
  · simp [Fin.ext_iff]
  · simp only [reduceCtorEq, false_iff]
    omega

theorem voiceUnit_isSome (p : Params) (unit : BitVec 8) (h : p.nVoice ≤ 32) :
    (voiceUnit p unit).isSome = decide (unit.toNat < p.nVoice) := by
  unfold voiceUnit
  split
  · split <;> simp_all
  · have : ¬ unit.toNat < p.nVoice := by omega
    simp [this]

theorem filterUnit_isSome (unit : BitVec 8) : (filterUnit unit).isSome = decide (unit.toNat ≤ 3) := by
  unfold filterUnit
  split
  · simp only [Option.isSome_some, true_eq_decide_iff]
    omega
  · simp only [Option.isSome_none, false_eq_decide_iff]
    omega

theorem voiceSub_isSome (v : Fin 32) (sub : BitVec 4) : (voiceSub v sub).isSome = decide (sub.toNat ≤ 4) := by
  unfold voiceSub
  split <;> simp_all
  omega

theorem filterSub_isSome (f : Fin 4) (sub : BitVec 4) : (filterSub f sub).isSome = (sub == 1 || sub == 2) := by
  revert sub
  intro sub
  unfold filterSub
  split
  · rename_i h
    simp [BitVec.eq_of_toNat_eq (x := sub) (y := 1#4) h]
  · rename_i h
    simp [BitVec.eq_of_toNat_eq (x := sub) (y := 2#4) h]
  · rename_i h1 h2
    have e1 : sub ≠ 1#4 := fun e => h1 (e ▸ rfl)
    have e2 : sub ≠ 2#4 := fun e => h2 (e ▸ rfl)
    simp [e1, e2]

/-- A target resolves exactly where the syntax check passes (R115, R121). -/
theorem oscTarget_isSome (p : Params) (unit : BitVec 8) (sub : BitVec 4) (cls : Bool) (h : p.nVoice ≤ 32) :
    (oscTarget p unit sub cls).isSome = oscTargetExists p.nVoice unit sub cls := by
  unfold oscTarget oscTargetExists
  cases cls
  · rw [← voiceUnit_isSome p unit h, ← voiceSub_isSome ⟨0, by omega⟩ sub]
    cases voiceUnit p unit with
    | none => rfl
    | some v => simp [voiceSub_isSome]
  · rw [← filterUnit_isSome unit]
    cases filterUnit unit with
    | none => rfl
    | some f => simp [filterSub_isSome]

end Sys2Proof.Machine
end

