-- ==== Sys2Proof/Tests/Slice0.lean ====
section
/-! SUPPORT. Tests: decoding of words written out from the spec's encoding, the syntax check, one small run per command
with the results of spec/95_test_vectors.md (the vector is named at each), and for every statement with hypotheses a
witness that meets them. -/

namespace Sys2Proof.Tests

set_option Elab.async false

open Sys2Proof Sys2Proof.Machine

/-! ### Decoding (R111, R119, R126; spec/95_test_vectors.md section 5) -/

theorem test_decode_nop : decode 0b0000000_0_0_0_0_0_0000_00000000_00000000#32 = .ok .nop := by rfl
theorem test_decode_init : decode 0b0000000_0_0_0_0_0_0000_00000000_00000001#32 = .ok .init := by rfl
theorem test_decode_teardown : decode 0b0000000_0_0_0_0_0_0000_00000000_00000010#32 = .ok .teardown := by rfl
theorem test_decode_process_block : decode 0b0000000_0_0_0_0_0_0000_00000000_00000011#32 = .ok .processBlock := by rfl
theorem test_decode_block_begin : decode 0b0000000_0_0_0_0_0_0000_00000000_00000100#32 = .ok .blockBegin := by rfl
theorem test_decode_block_end : decode 0b0000000_0_0_0_0_0_0000_00000000_00000101#32 = .ok .blockEnd := by rfl
theorem test_decode_voice_render : decode 0b0000000_0_0_0_0_0_0000_00000001_00000110#32 = .ok (.voiceRender 1) := by
  rfl
theorem test_decode_filter_block : decode 0b0000000_0_0_0_0_0_0000_00000010_00000111#32 = .ok (.filterBlock 2) := by
  rfl
/-- `filter_step f1` -/
theorem test_decode_filter_step : decode 0b0000000_0_0_0_0_0_0000_00000001_00001000#32 = .ok (.filterStep 1) := by rfl
/-- `osc_next f2.cut` -/
theorem test_decode_osc_next : decode 0b0000000_0_0_0_0_1_0010_00000010_00001001#32 = .ok (.oscNext 2 2 true) := by
  rfl
/-- `osc_render v0.osc, ovw, mono` -/
theorem test_decode_osc_render :
    decode 0b0000000_0_0_1_1_0_0000_00000000_00001010#32 = .ok (.oscRender 0 0 false true true false false) := by rfl
/-- `osc_render v0.osc, uam` (O-11) -/
theorem test_decode_osc_render_uam :
    decode 0b0000000_1_0_0_0_0_0000_00000000_00001010#32 = .ok (.oscRender 0 0 false false false false true) := by rfl
/-- `lfo_produce f3.cut, ufm` -/
theorem test_decode_lfo_produce :
    decode 0b0000000_0_0_0_1_1_0010_00000011_00001011#32 = .ok (.lfoProduce 3 2 true true) := by rfl
/-- X-1, X-3 -/
theorem test_decode_illegal :
    decode 0x0000000C#32 = .error .illegalOpcode ∧ decode 0x8000000C#32 = .error .illegalOpcode := ⟨by rfl, by rfl⟩
/-- X-4, X-5, X-6 -/
theorem test_decode_reserved : decode 0x00000100#32 = .error .reservedBits ∧
    decode 0x00010008#32 = .error .reservedBits ∧ decode 0x00200009#32 = .error .reservedBits :=
  ⟨by rfl, by rfl, by rfl⟩
theorem test_decode_table_word : decodeTableWord 32 0x00120209 = some (.oscNext 2 2 true) ∧
    decodeTableWord 8 0x00000004 = some .blockBegin ∧ decodeTableWord 40 0 = none := by decide

/-! ### The syntax check: an ill-formed term for each check (R115, R116, R121), with N_VOICE 2 -/

theorem test_wf_voice_exists : Instr.wellFormed 2 (.voiceRender 1) = true ∧ Instr.wellFormed 2 (.voiceRender 2) = false := by
  decide
theorem test_wf_filter_exists : Instr.wellFormed 2 (.filterBlock 3) = true ∧ Instr.wellFormed 2 (.filterBlock 4) = false ∧
    Instr.wellFormed 2 (.filterStep 3) = true ∧ Instr.wellFormed 2 (.filterStep 4) = false := by decide
theorem test_wf_voice_sub : Instr.wellFormed 2 (.oscNext 1 4 false) = true ∧ Instr.wellFormed 2 (.oscNext 1 5 false) = false ∧
    Instr.wellFormed 2 (.oscNext 2 0 false) = false := by decide
theorem test_wf_filter_sub : Instr.wellFormed 2 (.oscNext 3 1 true) = true ∧ Instr.wellFormed 2 (.oscNext 0 0 true) = false ∧
    Instr.wellFormed 2 (.oscNext 0 3 true) = false ∧ Instr.wellFormed 2 (.oscNext 4 1 true) = false := by decide
theorem test_wf_osc_render : Instr.wellFormed 2 (.oscRender 1 4 false true true true true) = true ∧
    Instr.wellFormed 2 (.oscRender 1 5 false true true true true) = false := by decide
theorem test_wf_lfo : Instr.wellFormed 2 (.lfoProduce 0 1 false false) = true ∧
    Instr.wellFormed 2 (.lfoProduce 0 0 false false) = false := by decide
theorem test_wf_meta_has_no_meta : Instr.wellFormed 2 (.lfoProduce 0 2 false true) = true ∧
    Instr.wellFormed 2 (.lfoProduce 0 1 false true) = false ∧ Instr.wellFormed 2 (.lfoProduce 0 3 false true) = false ∧
    Instr.wellFormed 2 (.lfoProduce 0 1 true true) = false := by decide

/-! ### Small runs. `rsin` and `rtanh` are a few values of the correctly rounded functions (R18). -/

/-- RSIN at the phases 0, 0.25, 0.5 and 0.75. -/
def rsin (x : Word) : Word :=
  if x = 0x3FC90FDB#32 then 0x3F800000#32 else if x = 0x40490FDB#32 then 0xB3BBBD2E#32
  else if x = 0x4096CBE4#32 then 0xBF800000#32 else 0#32

/-- RTANH at magnitudes of 10 and more, where it rounds to one. -/
def rtanh (x : Word) : Word := if x.getLsbD 31 then 0xBF800000#32 else 0x3F800000#32

/-- The primitives of the tests; every noise draw is 0.25. -/
def tPrims : Prims where
  tanh := tanhLegal rtanh
  sin := sinLegal rsin
  noise := fun _ => 0x3E800000#32

/-- Reset of a core of the vectors' sizes (section 0). -/
def tReset : State := { State.reset with hw := exampleParams }

/-- After INIT with ARG0 = 4.0 and ARG1 = 4, DONE cleared. -/
def tReady : State := { initSession { tReset with arg0 := 0x40800000#32, arg1 := 4#32 } with cmdCount := 1#32 }

/-- FREQ 1.0 in voice 0's oscillator (O-1). -/
def tOsc : State := setOsc tReady (.voice 0) { getOsc tReady (.voice 0) with freq := 0x3F800000#32 }

/-- Filter A in filter 0, with one update per step (F-7). -/
def tFilter : State :=
  setFilter tReady 0 { getFilter tReady 0 with
    res := 0x3F800000#32, cutoff := 0x44160000#32, inGain := 0x41200000#32, outGain := 0x3F800000#32
    timestep := 0x37AEC33E#32, maxit := 1#8 }

/-- The state a command's checks and effect leave, in state `s`. -/
def ends (i : Instr) (r : Except FaultCode State) (s : State) : State := finish (encode i) s r

/-- Words 0..3 of a buffer. -/
def buf4 (s : State) (b : Nat) : List Word := [readBuf s b 0, readBuf s b 1, readBuf s b 2, readBuf s b 3]

/-- Words 0..3 of a buffer, stored. -/
def putBuf4 (s : State) (b : Nat) (x0 x1 x2 x3 : Word) : State :=
  writeBuf (writeBuf (writeBuf (writeBuf s b 0 x0) b 1 x1) b 2 x2) b 3 x3

/-- R231 -/
theorem test_nop : statusWord (ends .nop (.ok tReady) tReady) = 0x00000006#32 ∧
    (ends .nop (.ok tReady) tReady).cmdCount = 2#32 := by decide +kernel

/-- B-1 -/
theorem test_init :
    let s := { tReset with arg0 := 0x473B8000#32, arg1 := 512#32 }
    let t := ends .init (tryInit s) s
    statusWord t = 0x00000006#32 ∧ (getFilter t 3).timestep = 0x37AEC33E#32 ∧
      (getOsc t (.lfo (.voice 1 .a))).srate = 0x473B8000#32 ∧ t.blockSize = 512#32 := by decide +kernel

/-- B-2 -/
theorem test_init_checks_rate_first :
    let s := { tReady with arg0 := 0#32, arg1 := 0#32 }
    statusWord (ends .init (tryInit s) s) = 0x0000070E#32 := by decide +kernel

/-- B-10 -/
theorem test_teardown :
    let s := writeBuf { tFilter with written := { direct := false, harsh := false, soft := true } } 4 0 0x3F800000#32
    let t := ends .teardown (.ok (teardownSession s)) s
    statusWord t = 0x00000002#32 ∧ t.ram = [] ∧ writtenWord t.written = 0#32 ∧
      (getFilter t 0).cutoff = 0x44160000#32 := by decide +kernel

/-- X-8 -/
theorem test_process_block_not_ready :
    statusWord (ends .processBlock (tryProcessBlock tPrims tReset) tReset) = 0x0000030A#32 := by decide +kernel

/-- P2, block 1 -/
theorem test_process_block :
    let V := getVoice tOsc 0
    let s := { setVoice tOsc 0 { V with vcfg := vcfgOf 0x100#32, volume := 0x3F000000#32 } with fadeLen := 4#32 }
    let t := ends .processBlock (tryProcessBlock tPrims s) s
    buf4 t 0 = [0#32, 0xB23BBD2E#32, 0xBE800000#32, 0#32] ∧ buf4 t 1 = buf4 t 0 ∧ t.cmdCount = 2#32 ∧
      t.blockCount = 1#32 ∧ t.fadePos = 4#32 ∧ writtenWord t.written = 1#32 := by decide +kernel

/-- R234 -/
theorem test_block_begin :
    let s := { tReady with written := { direct := true, harsh := true, soft := false } }
    writtenWord (ends .blockBegin (tryBlockBegin s) s).written = 0#32 := by decide +kernel

/-- B-5 -/
theorem test_block_end :
    let one := 0x3F800000#32
    let s := putBuf4 (putBuf4 { tReady with fadeLen := 4#32 } 0 one one one one) 1 one one one one
    let t := ends .blockEnd (tryBlockEnd s) s
    buf4 t 0 = [0#32, 0x3E800000#32, 0x3F000000#32, 0x3F400000#32] ∧ buf4 t 1 = buf4 t 0 ∧ t.fadePos = 4#32 ∧
      t.blockCount = 1#32 ∧ buf4 (ends .blockEnd (tryBlockEnd t) t) 0 = buf4 t 0 := by decide +kernel

/-- B-3 -/
theorem test_voice_render :
    let s := setVoice tOsc 0 { getVoice tOsc 0 with vcfg := vcfgOf 0x100#32, volume := 0x3F000000#32 }
    let t := ends (.voiceRender 0) (tryVoiceRender tPrims 0 s) s
    buf4 t 0 = [0x3F000000#32, 0xB33BBD2E#32, 0xBF000000#32, 0#32] ∧ buf4 t 1 = buf4 t 0 ∧
      writtenWord t.written = 1#32 := by decide +kernel

/-- B-4: the second voice accumulates. -/
theorem test_voice_render_accumulates :
    let s := setOsc tReady (.voice 1) { getOsc tReady (.voice 1) with freq := 0x3F800000#32 }
    let s := setVoice s 1 { getVoice s 1 with vcfg := vcfgOf 0x100#32, volume := 0x3E800000#32 }
    let s := { putBuf4 s 0 0x3F000000#32 0xB33BBD2E#32 0xBF000000#32 0#32 with
      written := { direct := true, harsh := false, soft := false } }
    buf4 (ends (.voiceRender 1) (tryVoiceRender tPrims 1 s) s) 0 =
      [0x3F400000#32, 0xB38CCDE2#32, 0xBF400000#32, 0#32] := by decide +kernel

/-- F-7 -/
theorem test_filter_step :
    let s := { tFilter with arg0 := 0x3F800000#32, arg1 := 0#32 }
    let t := ends (.filterStep 0) (tryFilterStep tPrims 0 s) s
    t.result = 0xB608CE69#32 ∧ (getFilter t 0).s =
      { v0 := 0xBD1AC58C#32, v1 := 0xBABB248B#32, v2 := 0xB86248CC#32, v3 := 0xB608CE69#32 } ∧
      (getFilter t 0).lastIters = 1#8 ∧ fstatWord (getFilter t 0).fstat = 1#32 ∧
      (getFilter t 0).xprev = 0x3F800000#32 := by decide +kernel

/-- F-13: the modulation cancels the cutoff, so the state does not move. -/
theorem test_filter_step_modulation :
    let q : Quad := { v0 := 0x3DCCCCCD#32, v1 := 0x3E4CCCCD#32, v2 := 0x3E99999A#32, v3 := 0x3ECCCCCD#32 }
    let s := setFilter tFilter 0 { getFilter tFilter 0 with s := q }
    let s := { s with arg0 := 0x3F800000#32, arg1 := 0xC4160000#32 }
    let t := ends (.filterStep 0) (tryFilterStep tPrims 0 s) s
    t.result = 0x3ECCCCCD#32 ∧ (getFilter t 0).s = q ∧ fstatWord (getFilter t 0).fstat = 0#32 := by decide +kernel

/-- F-10 cut to one sample and one update, which is F-7: the group's sample goes in, the output accumulates. -/
theorem test_filter_block :
    let s := { writeBuf tFilter 2 0 0x3F800000#32 with
      blockSize := 1#32, written := { direct := false, harsh := true, soft := false } }
    let t := ends (.filterBlock 0) (tryFilterBlock tPrims 0 s) s
    readBuf t 0 0 = 0xB608CE69#32 ∧ readBuf t 1 0 = 0#32 ∧ (getFilter t 0).lastIters = 1#8 := by decide +kernel

/-- X-27 -/
theorem test_filter_block_bad_config :
    let s := setOsc tReady (.lfo (.filter 0 .metaCut)) { getOsc tReady (.lfo (.filter 0 .metaCut)) with kind := 6#3 }
    statusWord (ends (.filterBlock 0) (tryFilterBlock tPrims 0 s) s) = 0x0000080E#32 := by decide +kernel

/-- O-2 -/
theorem test_osc_next :
    let s := { tOsc with arg0 := 0xC0000000#32, arg1 := 0x3F800000#32 }
    let t := ends (.oscNext 0 0 false) (tryOscNext tPrims 0 0 false s) s
    (getOsc t (.voice 0)).phase = 0x3F400000#32 ∧ t.result = 0xBF800000#32 := by decide +kernel

/-- O-12 -/
theorem test_osc_next_noise :
    let s := setOsc tOsc (.voice 0) { getOsc tOsc (.voice 0) with kind := 4#3 }
    let s := { s with arg0 := 0#32, arg1 := 0x40000000#32 }
    let t := ends (.oscNext 0 0 false) (tryOscNext tPrims 0 0 false s) s
    (getOsc t (.voice 0)).phase = 0x3E800000#32 ∧ t.result = 0x3F000000#32 ∧ t.draws = 1 := by decide +kernel

/-- O-4 -/
theorem test_osc_render :
    let s := { tOsc with arg0 := 0#32, arg3 := 0x3F800000#32 }
    let t := ends (.oscRender 0 0 false true true false false) (tryOscRender tPrims 0 0 false true true false false s) s
    buf4 t 0 = [0x3F800000#32, 0xB3BBBD2E#32, 0xBF800000#32, 0#32] ∧ buf4 t 1 = [0#32, 0#32, 0#32, 0#32] ∧
      (getOsc t (.voice 0)).phase = 0#32 := by decide +kernel

/-- X-18: stereo on buffers 5 and 6. -/
theorem test_osc_render_bad_buffer :
    let s := { tReady with arg0 := 5#32 }
    statusWord (ends (.oscRender 0 0 false false false false false)
      (tryOscRender tPrims 0 0 false false false false false s) s) = 0x0000050E#32 := by decide +kernel

/-- O-9 -/
theorem test_lfo_produce :
    let s := setLfo tReady (.voice 0 .mf) { osc := { getOsc tReady (.lfo (.voice 0 .mf)) with freq := 0x3F800000#32 },
                                            depth := 0x40000000#32 }
    let t := ends (.lfoProduce 0 1 false false) (tryLfoProduce tPrims 0 1 false false s) s
    buf4 t 16 = [0x40000000#32, 0xB43BBD2E#32, 0xC0000000#32, 0#32] ∧
      (getOsc t (.lfo (.voice 0 .mf))).phase = 0#32 := by decide +kernel

/-- X-15: UFM on a meta-LFO. -/
theorem test_lfo_produce_meta_ufm :
    statusWord (ends (.lfoProduce 0 1 false true) (tryLfoProduce tPrims 0 1 false true tReady) tReady)
      = 0x0000040E#32 := by decide +kernel

/-- O-3 -/
theorem test_wrap : [0x3FC00000#32, 0xBE800000#32, 0xC0200000#32, 0xB22BCC77#32, 0xB3000000#32, 0x3F7FFFFF#32,
    0x80000000#32, 0x7149F2CA#32, 0x7FC00000#32, 0xFF800000#32].map wrap =
    [0x3F000000#32, 0x3F400000#32, 0x3F000000#32, 0#32, 0#32, 0x3F7FFFFF#32, 0#32, 0#32, 0#32, 0#32] := by
  decide +kernel

/-- O-5 -/
theorem test_octave : [0xC0A00000#32, 0x421F999A#32, 0x42200000#32, 0x42A00000#32, 0x461FFC00#32, 0x46200000#32,
    0x7FC00000#32].map (octSel exampleParams) = [0, 0, 1, 2, 8, 9, 9] := by decide +kernel

/-- F-20 -/
theorem test_maxit_write : maxitOf 0#32 = 1#8 ∧ maxitOf 0x123#32 = 0x23#8 := by decide

/-- X-32, X-33, X-34, X-35 -/
theorem test_bad_addresses : hostLoc exampleParams 0x000011#24 = none ∧ hostLoc exampleParams 0x004400#24 = none ∧
    hostLoc exampleParams 0x118000#24 = none ∧ hostLoc exampleParams 0x000058#24 = some .reserved := by decide +kernel

/-- X-37: the write while BUSY = 1 is held, and entered after the block. -/
theorem test_busy_access :
    let s := hostWrite 0x000010#24 7#32 { tReady with inFlight := some { word := 3#32, wait := 0 } }
    let t := enterPending (ends .processBlock (tryProcessBlock tPrims s) s)
    statusWord t = 0x0000090E#32 ∧ t.faultInfo = 0x10#32 ∧ t.arg0 = 0x40800000#32 ∧ t.cmdCount = 2#32 := by
  decide +kernel

/-- R311: a release of a reset input that is not asserted leaves a fault; assertion and release clear it. -/
theorem test_reset_input :
    let s := { tReady with fault := true, faultCode := .badUnit }
    statusWord (hostEvent (.reset false) s) = 0x0000040C#32 ∧
    statusWord (hostEvent (.reset false) (hostEvent (.reset true) s)) = 0#32 := by decide +kernel

/-! ### Witnesses: states and operands that meet the hypotheses of each statement -/

/-- A core with the word `w` due. -/
def tDue (w : Word) : State := { tReady with inFlight := some { word := w, wait := 0 } }

theorem witness_EncodeOfDecodeIsTheWord : ∃ (w : Word) (i : Instr), decode w = .ok i := ⟨0x01FFFF0A#32, _, rfl⟩

theorem witness_DecodeFollowsMatchAndMask : ∃ (op : Nat) (w : Word),
    op < 12 ∧ op = 11 ∧ (fieldOp w).toNat < 12 ∧ w &&& ~~~(usedMask (fieldOp w).toNat) ≠ 0 := ⟨11, 0x0040000B#32, by decide⟩

theorem witness_StepRunsTheDecodedCommand : ∃ (s : State) (c : InFlight) (i : Instr),
    s.inFlight = some c ∧ c.wait = 0 ∧ decode c.word = .ok i := ⟨tDue 0x108#32, _, _, rfl, rfl, rfl⟩

theorem witness_WordThatIsNoCommandFaults : ∀ w ∈ [0x0000000C#32, 0x000000FF#32, 0x00000100#32, 0x8000000B#32],
    ∀ q ∈ [none, some { code := FaultCode.busyAccess, addr := 0x000004#24 }], ∃ (s : State) (e : DecodeError),
      s.inFlight = some { word := w, wait := 0 } ∧ s.pend = q ∧ s.fault = false ∧ decode w = .error e := by
  intro w hw q _
  simp only [List.mem_cons, List.not_mem_nil, or_false] at hw
  rcases hw with rfl | rfl | rfl | rfl <;> exact ⟨{ tDue _ with pend := q }, _, rfl, rfl, rfl, rfl⟩

theorem witness_CommandEndsWithFirstFailedCheck_completes : ∃ s : State, s.hw.nVoice ≤ 32 ∧
    ∀ i ∈ [Instr.nop, .init, .teardown, .processBlock, .blockBegin, .blockEnd, .voiceRender 1, .filterBlock 3,
      .filterStep 3, .oscNext 1 4 false, .oscRender 0 0 false true false true true, .lfoProduce 3 2 true true],
      firstFault s i = .none :=
  ⟨{ tReady with arg0 := 4#32, arg1 := 5#32, arg2 := 8#32, hw := { exampleParams with nVoice := 32 } },
    by decide, by
      intro i hi
      simp only [List.mem_cons, List.not_mem_nil, or_false] at hi
      rcases hi with rfl | rfl | rfl | rfl | rfl | rfl | rfl | rfl | rfl | rfl | rfl | rfl <;> decide +kernel⟩

theorem witness_CommandEndsWithFirstFailedCheck_faults :
    firstFault tReset (.filterStep 9) = .notReady ∧ firstFault tReady (.filterStep 4) = .badUnit ∧
    firstFault { tReady with arg0 := 15#32 } (.oscRender 0 0 false true false false false) = .none ∧
    firstFault { tReady with arg0 := 23#32 } (.oscRender 0 0 false true false false false) = .badBuffer ∧
    firstFault { tReady with arg0 := 0#32, arg1 := 0#32 } .init = .badSampleRate ∧
    firstFault { tReady with arg1 := 513#32 } .init = .badBlockSize ∧
    firstFault { tReady with arg1 := 512#32 } .init = .none ∧
    firstFault (setVoice tReady 1 { getVoice tReady 1 with vcfg := vcfgOf 0x103#32 }) .processBlock = .badConfig := by
  decide +kernel

theorem witness_FaultEntryWritesOnlyTheFaultRecord :
    (∃ s : State, s.fault = false) ∧ ∃ s : State, s.fault = true := ⟨⟨tReady, rfl⟩, { tReady with fault := true }, rfl⟩

theorem witness_FirstFaultIsKeptUntilReset : ∃ s t : State,
    s.fault = true ∧ (∀ b rest, s.inbox ≠ .reset b :: rest) ∧ step s = .next t :=
  ⟨{ tReady with fault := true, faultCode := .badUnit, faultInfo := 0x408#32, inbox := [.read 0x002000#24] }, _, rfl,
    by simp, rfl⟩

theorem witness_FaultedCoreDropsCommands : ∃ (s : State) (w : Word) (rest : List HostEvent),
    s.fault = true ∧ s.inFlight = none ∧ s.resetPin = false ∧ s.inbox = .write 0x00000C#24 w :: rest :=
  ⟨{ tReady with fault := true, inbox := [.write 0x00000C#24 0#32] }, _, _, rfl, rfl, rfl, rfl⟩

theorem witness_OnlyCmdWritesStartCommands : ∃ (s t : State) (c : InFlight),
    s.inFlight = none ∧ step s = .next t ∧ t.inFlight = some c :=
  ⟨{ tReady with inbox := [.write 0x00000C#24 3#32] }, _, { word := 3#32, wait := Config.completionDelay 0 }, rfl, rfl,
    rfl⟩

theorem witness_CompletionDoesNotDependOnTheDelay : ∀ k : Nat, ∀ l ∈ [[], [HostEvent.read 0x000008#24, .read 0x000000#24],
    [.wait]], ∃ (s t : State) (w : Word), s.inFlight = some { word := w, wait := k } ∧ s.inbox = l ∧
      (∀ e ∈ s.inbox, e = .wait ∨ e = .read 0x000000#24 ∨ e = .read 0x000008#24) ∧
      step { s with inFlight := some { word := w, wait := 0 } } = .next t := by
  intro k l hl
  refine ⟨{ tReady with inFlight := some { word := 4#32, wait := k }, inbox := l }, _, _, rfl, rfl, ?_, rfl⟩
  simp only [List.mem_cons, List.not_mem_nil, or_false] at hl
  rcases hl with rfl | rfl | rfl <;> simp

theorem witness_BusyAccessIsHeld :
    (∀ e ∈ [HostEvent.write 0x000000#24 7#32, .write 0x00000C#24 3#32, .read 0x000004#24, .read 0x000000#24,
      .read 0x000008#24, .wait], ∃ (s : State) (w : Word) (k : Nat) (rest : List HostEvent),
      s.inFlight = some { word := w, wait := k + 1 } ∧ s.resetPin = false ∧ s.inbox = e :: rest) ∧
    (∀ a ∈ [0x000000#24, 0x00000C#24, 0x004020#24, 0x100000#24, 0x040000#24], ∃ (s : State) (l : Loc)
      (rest : List HostEvent), s.inFlight = none ∧ s.resetPin = false ∧ s.inbox = .read a :: rest ∧
      hostLoc s.hw a = some l) := by
  refine ⟨fun e _ => ⟨{ tReady with inFlight := some { word := 3#32, wait := 1 }, inbox := [e] }, 3#32, 0, [], rfl, rfl,
    rfl⟩, ?_⟩
  intro a ha
  have h : (hostLoc exampleParams a).isSome = true := by
    simp only [List.mem_cons, List.not_mem_nil, or_false] at ha
    rcases ha with rfl | rfl | rfl | rfl | rfl <;> decide +kernel
  obtain ⟨l, hl⟩ := Option.isSome_iff_exists.1 h
  exact ⟨{ tReady with inbox := [.read a] }, l, [], rfl, rfl, rfl, hl⟩

theorem witness_BusyAccessIsHeld_idle :
    (∀ e ∈ [HostEvent.write 0x00000C#24 3#32, .write 0x000010#24 7#32, .write 0x002000#24 0#32, .wait], ∃ (s : State)
      (rest : List HostEvent), s.inFlight = none ∧ s.fault = false ∧ s.resetPin = false ∧ s.inbox = e :: rest) ∧
    (∃ (s : State) (rest : List HostEvent), s.inFlight = none ∧ s.resetPin = false ∧
      s.inbox = .read 0x002000#24 :: rest ∧ hostLoc s.hw 0x002000#24 = none) ∧
    ∃ s : State, s.inFlight = none ∧ s.inbox = [] :=
  ⟨fun e _ => ⟨{ tReady with inbox := [e] }, [], rfl, rfl, rfl, rfl⟩,
    ⟨{ tReady with inbox := [.read 0x002000#24] }, [], rfl, rfl, rfl, by decide +kernel⟩, tReady, rfl, rfl⟩

theorem witness_PendingFaultIsEnteredAfterTheCommand : ∃ (s : State) (w : Word) (i : Instr) (q : Pend) (u : State),
    s.inFlight = some { word := w, wait := 0 } ∧ s.pend = some q ∧ decode w = .ok i ∧ exec i s = .next u :=
  ⟨{ tDue 3#32 with pend := some { code := .busyAccess, addr := 0x10#24 } }, _, _, _, _, rfl, rfl, rfl, rfl⟩

theorem tReset_osc (t : OscSel) : getOsc tReset t = Osc.reset := (getOsc_congr rfl rfl t).trans (getOsc_reset t)

theorem tReset_phasesWrapped : PhasesWrapped tReset := by
  intro t
  rw [tReset_osc]
  decide

theorem tReset_octaves : OctavesFollowFreq tReset := by
  refine ⟨by decide +kernel, fun t => ?_⟩
  rw [tReset_osc]
  decide +kernel

/-- A step of a state that meets every invariant: a command due right after reset. -/
theorem witness_invariants : ∃ s t : State, PhasesWrapped s ∧ OctavesFollowFreq s ∧ RamCanonical s ∧ RamMapped s ∧
    FaultRecordSound s ∧ CapsPositive s ∧ step s = .next t := by
  refine ⟨{ tReset with inFlight := some { word := 0#32, wait := 0 } }, _, tReset_phasesWrapped, tReset_octaves,
    rfl, ⟨⟨by decide +kernel, by decide, by simp [tReset, State.reset]⟩, by simp [tReset, State.reset]⟩, ?_, ?_,
    rfl⟩
  · simp [FaultRecordSound, tReset, State.reset]
  · intro f
    have e : getFilter tReset f = Filter.reset := (getFilter_congr rfl f).trans (getFilter_reset f)
    exact fun h => absurd ((congrArg Filter.maxit e).symm.trans h) (by decide)

theorem witness_BadAddressIsBusError :
    (∀ a ∈ [0x000002#24, 0x002000#24, 0x001800#24, 0x004400#24, 0x118000#24, 0x340000#24],
      ∀ b, ∃ s : State, s.inFlight = none ∧ s.fault = b ∧ hostLoc s.hw a = none) ∧
    (∀ a ∈ [0x000001#24, 0xFFFFFF#24], a.toNat % 4 ≠ 0) ∧
    (∀ a ∈ [0x000FFC#24, 0x0017FC#24, 0x0043FC#24, 0x06FFFC#24, 0x15FFFC#24],
      a.toNat % 4 = 0 ∧ exampleParams.nVoice ≤ 32 ∧ hostLoc exampleParams a ≠ none) ∧
    paramsLegal exampleParams = true ∧ locExists exampleParams (.global .faultInfo) ∧
    locExists exampleParams (.osc (.lfo (.voice 1 .a)) .oct) ∧ locExists exampleParams (.depth (.filter 3 .cut)) ∧
    locExists exampleParams (.rom (0x040000 + ((2 * 16 + 9) * 1024 + 3) * 4)) ∧
    locExists exampleParams (.ram (0x100000 + 23 * 0x4000 + 511 * 4)) := by
  refine ⟨?_, ?_, ?_, by decide +kernel, trivial, (by decide : 1 < 2), trivial,
    ⟨2, by decide, 9, by decide, 3, by decide, rfl⟩,
    ⟨23, .inr (.inr (by decide)), 511, by decide, rfl⟩⟩
  · intro a ha b
    have h : hostLoc exampleParams a = none := by
      simp only [List.mem_cons, List.not_mem_nil, or_false] at ha
      rcases ha with rfl | rfl | rfl | rfl | rfl | rfl <;> decide +kernel
    exact ⟨{ tReady with fault := b }, rfl, rfl, h⟩
  · intro a ha
    simp only [List.mem_cons, List.not_mem_nil, or_false] at ha
    rcases ha with rfl | rfl <;> decide +kernel
  · intro a ha
    simp only [List.mem_cons, List.not_mem_nil, or_false] at ha
    rcases ha with rfl | rfl | rfl | rfl | rfl <;> decide +kernel

theorem witness_AddressMapHasNoOverlap : ∃ (p : Params) (a b : Addr) (l : Loc),
    hostLoc p a = some l ∧ hostLoc p b = some l ∧ l ≠ .reserved :=
  ⟨exampleParams, 0x0043FC#24 - 0x3DC#24, 0x004020#24, .osc (.voice 0) .kind, by decide +kernel⟩

theorem witness_TransactionsAreIdempotent :
    (∃ (s : State) (a : Addr), a ≠ 0x00000C#24 ∧ RamCanonical s ∧ hostLoc s.hw a ≠ none) ∧
    ∃ (s : State) (a : Addr), a = 0x00000C#24 ∧ s.inFlight = none ∧ s.fault = false :=
  ⟨⟨tReady, 0x100000#24, by decide, by rfl, by decide +kernel⟩, tReady, _, rfl, rfl, rfl⟩

theorem witness_SampleRamHoldsWrittenWords : ∀ a ∈ [0x100000#24, 0x1007FC#24, 0x15C7FC#24], ∃ (s : State) (k : Nat),
    s.inFlight = none ∧ RamCanonical s ∧ hostLoc s.hw a = some (.ram k) := by
  intro a ha
  refine ⟨tReady, a.toNat, rfl, rfl, ?_⟩
  simp only [List.mem_cons, List.not_mem_nil, or_false] at ha
  rcases ha with rfl | rfl | rfl <;> decide +kernel

theorem witness_ReservedAndRomWordsIgnoreWrites : ∀ a ∈ [0x000058#24, 0x100800#24, 0x040000#24, 0x040010#24],
    ∃ (s : State) (l : Loc), s.inFlight = none ∧ hostLoc s.hw a = some l ∧ (l = .reserved ∨ ∃ k, l = .rom k) := by
  intro a ha
  simp only [List.mem_cons, List.not_mem_nil, or_false] at ha
  rcases ha with rfl | rfl | rfl | rfl
  · exact ⟨tReady, .reserved, rfl, by decide +kernel, .inl rfl⟩
  · exact ⟨tReady, .reserved, rfl, by decide +kernel, .inl rfl⟩
  · exact ⟨tReady, .rom 0x040000, rfl, by decide +kernel, .inr ⟨_, rfl⟩⟩
  · exact ⟨tReady, .reserved, rfl, by decide +kernel, .inl rfl⟩

theorem witness_OscillatorRegisterWrites : ∀ r ∈ [OscReg.kind, .srate, .phase, .freq, .oct],
    ∃ (s : State) (a : Addr) (t : OscSel), s.inFlight = none ∧ hostLoc s.hw a = some (.osc t r) := by
  intro r hr
  simp only [List.mem_cons, List.not_mem_nil, or_false] at hr
  rcases hr with rfl | rfl | rfl | rfl | rfl
  · exact ⟨tReady, 0x004020#24, .voice 0, rfl, by decide +kernel⟩
  · exact ⟨tReady, 0x004044#24, .lfo (.voice 0 .mf), rfl, by decide +kernel⟩
  · exact ⟨tReady, 0x004308#24, .lfo (.voice 1 .a), rfl, by decide +kernel⟩
  · exact ⟨tReady, 0x00104C#24, .lfo (.filter 0 .metaCut), rfl, by decide +kernel⟩
  · exact ⟨tReady, 0x001690#24, .lfo (.filter 3 .cut), rfl, by decide +kernel⟩

theorem witness_OscillatorRegisterWrites_depth : ∀ l ∈ [LfoSel.voice 1 .a, .filter 0 .metaCut],
    ∃ (s : State) (a : Addr), s.inFlight = none ∧ hostLoc s.hw a = some (.depth l) := by
  intro l hl
  simp only [List.mem_cons, List.not_mem_nil, or_false] at hl
  rcases hl with rfl | rfl
  · exact ⟨tReady, 0x004320#24, rfl, by decide +kernel⟩
  · exact ⟨tReady, 0x001060#24, rfl, by decide +kernel⟩

theorem witness_FilterRegisterWrites :
    ∀ x ∈ [(0x001000#24, FilterReg.fcfg), (0x00101C#24, .maxit), (0x001634#24, .lastIters), (0x001638#24, .fstat),
      (0x001624#24, .s0)], ∃ (s : State) (f : Fin 4), s.inFlight = none ∧ hostLoc s.hw x.1 = some (.filter f x.2) := by
  intro x hx
  simp only [List.mem_cons, List.not_mem_nil, or_false] at hx
  rcases hx with rfl | rfl | rfl | rfl | rfl
  · exact ⟨tReady, 0, rfl, by decide +kernel⟩
  · exact ⟨tReady, 0, rfl, by decide +kernel⟩
  · exact ⟨tReady, 3, rfl, by decide +kernel⟩
  · exact ⟨tReady, 3, rfl, by decide +kernel⟩
  · exact ⟨tReady, 3, rfl, by decide +kernel⟩

theorem witness_GlobalRegisterWrites :
    ∀ x ∈ [(0x000000#24, GlobalReg.id), (0x000004#24, .ctrl), (0x000008#24, .status), (0x00002C#24, .fadeLen),
      (0x000054#24, .faultInfo)],
      ∃ s : State, s.inFlight = none ∧ hostLoc s.hw x.1 = some (.global x.2) ∧ x.2 ≠ .cmd := by
  intro x hx
  refine ⟨tReady, rfl, ?_⟩
  simp only [List.mem_cons, List.not_mem_nil, or_false] at hx
  rcases hx with rfl | rfl | rfl | rfl | rfl <;> decide +kernel

theorem witness_VoiceRegisterWrites : ∀ r ∈ [VoiceReg.vcfg, .volume, .pan],
    ∃ (s : State) (a : Addr) (i : Fin 32), s.inFlight = none ∧ hostLoc s.hw a = some (.voice i r) := by
  intro r hr
  simp only [List.mem_cons, List.not_mem_nil, or_false] at hr
  rcases hr with rfl | rfl | rfl
  · exact ⟨tReady, 0x004000#24, 0, rfl, by decide +kernel⟩
  · exact ⟨tReady, 0x004204#24, 1, rfl, by decide +kernel⟩
  · exact ⟨tReady, 0x004208#24, 1, rfl, by decide +kernel⟩

theorem witness_ResetInputRestoresResetValues :
    (∃ (s : State) (rest : List HostEvent), (∀ c, s.inFlight = some c → c.wait ≠ 0) ∧ s.resetPin = true ∧
      s.inbox = .reset false :: rest) ∧
    (∃ (s : State) (rest : List HostEvent), s.fault = true ∧ s.resetPin = false ∧ s.inFlight = none ∧
      s.inbox = .reset false :: rest) ∧
    (∃ (s : State) (rest : List HostEvent), (∀ c, s.inFlight = some c → c.wait ≠ 0) ∧ busy s = true ∧
      s.inbox = .reset true :: rest) ∧
    ∀ e ∈ [HostEvent.write 0x00000C#24 0#32, .read 0x000008#24, .wait], ∃ (s : State) (rest : List HostEvent),
      s.inFlight = none ∧ s.resetPin = true ∧ s.inbox = e :: rest :=
  ⟨⟨{ tReset with resetPin := true, inbox := [.reset false] }, [], (by
      intro c hc
      cases hc), rfl, rfl⟩,
    ⟨{ tReady with fault := true, inbox := [.reset false] }, [], rfl, rfl, rfl, rfl⟩,
    ⟨{ tReady with inFlight := some { word := 3#32, wait := 1 }, inbox := [.reset true] }, [], by
      intro c hc
      cases hc
      decide, rfl, rfl⟩,
    fun e _ => ⟨{ tReset with resetPin := true, inbox := [e] }, [], rfl, rfl, rfl⟩⟩

theorem witness_ParametersNeverChange : ∃ s t : State, step s = .next t :=
  ⟨{ tReady with inbox := [.write 0x000040#24 5#32] }, _, rfl⟩

theorem witness_InitStartsASession : ∀ n ∈ [1#32, 512#32], ∃ s : State, isFinite s.arg0 = true ∧
    flt fZero s.arg0 = true ∧ s.arg1 = n ∧ 1 ≤ s.arg1.toNat ∧ s.arg1.toNat ≤ s.hw.blockMax ∧
    (∃ v : Fin 32, v.val < s.hw.nVoice) ∧ ∃ v : Fin 32, s.hw.nVoice ≤ v.val := by
  intro n hn
  simp only [List.mem_cons, List.not_mem_nil, or_false] at hn
  rcases hn with rfl | rfl
  · exact ⟨{ tReset with arg0 := 0x00000001#32, arg1 := 1#32 }, by decide, by decide, rfl, by decide, by decide,
      ⟨1, by decide⟩, 2, by decide⟩
  · exact ⟨{ tReset with arg0 := 0x7F7FFFFF#32, arg1 := 512#32 }, by decide, by decide, rfl, by decide, by decide,
      ⟨0, by decide⟩, 31, by decide⟩

theorem witness_BlockBeginClearsWritten : ∃ s : State, s.ready = true := ⟨tReady, rfl⟩

theorem witness_BlockEndAppliesTheFade :
    (∃ s : State, s.ready = true ∧ RamCanonical s ∧ s.blockSize.toNat ≤ 4096 ∧
      s.fadePos.toNat + 3 < s.fadeLen.toNat ∧ 3 < s.blockSize.toNat) ∧
    ∃ s : State, s.ready = true ∧ RamCanonical s ∧ s.blockSize.toNat ≤ 4096 ∧ 0 < s.blockSize.toNat ∧
      s.fadeLen.toNat ≤ s.fadePos.toNat :=
  ⟨⟨{ tReady with fadeLen := 4#32 }, rfl, rfl, by decide, by decide, by decide⟩,
    { tReady with fadeLen := 4#32, fadePos := 4#32 }, rfl, rfl, by decide, by decide, by decide⟩

theorem witness_VoiceRenderFrame : ∀ c ∈ [vcfgOf 0x100#32, vcfgOf 0x1F2#32], ∃ (s : State) (unit : BitVec 8)
    (v : Fin 32) (g : Group), s.ready = true ∧ s.blockSize.toNat ≤ 4096 ∧ voiceUnit s.hw unit = some v ∧
    (getVoice s v).vcfg = c ∧ voiceConfigOk (getVoice s v) = true ∧ groupOf (getVoice s v).vcfg.route = some g := by
  intro c hc
  simp only [List.mem_cons, List.not_mem_nil, or_false] at hc
  rcases hc with rfl | rfl
  · exact ⟨setVoice tReady 1 { getVoice tReady 1 with vcfg := vcfgOf 0x100#32 }, 1, 1, .direct, rfl, by decide,
      by decide, by decide +kernel⟩
  · exact ⟨setVoice tReady 1 { getVoice tReady 1 with vcfg := vcfgOf 0x1F2#32 }, 1, 1, .soft, rfl, by decide,
      by decide, by decide +kernel⟩

theorem witness_VoiceRenderOverwritesThenAccumulates : ∀ b : Bool, ∀ c ∈ [vcfgOf 0x000#32, vcfgOf 0x0F2#32],
    ∃ (s t : State) (unit : BitVec 8) (v : Fin 32) (g : Group) (wf mfWf fWf maWf aWf : Waveform), s.ready = true ∧
      s.blockSize.toNat ≤ 4096 ∧ 0 < s.blockSize.toNat ∧ RamCanonical s ∧ voiceUnit s.hw unit = some v ∧
      exec (.voiceRender unit) s = .next t ∧ (getVoice s v).vcfg = c ∧ groupOf (getVoice s v).vcfg.route = some g ∧
      waveformOf (getVoice s v).osc.kind = some wf ∧ waveformOf (getVoice s v).mf.osc.kind = some mfWf ∧
      waveformOf (getVoice s v).f.osc.kind = some fWf ∧ waveformOf (getVoice s v).ma.osc.kind = some maWf ∧
      waveformOf (getVoice s v).a.osc.kind = some aWf ∧ writtenBit s.written g = b := by
  intro b c hc
  simp only [List.mem_cons, List.not_mem_nil, or_false] at hc
  rcases hc with rfl | rfl
  · exact ⟨{ setVoice tReady 1 { getVoice tReady 1 with vcfg := vcfgOf 0x000#32 } with
        written := { direct := b, harsh := false, soft := false } }, _, 1, 1, .direct, .sine, .sine, .sine, .sine, .sine,
      rfl, by cases b <;> decide, by cases b <;> decide, rfl, rfl, rfl,
      by cases b <;> decide +kernel⟩
  · exact ⟨{ setVoice tReady 1 { getVoice tReady 1 with
          vcfg := vcfgOf 0x0F2#32, mf := { getLfo tReady (.voice 1 .mf) with osc := { Osc.reset with kind := 4#3 } } } with
        written := { direct := false, harsh := false, soft := b } }, _, 1, 1, .soft, .sine, .noise, .sine, .sine, .sine,
      rfl, by cases b <;> decide, by cases b <;> decide, rfl, rfl, rfl, by cases b <;> decide +kernel⟩

theorem witness_ProcessBlockIsItsPartsInOrder : ∃ s : State, s.ready = true ∧ configOk s .processBlock = true ∧
    enabledVoices s = [0, 1] ∧ enabledFilters s = [3] :=
  ⟨setFilter (setVoice (setVoice tReady 0 { getVoice tReady 0 with vcfg := vcfgOf 0x101#32 }) 1
      { getVoice tReady 1 with vcfg := vcfgOf 0x1F2#32 }) 3 { getFilter tReady 3 with fcfg := fcfgOf 1#32 },
    rfl, by decide +kernel⟩

theorem witness_PanIsNeverRead : ∃ (i : Instr) (s t : State), exec i s = .next t := ⟨.voiceRender 0, tReady, _, rfl⟩

theorem witness_ResultIsWrittenByScalarCommandsOnly :
    ∃ (i : Instr) (s t : State), exec i s = .next t ∧ t.result ≠ s.result :=
  ⟨.filterStep 0, { tReady with arg0 := 0#32, arg1 := 0#32, result := 1#32 }, _, rfl, by decide +kernel⟩

theorem witness_FilterStepCommits :
    (∃ (s : State) (unit : BitVec 8) (f : Fin 4) (R : Filter) (r : NewtonEnd),
      s.ready = true ∧ filterUnit unit = some f ∧ R = getFilter s f ∧ r = newtonSolve prims R s.arg0 s.arg1 ∧
      isNaN s.arg1 = true ∧ R.maxit ≠ 0) ∧
    ∃ (s : State) (unit : BitVec 8) (f : Fin 4) (R : Filter), s.ready = true ∧ filterUnit unit = some f ∧
      R = getFilter s f ∧ isZero (fadd R.cutoff s.arg1) = true ∧ isFinite (fmul fMinusTwo R.timestep) = true ∧
      isFinite R.res = true ∧ isFinite R.s.v0 = true ∧ isFinite R.s.v1 = true ∧ isFinite R.s.v2 = true ∧
      isFinite R.s.v3 = true ∧ isNaN (fadd (fmul (fmul fFour R.res) R.s.v3) R.xprev) = false ∧
      isNaN (fadd (fmul (fmul fFour R.res) R.s.v3) (fmul s.arg0 R.inGain)) = false ∧ R.maxit ≠ 0 ∧
      fle fZero R.eps = true ∧ isZero R.s.v3 = false :=
  ⟨⟨{ tFilter with arg1 := 0x7F800001#32 }, 0, 0, _, _, rfl, rfl, rfl, rfl, by decide, by decide +kernel⟩,
    { setFilter tFilter 0 { getFilter tFilter 0 with
        s := { v0 := 0x80000000#32, v1 := 1#32, v2 := 0x7F7FFFFF#32, v3 := 0x40000000#32 } } with
      arg0 := 0x3F800000#32, arg1 := 0xC4160000#32 }, 0, 0, _, rfl, rfl, rfl, by decide +kernel⟩

theorem witness_NewtonIterationIsBounded : ∀ b : Bool, ∃ (F : Prims) (R : Filter) (x m : Word) (r : NewtonEnd),
    R.maxit ≠ 0 ∧ r = newtonSolve F R x m ∧ r.conv = b := by
  intro b
  cases b
  · exact ⟨tPrims, getFilter tFilter 0, 0x3F800000#32, 0#32, _, by decide +kernel, rfl, by decide +kernel⟩
  · exact ⟨tPrims, getFilter tFilter 0, 0#32, 0#32, _, by decide +kernel, rfl, by decide +kernel⟩

theorem witness_NewtonIterationIsBounded_field : ∃ (w : Word) (v : Quad), isFinite w = true ∧ isNaN v.v3 = false ∧
    isInf v.v3 = true := ⟨0x7F7FFFFF#32, { v0 := 0#32, v1 := 0#32, v2 := 0#32, v3 := 0xFF800000#32 }, by decide⟩

theorem witness_FilterBlockFrame : ∃ (s : State) (unit : BitVec 8) (f : Fin 4) (metaWf cutWf : Waveform),
    s.ready = true ∧ s.blockSize.toNat ≤ 4096 ∧ 0 < s.blockSize.toNat ∧ filterUnit unit = some f ∧ RamCanonical s ∧
    waveformOf (getFilter s f).metaCut.osc.kind = some metaWf ∧ waveformOf (getFilter s f).cut.osc.kind = some cutWf :=
  ⟨setOsc tFilter (.lfo (.filter 3 .metaCut)) { Osc.reset with kind := 4#3 }, 3, 3, .noise, .sine, rfl, by decide,
    by decide, rfl, rfl, by decide +kernel⟩

theorem witness_FilterBlockIsStepsFedOneAtATime : ∀ b : Bool, ∃ (s t : State) (unit : BitVec 8) (f : Fin 4)
    (xm : Nat → Word × Word), s.ready = true ∧ s.blockSize.toNat ≤ 4096 ∧ 0 < s.blockSize.toNat ∧ RamCanonical s ∧
    filterUnit unit = some f ∧ filterConfigOk (getFilter s f) = true ∧ exec (.filterBlock unit) s = .next t ∧
    writtenBit s.written (filterGroup f) = b ∧
    ∀ n, xm n = (if writtenBit s.written (filterGroup f) then readBuf s (2 + f.val) n else fZero,
      readBuf t (9 + 2 * f.val) n) :=
  fun b => ⟨{ tFilter with written := { direct := false, harsh := b, soft := false } }, _, 0, 0, _, rfl,
    by cases b <;> decide, by cases b <;> decide, rfl, rfl, by cases b <;> decide +kernel, rfl, rfl, fun _ => rfl⟩

theorem witness_FiltersDoNotReadVoices : ∃ (s t : State) (unit : BitVec 8), exec (.filterBlock unit) s = .next t :=
  ⟨tFilter, _, 0, rfl⟩

theorem witness_SilentStepStaysSilentAsWritten : ∃ (R : Filter) (x m : Word) (r : NewtonEnd),
    r = newtonSolve prims R x m ∧ R.maxit ≠ 0 ∧ isZero R.s.v0 = true ∧ isZero R.s.v1 = true ∧ isZero R.s.v2 = true ∧
    isZero R.s.v3 = true ∧ isZero R.xprev = true ∧ isZero x = true ∧ isFinite R.timestep = true ∧
    fle fZero R.timestep = true ∧ isFinite (fmul (fadd R.cutoff m) fTwoPi) = true ∧
    fle fZero (fmul (fadd R.cutoff m) fTwoPi) = true ∧ isFinite R.res = true ∧ fle fZero R.res = true ∧
    fle fZero R.eps = true := ⟨getFilter tFilter 0, 0#32, 0#32, _, rfl, by decide +kernel⟩

theorem witness_SilentStepStaysSilentWhenModerate : ∃ (R : Filter) (x m : Word) (r : NewtonEnd) (c : StepConsts),
    r = newtonSolve prims R x m ∧ c = stepConsts prims R x m ∧ R.maxit ≠ 0 ∧ isZero R.s.v0 = true ∧
    isZero R.s.v1 = true ∧ isZero R.s.v2 = true ∧ isZero R.s.v3 = true ∧ isZero R.xprev = true ∧ isZero x = true ∧
    fle fZero R.eps = true ∧ isFinite R.inGain = true ∧ isFinite R.outGain = true ∧ isFinite c.w = true ∧
    isFinite c.h = true ∧ isFinite c.k4r = true ∧ fle fZero c.a = true ∧ fle c.a fOne = true ∧
    fle 0xBF800000#32 c.c2 = true ∧ fle c.c2 fZero = true :=
  ⟨getFilter tFilter 0, 0#32, 0#32, _, _, rfl, rfl, by decide +kernel⟩

theorem witness_OscNextAdvancesThenEvaluates : ∀ wf ∈ [Waveform.sine, .table 0, .table 2, .noise], ∃ (s : State)
    (unit : BitVec 8) (sub : BitVec 4) (cls : Bool) (t : OscSel), s.ready = true ∧
    oscTarget s.hw unit sub cls = some t ∧ waveformOf (getOsc s t).kind = some wf := by
  intro wf hwf
  simp only [List.mem_cons, List.not_mem_nil, or_false] at hwf
  rcases hwf with rfl | rfl | rfl | rfl
  · exact ⟨tReady, 1, 4, false, .lfo (.voice 1 .a), rfl, by decide +kernel⟩
  · exact ⟨setOsc tReady (.voice 0) { Osc.reset with kind := 1#3 }, 0, 0, false, .voice 0, rfl, by decide +kernel⟩
  · exact ⟨setOsc tReady (.voice 0) { Osc.reset with kind := 3#3 }, 0, 0, false, .voice 0, rfl, by decide +kernel⟩
  · exact ⟨setOsc tReady (.lfo (.filter 3 .cut)) { Osc.reset with kind := 4#3 }, 3, 2, true, .lfo (.filter 3 .cut), rfl,
      by decide +kernel⟩

theorem witness_OscNextAdvancesThenEvaluates_table : ∀ ph ∈ [0x00000000#32, 0x3F7FFFFF#32], ∃ (p : Params)
    (oct : BitVec 4), paramsLegal p = true ∧ oct.toNat < p.wtNoct ∧ inUnitInterval ph = true := by
  intro ph hph
  simp only [List.mem_cons, List.not_mem_nil, or_false] at hph
  rcases hph with rfl | rfl <;> exact ⟨exampleParams, 9, by decide +kernel⟩

theorem witness_OscRenderFrame : ∀ mono : Bool, ∃ (s : State) (unit : BitVec 8) (sub : BitVec 4)
    (cls ufm uam : Bool) (o : OscSel) (wf : Waveform), s.ready = true ∧ s.blockSize.toNat ≤ 4096 ∧
    0 < s.blockSize.toNat ∧ RamCanonical s ∧ oscTarget s.hw unit sub cls = some o ∧ buffersOk s mono ufm uam = true ∧
    waveformOf (getOsc s o).kind = some wf := by
  intro mono
  exact ⟨{ tReady with arg0 := 4#32, arg1 := 4#32, arg2 := 23#32 }, 1, 0, false, true, true, .voice 1, .sine, rfl,
    by decide, by decide, rfl, by decide +kernel, by cases mono <;> decide +kernel, by decide +kernel⟩

theorem witness_LfoProduceOverwritesItsOwnBuffer : ∀ ufm : Bool, ∃ (s : State) (unit : BitVec 8) (sub : BitVec 4)
    (cls : Bool) (l : LfoSel) (wf : Waveform), s.ready = true ∧ s.blockSize.toNat ≤ 4096 ∧ 0 < s.blockSize.toNat ∧
    RamCanonical s ∧ lfoTarget s.hw unit sub cls = some l ∧ (ufm = true → (metaOf l).isSome = true) ∧
    waveformOf (getLfo s l).osc.kind = some wf := by
  intro ufm
  exact ⟨tReady, 3, 2, true, .filter 3 .cut, .sine, rfl, by decide, by decide, rfl, by decide +kernel, fun _ => rfl,
    by decide +kernel⟩

theorem witness_PhaseAdvanceLandsInUnitInterval : isFinite 0x7F800000#32 = false ∧
    (isFinite 0xBF000000#32 = true ∧ flt (fsub 0xBF000000#32 (ffloor 0xBF000000#32)) fOne = true) ∧
    isFinite 0xB2000000#32 = true ∧ flt (fsub 0xB2000000#32 (ffloor 0xB2000000#32)) fOne = false := by decide +kernel

theorem witness_OctaveSelectionIsMonotone : fle 0x42200000#32 0x42200000#32 = true ∧
    fle 0xFF800000#32 0x7F800000#32 = true ∧ isNaN 0x7FC00000#32 = true ∧ octSel exampleParams 0x42A00000#32 = 2 := by
  decide +kernel

theorem witness_RoundingIsToNearestEven : (0 < 1 ∧ (2 ^ 25 - 1) * 2 ^ 252 * 1 ≤ (2 ^ 25 - 1) * 2 ^ 252) ∧
    (0 < 2 ∧ roundMag 1 2 < infMag) ∧ (0 < 1 ∧ roundMag ((2 ^ 25 - 1) * 2 ^ 252 - 1) 1 < infMag) ∧
    (isFinite 0x3F800000#32 = true ∧ isFinite 0x80000001#32 = true ∧
      wordValue 0x3F800000#32 + wordValue 0x80000001#32 ≠ 0 ∧ wordUnits 0x80000001#32 ≠ 0) ∧
    wordValue 0x3F800000#32 + wordValue 0xBF800000#32 = 0 := by decide +kernel

theorem witness_NanResultsAreCanonical : isNaN (fadd 0x7F800000#32 0xFF800000#32) = true ∧
    isNaN (fsub 0x7F800000#32 0x7F800000#32) = true ∧ isNaN (fmul 0#32 0x7F800000#32) = true ∧
    isNaN (fdiv 0#32 0x80000000#32) = true ∧ isNaN (ffloor 0xFFFFFFFF#32) = true ∧ isNaN 0x7F800001#32 = true := by
  decide +kernel

theorem witness_NanResultsAreCanonical_infinities : isInf 0x7F800000#32 = true ∧ isInf 0xFF800000#32 = true ∧
    isInf 0x7F7FFFFF#32 = false ∧ isInf 0x80000000#32 = false ∧ isZero 0x80000000#32 = true ∧
    isZero 0x00000001#32 = false ∧ isNaN 0xFF800000#32 = false ∧ isNaN 0x80000000#32 = false := by decide

/-- R12, R13: worked from IEEE 754 by hand. -/
theorem test_infinities_and_order : fdiv 0xBF800000#32 0#32 = 0xFF800000#32 ∧
    fdiv 0x3F800000#32 0xFF800000#32 = 0x80000000#32 ∧ fsub 0xFF800000#32 0x7F800000#32 = 0xFF800000#32 ∧
    flt 0xC0000000#32 0xBF800000#32 = true ∧ flt 0x80000000#32 0#32 = false ∧ feq 0x80000000#32 0#32 = true ∧
    flt 0xFF800000#32 0xFF7FFFFF#32 = true := by decide +kernel

theorem witness_TanhAndSinMeetTheirConstraints : isNaN 0x7F800001#32 = true ∧ isNaN 0x7F800000#32 = false ∧
    isInf 0xFF800000#32 = true ∧ isInf 0x7F7FFFFF#32 = false := by decide

end Sys2Proof.Tests
end

/-! SUPPORT. The scale of the binary32 magnitudes and the one rounding onto it (R12). -/

namespace Sys2Proof.Machine

/-! ### The magnitudes as a scale -/

/-- The magnitude with significand `q` and last place `2 ^ sh`; a full `q` carries into the exponent. -/
theorem magUnits_significand_place {q sh : Nat} (hq : q ≤ 2 ^ 24) (hsh : sh = 0 ∨ 2 ^ 23 ≤ q) :
    magUnits (q + sh * 2 ^ 23) = q * 2 ^ sh := by
  unfold magUnits
  obtain hfull | hq := hq.eq_or_lt
  · subst hfull
    have hexp : (2 ^ 24 + sh * 2 ^ 23) / 2 ^ 23 = sh + 2 := by omega
    have hfrac : (2 ^ 24 + sh * 2 ^ 23) % 2 ^ 23 = 0 := by omega
    rw [hexp, hfrac, if_neg (by omega), Nat.add_sub_cancel (n := sh + 1) (m := 1), pow_succ]
    omega
  · obtain hnormal | hsub := le_or_gt (2 ^ 23) q
    · have hexp : (q + sh * 2 ^ 23) / 2 ^ 23 = sh + 1 := by omega
      have hfrac : 2 ^ 23 + (q + sh * 2 ^ 23) % 2 ^ 23 = q := by omega
      rw [hexp, hfrac, if_neg (by omega), Nat.add_sub_cancel]
    · obtain rfl : sh = 0 := by omega
      rw [if_pos (by omega)]
      omega

/-- Every magnitude has a significand below `2 ^ 24` and a last place, normalised above the subnormals. -/
theorem exists_significand_place (m : Nat) :
    ∃ q sh : Nat, m = q + sh * 2 ^ 23 ∧ q < 2 ^ 24 ∧ (sh = 0 ∨ 2 ^ 23 ≤ q) :=
  ⟨m - (m / 2 ^ 23 - 1) * 2 ^ 23, m / 2 ^ 23 - 1, by omega, by omega, by omega⟩

theorem magUnits_strictMono : StrictMono magUnits := by
  refine strictMono_nat_of_lt_succ fun m => ?_
  obtain ⟨q, sh, rfl, hq, hsh⟩ := exists_significand_place m
  have hsucc := magUnits_significand_place (q := q + 1) (sh := sh) (by omega) (by omega)
  rw [Nat.add_right_comm] at hsucc
  rw [hsucc, magUnits_significand_place hq.le hsh]
  exact Nat.mul_lt_mul_of_pos_right q.lt_succ_self (by positivity)

@[simp] theorem magUnits_zero : magUnits 0 = 0 := rfl

theorem magUnits_eq_zero {m : Nat} : magUnits m = 0 ↔ m = 0 :=
  magUnits_strictMono.injective.eq_iff' magUnits_zero

/-- The infinity's magnitude continues the scale: the place after the largest finite value. -/
theorem magUnits_infMag : magUnits infMag = 2 ^ 24 * 2 ^ 253 := rfl

theorem magUnits_largest_finite : magUnits (infMag - 1) = (2 ^ 24 - 1) * 2 ^ 253 := rfl

/-! ### Rounding between two neighbours -/

/-- `num / den` lies between the magnitudes `m` and `m + 1`, below the upper one. -/
structure Brackets (num den m : Nat) : Prop where
  lower : den * magUnits m ≤ num
  upper : num < den * magUnits (m + 1)

/-- `num / den` is past the midpoint of the magnitudes `m` and `m + 1`, or is that midpoint and `m` is odd. -/
def RoundsUp (num den m : Nat) : Prop :=
  den * magUnits m + den * magUnits (m + 1) < 2 * num ∨
    2 * num = den * magUnits m + den * magUnits (m + 1) ∧ m % 2 = 1

/-- The significand `roundMag` cuts `k` to has at most 24 bits, and 24 where it drops any. -/
theorem significand_bounds (k : Nat) :
    k / 2 ^ (k.log2 - 23) < 2 ^ 24 ∧ (k.log2 - 23 = 0 ∨ 2 ^ 23 ≤ k / 2 ^ (k.log2 - 23)) := by
  constructor
  · refine Nat.div_lt_of_lt_mul ?_
    calc k < 2 ^ (k.log2 + 1) := Nat.lt_log2_self
      _ ≤ 2 ^ (k.log2 - 23 + 24) := Nat.pow_le_pow_right (by omega) (by omega)
      _ = 2 ^ (k.log2 - 23) * 2 ^ 24 := pow_add ..
  · refine or_iff_not_imp_left.mpr fun hsh => (Nat.le_div_iff_mul_le (by positivity)).mpr ?_
    have hk : k ≠ 0 := by rintro rfl; exact hsh rfl
    calc 2 ^ 23 * 2 ^ (k.log2 - 23) = 2 ^ k.log2 := by rw [← pow_add]; congr 1; omega
      _ ≤ k := Nat.log2_self_le hk

/-- What `roundMag` does, on the scale: it finds the two neighbouring magnitudes and takes one of them. -/
theorem roundMag_between_neighbours (num : Nat) {den : Nat} (hden : 0 < den) :
    ∃ m, Brackets num den m ∧ (RoundsUp num den m → roundMag num den = min (m + 1) infMag) ∧
      (¬ RoundsUp num den m → roundMag num den = min m infMag) := by
  set sh := Nat.log2 (num / den) - 23 with hsh
  set d := den * 2 ^ sh with hd
  obtain ⟨hq, hnorm⟩ := significand_bounds (num / den)
  rw [← hsh, Nat.div_div_eq_div_mul, ← hd] at hq hnorm
  have hlow : den * magUnits (num / d + sh * 2 ^ 23) = d * (num / d) := by
    rw [magUnits_significand_place hq.le hnorm, hd]; ring
  have hhigh : den * magUnits (num / d + sh * 2 ^ 23 + 1) = d * (num / d) + d := by
    rw [Nat.add_right_comm, magUnits_significand_place (q := num / d + 1) hq (by omega), hd]; ring
  have hrem : d * (num / d) + num % d = num := Nat.div_add_mod num d
  have hlt : num % d < d := Nat.mod_lt _ (by positivity)
  have hround : roundMag num den =
      min ((if d < 2 * (num % d) ∨ (2 * (num % d) = d ∧ num / d % 2 = 1) then num / d + 1 else num / d) + sh * 2 ^ 23)
        infMag := rfl
  refine ⟨num / d + sh * 2 ^ 23, ⟨by omega, by omega⟩, ?_⟩
  rw [RoundsUp, hlow, hhigh, hround]
  constructor
  · intro hup
    rw [if_pos (by omega), Nat.add_right_comm]
  · intro hdown
    rw [if_neg (by omega)]

/-- A quotient that is a magnitude up to the infinity's rounds to it. -/
theorem roundMag_magUnits {m : Nat} (hm : m ≤ infMag) : roundMag (magUnits m) 1 = m := by
  obtain ⟨n, ⟨hlow, hhigh⟩, -, hdown⟩ := roundMag_between_neighbours (magUnits m) (den := 1) one_pos
  rw [one_mul] at hlow hhigh
  have hnm : n ≤ m := magUnits_strictMono.le_iff_le.mp hlow
  have hmn : m < n + 1 := magUnits_strictMono.lt_iff_lt.mp hhigh
  obtain rfl : n = m := by omega
  rw [hdown (by unfold RoundsUp; omega)]
  omega

theorem roundMag_le_infMag (num den : Nat) : roundMag num den ≤ infMag := Nat.min_le_right ..

/-- R12: overflow begins at the midpoint above the largest finite value. -/
theorem roundMag_eq_infMag_iff (num : Nat) {den : Nat} (hden : 0 < den) :
    roundMag num den = infMag ↔ (2 ^ 25 - 1) * 2 ^ 252 * den ≤ num := by
  obtain ⟨m, ⟨hlow, hhigh⟩, hup, hdown⟩ := roundMag_between_neighbours num hden
  obtain hm | rfl | hm := lt_trichotomy m (infMag - 1)
  · have hle : den * magUnits (m + 1) ≤ den * magUnits (infMag - 1) :=
      Nat.mul_le_mul_left _ (magUnits_strictMono.monotone hm)
    rw [magUnits_largest_finite] at hle
    have hfin : roundMag num den ≠ infMag := by
      by_cases h : RoundsUp num den m
      · rw [hup h]; omega
      · rw [hdown h]; omega
    exact iff_of_false hfin (by omega)
  · have hodd : (infMag - 1) % 2 = 1 := rfl
    have hmid : RoundsUp num den (infMag - 1) ↔ (2 ^ 25 - 1) * 2 ^ 252 * den ≤ num := by
      rw [RoundsUp, show infMag - 1 + 1 = infMag from rfl, magUnits_largest_finite, magUnits_infMag]
      omega
    rw [← hmid]
    refine ⟨fun h => ?_, fun h => hup h⟩
    by_contra hn
    rw [hdown hn] at h
    omega
  · have hle : den * magUnits infMag ≤ den * magUnits m :=
      Nat.mul_le_mul_left _ (magUnits_strictMono.monotone (by omega))
    rw [magUnits_infMag] at hle
    have hinf : roundMag num den = infMag := by
      by_cases h : RoundsUp num den m
      · rw [hup h]; omega
      · rw [hdown h]; omega
    exact iff_of_true hinf (by omega)

/-- R12: no magnitude is nearer than the rounded one, and one as near leaves the rounded one even. -/
theorem roundMag_nearest_even (num : Nat) {den : Nat} (hden : 0 < den) (hfin : roundMag num den < infMag) (n : Nat) :
    ((num : Int) - (den * magUnits (roundMag num den) : Nat)).natAbs ≤
        ((num : Int) - (den * magUnits n : Nat)).natAbs ∧
      (((num : Int) - (den * magUnits (roundMag num den) : Nat)).natAbs =
        ((num : Int) - (den * magUnits n : Nat)).natAbs → n ≠ roundMag num den → roundMag num den % 2 = 0) := by
  obtain ⟨m, ⟨hlow, hhigh⟩, hup, hdown⟩ := roundMag_between_neighbours num hden
  have hmono : StrictMono fun k => den * magUnits k := fun a b hab =>
    Nat.mul_lt_mul_of_pos_left (magUnits_strictMono hab) hden
  have hle : ∀ {a b : Nat}, a ≤ b → den * magUnits a ≤ den * magUnits b := fun h => hmono.monotone h
  have hinj : ∀ {a b : Nat}, den * magUnits a = den * magUnits b → a = b := fun h => hmono.injective h
  by_cases h : RoundsUp num den m
  · have hr : roundMag num den = m + 1 := by have := hup h; omega
    rw [hr]
    unfold RoundsUp at h
    obtain hn | hn := Nat.lt_or_ge m n
    · have := hle (a := m + 1) hn
      refine ⟨by omega, fun heq hne => absurd (hinj ?_) hne⟩
      omega
    · have := hle hn
      omega
  · have hr : roundMag num den = m := by have := hdown h; omega
    rw [hr]
    unfold RoundsUp at h
    obtain hn | hn := Nat.lt_or_ge m n
    · have := hle (a := m + 1) hn
      omega
    · have := hle hn
      refine ⟨by omega, fun heq hne => absurd (hinj ?_) hne⟩
      omega

end Sys2Proof.Machine

/-! SUPPORT. The fields of a word, its value (R12), and what the operations of R13 answer, class by class. -/

namespace Sys2Proof.Machine

/-! ### The fields of a word -/

theorem fsign_eq_getLsbD (x : Word) : fsign x = x.getLsbD 31 := BitVec.msb_eq_getLsbD_last x

theorem fmag_eq_toNat_setWidth (x : Word) : fmag x = (x.setWidth 31).toNat := (BitVec.toNat_setWidth ..).symm

theorem infMag_lt_two_pow : infMag < 2 ^ 31 := by decide

theorem toNat_fpack (neg : Bool) {m : Nat} (hm : m < 2 ^ 31) :
    (fpack neg m).toNat = if neg then 2 ^ 31 + m else m := by
  rw [fpack, BitVec.toNat_ofNat, Nat.mod_eq_of_lt]
  split <;> omega

theorem fmag_fpack (neg : Bool) {m : Nat} (hm : m < 2 ^ 31) : fmag (fpack neg m) = m := by
  rw [fmag, toNat_fpack neg hm]
  split <;> omega

theorem fsign_fpack (neg : Bool) {m : Nat} (hm : m < 2 ^ 31) : fsign (fpack neg m) = neg := by
  rw [fsign, BitVec.msb_eq_decide, toNat_fpack neg hm]
  cases neg
  · simpa using hm
  · simp

@[simp] theorem fmag_fneg (x : Word) : fmag (fneg x) = fmag x := by
  simp [fmag_eq_toNat_setWidth, fneg]

@[simp] theorem fsign_fneg (x : Word) : fsign (fneg x) = !fsign x := by
  simp [fsign_eq_getLsbD, fneg]

@[simp] theorem isNaN_fneg (x : Word) : isNaN (fneg x) = isNaN x := by simp only [isNaN, fmag_fneg]
@[simp] theorem isInf_fneg (x : Word) : isInf (fneg x) = isInf x := by simp only [isInf, fmag_fneg]
@[simp] theorem isFinite_fneg (x : Word) : isFinite (fneg x) = isFinite x := by simp only [isFinite, fmag_fneg]

theorem isNaN_fpack (neg : Bool) {m : Nat} (hm : m ≤ infMag) : isNaN (fpack neg m) = false := by
  rw [isNaN, fmag_fpack neg (hm.trans_lt infMag_lt_two_pow), decide_eq_false hm.not_gt]

theorem isNaN_fpack_roundMag (neg : Bool) (num den : Nat) : isNaN (fpack neg (roundMag num den)) = false :=
  isNaN_fpack neg (roundMag_le_infMag num den)

theorem fpack_infMag (neg : Bool) : fpack neg infMag = infinity neg := by cases neg <;> rfl

/-- A finite word is no NaN and no infinity, so the operations go on to their exact part. -/
theorem not_isNaN_not_isInf_of_isFinite {x : Word} (hx : isFinite x = true) : isNaN x = false ∧ isInf x = false :=
  have hmag : fmag x < infMag := of_decide_eq_true hx
  ⟨decide_eq_false hmag.asymm, decide_eq_false hmag.ne⟩

theorem isInf_eq_false_of_isZero {x : Word} (hx : isZero x = true) : isInf x = false := by
  have hmag : fmag x = 0 := of_decide_eq_true hx
  rw [isInf, hmag]
  rfl

/-! ### The value of a word -/

theorem funits_eq_wordUnits (x : Word) : funits x = wordUnits x := by
  unfold funits wordUnits magUnits fmag
  split
  next hsub => rw [if_pos (Nat.div_eq_of_lt hsub), Nat.mod_eq_of_lt hsub]
  next hnormal => rw [if_neg (by omega)]

theorem fexact_eq_wordValue (x : Word) : fexact x = wordValue x := by
  rw [fexact, wordValue, funits_eq_wordUnits, fsign_eq_getLsbD]

theorem wordUnits_eq_magUnits_fmag (x : Word) : wordUnits x = magUnits (fmag x) := rfl

theorem isZero_iff_wordUnits (x : Word) : isZero x = true ↔ wordUnits x = 0 := by
  rw [wordUnits_eq_magUnits_fmag, magUnits_eq_zero, isZero, decide_eq_true_eq]

theorem wordValue_fneg (x : Word) : wordValue (fneg x) = -wordValue x := by
  simp only [wordValue, wordUnits_eq_magUnits_fmag, ← fsign_eq_getLsbD, fsign_fneg, fmag_fneg]
  cases fsign x <;> simp

theorem wordValue_fpack (neg : Bool) {m : Nat} (hm : m < 2 ^ 31) :
    wordValue (fpack neg m) = if neg then -(magUnits m : Int) else (magUnits m : Int) := by
  rw [wordValue, wordUnits_eq_magUnits_fmag, ← fsign_eq_getLsbD, fsign_fpack neg hm, fmag_fpack neg hm]

/-- The scale of the magnitudes, carried to both signs: `wordValue` as a function of `fkey`. -/
def keyValue : Int → Int
  | .ofNat m => magUnits m
  | .negSucc m => -magUnits (m + 1)

theorem keyValue_strictMono : StrictMono keyValue := by
  have hstep : ∀ m, (magUnits m : Int) < magUnits (m + 1) := fun m =>
    Int.ofNat_lt.mpr (magUnits_strictMono m.lt_succ_self)
  refine strictMono_int_of_lt_succ fun k => ?_
  match k with
  | .ofNat m => exact hstep m
  | .negSucc 0 => exact Int.neg_neg_of_pos (hstep 0)
  | .negSucc (m + 1) => exact Int.neg_lt_neg (hstep (m + 1))

theorem keyValue_natCast (m : Nat) : keyValue m = magUnits m := rfl

theorem keyValue_neg_natCast (m : Nat) : keyValue (-m) = -magUnits m := by
  cases m with
  | zero => rfl
  | succ m => rfl

theorem wordValue_eq_keyValue (x : Word) : wordValue x = keyValue (fkey x) := by
  rw [wordValue, fkey, wordUnits_eq_magUnits_fmag, ← fsign_eq_getLsbD]
  split
  · exact (keyValue_neg_natCast _).symm
  · exact (keyValue_natCast _).symm

/-! ### NaN operands and NaN results -/

theorem isNaN_qNaN : isNaN qNaN = true := by decide

theorem fadd_of_isNaN {x y : Word} (h : isNaN x = true ∨ isNaN y = true) : fadd x y = qNaN := by
  rw [fadd, if_pos (Bool.or_eq_true _ _ ▸ h)]

theorem fsub_of_isNaN {x y : Word} (h : isNaN x = true ∨ isNaN y = true) : fsub x y = qNaN :=
  fadd_of_isNaN (by rwa [isNaN_fneg])

theorem fmul_of_isNaN {x y : Word} (h : isNaN x = true ∨ isNaN y = true) : fmul x y = qNaN := by
  rw [fmul, if_pos (Bool.or_eq_true _ _ ▸ h)]

theorem fdiv_of_isNaN {x y : Word} (h : isNaN x = true ∨ isNaN y = true) : fdiv x y = qNaN := by
  rw [fdiv, if_pos (Bool.or_eq_true _ _ ▸ h)]

theorem ffloor_of_isNaN {x : Word} (h : isNaN x = true) : ffloor x = qNaN := by
  rw [ffloor, if_pos h]

/-- Every branch of `fadd` answers the canonical NaN, an operand that is no NaN, or a packed magnitude. -/
theorem fadd_canonical {x y : Word} (h : isNaN (fadd x y) = true) : fadd x y = qNaN := by
  by_cases hn : isNaN x = true ∨ isNaN y = true
  · exact fadd_of_isNaN hn
  · simp only [not_or, Bool.not_eq_true] at hn
    revert h
    simp only [fadd, hn.1, hn.2, Bool.or_self, Bool.false_eq_true, ite_false]
    split_ifs <;> simp [hn, isNaN_fpack, isNaN_fpack_roundMag]

theorem fsub_canonical {x y : Word} (h : isNaN (fsub x y) = true) : fsub x y = qNaN := fadd_canonical h

theorem fmul_canonical {x y : Word} (h : isNaN (fmul x y) = true) : fmul x y = qNaN := by
  revert h
  unfold fmul
  split_ifs <;> simp [isNaN_fpack, isNaN_fpack_roundMag]

theorem fdiv_canonical {x y : Word} (h : isNaN (fdiv x y) = true) : fdiv x y = qNaN := by
  revert h
  unfold fdiv
  split_ifs <;> simp [isNaN_fpack, isNaN_fpack_roundMag]

theorem ffloor_canonical {x : Word} (h : isNaN (ffloor x) = true) : ffloor x = qNaN := by
  by_cases hx : isNaN x = true
  · exact ffloor_of_isNaN hx
  · revert h
    rw [ffloor, if_neg hx]
    split_ifs <;> simp [hx, isNaN_fpack_roundMag]

/-! ### Infinite operands and division by zero -/

section
variable {x y : Word} (hx : isNaN x = false) (hy : isNaN y = false)
include hx hy

theorem fadd_inf_inf (hix : isInf x = true) (hiy : isInf y = true) :
    fadd x y = if fsign x != fsign y then qNaN else x := by
  simp [fadd, hx, hy, hix, hiy]

theorem fadd_inf_left (hix : isInf x = true) (hiy : isInf y = false) : fadd x y = x := by
  simp [fadd, hx, hy, hix, hiy]

theorem fadd_inf_right (hix : isInf x = false) (hiy : isInf y = true) : fadd x y = y := by
  simp [fadd, hx, hy, hix, hiy]

theorem fmul_inf (h : isInf x = true ∨ isInf y = true) :
    fmul x y = if isZero x || isZero y then qNaN else infinity (fsign x != fsign y) := by
  simp [fmul, hx, hy, h, fpack_infMag]

theorem fdiv_inf_inf (hix : isInf x = true) (hiy : isInf y = true) : fdiv x y = qNaN := by
  simp [fdiv, hx, hy, hix, hiy]

theorem fdiv_inf_left (hix : isInf x = true) (hiy : isInf y = false) :
    fdiv x y = infinity (fsign x != fsign y) := by
  simp [fdiv, hx, hy, hix, hiy, fpack_infMag]

theorem fdiv_inf_right (hix : isInf x = false) (hiy : isInf y = true) :
    fdiv x y = fpack (fsign x != fsign y) 0 := by
  simp [fdiv, hx, hy, hix, hiy]

theorem fdiv_zero (hzy : isZero y = true) :
    fdiv x y = if isZero x then qNaN else infinity (fsign x != fsign y) := by
  cases hix : isInf x with
  | true =>
    have hzx : isZero x = false := by
      by_contra h
      simp [isInf_eq_false_of_isZero (Bool.eq_true_of_not_eq_false h)] at hix
    rw [fdiv_inf_left hx hy hix (isInf_eq_false_of_isZero hzy), hzx, if_neg Bool.false_ne_true]
  | false => simp [fdiv, hx, hy, hix, hzy, isInf_eq_false_of_isZero hzy, fpack_infMag]

end

/-! ### Finite operands -/

section
variable {x y : Word} (hx : isFinite x = true) (hy : isFinite y = true)
include hx hy

theorem fadd_finite : fadd x y =
    if wordValue x + wordValue y = 0 then fpack (x.getLsbD 31 && y.getLsbD 31) 0
    else fpack (decide (wordValue x + wordValue y < 0)) (roundMag (wordValue x + wordValue y).natAbs 1) := by
  simp [fadd, not_isNaN_not_isInf_of_isFinite hx, not_isNaN_not_isInf_of_isFinite hy, fexact_eq_wordValue,
    fsign_eq_getLsbD]

theorem fmul_finite : fmul x y =
    fpack (x.getLsbD 31 != y.getLsbD 31) (roundMag (wordUnits x * wordUnits y) (2 ^ 149)) := by
  simp [fmul, not_isNaN_not_isInf_of_isFinite hx, not_isNaN_not_isInf_of_isFinite hy, funits_eq_wordUnits,
    fsign_eq_getLsbD]

theorem fdiv_finite (hzy : wordUnits y ≠ 0) : fdiv x y =
    fpack (x.getLsbD 31 != y.getLsbD 31) (roundMag (wordUnits x * 2 ^ 149) (wordUnits y)) := by
  have hz : isZero y = false := Bool.eq_false_iff.mpr (mt (isZero_iff_wordUnits y).mp hzy)
  simp [fdiv, not_isNaN_not_isInf_of_isFinite hx, not_isNaN_not_isInf_of_isFinite hy, hz, funits_eq_wordUnits,
    fsign_eq_getLsbD]

end

/-! ### Floor -/

theorem ffloor_inf_or_zero {x : Word} (hx : isNaN x = false) (h : isInf x = true ∨ isZero x = true) : ffloor x = x := by
  simp [ffloor, hx, h]

/-- The integers up to `2 ^ 23` are binary32 values. -/
theorem exists_magUnits_eq_natCast {k : Nat} (hk : k ≤ 2 ^ 23) : ∃ m < infMag, magUnits m = k * 2 ^ 149 := by
  obtain rfl | hpos := Nat.eq_zero_or_pos k
  · exact ⟨0, by decide, by simp⟩
  · have hlog : k.log2 ≤ 23 := by
      rw [← Nat.lt_succ_iff, Nat.log2_lt hpos.ne']; omega
    have hlow : 2 ^ 23 ≤ k * 2 ^ (23 - k.log2) := by
      calc 2 ^ 23 = 2 ^ k.log2 * 2 ^ (23 - k.log2) := by rw [← pow_add]; congr 1; omega
        _ ≤ k * 2 ^ (23 - k.log2) := Nat.mul_le_mul_right _ (Nat.log2_self_le hpos.ne')
    have hhigh : k * 2 ^ (23 - k.log2) ≤ 2 ^ 24 := by
      calc k * 2 ^ (23 - k.log2) ≤ 2 ^ (k.log2 + 1) * 2 ^ (23 - k.log2) :=
            Nat.mul_le_mul_right _ Nat.lt_log2_self.le
        _ = 2 ^ 24 := by rw [← pow_add]; congr 1; omega
    refine ⟨k * 2 ^ (23 - k.log2) + (126 + k.log2) * 2 ^ 23, ?_, ?_⟩
    · show _ < 0x7F800000
      omega
    · rw [magUnits_significand_place hhigh (.inr hlow), mul_assoc, ← pow_add]
      congr 2
      omega

/-- The floor of a finite value is a binary32 value: above `2 ^ 24` the value is an integer already. -/
theorem exists_magUnits_eq_floor {x : Word} (hx : isFinite x = true) :
    ∃ m < infMag, magUnits m = (floorInt x).natAbs * 2 ^ 149 := by
  have hval : wordValue x = magUnits (fmag x) ∨ wordValue x = -magUnits (fmag x) := by
    rw [wordValue, wordUnits_eq_magUnits_fmag]
    split <;> simp
  rw [floorInt, fexact_eq_wordValue]
  obtain ⟨q, sh, hm, hq, hsh⟩ := exists_significand_place (fmag x)
  have hunits := magUnits_significand_place hq.le hsh
  rw [← hm] at hunits
  obtain hint | hfrac := le_or_gt 149 sh
  · have hdvd : 2 ^ 149 ∣ magUnits (fmag x) := hunits ▸ (pow_dvd_pow 2 hint).mul_left q
    refine ⟨fmag x, of_decide_eq_true hx, ?_⟩
    omega
  · have hsmall : magUnits (fmag x) ≤ 2 ^ 24 * 2 ^ 148 :=
      hunits ▸ Nat.mul_le_mul hq.le (Nat.pow_le_pow_right (by omega) (by omega))
    exact exists_magUnits_eq_natCast (by omega)

/-- `floor` packs its value exactly; a zero keeps its sign. -/
theorem ffloor_finite {x : Word} (hx : isFinite x = true) :
    isFinite (ffloor x) = true ∧ wordValue (ffloor x) = wordValue x / 2 ^ 149 * 2 ^ 149 := by
  obtain ⟨hnan, hinf⟩ := not_isNaN_not_isInf_of_isFinite hx
  by_cases hz : isZero x = true
  · have hval : wordValue x = 0 := by simp [wordValue, (isZero_iff_wordUnits x).mp hz]
    rw [ffloor_inf_or_zero hnan (.inr hz), hval]
    exact ⟨hx, rfl⟩
  · obtain ⟨m, hm, hunits⟩ := exists_magUnits_eq_floor hx
    have hfloor : ffloor x = fpack (decide (floorInt x < 0)) m := by
      simp only [ffloor, hnan, hinf, hz, ← hunits, roundMag_magUnits hm.le, Bool.or_self, Bool.false_eq_true, ite_false]
    have hlt : m < 2 ^ 31 := hm.trans infMag_lt_two_pow
    rw [hfloor, wordValue_fpack _ hlt, isFinite, fmag_fpack _ hlt, hunits, ← fexact_eq_wordValue,
      ← floorInt]
    refine ⟨decide_eq_true hm, ?_⟩
    simp only [decide_eq_true_eq]
    split <;> omega

/-! ### Comparisons -/

theorem comparisons_of_isNaN {x y : Word} (h : isNaN x = true ∨ isNaN y = true) :
    flt x y = false ∧ fle x y = false ∧ feq x y = false := by
  obtain h | h := h <;> simp [flt, fle, feq, h]

section
variable {x y : Word} (hx : isNaN x = false) (hy : isNaN y = false)
include hx hy

theorem flt_iff_wordValue : flt x y = true ↔ wordValue x < wordValue y := by
  simp [flt, hx, hy, wordValue_eq_keyValue, keyValue_strictMono.lt_iff_lt]

theorem fle_iff_wordValue : fle x y = true ↔ wordValue x ≤ wordValue y := by
  simp [fle, hx, hy, wordValue_eq_keyValue, keyValue_strictMono.le_iff_le]

theorem feq_iff_wordValue : feq x y = true ↔ wordValue x = wordValue y := by
  simp [feq, hx, hy, wordValue_eq_keyValue, keyValue_strictMono.injective.eq_iff]

end

end Sys2Proof.Machine

/-! The obligations about arithmetic, the primitives and the parameters (spec/00_scope.md). -/

namespace Sys2Proof.Machine

/-! ### The cut-down primitives and parameters -/

theorem minus_one_le_le_one_of_fmag_le {x : Word} (h : fmag x ≤ 0x3F800000) :
    fle 0xBF800000#32 x = true ∧ fle x fOne = true := by
  have hnan : isNaN x = false := decide_eq_false (by unfold infMag; omega)
  have hone : fkey fOne = 0x3F800000 := rfl
  have hneg : fkey 0xBF800000#32 = -0x3F800000 := rfl
  have hkey : -0x3F800000 ≤ fkey x ∧ fkey x ≤ 0x3F800000 := by
    unfold fkey
    split <;> omega
  have hnum : isNaN 0xBF800000#32 = false ∧ isNaN fOne = false := by decide
  simp [fle, hnan, hnum, hone, hneg, hkey]

theorem fmag_clampUnit_le (x : Word) : fmag (clampUnit x) ≤ 0x3F800000 := by
  unfold clampUnit
  split
  · assumption
  · decide

theorem clampUnit_bounds (x : Word) : fle 0xBF800000#32 (clampUnit x) = true ∧ fle (clampUnit x) fOne = true :=
  minus_one_le_le_one_of_fmag_le (fmag_clampUnit_le x)

theorem tanhLegal_of_isZero (g : Word → Word) {x : Word} (hnan : isNaN x = false) (hz : isZero x = true) :
    tanhLegal g x = x := by
  simp [tanhLegal, hnan, hz]

theorem tanhLegal_of_isNaN (g : Word → Word) {x : Word} (h : isNaN x = true) : tanhLegal g x = qNaN := if_pos h

theorem tanhLegal_bounds (g : Word → Word) {x : Word} (hnan : isNaN x = false) :
    fle 0xBF800000#32 (tanhLegal g x) = true ∧ fle (tanhLegal g x) fOne = true := by
  by_cases hz : isZero x = true
  · rw [tanhLegal_of_isZero g hnan hz]
    have hmag : fmag x = 0 := of_decide_eq_true hz
    exact minus_one_le_le_one_of_fmag_le (by omega)
  · have hclamp : tanhLegal g x = clampUnit (g x) := by simp [tanhLegal, hnan, hz]
    rw [hclamp]
    exact clampUnit_bounds (g x)

theorem sinLegal_of_isNaN_or_isInf (g : Word → Word) {x : Word} (h : isNaN x = true ∨ isInf x = true) :
    sinLegal g x = qNaN :=
  if_pos (Bool.or_eq_true _ _ ▸ h)

theorem sinLegal_bounds (g : Word → Word) {x : Word} (hnan : isNaN x = false) (hinf : isInf x = false) :
    fle 0xBF800000#32 (sinLegal g x) = true ∧ fle (sinLegal g x) fOne = true := by
  have hclamp : sinLegal g x = clampUnit (g x) := by simp [sinLegal, hnan, hinf]
  rw [hclamp]
  exact clampUnit_bounds (g x)

theorem paramsLegal_exampleParams : paramsLegal exampleParams = true := by decide

/-- Whatever parameters are given, the core's are legal: illegal ones are replaced. -/
theorem paramsLegal_params : paramsLegal params = true := by
  unfold params
  split
  · assumption
  · exact paramsLegal_exampleParams

/-! ### The obligations -/

/-- Settles O60, by the cut of the given parameters and of the given noise values. -/
theorem parametersAndNoiseAreLegal : Obligations.ParametersAndNoiseAreLegal :=
  ⟨paramsLegal_params, fun k => clampUnit_bounds (Config.noiseGiven k)⟩

/-- Settles O59, by the branches of `tanhLegal` and `sinLegal`, for any given TANH and SIN. -/
theorem tanhAndSinMeetTheirConstraints : Obligations.TanhAndSinMeetTheirConstraints := by
  have hzeros : tanhLegal Config.tanhGiven 0x00000000#32 = 0x00000000#32 ∧
      tanhLegal Config.tanhGiven 0x80000000#32 = 0x80000000#32 :=
    ⟨tanhLegal_of_isZero _ (by decide) (by decide), tanhLegal_of_isZero _ (by decide) (by decide)⟩
  exact ⟨hzeros.1, hzeros.2, fun _ => ⟨tanhLegal_of_isNaN Config.tanhGiven, tanhLegal_bounds Config.tanhGiven,
    sinLegal_of_isNaN_or_isInf Config.sinGiven, sinLegal_bounds Config.sinGiven⟩⟩

/-- Settles O57: `roundMag` takes one of the two neighbouring magnitudes, the scale of the magnitudes is strictly
monotone, and an integer below `2 ^ 24` is on it. -/
theorem roundingIsToNearestEven : Obligations.RoundingIsToNearestEven := by
  refine ⟨fun num den hden => ⟨roundMag_eq_infMag_iff num hden, fun hfin m _ => roundMag_nearest_even num hden hfin m⟩,
    fun x y hx hy => ⟨fun hsum => ?_, fun hsum => ?_, ⟨rfl, ?_, wordValue_fneg y⟩, fmul_finite hx hy, fdiv_finite hx hy,
      ffloor_finite hx, fun _ => rfl⟩⟩
  · rw [fadd_finite hx hy, if_neg hsum]
  · rw [fadd_finite hx hy, if_pos hsum]
  · rwa [isFinite_fneg]

/-- The results of `+`, `-` and `/` where an operand is infinite (log entry 3). -/
theorem results_of_infinities {x y : Word} (hx : isNaN x = false) (hy : isNaN y = false) :
    (isInf x = true → isInf y = true →
      fadd x y = (if fsign x != fsign y then qNaN else x) ∧ fsub x y = (if fsign x != fsign y then x else qNaN) ∧
      fdiv x y = qNaN) ∧
    (isInf x = true → isInf y = false →
      fadd x y = x ∧ fsub x y = x ∧ fdiv x y = infinity (fsign x != fsign y)) ∧
    (isInf x = false → isInf y = true → fadd x y = y ∧ fsub x y = fneg y ∧
      fdiv x y = (if fsign x != fsign y then 0x80000000#32 else 0x00000000#32)) := by
  have hy' : isNaN (fneg y) = false := by rwa [isNaN_fneg]
  refine ⟨fun hix hiy => ⟨fadd_inf_inf hx hy hix hiy, ?_, fdiv_inf_inf hx hy hix hiy⟩,
    fun hix hiy => ⟨fadd_inf_left hx hy hix hiy, fadd_inf_left hx hy' hix (by rwa [isInf_fneg]),
      fdiv_inf_left hx hy hix hiy⟩,
    fun hix hiy => ⟨fadd_inf_right hx hy hix hiy, fadd_inf_right hx hy' hix (by rwa [isInf_fneg]), ?_⟩⟩
  · rw [fsub, fadd_inf_inf hx hy' hix (by rwa [isInf_fneg]), fsign_fneg]
    cases fsign x <;> cases fsign y <;> rfl
  · rw [fdiv_inf_right hx hy hix hiy]
    cases fsign x != fsign y <;> rfl

/-- Settles O58, by the branches of each operation; the comparisons follow from the strictly monotone scale. -/
theorem nanResultsAreCanonical : Obligations.NanResultsAreCanonical := by
  intro x y neg hneg
  rw [← fsign_eq_getLsbD, ← fsign_eq_getLsbD] at hneg
  subst hneg
  refine ⟨⟨fadd_canonical, fsub_canonical, fmul_canonical, fdiv_canonical, ffloor_canonical, fun h => ?_, fun h => ?_,
    rfl, rfl⟩, fun hx hy => ?_, comparisons_of_isNaN, fun hx hy =>
      ⟨flt_iff_wordValue hx hy, fle_iff_wordValue hx hy, feq_iff_wordValue hx hy⟩⟩
  · rw [fadd_of_isNaN h, fsub_of_isNaN h, fmul_of_isNaN h, fdiv_of_isNaN h]
    exact ⟨isNaN_qNaN, isNaN_qNaN, isNaN_qNaN, isNaN_qNaN⟩
  · rw [ffloor_of_isNaN h]
    exact isNaN_qNaN
  · obtain ⟨hinf, hleft, hright⟩ := results_of_infinities hx hy
    exact ⟨hinf, hleft, hright, fmul_inf hx hy, fdiv_zero hx hy, ffloor_inf_or_zero hx⟩

end Sys2Proof.Machine

/-! SUPPORT. What a command is made of (phase advances, samples, ladder steps, INIT and TEARDOWN), and what holds after
every command that each of these keeps. -/

namespace Sys2Proof.Machine

/-! ### Buffers that exist -/

theorem validBuf_iff (p : Params) (b : Nat) : validBuf p b = true ↔ bufferExists p b := by
  simp only [validBuf, bufferExists, Bool.or_eq_true, Bool.and_eq_true, decide_eq_true_eq, or_assoc]

theorem validBuf_of_le_five (p : Params) {b : Nat} (h : b ≤ 5) : validBuf p b = true := (validBuf_iff p b).2 (.inl h)

/-- The buffer of an LFO that exists is a buffer that exists (R57, R92). -/
theorem validBuf_lfoBuffer {p : Params} {l : LfoSel} (h : lfoExists p l) : validBuf p (lfoBuffer l) = true := by
  rcases l with ⟨v, j⟩ | ⟨f, j⟩
  · have hv : v.val < p.nVoice := h
    have hb : 16 + 4 * v.val ≤ lfoBuffer (.voice v j) ∧ lfoBuffer (.voice v j) ≤ 16 + 4 * v.val + 3 := by
      cases j <;> simp [lfoBuffer]
    exact (validBuf_iff p _).2 (.inr (.inr (by omega)))
  · have hb : 8 + 2 * f.val ≤ lfoBuffer (.filter f j) ∧ lfoBuffer (.filter f j) ≤ 8 + 2 * f.val + 1 := by
      cases j <;> (simp only [lfoBuffer]; omega)
    exact (validBuf_iff p _).2 (.inr (.inl (by omega)))

/-- A unit that resolves to an LFO names one that exists (R114, R116). -/
theorem lfoExists_of_lfoTarget {p : Params} {unit : BitVec 8} {sub : BitVec 4} {cls : Bool} {l : LfoSel}
    (h : lfoTarget p unit sub cls = some l) : lfoExists p l := by
  rcases l with ⟨v, j⟩ | ⟨f, j⟩
  · have ht : oscTarget p unit sub cls = some (.lfo (.voice v j)) := by
      unfold lfoTarget at h
      split at h
      · cases h; assumption
      · cases h
    unfold oscTarget at ht
    cases cls
    · obtain ⟨w, hw, hs⟩ := Option.bind_eq_some_iff.1 ht
      have hwv : w = v := by
        unfold voiceSub at hs
        split at hs <;> cases hs <;> rfl
      exact hwv ▸ ((voiceUnit_eq_some p unit w).1 hw).2
    · obtain ⟨g, -, hs⟩ := Option.bind_eq_some_iff.1 ht
      unfold filterSub at hs
      split at hs <;> cases hs
  · trivial

/-- The buffers a render writes exist (R196, R198). -/
def RenderFits (p : Params) (r : Render) : Prop :=
  validBuf p r.buf = true ∧ (r.mono = false → validBuf p (r.buf + 1) = true)

theorem renderFits_of_buffersOk {s : State} {mono ufm uam : Bool} (h : buffersOk s mono ufm uam = true) (o : OscSel)
    (wf : Waveform) (ovw : Bool) : RenderFits s.hw (oscRenderOf o wf ovw mono ufm uam s) := by
  simp only [buffersOk, Bool.and_eq_true, Bool.or_eq_true] at h
  obtain ⟨⟨⟨hbuf, hnext⟩, -⟩, -⟩ := h
  exact ⟨hbuf, fun hmono => hnext.resolve_left (Bool.eq_false_iff.1 hmono)⟩

theorem renderFits_voiceRenderOf (p : Params) (v : Fin 32) (pl : VoicePlan) (s : State) :
    RenderFits p (voiceRenderOf v pl s) := by
  have hbuf : groupBuf pl.group ≤ 4 := by cases pl.group <;> decide
  exact ⟨validBuf_of_le_five p (Nat.le_succ_of_le hbuf), fun _ => validBuf_of_le_five p (Nat.succ_le_succ hbuf)⟩

/-! ### What the loops leave alone -/

@[simp] theorem renderSample_hw (F : Prims) (r : Render) (n : Nat) (s : State) : (renderSample F r n s).hw = s.hw :=
  (congrArg State.hw (recordsMoved_renderSample F r n s)).trans rfl

@[simp] theorem blockLen_renderSample (F : Prims) (r : Render) (n : Nat) (s : State) :
    blockLen (renderSample F r n s) = blockLen s :=
  (congrArg blockLen (recordsMoved_renderSample F r n s)).trans rfl

@[simp] theorem render_hw (F : Prims) (r : Render) (s : State) : (render F r s).hw = s.hw :=
  forSamples_const State.hw _ s _ (renderSample_hw F r)

@[simp] theorem blockLen_render (F : Prims) (r : Render) (s : State) : blockLen (render F r s) = blockLen s :=
  forSamples_const blockLen _ s _ (blockLen_renderSample F r)

@[simp] theorem lfoRun_hw (F : Prims) (l : LfoSel) (wf : Waveform) (ufm : Bool) (s : State) :
    (lfoRun F l wf ufm s).hw = s.hw :=
  render_hw F _ s

@[simp] theorem blockLen_lfoRun (F : Prims) (l : LfoSel) (wf : Waveform) (ufm : Bool) (s : State) :
    blockLen (lfoRun F l wf ufm s) = blockLen s :=
  blockLen_render F _ s

@[simp] theorem lfoRunIf_hw (F : Prims) (l : LfoSel) (wf : Option Waveform) (ufm : Bool) (s : State) :
    (lfoRunIf F l wf ufm s).hw = s.hw := by
  cases wf with
  | none => rfl
  | some wf => exact lfoRun_hw F l wf ufm s

@[simp] theorem voiceRender_hw (F : Prims) (v : Fin 32) (pl : VoicePlan) (s : State) :
    (voiceRender F v pl s).hw = s.hw := by
  simp [voiceRender, voiceLfos]

theorem fadeSample_keeps {α : Type} (g : State → α) (hput : ∀ b n v s, g (writeBuf s b n v) = g s)
    (hpos : ∀ s w, g { s with fadePos := w } = g s) (n : Nat) (s : State) : g (fadeSample n s) = g s := by
  unfold fadeSample
  split
  · exact (hpos _ _).trans ((hput ..).trans (hput ..))
  · rfl

/-- A planned unit is one of those that were to be planned. -/
theorem fst_mem_of_mapM_eq_some {α β : Type} {f : α → Option β} {l : List α} {r : List (α × β)}
    (h : (l.mapM fun a => (f a).map fun b => (a, b)) = some r) : ∀ x ∈ r, x.1 ∈ l := by
  induction l generalizing r with
  | nil =>
    obtain rfl : [] = r := by simpa using h
    simp
  | cons a l ih =>
    simp only [List.mapM_cons, Option.pure_def, Option.bind_eq_bind, Option.bind_eq_some_iff, Option.map_eq_some_iff,
      Option.some.injEq] at h
    obtain ⟨_, ⟨b, -, rfl⟩, rest, hrest, rfl⟩ := h
    intro x hx
    rcases List.mem_cons.1 hx with rfl | hx
    · exact List.mem_cons_self
    · exact List.mem_cons_of_mem a (ih hrest x hx)

/-- The voices PROCESS_BLOCK has planned exist (R239). -/
theorem lt_nVoice_of_mem_planVoices {s : State} {vs : List (Fin 32 × VoicePlan)} (h : planVoices s = some vs) :
    ∀ x ∈ vs, x.1.val < s.hw.nVoice := by
  intro x hx
  have henabled := fst_mem_of_mapM_eq_some h x hx
  simp only [enabledVoices, List.mem_filter, Bool.and_eq_true, decide_eq_true_eq] at henabled
  obtain ⟨-, hexists, -⟩ := henabled
  exact hexists

/-! ### Effects -/

/-- `P` is kept by each of the parts that the effect of a command is made of. RESULT is apart: FILTER_STEP and OSC_NEXT
alone write it (R38). -/
structure EffectInvariant (P : State → Prop) : Prop where
  advance : ∀ (wf : Waveform) (o : OscSel) (fm : Option Word) (s : State), P s → P (oscAdvance wf o fm s)
  sample : ∀ (b n : Nat) (v : Word) (s : State), validBuf s.hw b = true → n < blockLen s → P s → P (writeBuf s b n v)
  ladder : ∀ (F : Prims) (f : Fin 4) (x m : Word) (s : State), P s →
    P (setFilter s f (ladderRecord F (getFilter s f) x m))
  bookkeeping : ∀ (s : State) (w : Written) (fadePos blockCount : Word), P s →
    P { s with written := w, fadePos := fadePos, blockCount := blockCount }
  init : ∀ s : State, isFinite s.arg0 = true → flt fZero s.arg0 = true → 1 ≤ s.arg1.toNat →
    s.arg1.toNat ≤ s.hw.blockMax → P s → P (initSession s)
  teardown : ∀ s : State, P s → P (teardownSession s)

/-- What each sample of a block keeps, the block keeps. -/
theorem forSamples_keeps {P : State → Prop} {body : Nat → State → State} {s : State}
    (hhw : ∀ n t, (body n t).hw = t.hw) (hlen : ∀ n t, blockLen (body n t) = blockLen t)
    (hbody : ∀ n t, t.hw = s.hw → n < blockLen t → P t → P (body n t)) (hs : P s) :
    P (forSamples (blockLen s) body s) := by
  have hloop := forSamples_induct (fun _ t => P t ∧ t.hw = s.hw ∧ blockLen t = blockLen s) body s (blockLen s)
    ⟨hs, rfl, rfl⟩ fun n t hn ⟨hP, hp, hN⟩ =>
      ⟨hbody n t hp (hN.symm ▸ hn) hP, (hhw n t).trans hp, (hlen n t).trans hN⟩
  exact hloop.1

namespace EffectInvariant

variable {P : State → Prop} (h : EffectInvariant P) {s : State} (hs : P s)
include h hs

theorem renderSample (F : Prims) {r : Render} (hfit : RenderFits s.hw r) {n : Nat} (hn : n < blockLen s) :
    P (renderSample F r n s) := by
  have hlen : blockLen (oscAdvance r.wf r.osc (renderFm r n s) s) = blockLen s := by simp [blockLen]
  have hfirst : ∀ v, P (putSample r.ovw r.buf n v (oscAdvance r.wf r.osc (renderFm r n s) s)) := fun v =>
    h.sample _ _ _ _ (by simpa using hfit.1) (hlen.symm ▸ hn) (h.advance _ _ _ _ hs)
  unfold Machine.renderSample
  split
  · exact hfirst _
  · next hmono => exact h.sample _ _ _ _ (by simpa using hfit.2 (Bool.eq_false_iff.2 hmono)) (hlen.symm ▸ hn) (hfirst _)

theorem render (F : Prims) {r : Render} (hfit : RenderFits s.hw r) : P (render F r s) :=
  forSamples_keeps (renderSample_hw F r) (blockLen_renderSample F r)
    (fun _ _ hp hn ht => h.renderSample ht F (hp ▸ hfit) hn) hs

theorem lfoRun (F : Prims) {l : LfoSel} (hl : lfoExists s.hw l) (wf : Waveform) (ufm : Bool) :
    P (lfoRun F l wf ufm s) :=
  h.render hs F ⟨validBuf_lfoBuffer hl, nofun⟩

theorem lfoRunIf (F : Prims) {l : LfoSel} (hl : lfoExists s.hw l) (wf : Option Waveform) (ufm : Bool) :
    P (lfoRunIf F l wf ufm s) := by
  cases wf with
  | none => exact hs
  | some wf => exact h.lfoRun hs F hl wf ufm

theorem voiceLfos (F : Prims) {v : Fin 32} (hv : v.val < s.hw.nVoice) (pl : VoicePlan) : P (voiceLfos F v pl s) := by
  have hrun : ∀ (j : VoiceLfo) (wf : Option Waveform) (ufm : Bool) (t : State), t.hw = s.hw → P t →
      P (Machine.lfoRunIf F (.voice v j) wf ufm t) := fun j wf ufm t ht hP =>
    h.lfoRunIf hP F (l := .voice v j) (show v.val < t.hw.nVoice from ht ▸ hv) wf ufm
  exact hrun _ _ _ _ (by simp) (hrun _ _ _ _ (by simp) (hrun _ _ _ _ (by simp) (hrun _ _ _ _ rfl hs)))

theorem voiceRender (F : Prims) {v : Fin 32} (hv : v.val < s.hw.nVoice) (pl : VoicePlan) :
    P (voiceRender F v pl s) :=
  h.bookkeeping _ _ _ _ (h.render (h.voiceLfos hs F hv pl) F (renderFits_voiceRenderOf _ v pl _))

theorem filterBlock (F : Prims) (f : Fin 4) (pl : FilterPlan) : P (filterBlock F f pl s) := by
  have hout : ∀ p, validBuf p (filterOut f) = true := fun p =>
    validBuf_of_le_five p (Nat.le_of_lt (Nat.lt_of_lt_of_le (Nat.mod_lt _ two_pos) (by decide)))
  have hlfos := h.lfoRun (h.lfoRun hs F (l := .filter f .metaCut) trivial pl.metaWf false) F (l := .filter f .cut)
    trivial pl.cutWf true
  have hsamples := forSamples_keeps (body := filterSample F f) (fun _ _ => rfl) (fun _ _ => rfl)
    (fun n t _ hn ht => h.sample _ n _ _ (hout _) hn (h.ladder F f _ _ t ht)) hlfos
  rwa [blockLen_lfoRun, blockLen_lfoRun] at hsamples

theorem fadeSample {n : Nat} (hn : n < blockLen s) : P (fadeSample n s) := by
  unfold Machine.fadeSample
  split
  · exact h.bookkeeping _ _ _ _ (h.sample _ _ _ _ (validBuf_of_le_five _ (by decide)) hn
      (h.sample _ _ _ _ (validBuf_of_le_five _ (by decide)) hn hs))
  · exact hs

theorem blockEnd : P (blockEnd s) :=
  h.bookkeeping _ _ _ _ (forSamples_keeps (body := Machine.fadeSample)
    (fadeSample_keeps State.hw (fun _ _ _ _ => rfl) fun _ _ => rfl)
    (fadeSample_keeps blockLen (fun _ _ _ _ => rfl) fun _ _ => rfl)
    (fun _ _ _ hn ht => h.fadeSample ht hn) hs)

theorem processBlock (F : Prims) {vs : List (Fin 32 × VoicePlan)} (hvs : ∀ x ∈ vs, x.1.val < s.hw.nVoice)
    (fs : List (Fin 4 × FilterPlan)) : P (processBlock F vs fs s) := by
  have hbegin : P (blockBegin s) := h.bookkeeping s _ _ _ hs
  have hvoices : P (renderVoices F vs (blockBegin s)) ∧ (renderVoices F vs (blockBegin s)).hw = s.hw :=
    List.foldlRecOn vs (fun t x => Machine.voiceRender F x.1 x.2 t) (motive := fun t => P t ∧ t.hw = s.hw)
      ⟨hbegin, rfl⟩ fun _ ⟨hP, ht⟩ x hx =>
        ⟨h.voiceRender hP F (ht ▸ hvs x hx) x.2, (voiceRender_hw ..).trans ht⟩
  exact h.blockEnd (List.foldlRecOn fs (fun t x => Machine.filterBlock F x.1 x.2 t) (motive := P) hvoices.1
    fun _ hP x _ => h.filterBlock hP F x.1 x.2)

end EffectInvariant

/-- FILTER_STEP and OSC_NEXT, the commands with a scalar result (R38). -/
def writesResult : Instr → Bool
  | .filterStep _ => true
  | .oscNext _ _ _ => true
  | _ => false

/-- What each part of a command's effect keeps, every command keeps, if it keeps it when it writes RESULT. -/
theorem EffectInvariant.tryCommand {P : State → Prop} (h : EffectInvariant P) {i : Instr} {s t : State}
    (hresult : writesResult i = true → ∀ (u : State) (w : Word), P u → P { u with result := w })
    (ht : tryCommand i s = .ok t) (hs : P s) : P t := by
  cases i with
  | nop => cases ht; exact hs
  | init =>
    obtain ⟨hfin, hpos, hlow, hhigh, rfl⟩ := (tryInit_ok s t).1 ht
    exact h.init s hfin hpos hlow hhigh hs
  | teardown => cases ht; exact h.teardown s hs
  | processBlock =>
    obtain ⟨-, vs, fs, hvs, -, rfl⟩ := (tryProcessBlock_ok _ s t).1 ht
    exact h.processBlock hs _ (lt_nVoice_of_mem_planVoices hvs) fs
  | blockBegin =>
    obtain ⟨-, rfl⟩ := (tryBlockBegin_ok s t).1 ht
    exact h.bookkeeping s _ _ _ hs
  | blockEnd =>
    obtain ⟨-, rfl⟩ := (tryBlockEnd_ok s t).1 ht
    exact h.blockEnd hs
  | voiceRender unit =>
    obtain ⟨-, v, pl, hv, -, rfl⟩ := (tryVoiceRender_ok _ unit s t).1 ht
    exact h.voiceRender hs _ ((voiceUnit_eq_some _ _ _).1 hv).2 pl
  | filterBlock unit =>
    obtain ⟨-, f, pl, -, -, rfl⟩ := (tryFilterBlock_ok _ unit s t).1 ht
    exact h.filterBlock hs _ f pl
  | filterStep unit =>
    obtain ⟨-, f, -, rfl⟩ := (tryFilterStep_ok _ unit s t).1 ht
    exact hresult rfl _ _ (h.ladder _ f _ _ s hs)
  | oscNext unit sub cls =>
    obtain ⟨-, o, wf, -, -, rfl⟩ := (tryOscNext_ok _ unit sub cls s t).1 ht
    exact hresult rfl _ _ (h.advance wf o _ s hs)
  | oscRender unit sub cls ovw mono ufm uam =>
    obtain ⟨-, hbuf, o, wf, -, -, rfl⟩ := (tryOscRender_ok _ unit sub cls ovw mono ufm uam s t).1 ht
    exact h.render hs _ (renderFits_of_buffersOk hbuf o wf ovw)
  | lfoProduce unit sub cls ufm =>
    obtain ⟨-, l, wf, hl, -, -, rfl⟩ := (tryLfoProduce_ok _ unit sub cls ufm s t).1 ht
    exact h.lfoRun hs _ (lfoExists_of_lfoTarget hl) wf ufm

end Sys2Proof.Machine

/-! SUPPORT. Invariants of the data of a state: the parameters, the session, the records and the sample RAM. What keeps
one of them at every step, said once. -/

namespace Sys2Proof.Machine

/-! ### The data of a state -/

/-- The two states hold the same parameters, session, records and sample RAM. -/
structure SameData (s t : State) : Prop where
  hw : t.hw = s.hw
  ready : t.ready = s.ready
  sampleRate : t.sampleRate = s.sampleRate
  blockSize : t.blockSize = s.blockSize
  filters : t.filters = s.filters
  voices : t.voices = s.voices
  ram : t.ram = s.ram

theorem SameData.trans {s t u : State} (h : SameData s t) (h' : SameData t u) : SameData s u :=
  ⟨h'.hw.trans h.hw, h'.ready.trans h.ready, h'.sampleRate.trans h.sampleRate, h'.blockSize.trans h.blockSize,
    h'.filters.trans h.filters, h'.voices.trans h.voices, h'.ram.trans h.ram⟩

theorem SameData.getOsc {s t : State} (h : SameData s t) (o : OscSel) : getOsc t o = getOsc s o :=
  getOsc_congr h.filters h.voices o

theorem sameData_raiseFault (c : FaultCode) (i : Word) (s : State) : SameData s (raiseFault c i s) := by
  constructor <;> simp

theorem sameData_commandFault (c : FaultCode) (i : Word) (s : State) : SameData s (commandFault c i s) := by
  constructor <;> simp

theorem sameData_enterPending (s : State) : SameData s (enterPending s) := by
  constructor <;> simp

theorem sameData_holdPending (c : FaultCode) (a : Addr) (s : State) : SameData s (holdPending c a s) := by
  constructor <;> simp

theorem sameData_issueCommand (w : Word) (s : State) : SameData s (issueCommand w s) := by
  constructor <;> simp

theorem sameData_writeStatus (v : Word) (s : State) : SameData s (writeStatus v s) := by
  constructor <;> simp

theorem sameData_countDown (s : State) : SameData s (countDown s) := by
  constructor <;> simp

theorem sameData_respond (st : PortStatus) (d : Word) (s : State) : SameData s (respond st d s) :=
  ⟨rfl, rfl, rfl, rfl, rfl, rfl, rfl⟩

/-- No global register is data: CTRL, STATUS, CMD, ARG0..ARG3 and FADE_LEN are the ones a write can change (R88). -/
theorem sameData_writeGlobal (r : GlobalReg) (v : Word) (s : State) : SameData s (writeGlobal r v s) := by
  cases r
  case status => exact sameData_writeStatus v s
  case cmd => exact sameData_issueCommand v s
  all_goals exact ⟨rfl, rfl, rfl, rfl, rfl, rfl, rfl⟩

theorem sameData_busyRefuse (a : Addr) (s : State) : SameData s (busyRefuse a s) :=
  (sameData_holdPending _ a s).trans (sameData_respond _ _ _)

theorem sameData_busRefuse (a : Addr) (s : State) : SameData s (busRefuse a s) :=
  (sameData_raiseFault _ _ s).trans (sameData_respond _ _ _)

theorem sameData_hostRead (a : Addr) (s : State) : SameData s (hostRead a s) := by
  obtain ⟨-, h⟩ | ⟨-, h⟩ | ⟨l, -, h⟩ := hostRead_cases a s <;> rw [h]
  · exact sameData_busyRefuse a s
  · exact sameData_busRefuse a s
  · exact sameData_respond _ _ s

/-- Everything a host event can do: nothing while the core is in reset, one port access, or a change of the reset input
(R85, R311). -/
theorem hostEvent_cases (e : HostEvent) (s : State) :
    hostEvent e s = s ∨ (∃ a, hostEvent e s = hostRead a s) ∨
    (∃ a v, s.resetPin = false ∧ hostEvent e s = hostWrite a v s) ∨ ∃ b, hostEvent e s = driveReset b s := by
  cases e with
  | reset b => exact .inr (.inr (.inr ⟨b, rfl⟩))
  | read a =>
    cases hpin : s.resetPin
    · exact .inr (.inl ⟨a, by simp [hostEvent, hpin]⟩)
    · exact .inl (by simp [hostEvent, hpin])
  | write a v =>
    cases hpin : s.resetPin
    · exact .inr (.inr (.inl ⟨a, v, rfl, by simp [hostEvent, hpin]⟩))
    · exact .inl (by simp [hostEvent, hpin])
  | wait =>
    cases hpin : s.resetPin
    · exact .inr (.inl ⟨0x000008#24, by simp [hostEvent, hpin]⟩)
    · exact .inl (by simp [hostEvent, hpin])

/-! ### Invariants of the data -/

/-- `P` speaks of the data alone, and the parts of the commands, the host's writes and a reset keep it. -/
structure DataInvariant (P : State → Prop) : Prop extends EffectInvariant P where
  respects : ∀ s t : State, SameData s t → P s → P t
  write : ∀ (s : State) (a : Addr) (l : Loc) (v : Word), hostLoc s.hw a = some l → (∀ r, l ≠ .global r) → P s →
    P (writeLoc l v s)
  reset : ∀ s : State, P s → P (hardReset s)

namespace DataInvariant

variable {P : State → Prop} (h : DataInvariant P) {s : State} (hs : P s)
include h hs

theorem hostWrite (a : Addr) (v : Word) : P (hostWrite a v s) := by
  obtain ⟨-, e⟩ | ⟨-, -, e⟩ | ⟨l, -, hl, e⟩ := hostWrite_cases a v s <;> rw [e]
  · exact h.respects _ _ (sameData_busyRefuse a s) hs
  · exact h.respects _ _ (sameData_busRefuse a s) hs
  · refine h.respects _ _ (sameData_respond _ _ _) ?_
    by_cases hg : ∃ r, l = .global r
    · obtain ⟨r, rfl⟩ := hg
      exact h.respects _ _ (sameData_writeGlobal r v s) hs
    · exact h.write s a l v hl (not_exists.1 hg) hs

theorem driveReset (b : Bool) : P (driveReset b s) := by
  unfold Machine.driveReset
  split
  · exact h.respects (hardReset s) _ ⟨rfl, rfl, rfl, rfl, rfl, rfl, rfl⟩ (h.reset s hs)
  · exact hs

theorem hostEvent (e : HostEvent) : P (hostEvent e s) := by
  obtain e' | ⟨a, e'⟩ | ⟨a, v, -, e'⟩ | ⟨b, e'⟩ := hostEvent_cases e s <;> rw [e']
  · exact hs
  · exact h.respects _ _ (sameData_hostRead a s) hs
  · exact h.hostWrite hs a v
  · exact h.driveReset hs b

theorem hostTurn : P (hostTurn s) := by
  obtain ⟨-, e⟩ | ⟨rest, -, -, e⟩ | ⟨e', rest, -, e⟩ := hostTurn_cases s <;> rw [e]
  · exact hs
  · exact h.respects _ _ (sameData_hostRead _ s) hs
  · have htaken : P { s with inbox := rest } := h.respects s _ ⟨rfl, rfl, rfl, rfl, rfl, rfl, rfl⟩ hs
    exact h.hostEvent htaken e'

theorem finish (w : Word) (i : Instr) : P (finish w s (Machine.tryCommand i s)) := by
  cases he : Machine.tryCommand i s with
  | error c => exact h.respects _ _ (sameData_commandFault c w s) hs
  | ok t =>
    have ht : P t := h.toEffectInvariant.tryCommand
      (fun _ u w => h.respects u { u with result := w } ⟨rfl, rfl, rfl, rfl, rfl, rfl, rfl⟩) he hs
    exact h.respects t _ ⟨rfl, rfl, rfl, rfl, rfl, rfl, rfl⟩ ht

omit hs in
/-- An invariant of the data is kept by every step. -/
theorem keptByStep : KeptByStep P := by
  intro s t hs hstep
  obtain ⟨-, rfl⟩ | ⟨c, -, -, rfl⟩ | ⟨c, i, -, -, -, rfl⟩ | ⟨c, e, -, -, -, rfl⟩ := step_cases s t hstep
  · exact h.hostTurn hs
  · exact h.respects _ _ (sameData_countDown _) (h.hostTurn hs)
  · exact h.respects _ _ (sameData_enterPending _) (h.finish hs _ i)
  · exact h.respects _ _ ((sameData_commandFault _ _ s).trans (sameData_enterPending _)) hs

end DataInvariant

end Sys2Proof.Machine

/-! SUPPORT. The invariants of the sample RAM and the session (R40, R73). -/

namespace Sys2Proof.Machine

/-- The two states hold the same parameters, session and sample RAM. -/
structure SameMemory (s t : State) : Prop where
  hw : t.hw = s.hw
  ready : t.ready = s.ready
  sampleRate : t.sampleRate = s.sampleRate
  blockSize : t.blockSize = s.blockSize
  ram : t.ram = s.ram

theorem SameData.sameMemory {s t : State} (h : SameData s t) : SameMemory s t :=
  ⟨h.hw, h.ready, h.sampleRate, h.blockSize, h.ram⟩

/-- `P` speaks of the parameters, the session and the sample RAM alone, and whatever changes those keeps it. -/
structure MemoryInvariant (P : State → Prop) : Prop where
  respects : ∀ s t : State, SameMemory s t → P s → P t
  sample : ∀ (b n : Nat) (v : Word) (s : State), validBuf s.hw b = true → n < blockLen s → P s → P (writeBuf s b n v)
  init : ∀ s : State, isFinite s.arg0 = true → flt fZero s.arg0 = true → 1 ≤ s.arg1.toNat →
    s.arg1.toNat ≤ s.hw.blockMax → P s → P (initSession s)
  teardown : ∀ s : State, P s → P (teardownSession s)
  write : ∀ (s : State) (a : Addr) (k : Nat) (v : Word), hostLoc s.hw a = some (.ram k) → P s →
    P { s with ram := writeWord s.ram k v }
  reset : ∀ s : State, P s → P (hardReset s)

/-- The records are no memory: a write to any of them leaves it alone. -/
theorem sameMemory_writeLoc {l : Loc} (hl : ∀ k, l ≠ .ram k) (v : Word) (s : State) :
    SameMemory s (writeLoc l v s) := by
  cases l with
  | global r => exact (sameData_writeGlobal r v s).sameMemory
  | filter f r => exact ⟨rfl, rfl, rfl, rfl, rfl⟩
  | voice i r => exact ⟨rfl, rfl, rfl, rfl, rfl⟩
  | osc t r => constructor <;> simp [writeLoc]
  | depth l => constructor <;> simp [writeLoc]
  | rom a => exact ⟨rfl, rfl, rfl, rfl, rfl⟩
  | ram a => exact absurd rfl (hl a)
  | reserved => exact ⟨rfl, rfl, rfl, rfl, rfl⟩

theorem MemoryInvariant.dataInvariant {P : State → Prop} (h : MemoryInvariant P) : DataInvariant P where
  advance wf o fm s := h.respects s _ (by constructor <;> simp)
  sample := h.sample
  ladder _ _ _ _ s := h.respects s _ ⟨rfl, rfl, rfl, rfl, rfl⟩
  bookkeeping s _ _ _ := h.respects s _ ⟨rfl, rfl, rfl, rfl, rfl⟩
  init := h.init
  teardown := h.teardown
  respects s t hst := h.respects s t hst.sameMemory
  write s a l v hl _ hs := by
    by_cases hram : ∃ k, l = .ram k
    · obtain ⟨k, rfl⟩ := hram
      exact h.write s a k v hl hs
    · exact h.respects s _ (sameMemory_writeLoc (not_exists.1 hram) v s) hs
  reset := h.reset

/-! ### The parameters (R46, R74) -/

theorem memoryInvariant_hw (p : Params) : MemoryInvariant fun s => s.hw = p where
  respects _ _ hst hs := hst.hw.trans hs
  sample _ _ _ _ _ _ hs := hs
  init _ _ _ _ _ hs := hs
  teardown _ hs := hs
  write _ _ _ _ _ hs := hs
  reset _ hs := hs

/-- Settles O29: being the parameters of the first state is an invariant of the data. -/
theorem parametersNeverChange : Obligations.ParametersNeverChange :=
  fun s t hstep => (memoryInvariant_hw s.hw).dataInvariant.keptByStep s t rfl hstep

/-! ### The canonical form (R73, log entry 7) -/

theorem memoryInvariant_ramCanonical : MemoryInvariant RamCanonical where
  respects _ _ hst hs := (congrArg memoryWf hst.ram).trans hs
  sample _ _ v s _ _ hs := memoryWf_writeWord s.ram _ v hs
  init _ _ _ _ _ _ := rfl
  teardown _ _ := rfl
  write s _ k v _ hs := memoryWf_writeWord s.ram k v hs
  reset _ _ := rfl

/-- Settles O30: every word write keeps the canonical form, and INIT, TEARDOWN and reset empty the list. -/
theorem ramCanonicalIsKept : Obligations.RamCanonicalIsKept := memoryInvariant_ramCanonical.dataInvariant.keptByStep

/-! ### The words that exist (R40, R73, R92) -/

theorem blockMax_le_of_paramsLegal {p : Params} (h : paramsLegal p = true) : p.blockMax ≤ 4096 := by
  simp only [paramsLegal, Bool.and_eq_true, decide_eq_true_eq] at h
  omega

/-- The four bytes of a word of a buffer's first BLOCK_MAX are mapped. -/
theorem ramByteMapped_of_word {p : Params} (hmax : p.blockMax ≤ 4096) {b n : Nat} (hb : validBuf p b = true)
    (hn : n < p.blockMax) {x : Nat} (hx : bufAddr b n ≤ x ∧ x < bufAddr b n + 4) : ramByteMapped p x = true := by
  unfold bufAddr at hx
  have hbuf : (x - 0x100000) / 0x4000 = b := by omega
  have hword : (x - 0x100000) % 0x4000 / 4 = n := by omega
  simp [ramByteMapped, hbuf, hword, hb, hn, show 0x100000 ≤ x by omega]

theorem locateGlobal_ne_ram (w k : Nat) : locateGlobal w ≠ .ram k := by
  unfold locateGlobal
  split <;> exact nofun

theorem locateOsc_ne_ram (t : OscSel) (w k : Nat) : locateOsc t w ≠ .ram k := by
  unfold locateOsc
  split <;> exact nofun

theorem locateLfo_ne_ram (l : LfoSel) (w k : Nat) : locateLfo l w ≠ .ram k := by
  unfold locateLfo
  split_ifs
  · exact locateOsc_ne_ram _ w k
  all_goals exact nofun

theorem locateFilter_ne_ram (f : Fin 4) (w k : Nat) : locateFilter f w ≠ .ram k := by
  unfold locateFilter
  split_ifs
  · unfold locateFilterReg
    split <;> exact nofun
  · exact locateLfo_ne_ram _ _ k
  · exact locateLfo_ne_ram _ _ k
  · exact nofun

theorem locateVoice_ne_ram (v : Fin 32) (w k : Nat) : locateVoice v w ≠ .ram k := by
  unfold locateVoice
  split_ifs
  case pos => exact nofun
  case pos => exact nofun
  case pos => exact nofun
  case pos => exact nofun
  case pos => exact locateOsc_ne_ram _ _ k
  case neg => exact nofun
  all_goals exact locateLfo_ne_ram _ _ k

/-- A sample RAM location is an aligned address of a word below BLOCK_MAX of a buffer that exists (R92). -/
theorem hostLoc_eq_ram {p : Params} {a : Addr} {k : Nat} (h : hostLoc p a = some (.ram k)) :
    k % 4 = 0 ∧ 0x100000 ≤ k ∧ validBuf p ((k - 0x100000) / 0x4000) = true ∧
      (k - 0x100000) % 0x4000 / 4 < p.blockMax := by
  unfold hostLoc at h
  split_ifs at h with halign
  unfold locate at h
  split_ifs at h with h1 h2 h3 h4 h5 h6
  · exact absurd (Option.some.inj h) (locateGlobal_ne_ram _ k)
  · exact absurd (Option.some.inj h) (locateFilter_ne_ram _ _ k)
  · exact absurd (Option.some.inj h) (locateVoice_ne_ram _ _ k)
  · unfold locateRom at h
    split_ifs at h <;> cases h
  · unfold locateRam at h
    split_ifs at h with hbuf hword
    · obtain rfl : a.toNat = k := by simpa using h
      exact ⟨halign, h6.1, hbuf, hword⟩
    · cases h

theorem memoryInvariant_ramMapped : MemoryInvariant RamMapped where
  respects s t hst := by
    rintro ⟨⟨hlegal, hsize, hsession⟩, hram⟩
    refine ⟨⟨hst.hw ▸ hlegal, by rwa [hst.blockSize, hst.hw], ?_⟩, ?_⟩
    · rwa [hst.ready, hst.blockSize, hst.sampleRate]
    · rwa [hst.ram, hst.hw]
  sample b n v s hb hn := by
    rintro ⟨⟨hlegal, hsize, hsession⟩, hram⟩
    refine ⟨⟨hlegal, hsize, hsession⟩, fun c hc => ?_⟩
    rcases mem_writeWord s.ram _ v c hc with hnew | hold
    · exact ramByteMapped_of_word (blockMax_le_of_paramsLegal hlegal) hb (Nat.lt_of_lt_of_le hn hsize) hnew
    · exact hram c hold
  init s hfin hpos hlow hhigh := fun ⟨⟨hlegal, _, _⟩, _⟩ => ⟨⟨hlegal, hhigh, fun _ => ⟨hlow, hfin, hpos⟩⟩, nofun⟩
  teardown s := fun ⟨⟨hlegal, hsize, _⟩, _⟩ => ⟨⟨hlegal, hsize, nofun⟩, nofun⟩
  write s a k v hk := by
    rintro ⟨⟨hlegal, hsize, hsession⟩, hram⟩
    refine ⟨⟨hlegal, hsize, hsession⟩, fun c hc => ?_⟩
    rcases mem_writeWord s.ram _ v c hc with hnew | hold
    · obtain ⟨halign, hlow, hbuf, hword⟩ := hostLoc_eq_ram hk
      refine ramByteMapped_of_word (blockMax_le_of_paramsLegal hlegal) hbuf hword ?_
      unfold bufAddr
      omega
    · exact hram c hold
  reset s := fun ⟨⟨hlegal, _, _⟩, _⟩ => ⟨⟨hlegal, Nat.zero_le _, nofun⟩, nofun⟩

/-- Settles O33: the commands write words below BLOCK_SIZE, the host words below BLOCK_MAX, of buffers that exist, and
INIT checks the session's registers. -/
theorem ramStaysMapped : Obligations.RamStaysMapped := memoryInvariant_ramMapped.dataInvariant.keptByStep

end Sys2Proof.Machine

/-! SUPPORT. The invariants of the records (R53, R54, R55, R67). -/

namespace Sys2Proof.Machine

/-! ### What is left of the oscillators when a record is replaced -/

theorem getLfo_setFilter_of_lfos {s : State} {f : Fin 4} {R : Filter}
    (h : ∀ j, filterLfo R j = filterLfo (getFilter s f) j) (l : LfoSel) : getLfo (setFilter s f R) l = getLfo s l := by
  rcases l with ⟨v, j⟩ | ⟨g, j⟩
  · rfl
  · by_cases hg : g = f
    · subst hg
      simp [getLfo, h]
    · simp [getLfo, getFilter_setFilter_ne _ _ _ _ hg]

theorem getOsc_setFilter_of_lfos {s : State} {f : Fin 4} {R : Filter}
    (h : ∀ j, filterLfo R j = filterLfo (getFilter s f) j) (t : OscSel) : getOsc (setFilter s f R) t = getOsc s t := by
  cases t with
  | voice v => rfl
  | lfo l => exact congrArg Lfo.osc (getLfo_setFilter_of_lfos h l)

theorem getLfo_setVoice_of_lfos {s : State} {i : Fin 32} {V : Voice}
    (h : ∀ j, voiceLfo V j = voiceLfo (getVoice s i) j) (l : LfoSel) : getLfo (setVoice s i V) l = getLfo s l := by
  rcases l with ⟨v, j⟩ | ⟨g, j⟩
  · by_cases hv : v = i
    · subst hv
      simp [getLfo, h]
    · simp [getLfo, getVoice_setVoice_ne _ _ _ _ hv]
  · rfl

theorem getOsc_setVoice_of_osc {s : State} {i : Fin 32} {V : Voice} (h : V.osc = (getVoice s i).osc) (v : Fin 32) :
    getOsc (setVoice s i V) (.voice v) = getOsc s (.voice v) := by
  by_cases hv : v = i
  · subst hv
    simp [getOsc, h]
  · simp [getOsc, getVoice_setVoice_ne _ _ _ _ hv]

theorem getOsc_setVoice_of_oscs {s : State} {i : Fin 32} {V : Voice} (hosc : V.osc = (getVoice s i).osc)
    (hlfo : ∀ j, voiceLfo V j = voiceLfo (getVoice s i) j) (t : OscSel) : getOsc (setVoice s i V) t = getOsc s t := by
  cases t with
  | voice v => exact getOsc_setVoice_of_osc hosc v
  | lfo l => exact congrArg Lfo.osc (getLfo_setVoice_of_lfos hlfo l)

/-- STEP leaves the filter's LFOs alone (R141). -/
theorem filterLfo_ladderRecord (F : Prims) (R : Filter) (x m : Word) (j : FilterLfo) :
    filterLfo (ladderRecord F R x m) j = filterLfo R j := by
  cases j <;> rfl

theorem filterLfo_writeFilter (r : FilterReg) (v : Word) (R : Filter) (j : FilterLfo) :
    filterLfo (writeFilter r v R) j = filterLfo R j := by
  cases j <;> cases r <;> rfl

theorem voiceLfo_writeVoice (r : VoiceReg) (v : Word) (V : Voice) (j : VoiceLfo) :
    voiceLfo (writeVoice r v V) j = voiceLfo V j := by
  cases j <;> cases r <;> rfl

theorem osc_writeVoice (r : VoiceReg) (v : Word) (V : Voice) : (writeVoice r v V).osc = V.osc := by
  cases r <;> rfl

/-- A write of DEPTH leaves every oscillator alone (R56). -/
theorem getOsc_setLfo_of_osc {s : State} {l : LfoSel} {r : Lfo} (h : r.osc = (getLfo s l).osc) (t : OscSel) :
    getOsc (setLfo s l r) t = getOsc s t := by
  rcases t with v | k
  · rcases l with ⟨w, j⟩ | ⟨f, j⟩
    · exact getOsc_setVoice_of_osc (setVoiceLfo_osc _ j r) v
    · rfl
  · by_cases hk : k = l
    · rw [hk]
      exact (congrArg Lfo.osc (getLfo_setLfo_same s l r)).trans h
    · exact congrArg Lfo.osc (getLfo_setLfo_ne s l k r hk)

/-! ### INIT, TEARDOWN and reset on the records -/

theorem getFilter_initSession (s : State) (f : Fin 4) :
    getFilter (initSession s) f = initFilter s.arg0 (getFilter s f) := by
  simp [getFilter, initSession]

theorem getVoice_initSession (s : State) (v : Fin 32) : getVoice (initSession s) v =
    if v.val < s.hw.nVoice then initVoice s.arg0 (getVoice s v) else getVoice s v := by
  simp [getVoice, initSession]

/-- INIT restarts an oscillator, or leaves it alone where its voice does not exist (R232, log entry 12). -/
theorem getOsc_initSession (s : State) (t : OscSel) :
    getOsc (initSession s) t = initOsc s.arg0 (getOsc s t) ∨ getOsc (initSession s) t = getOsc s t := by
  rcases t with v | ⟨v, j⟩ | ⟨f, j⟩
  · simp only [getOsc, getVoice_initSession]
    split
    · exact .inl rfl
    · exact .inr rfl
  · simp only [getOsc, getLfo, getVoice_initSession]
    split
    · exact .inl (by cases j <;> rfl)
    · exact .inr rfl
  · simp only [getOsc, getLfo, getFilter_initSession]
    exact .inl (by cases j <;> rfl)

theorem getFilter_teardownSession (s : State) (f : Fin 4) :
    getFilter (teardownSession s) f = teardownFilter (getFilter s f) := by
  simp [getFilter, teardownSession]

theorem getOsc_teardownSession (s : State) (t : OscSel) : getOsc (teardownSession s) t = getOsc s t := by
  rcases t with v | ⟨v, j⟩ | ⟨f, j⟩
  · rfl
  · rfl
  · simp only [getOsc, getLfo, getFilter_teardownSession]
    cases j <;> rfl

theorem getOsc_hardReset (s : State) (t : OscSel) : getOsc (hardReset s) t = Osc.reset :=
  (getOsc_congr rfl rfl t).trans (getOsc_reset t)

theorem getFilter_hardReset (s : State) (f : Fin 4) : getFilter (hardReset s) f = Filter.reset :=
  (getFilter_congr rfl f).trans (getFilter_reset f)

/-! ### Invariants of every oscillator -/

/-- Every oscillator of the core meets `Q`, under the core's parameters. -/
def EveryOsc (Q : Params → Osc → Prop) (s : State) : Prop := ∀ t : OscSel, Q s.hw (getOsc s t)

/-- A phase advance, INIT and a register write keep `Q`, and it holds right after reset. -/
structure OscInvariant (Q : Params → Osc → Prop) : Prop where
  advance : ∀ (p : Params) (fm : Option Word) (o : Osc), Q p o → Q p (advance fm o)
  init : ∀ (p : Params) (sr : Word) (o : Osc), Q p o → Q p (initOsc sr o)
  write : ∀ (p : Params) (r : OscReg) (v : Word) (o : Osc), Q p o → Q p (writeOsc p r v o)
  reset : ∀ (p : Params) (o : Osc), Q p o → Q p Osc.reset

theorem EveryOsc.congr {Q : Params → Osc → Prop} {s t : State} (h : EveryOsc Q s) (hhw : t.hw = s.hw)
    (hosc : ∀ u, getOsc t u = getOsc s u) : EveryOsc Q t :=
  fun u => hhw ▸ hosc u ▸ h u

theorem EveryOsc.setOsc {Q : Params → Osc → Prop} {s : State} {o : OscSel} {x : Osc} (h : EveryOsc Q s)
    (hx : Q s.hw x) : EveryOsc Q (Machine.setOsc s o x) := by
  intro u
  rw [setOsc_hw]
  by_cases hu : u = o
  · rwa [hu, getOsc_setOsc_same]
  · rw [getOsc_setOsc_ne s o u x hu]
    exact h u

theorem OscInvariant.dataInvariant {Q : Params → Osc → Prop} (h : OscInvariant Q) : DataInvariant (EveryOsc Q) where
  respects s t hst hs := hs.congr hst.hw hst.getOsc
  advance wf o fm s hs :=
    (hs.setOsc (h.advance _ fm _ (hs o))).congr rfl (getOsc_congr rfl rfl)
  sample b n v s _ _ hs := hs.congr rfl (getOsc_writeBuf s b n v)
  ladder F f x m s hs := hs.congr rfl (getOsc_setFilter_of_lfos (filterLfo_ladderRecord F _ x m))
  bookkeeping s _ _ _ hs := hs.congr rfl (getOsc_congr rfl rfl)
  init s _ _ _ _ hs u := by
    rcases getOsc_initSession s u with e | e <;> rw [e]
    · exact h.init _ _ _ (hs u)
    · exact hs u
  teardown s hs := hs.congr rfl (getOsc_teardownSession s)
  write s a l v _ hl hs := by
    cases l with
    | global r => exact absurd rfl (hl r)
    | filter f r => exact hs.congr rfl (getOsc_setFilter_of_lfos (filterLfo_writeFilter r v _))
    | voice i r => exact hs.congr rfl (getOsc_setVoice_of_oscs (osc_writeVoice r v _) (voiceLfo_writeVoice r v _))
    | osc t r => exact hs.setOsc (h.write _ r v _ (hs t))
    | depth l => exact hs.congr (setLfo_hw s l _) (getOsc_setLfo_of_osc rfl)
    | rom a => exact hs
    | ram a => exact hs.congr rfl (getOsc_congr rfl rfl)
    | reserved => exact hs
  reset s hs u := by
    rw [getOsc_hardReset]
    exact h.reset _ _ (hs u)

end Sys2Proof.Machine

/-! The obligations about the records: phases, octaves and iteration caps (R53, R54, R67). -/

namespace Sys2Proof.Machine

/-! ### WRAP lands in [0, 1) (R191) -/

theorem inUnitInterval_fpack {m : Nat} (hm : m < 0x3F800000) : inUnitInterval (fpack false m) = true := by
  have hmag : (fpack false m).toNat = m := toNat_fpack false (by omega)
  rw [inUnitInterval, hmag]
  exact decide_eq_true hm

/-- The floor of a negative value is negative; that of -0 is -0 (R13). -/
theorem fsign_ffloor_of_negative {v : Word} (hv : isFinite v = true) (hs : fsign v = true) :
    fsign (ffloor v) = true := by
  obtain ⟨hnan, hinf⟩ := not_isNaN_not_isInf_of_isFinite hv
  by_cases hz : isZero v = true
  · rw [ffloor_inf_or_zero hnan (.inr hz), hs]
  · have hunits : wordUnits v ≠ 0 := mt (isZero_iff_wordUnits v).2 hz
    have hneg : wordValue v < 0 := by
      rw [wordValue, ← fsign_eq_getLsbD, hs, if_pos rfl]
      omega
    have hfloor : wordValue (ffloor v) < 0 := by
      rw [(ffloor_finite hv).2]
      omega
    by_contra hpos
    rw [wordValue, ← fsign_eq_getLsbD, if_neg hpos] at hfloor
    omega

/-- `v - FLOOR(v)` is a magnitude without sign: the fractional part, and +0 for an integer, -0 among them (R191). -/
theorem exists_fsub_ffloor {v : Word} (hv : isFinite v = true) : ∃ m ≤ infMag, fsub v (ffloor v) = fpack false m := by
  obtain ⟨hfin, hval⟩ := ffloor_finite hv
  have hsum : wordValue v + wordValue (fneg (ffloor v)) = wordValue v % 2 ^ 149 := by
    rw [wordValue_fneg, hval]
    omega
  rw [fsub, fadd_finite hv (by rwa [isFinite_fneg]), hsum]
  split
  · refine ⟨0, Nat.zero_le _, ?_⟩
    rw [← fsign_eq_getLsbD, ← fsign_eq_getLsbD, fsign_fneg]
    cases hs : fsign v with
    | false => rfl
    | true => rw [fsign_ffloor_of_negative hv hs]; rfl
  · have hpos : ¬ wordValue v % 2 ^ 149 < 0 := by omega
    exact ⟨_, roundMag_le_infMag _ _, by rw [decide_eq_false hpos]⟩

theorem inUnitInterval_wrap (v : Word) : inUnitInterval (wrap v) = true := by
  unfold wrap
  split
  · decide
  · next hclass =>
    have hv : isFinite v = true := by
      simp only [isNaN, isInf, Bool.or_eq_true, decide_eq_true_eq, not_or] at hclass
      exact decide_eq_true (by omega)
    split
    · decide
    · next hbelow =>
      obtain ⟨m, hm, e⟩ := exists_fsub_ffloor hv
      rw [e] at hbelow ⊢
      refine inUnitInterval_fpack ?_
      have hlt := hm.trans_lt infMag_lt_two_pow
      have hone : fkey fOne = 0x3F800000 := rfl
      have hkey : fkey (fpack false m) = m := by
        rw [fkey, fsign_fpack false hlt, fmag_fpack false hlt]
        rfl
      have hnum : isNaN fOne = false := by decide
      simpa [fle, hnum, isNaN_fpack false hm, hone, hkey] using hbelow

theorem inUnitInterval_zero : inUnitInterval fZero = true := by decide

theorem oscInvariant_inUnitInterval : OscInvariant fun _ o => inUnitInterval o.phase = true where
  advance _ _ _ _ := inUnitInterval_wrap _
  init _ _ _ _ := inUnitInterval_zero
  write _ r v o ho := by
    cases r
    case phase => exact inUnitInterval_wrap v
    all_goals exact ho
  reset _ _ _ := inUnitInterval_zero

/-- Settles O31: a PHASE is only ever set to a wrapped value or to +0. -/
theorem phasesStayWrapped : Obligations.PhasesStayWrapped := oscInvariant_inUnitInterval.dataInvariant.keptByStep

/-! ### The octave of FREQ +0 (R192) -/

theorem roundMag_pos {num den : Nat} (hden : 0 < den) (hle : den ≤ num) : 0 < roundMag num den := by
  obtain ⟨m, ⟨-, hhigh⟩, hup, hdown⟩ := roundMag_between_neighbours num hden
  have hm : 0 < m := by
    by_contra hzero
    obtain rfl : m = 0 := by omega
    have hone : magUnits (0 + 1) = 1 := rfl
    rw [hone] at hhigh
    omega
  have hinf : 0 < infMag := by decide
  by_cases h : RoundsUp num den m
  · rw [hup h]
    omega
  · rw [hdown h]
    omega

/-- Twice a finite positive value is positive: it does not round to zero. -/
theorem flt_zero_fmul_two {base : Word} (hfin : isFinite base = true) (hpos : flt fZero base = true) :
    flt fZero (fmul base (fofNat 2)) = true := by
  have hsign : base.getLsbD 31 = false ∧ 0 < wordUnits base := by
    have hval := (flt_iff_wordValue (by decide) (not_isNaN_not_isInf_of_isFinite hfin).1).1 hpos
    have hzero : wordValue fZero = 0 := by decide
    rw [hzero, wordValue] at hval
    split at hval
    · omega
    · next hs => exact ⟨Bool.eq_false_iff.2 hs, by omega⟩
  have htwo : fofNat 2 = 0x40000000#32 := by decide
  have hunits : wordUnits 0x40000000#32 = 2 ^ 150 := by decide
  rw [htwo, fmul_finite hfin (by decide), hunits, hsign.1]
  have hmag : 0 < roundMag (wordUnits base * 2 ^ 150) (2 ^ 149) := roundMag_pos (by positivity) (by omega)
  have hlt := (roundMag_le_infMag (wordUnits base * 2 ^ 150) (2 ^ 149)).trans_lt infMag_lt_two_pow
  have hfalse : (false != (0x40000000#32 : Word).getLsbD 31) = false := by decide
  have hnum : isNaN fZero = false := by decide
  have hkey : fkey fZero = 0 := by decide
  rw [hfalse, flt, hkey, hnum, isNaN_fpack_roundMag, fkey, fsign_fpack _ hlt, fmag_fpack _ hlt]
  simpa using hmag

theorem wtBase_pos_of_paramsLegal {p : Params} (h : paramsLegal p = true) :
    isFinite p.wtBase = true ∧ flt fZero p.wtBase = true := by
  simp only [paramsLegal, Bool.and_eq_true] at h
  obtain ⟨⟨⟨-, hfin⟩, hpos⟩, -⟩ := h
  exact ⟨hfin, hpos⟩

/-- The octave of an oscillator right after reset is the one selected for its FREQ +0 (R79, R192). -/
theorem octSel_zero {p : Params} (h : paramsLegal p = true) : octSel p fZero = 0 := by
  obtain ⟨hfin, hpos⟩ := wtBase_pos_of_paramsLegal h
  unfold octSel
  cases p.wtNoct - 1 with
  | zero => rfl
  | succ k => exact if_pos (flt_zero_fmul_two hfin hpos)

theorem oscInvariant_octSel :
    OscInvariant fun p o => paramsLegal p = true ∧ o.oct = BitVec.ofNat 4 (octSel p o.freq) where
  advance _ _ _ ho := ho
  init _ _ _ ho := ho
  write _ r v o ho := by
    cases r
    case freq => exact ⟨ho.1, rfl⟩
    all_goals exact ho
  reset p _ ho := ⟨ho.1, (congrArg (BitVec.ofNat 4) (octSel_zero ho.1)).symm⟩

theorem octavesFollowFreq_iff (s : State) : OctavesFollowFreq s ↔
    EveryOsc (fun p o => paramsLegal p = true ∧ o.oct = BitVec.ofNat 4 (octSel p o.freq)) s :=
  ⟨fun ⟨hlegal, hoct⟩ t => ⟨hlegal, hoct t⟩, fun h => ⟨(h (.voice 0)).1, fun t => (h t).2⟩⟩

/-- Settles O32: a FREQ write sets OCT with it, and nothing else sets either; after reset both are 0, the octave of
FREQ +0. -/
theorem octavesKeepFollowingFreq : Obligations.OctavesKeepFollowingFreq := fun s t hs hstep =>
  (octavesFollowFreq_iff t).2
    (oscInvariant_octSel.dataInvariant.keptByStep s t ((octavesFollowFreq_iff s).1 hs) hstep)

/-! ### Iteration caps (R67) -/

theorem maxitOf_ne_zero (v : Word) : maxitOf v ≠ 0 := by
  unfold maxitOf
  split
  · decide
  · assumption

theorem maxit_setFilterLfo (R : Filter) (j : FilterLfo) (l : Lfo) : (setFilterLfo R j l).maxit = R.maxit := by
  cases j <;> rfl

theorem CapsPositive.setFilter {s : State} (h : CapsPositive s) (f : Fin 4) {R : Filter} (hR : R.maxit ≠ 0) :
    CapsPositive (setFilter s f R) := by
  intro g
  by_cases hg : g = f
  · rwa [hg, getFilter_setFilter_same]
  · rw [getFilter_setFilter_ne s f g R hg]
    exact h g

theorem CapsPositive.setLfo {s : State} (h : CapsPositive s) (l : LfoSel) (r : Lfo) : CapsPositive (setLfo s l r) := by
  rcases l with ⟨v, j⟩ | ⟨f, j⟩
  · exact h
  · exact h.setFilter f ((maxit_setFilterLfo _ j r).symm ▸ h f)

theorem CapsPositive.setOsc {s : State} (h : CapsPositive s) (t : OscSel) (o : Osc) : CapsPositive (setOsc s t o) := by
  cases t with
  | voice v => exact h
  | lfo l => exact h.setLfo l _

theorem maxit_writeFilter_ne_zero (r : FilterReg) (v : Word) {R : Filter} (h : R.maxit ≠ 0) :
    (writeFilter r v R).maxit ≠ 0 := by
  cases r
  case maxit => exact maxitOf_ne_zero v
  all_goals exact h

theorem dataInvariant_capsPositive : DataInvariant CapsPositive where
  respects s t hst hs f := by
    rw [getFilter_congr hst.filters]
    exact hs f
  advance wf o fm s hs := CapsPositive.setOsc hs o _
  sample _ _ _ _ _ _ hs := hs
  ladder _ f _ _ _ hs := hs.setFilter f (hs f)
  bookkeeping _ _ _ _ hs := hs
  init s _ _ _ _ hs f := by
    rw [getFilter_initSession]
    exact hs f
  teardown s hs f := by
    rw [getFilter_teardownSession]
    exact hs f
  write s a l v _ hl hs := by
    cases l with
    | global r => exact absurd rfl (hl r)
    | filter f r => exact hs.setFilter f (maxit_writeFilter_ne_zero r v (hs f))
    | voice i r => exact hs
    | osc t r => exact hs.setOsc t _
    | depth l => exact hs.setLfo l _
    | rom a => exact hs
    | ram a => exact hs
    | reserved => exact hs
  reset s _ f := by
    rw [getFilter_hardReset]
    decide

/-- Settles O34: only a MAXIT write sets an iteration cap, and it stores a written 0 as 1. -/
theorem capsStayPositive : Obligations.CapsStayPositive := dataInvariant_capsPositive.keptByStep

end Sys2Proof.Machine

/-! The obligations about the fault record and RESULT (R38, R279, R281, R286). -/

namespace Sys2Proof.Machine

/-! ### Commands leave the fault record alone -/

/-- The two states hold the same fault record, PEND and reset input. -/
structure SameFaultRecord (s t : State) : Prop where
  fault : t.fault = s.fault
  faultCode : t.faultCode = s.faultCode
  faultInfo : t.faultInfo = s.faultInfo
  pend : t.pend = s.pend
  resetPin : t.resetPin = s.resetPin

/-- An update that leaves all five fields alone passes the comparison on. -/
theorem SameFaultRecord.trans {s t u : State} (h : SameFaultRecord s t) (h' : SameFaultRecord t u) :
    SameFaultRecord s u :=
  ⟨h'.fault.trans h.fault, h'.faultCode.trans h.faultCode, h'.faultInfo.trans h.faultInfo, h'.pend.trans h.pend,
    h'.resetPin.trans h.resetPin⟩

theorem effectInvariant_sameFaultRecord (s : State) : EffectInvariant (SameFaultRecord s) where
  advance _ _ _ _ h := h.trans (by constructor <;> simp)
  sample _ _ _ _ _ _ h := h.trans ⟨rfl, rfl, rfl, rfl, rfl⟩
  ladder _ _ _ _ _ h := h.trans ⟨rfl, rfl, rfl, rfl, rfl⟩
  bookkeeping t _ _ _ h := h.trans (t := t) ⟨rfl, rfl, rfl, rfl, rfl⟩
  init _ _ _ _ _ h := h.trans ⟨rfl, rfl, rfl, rfl, rfl⟩
  teardown _ h := h.trans ⟨rfl, rfl, rfl, rfl, rfl⟩

theorem sameFaultRecord_of_tryCommand {i : Instr} {s t : State} (h : tryCommand i s = .ok t) : SameFaultRecord s t :=
  (effectInvariant_sameFaultRecord s).tryCommand (fun _ u w h => h.trans (t := u) (u := { u with result := w })
    ⟨rfl, rfl, rfl, rfl, rfl⟩) h ⟨rfl, rfl, rfl, rfl, rfl⟩

/-- A command that faults names one of the codes of R271: every branch of its checks ends with a code other than NONE,
or with the effect. -/
theorem ne_none_of_tryCommand_error {i : Instr} {s : State} {c : FaultCode} (h : tryCommand i s = .error c) :
    c ≠ .none := by
  cases i
  all_goals
    simp only [tryCommand, tryInit, tryProcessBlock, tryBlockBegin, tryBlockEnd, tryVoiceRender, tryFilterBlock,
      tryFilterStep, tryOscNext, tryOscRender, tryLfoProduce] at h
    repeat' split at h
  all_goals cases h
  all_goals decide

/-! ### The host port and the fault record -/

theorem sameFaultRecord_writeLoc (l : Loc) (v : Word) (s : State) : SameFaultRecord s (writeLoc l v s) := by
  cases l with
  | global r =>
    cases r
    case status => constructor <;> simp [writeLoc, writeGlobal]
    case cmd => constructor <;> simp [writeLoc, writeGlobal]
    all_goals exact ⟨rfl, rfl, rfl, rfl, rfl⟩
  | osc t r => constructor <;> simp [writeLoc]
  | depth l => constructor <;> simp [writeLoc]
  | _ => exact ⟨rfl, rfl, rfl, rfl, rfl⟩

/-- Only a CMD write brings a command into flight (R113). -/
theorem inFlight_writeLoc {l : Loc} (h : l ≠ .global .cmd) (v : Word) (s : State) :
    (writeLoc l v s).inFlight = s.inFlight := by
  cases l with
  | global r =>
    cases r
    case status => exact writeStatus_inFlight v s
    case cmd => exact absurd rfl h
    all_goals rfl
  | osc t r => exact setOsc_inFlight s t _
  | depth l => exact setLfo_inFlight s l _
  | _ => rfl

/-- While a command is in flight a read is refused, or it is of ID or STATUS and answered (R101). -/
theorem hostRead_of_busy {a : Addr} {s : State} (h : busy s = true) :
    hostRead a s = busyRefuse a s ∨ ∃ d, hostRead a s = respond .okay d s := by
  by_cases hread : readableWhileBusy a = true
  · have haddr : a = 0x000000#24 ∨ a = 0x000008#24 := by simpa [readableWhileBusy] using hread
    obtain rfl | rfl := haddr <;> exact .inr ⟨_, by simp [hostRead, hread]; rfl⟩
  · exact .inl (by simp [hostRead, h, hread])

namespace FaultRecordSound

variable {s : State} (hs : FaultRecordSound s)
include hs

theorem congr {t : State} (h : SameFaultRecord s t) (hbusy : busy t = busy s) : FaultRecordSound t := by
  unfold FaultRecordSound
  rw [h.fault, h.faultCode, h.faultInfo, h.pend, h.resetPin, hbusy]
  exact hs

/-- A fault entered while no command is in flight is recorded, or the record of the first is kept (R276, R286). -/
theorem raiseFault (hidle : busy s = false) {c : FaultCode} (hc : c ≠ .none) (i : Word) :
    FaultRecordSound (raiseFault c i s) := by
  obtain ⟨-, hset, -, hpend⟩ := hs
  refine ⟨by simp, fun _ => ?_, fun hb => ?_, fun q hq => ?_⟩
  · rw [raiseFault_faultCode]
    split
    · exact hset ‹_›
    · exact hc
  · exact absurd hb (by simpa [busy] using hidle)
  · exact absurd (hpend q (by simpa using hq)).1 (by simp [hidle])

/-- A refused access is held while the command is in flight; the first is kept (R279). -/
theorem holdPending (hb : busy s = true) (a : Addr) : FaultRecordSound (holdPending .busyAccess a s) := by
  unfold Machine.holdPending
  split
  · exact hs
  · obtain ⟨hclear, hset, hbusy, -⟩ := hs
    exact ⟨hclear, hset, hbusy, fun q hq => ⟨hb, by cases hq; rfl⟩⟩

theorem respond (st : PortStatus) (d : Word) : FaultRecordSound (respond st d s) :=
  hs.congr ⟨rfl, rfl, rfl, rfl, rfl⟩ rfl

theorem busRefuse (hidle : busy s = false) (a : Addr) : FaultRecordSound (busRefuse a s) :=
  (hs.raiseFault hidle (by decide) _).respond _ _

theorem busyRefuse (hb : busy s = true) (a : Addr) : FaultRecordSound (busyRefuse a s) :=
  (hs.holdPending hb a).respond _ _

theorem hostRead (a : Addr) : FaultRecordSound (hostRead a s) := by
  cases hb : busy s with
  | true =>
    obtain e | ⟨d, e⟩ := hostRead_of_busy (a := a) hb <;> rw [e]
    · exact hs.busyRefuse hb a
    · exact hs.respond _ _
  | false =>
    obtain ⟨htrue, -⟩ | ⟨-, e⟩ | ⟨l, -, e⟩ := hostRead_cases a s
    · exact absurd htrue (by simp [hb])
    · exact e ▸ hs.busRefuse hb a
    · exact e ▸ hs.respond _ _

/-- A command comes into flight only where no fault shows and the core is not in reset (R288, R311). -/
theorem issueCommand (hidle : busy s = false) (hpin : s.resetPin = false) (w : Word) :
    FaultRecordSound (issueCommand w s) := by
  unfold Machine.issueCommand
  split
  · exact hs
  · next hfault =>
    obtain ⟨hclear, hset, -, hpend⟩ := hs
    exact ⟨hclear, hset, fun _ => ⟨Bool.eq_false_iff.2 hfault, hpin⟩, fun q hq =>
      absurd (hpend q hq).1 (by simp [hidle])⟩

theorem hostWrite (hpin : s.resetPin = false) (a : Addr) (v : Word) : FaultRecordSound (hostWrite a v s) := by
  obtain ⟨hb, e⟩ | ⟨hb, -, e⟩ | ⟨l, hb, -, e⟩ := hostWrite_cases a v s <;> rw [e]
  · exact hs.busyRefuse hb a
  · exact hs.busRefuse hb a
  · by_cases hcmd : l = .global .cmd
    · subst hcmd
      exact (hs.issueCommand hb hpin v).respond _ _
    · exact (hs.congr (sameFaultRecord_writeLoc l v s)
        (congrArg Option.isSome (inFlight_writeLoc hcmd v s))).respond _ _

theorem driveReset (b : Bool) : FaultRecordSound (driveReset b s) := by
  unfold Machine.driveReset
  split
  · exact ⟨fun _ => ⟨rfl, rfl⟩, nofun, nofun, nofun⟩
  · exact hs

theorem hostEvent (e : HostEvent) : FaultRecordSound (hostEvent e s) := by
  obtain e' | ⟨a, e'⟩ | ⟨a, v, hpin, e'⟩ | ⟨b, e'⟩ := hostEvent_cases e s <;> rw [e']
  · exact hs
  · exact hs.hostRead a
  · exact hs.hostWrite hpin a v
  · exact hs.driveReset b

theorem hostTurn : FaultRecordSound (hostTurn s) := by
  obtain ⟨-, e⟩ | ⟨rest, -, -, e⟩ | ⟨e', rest, -, e⟩ := hostTurn_cases s <;> rw [e]
  · exact hs
  · exact hs.hostRead _
  · have htaken : FaultRecordSound { s with inbox := rest } := hs.congr ⟨rfl, rfl, rfl, rfl, rfl⟩ rfl
    exact htaken.hostEvent e'

theorem countDown : FaultRecordSound (countDown s) := by
  refine hs.congr (by constructor <;> simp) ?_
  unfold busy Machine.countDown
  cases h : s.inFlight with
  | none => exact congrArg Option.isSome h
  | some c => rfl

end FaultRecordSound

/-! ### Completion and the fault record -/

/-- After a command has ended, a fault held in PEND is entered (R279). -/
theorem faultRecordSound_enterPending {u : State} (hidle : busy u = false)
    (hclear : u.fault = false → u.faultCode = .none ∧ u.faultInfo = 0) (hset : u.fault = true → u.faultCode ≠ .none)
    (hpend : ∀ q, u.pend = some q → q.code = .busyAccess) : FaultRecordSound (enterPending u) := by
  cases hq : u.pend with
  | none =>
    rw [enterPending_of_none u hq]
    exact ⟨hclear, hset, fun hb => absurd hb (by simp [hidle]), fun q h => absurd (hq.symm.trans h) nofun⟩
  | some q =>
    have hrecord : FaultRecordSound (raiseFault q.code (q.addr.setWidth 32) { u with pend := none }) :=
      FaultRecordSound.raiseFault (s := { u with pend := none })
        ⟨hclear, hset, fun hb => absurd hb (by simpa [busy] using hidle), nofun⟩ hidle (by simp [hpend q hq]) _
    have hentered : enterPending u = raiseFault q.code (q.addr.setWidth 32) { u with pend := none } := by
      rw [enterPending_of_some u q hq]
      unfold raiseFault
      split <;> rfl
    exact hentered ▸ hrecord

section
variable {s : State} (hs : FaultRecordSound s) (hb : busy s = true)
include hs hb

theorem faultRecordSound_commandFault {c : FaultCode} (hc : c ≠ .none) (w : Word) :
    FaultRecordSound (enterPending (commandFault c w s)) := by
  obtain ⟨-, -, hbusy, hpend⟩ := hs
  refine faultRecordSound_enterPending rfl (by simp) (fun _ => ?_) fun q hq => (hpend q (by simpa using hq)).2
  simpa [(hbusy hb).1] using hc

theorem faultRecordSound_finish (w : Word) (i : Instr) :
    FaultRecordSound (enterPending (finish w s (tryCommand i s))) := by
  cases he : tryCommand i s with
  | error c => exact faultRecordSound_commandFault hs hb (ne_none_of_tryCommand_error he) w
  | ok t =>
    have hsame := sameFaultRecord_of_tryCommand he
    obtain ⟨hclear, hset, -, hpend⟩ := hs
    refine faultRecordSound_enterPending rfl (fun h => ?_) (fun h => ?_) fun q hq => ?_
    · exact ⟨hsame.faultCode.trans (hclear (hsame.fault.symm.trans h)).1,
        hsame.faultInfo.trans (hclear (hsame.fault.symm.trans h)).2⟩
    · exact fun hcode => hset (hsame.fault.symm.trans h) (hsame.faultCode.symm.trans hcode)
    · exact (hpend q (hsame.pend.symm.trans hq)).2

end

/-- Settles O15: the host's turn, a completion and the fault of a word that is no command each keep the record sound. -/
theorem faultRecordSoundIsKept : Obligations.FaultRecordSoundIsKept := by
  intro s t hs hstep
  obtain ⟨-, rfl⟩ | ⟨c, -, -, rfl⟩ | ⟨c, i, hc, -, -, rfl⟩ | ⟨c, e, hc, -, -, rfl⟩ := step_cases s t hstep
  · exact hs.hostTurn
  · exact hs.hostTurn.countDown
  · exact faultRecordSound_finish hs (congrArg Option.isSome hc) _ i
  · exact faultRecordSound_commandFault hs (congrArg Option.isSome hc) (by cases e <;> decide) _

/-! ### RESULT (R38) -/

theorem effectInvariant_result (w : Word) : EffectInvariant fun s => s.result = w where
  advance wf o fm s hs := (oscAdvance_result wf o fm s).trans hs
  sample _ _ _ _ _ _ hs := hs
  ladder _ _ _ _ _ hs := hs
  bookkeeping _ _ _ _ hs := hs
  init _ _ _ _ _ hs := hs
  teardown _ hs := hs

/-- A command that is none of the two scalar ones leaves RESULT alone, whether it completes or faults. -/
theorem result_finish {i : Instr} (hi : writesResult i = false) (w : Word) (s : State) :
    (finish w s (tryCommand i s)).result = s.result := by
  cases he : tryCommand i s with
  | error c => exact commandFault_result c w s
  | ok t =>
    have ht : t.result = s.result :=
      (effectInvariant_result s.result).tryCommand (fun h => absurd (h.symm.trans hi) nofun) he rfl
    exact ht

theorem writesResult_iff (i : Instr) : writesResult i = true ↔
    (∃ u, i = .filterStep u) ∨ ∃ u b c, i = .oscNext u b c := by
  cases i <;> simp [writesResult]

theorem result_hostWrite (v : Word) (s : State) : (hostWrite 0x000020#24 v s).result = s.result := by
  obtain ⟨-, e⟩ | ⟨-, -, e⟩ | ⟨l, -, hl, e⟩ := hostWrite_cases 0x000020#24 v s <;> rw [e]
  · exact holdPending_result _ _ s
  · exact raiseFault_result _ _ s
  · obtain rfl : Loc.global .result = l := Option.some.inj hl
    rfl

/-- Settles O44: only the scalar commands write RESULT, and its location ignores the host's writes. -/
theorem resultIsWrittenByScalarCommandsOnly : Obligations.ResultIsWrittenByScalarCommandsOnly := by
  refine ⟨fun i s t ht hne => ?_, fun s v => ⟨rfl, rfl, result_hostWrite v s⟩, rfl⟩
  rw [exec_eq] at ht
  cases ht
  by_contra hscalar
  exact hne (result_finish (Bool.eq_false_iff.2 (mt (writesResult_iff i).1 hscalar)) _ s)

end Sys2Proof.Machine

/-! The obligations about the host's register writes and the words registers read as (R34 to R71, R283). -/

namespace Sys2Proof.Machine

/-! ### Register words, bit by bit -/

theorem bitAt_true (i : Nat) : bitAt i true = BitVec.twoPow 32 i := (BitVec.twoPow_eq 32 i).symm

theorem getLsbD_bitAt (i : Nat) (b : Bool) {j : Nat} (hj : j < 32) :
    (bitAt i b).getLsbD j = (b && decide (i = j)) := by
  cases b
  · simp [bitAt]
  · rw [bitAt_true, BitVec.getLsbD_twoPow, Bool.true_and]
    by_cases hij : i = j
    · simp [hij, hj]
    · simp [hij]

/-- Bit `k` of `v`, in its place. -/
theorem bitAt_getLsbD (k : Nat) (v : Word) : bitAt k (v.getLsbD k) = v &&& 1#32 <<< k := by
  rw [← BitVec.twoPow_eq, BitVec.and_twoPow, BitVec.twoPow_eq]
  rfl

/-- A flag masked by the complement of `v`. -/
theorem bitAt_and_not (k : Nat) (b : Bool) (v : Word) : bitAt k b &&& ~~~v = bitAt k (b && !v.getLsbD k) := by
  apply BitVec.eq_of_getLsbD_eq
  intro j hj
  rw [BitVec.getLsbD_and, getLsbD_bitAt _ _ hj, getLsbD_bitAt _ _ hj]
  by_cases hkj : k = j
  · subst hkj
    simp [hj]
  · simp [hkj]

/-- The low bits of a word, zero-extended. -/
theorem setWidth_extractLsb'_zero (v : Word) {n : Nat} (hn : n ≤ 32) :
    (v.extractLsb' 0 n).setWidth 32 = v &&& BitVec.ofNat 32 (2 ^ n - 1) := by
  have hpow : 2 ^ n ≤ 2 ^ 32 := Nat.pow_le_pow_right two_pos hn
  have hpos : 0 < 2 ^ n := by positivity
  have hlt : v.toNat % 2 ^ n < 2 ^ 32 := (Nat.mod_lt _ hpos).trans_le hpow
  apply BitVec.eq_of_toNat_eq
  rw [BitVec.toNat_and, BitVec.toNat_ofNat, Nat.mod_eq_of_lt (by omega : 2 ^ n - 1 < 2 ^ 32),
    Nat.and_two_pow_sub_one_eq_mod, BitVec.toNat_setWidth, BitVec.extractLsb'_toNat, Nat.shiftRight_zero,
    Nat.mod_eq_of_lt hlt]

theorem fcfgWord_fcfgOf (v : Word) : fcfgWord (fcfgOf v) = v &&& 7#32 := by
  simp only [fcfgWord, fcfgOf, bitAt_getLsbD, ← BitVec.and_or_distrib_left]
  rfl

theorem vcfgWord_vcfgOf (v : Word) : vcfgWord (vcfgOf v) = v &&& 0x1F3#32 := by
  have hroute : (v.extractLsb' 0 2).setWidth 32 = v &&& 3#32 := setWidth_extractLsb'_zero v (by decide)
  simp only [vcfgWord, vcfgOf, hroute, bitAt_getLsbD, ← BitVec.and_or_distrib_left]
  rfl

theorem fstatWord_fstatClear (v : Word) (c : Fstat) : fstatWord (fstatClear v c) = fstatWord c &&& ~~~v := by
  simp only [fstatWord, fstatClear, BitVec.and_or_distrib_right, bitAt_and_not]

/-- MAXIT reads back the low byte of what was written, and 1 for 0 (R67). -/
theorem setWidth_maxitOf (v : Word) :
    (maxitOf v).setWidth 32 = if v &&& 0xFF#32 = 0#32 then 1#32 else v &&& 0xFF#32 := by
  have hlow : (v.extractLsb' 0 8).setWidth 32 = v &&& 0xFF#32 := setWidth_extractLsb'_zero v (by decide)
  have hzero : v.extractLsb' 0 8 = 0#8 ↔ v &&& 0xFF#32 = 0#32 := by
    rw [← hlow]
    refine ⟨fun h => h ▸ rfl, fun h => ?_⟩
    have hback : ((v.extractLsb' 0 8).setWidth 32).setWidth 8 = v.extractLsb' 0 8 :=
      BitVec.setWidth_setWidth_of_le _ (by decide)
    rw [← hback, h]
    rfl
  unfold maxitOf
  by_cases h : v.extractLsb' 0 8 = 0#8
  · rw [if_pos h, if_pos (hzero.1 h)]
    rfl
  · rw [if_neg h, if_neg (mt hzero.2 h), hlow]

/-! ### STATUS (R35) -/

theorem faultCodeValue_lt (c : FaultCode) : faultCodeValue c < 2 ^ 8 := by
  cases c <;> decide

theorem getLsbD_statusWord (s : State) {j : Nat} (hj : j < 32) : (statusWord s).getLsbD j =
    (busy s && decide (0 = j) || s.done && decide (1 = j) || s.ready && decide (2 = j) || s.fault && decide (3 = j) ||
      decide (8 ≤ j) && (faultCodeValue s.faultCode).testBit (j - 8)) := by
  have hcode : (BitVec.ofNat 32 (faultCodeValue s.faultCode) <<< 8).getLsbD j =
      (decide (8 ≤ j) && (faultCodeValue s.faultCode).testBit (j - 8)) := by
    rw [BitVec.getLsbD_shiftLeft, BitVec.getLsbD_ofNat]
    by_cases h8 : 8 ≤ j
    · simp [h8, hj, show ¬ j < 8 by omega, show j - 8 < 32 by omega]
    · simp [h8, show j < 8 by omega]
  unfold statusWord
  simp only [BitVec.getLsbD_or, getLsbD_bitAt _ _ hj, hcode]

theorem extractLsb'_eight_statusWord (s : State) :
    (statusWord s).extractLsb' 8 8 = BitVec.ofNat 8 (faultCodeValue s.faultCode) := by
  apply BitVec.eq_of_getLsbD_eq
  intro i hi
  rw [BitVec.getLsbD_extractLsb', getLsbD_statusWord s (by omega), BitVec.getLsbD_ofNat]
  simp [show 0 ≠ 8 + i by omega, show 1 ≠ 8 + i by omega, show 2 ≠ 8 + i by omega, show 3 ≠ 8 + i by omega]

/-- Outside the flags and FAULT_CODE the bits of STATUS are 0. -/
theorem getLsbD_statusWord_reserved (s : State) {j : Nat} (hj : (4 ≤ j ∧ j < 8) ∨ (16 ≤ j ∧ j < 32)) :
    (statusWord s).getLsbD j = false := by
  have hcode : (decide (8 ≤ j) && (faultCodeValue s.faultCode).testBit (j - 8)) = false := by
    obtain ⟨-, hj⟩ | ⟨hj, -⟩ := hj
    · simp [show ¬ 8 ≤ j by omega]
    · have hlt : faultCodeValue s.faultCode < 2 ^ (j - 8) :=
        (faultCodeValue_lt _).trans_le (Nat.pow_le_pow_right two_pos (by omega))
      rw [Nat.testBit_lt_two_pow hlt, Bool.and_false]
  rw [getLsbD_statusWord s (by omega), hcode]
  simp [show 0 ≠ j by omega, show 1 ≠ j by omega, show 2 ≠ j by omega, show 3 ≠ j by omega]

/-- Settles O25, from the bits of STATUS one by one. -/
theorem statusWordAndInterrupt : Obligations.StatusWordAndInterrupt := by
  intro s
  have hflag : ∀ j < 4, (statusWord s).getLsbD j =
      (busy s && decide (0 = j) || s.done && decide (1 = j) || s.ready && decide (2 = j) ||
        s.fault && decide (3 = j)) := by
    intro j hj
    rw [getLsbD_statusWord s (by omega), decide_eq_false (by omega : ¬ 8 ≤ j), Bool.false_and, Bool.or_false]
  have hdone : (statusWord s).getLsbD 1 = s.done := by rw [hflag 1 (by decide)]; simp
  refine ⟨by rw [hflag 0 (by decide)]; simp, hdone, by rw [hflag 2 (by decide)]; simp,
    by rw [hflag 3 (by decide)]; simp, ?_, ?_, ?_, ?_⟩
  · apply BitVec.eq_of_getLsbD_eq
    intro i hi
    rw [BitVec.getLsbD_extractLsb', getLsbD_statusWord_reserved s (.inl (by omega)), Bool.and_false,
      BitVec.getLsbD_zero]
  · rw [extractLsb'_eight_statusWord, BitVec.toNat_ofNat, Nat.mod_eq_of_lt (faultCodeValue_lt _)]
  · apply BitVec.eq_of_getLsbD_eq
    intro i hi
    rw [BitVec.getLsbD_extractLsb', getLsbD_statusWord_reserved s (.inr (by omega)), Bool.and_false,
      BitVec.getLsbD_zero]
  · have hie : (bitAt 0 s.ie).getLsbD 0 = s.ie := by rw [getLsbD_bitAt 0 _ (by decide)]; simp
    simp only [irq, readLoc, readGlobal, hdone, hie]

/-- Clearing DONE clears bit 1 of STATUS and no other (R35). -/
theorem statusWord_clearDone (s : State) : statusWord { s with done := false } = statusWord s &&& ~~~2#32 := by
  have hcode : ∀ c,
      BitVec.ofNat 32 (faultCodeValue c) <<< 8 &&& ~~~2#32 = BitVec.ofNat 32 (faultCodeValue c) <<< 8 := by
    intro c
    cases c <;> decide
  have hbits : ∀ i < 4, i ≠ 1 → (2#32 : Word).getLsbD i = false := by decide
  have hone : (2#32 : Word).getLsbD 1 = true := rfl
  simp only [statusWord, BitVec.and_or_distrib_right, bitAt_and_not, hcode, hone, hbits 0 (by decide) (by decide),
    hbits 2 (by decide) (by decide), hbits 3 (by decide) (by decide), Bool.not_true, Bool.not_false, Bool.and_true,
    Bool.and_false]
  rfl

/-! ### Accepted writes -/

/-- With no command in flight a write at a mapped address is performed (R99). -/
theorem hostWrite_of_hostLoc {s : State} {a : Addr} {l : Loc} (hidle : s.inFlight = none)
    (hl : hostLoc s.hw a = some l) (v : Word) : hostWrite a v s = respond .okay 0 (writeLoc l v s) := by
  simp [hostWrite, busy, hidle, hl]

theorem readLoc_respond (st : PortStatus) (d : Word) (s : State) (l : Loc) :
    readLoc (respond st d s) l = readLoc s l := by
  cases l with
  | osc t r => exact congrArg (readOsc · r) (getOsc_congr rfl rfl t)
  | depth l => exact congrArg Lfo.depth (getLfo_congr rfl rfl l)
  | global r => cases r <;> rfl
  | _ => rfl

theorem getOsc_respond (st : PortStatus) (d : Word) (s : State) (t : OscSel) : getOsc (respond st d s) t = getOsc s t :=
  getOsc_congr rfl rfl t

theorem getLfo_respond (st : PortStatus) (d : Word) (s : State) (l : LfoSel) : getLfo (respond st d s) l = getLfo s l :=
  getLfo_congr rfl rfl l

/-- Settles O21: the write replaces one record, which reads back, and every other is as it was. -/
theorem oscillatorRegisterWrites : Obligations.OscillatorRegisterWrites := by
  refine ⟨fun s a v t r hidle hl => ?_, fun s a v l hidle hl => ?_⟩
  · rw [hostWrite_of_hostLoc hidle hl]
    refine ⟨by cases r <;> rfl, ?_, fun u hu => ?_⟩
    · exact (getOsc_respond ..).trans (getOsc_setOsc_same s t _)
    · exact (getOsc_respond ..).trans (getOsc_setOsc_ne s t u _ hu)
  · rw [hostWrite_of_hostLoc hidle hl]
    refine ⟨rfl, ?_, fun k hk => ?_⟩
    · exact (readLoc_respond ..).trans (congrArg Lfo.depth (getLfo_setLfo_same s l _))
    · exact (getLfo_respond ..).trans (getLfo_setLfo_ne s l k _ hk)

/-- What a written filter register reads back as (R63 to R71). -/
theorem readFilter_writeFilter_same (r : FilterReg) (v : Word) (R : Filter) : readFilter (writeFilter r v R) r =
    (match r with
      | .fcfg => v &&& 7#32
      | .maxit => if v &&& 0xFF#32 = 0#32 then 1#32 else v &&& 0xFF#32
      | .lastIters => readFilter R r
      | .fstat => readFilter R r &&& ~~~v
      | _ => v) := by
  cases r
  case fcfg => exact fcfgWord_fcfgOf v
  case maxit => exact setWidth_maxitOf v
  case fstat => exact fstatWord_fstatClear v R.fstat
  all_goals rfl

theorem readFilter_writeFilter_ne {r r' : FilterReg} (h : r' ≠ r) (v : Word) (R : Filter) :
    readFilter (writeFilter r v R) r' = readFilter R r' := by
  cases r <;> cases r' <;> (first | rfl | exact absurd rfl h)

/-- Settles O22: the register written reads back by its own rule, and every other reads as before. -/
theorem filterRegisterWrites : Obligations.FilterRegisterWrites := by
  intro s a v f r hidle hl
  exact ⟨writeFilter r v (getFilter s f), hostWrite_of_hostLoc hidle hl v, filterLfo_writeFilter r v _ .metaCut,
    filterLfo_writeFilter r v _ .cut, readFilter_writeFilter_same r v _, fun r' hr => readFilter_writeFilter_ne hr v _⟩

/-- Settles O24: the register written reads back by its own rule, and every other reads as before. -/
theorem voiceRegisterWrites : Obligations.VoiceRegisterWrites := by
  intro s a v i r hidle hl
  refine ⟨writeVoice r v (getVoice s i), hostWrite_of_hostLoc hidle hl v, ?_, ?_, ?_⟩
  · cases r <;> rfl
  · cases r
    case vcfg => exact vcfgWord_vcfgOf v
    all_goals rfl
  · intro r' hr
    cases r <;> cases r' <;> (first | rfl | exact absurd rfl hr)

/-- What a written global register reads back as, CMD apart (R34, R35, R37, R41). -/
theorem readGlobal_writeGlobal_same {r : GlobalReg} (hr : r ≠ .cmd) (v : Word) (s : State) :
    readGlobal (writeGlobal r v s) r =
      (match r with
        | .ctrl => v &&& 1#32
        | .status => if v.getLsbD 1 then readGlobal s r &&& ~~~2#32 else readGlobal s r
        | .arg0 => v
        | .arg1 => v
        | .arg2 => v
        | .arg3 => v
        | .fadeLen => v
        | _ => readGlobal s r) := by
  cases r
  case ctrl => exact bitAt_getLsbD 0 v
  case status =>
    show statusWord (writeStatus v s) = _
    unfold writeStatus
    split
    · exact statusWord_clearDone s
    · rfl
  case cmd => exact absurd rfl hr
  all_goals rfl

/-- What a write of a global register can change, CMD apart. -/
theorem writeGlobal_eq {r : GlobalReg} (hr : r ≠ .cmd) (v : Word) (s : State) : writeGlobal r v s = { s with
    ie := (writeGlobal r v s).ie, done := (writeGlobal r v s).done, arg0 := (writeGlobal r v s).arg0
    arg1 := (writeGlobal r v s).arg1, arg2 := (writeGlobal r v s).arg2, arg3 := (writeGlobal r v s).arg3
    fadeLen := (writeGlobal r v s).fadeLen } := by
  cases r
  case status =>
    show writeStatus v s = { s with
      ie := (writeStatus v s).ie, done := (writeStatus v s).done, arg0 := (writeStatus v s).arg0
      arg1 := (writeStatus v s).arg1, arg2 := (writeStatus v s).arg2, arg3 := (writeStatus v s).arg3
      fadeLen := (writeStatus v s).fadeLen }
    unfold writeStatus
    split <;> rfl
  case cmd => exact absurd rfl hr
  all_goals rfl

theorem readGlobal_writeStatus {r : GlobalReg} (h : r ≠ .status) (v : Word) (s : State) :
    readGlobal (writeStatus v s) r = readGlobal s r := by
  unfold writeStatus
  split
  · cases r
    case status => exact absurd rfl h
    all_goals rfl
  · rfl

theorem readGlobal_writeGlobal_ne {r r' : GlobalReg} (hr : r ≠ .cmd) (h : r' ≠ r) (v : Word) (s : State) :
    readGlobal (writeGlobal r v s) r' = readGlobal s r' := by
  cases r
  case status => exact readGlobal_writeStatus h v s
  case cmd => exact absurd rfl hr
  all_goals cases r' <;> first | rfl | exact absurd rfl h

/-- Settles O23: the register written reads back by its own rule, and the others and the rest of the state are as they
were. -/
theorem globalRegisterWrites : Obligations.GlobalRegisterWrites := by
  intro s a v r hidle hl hr
  rw [hostWrite_of_hostLoc hidle hl]
  refine ⟨?_, fun r' hr' => ?_, writeGlobal r v s, ?_⟩
  · have hread := (readLoc_respond .okay 0 (writeGlobal r v s) (.global r)).trans (readGlobal_writeGlobal_same hr v s)
    cases r <;> exact hread
  · exact (readLoc_respond ..).trans (readGlobal_writeGlobal_ne hr hr' v s)
  · exact congrArg (respond .okay 0) (writeGlobal_eq hr v s)

end Sys2Proof.Machine

/-! The obligations about reset (R79). -/

namespace Sys2Proof.Machine

theorem readOsc_reset (r : OscReg) : readOsc Osc.reset r = 0 := by
  cases r <;> rfl

theorem readVoice_reset (r : VoiceReg) : readVoice Voice.reset r = 0 := by
  cases r <;> rfl

/-- EPS and MAXIT are the filter's only registers with a reset value other than 0 (R79). -/
theorem readFilter_reset (r : FilterReg) : readFilter Filter.reset r =
    match r with
    | .eps => 0x3727C5AC#32
    | .maxit => 10#32
    | _ => 0#32 := by
  cases r <;> rfl

/-- Settles O26: the global registers by evaluation, the records through what `State.reset` holds of each. -/
theorem resetValues : Obligations.ResetValues := by
  unfold Obligations.ResetValues
  iterate 21 refine ⟨rfl, ?_⟩
  refine ⟨fun t r => ?_, fun l => ?_, fun v r => ?_, fun f r => ?_, fun _ => rfl, fun _ => rfl, rfl, rfl, rfl⟩
  · exact (congrArg (readOsc · r) (getOsc_reset t)).trans (readOsc_reset r)
  · exact congrArg Lfo.depth (getLfo_reset l)
  · exact (congrArg (readVoice · r) (getVoice_reset v)).trans (readVoice_reset r)
  · exact (congrArg (readFilter · r) (getFilter_reset f)).trans (readFilter_reset r)

/-- Settles O28: reset holds zeros, an empty RAM and no session, and its parameters are legal. -/
theorem resetMeetsTheInvariants : Obligations.ResetMeetsTheInvariants := by
  refine ⟨fun t => ?_, ⟨paramsLegal_params, fun t => ?_⟩, rfl, ⟨⟨paramsLegal_params, Nat.zero_le _, nofun⟩, nofun⟩,
    ⟨fun _ => ⟨rfl, rfl⟩, nofun, nofun, nofun⟩, fun f => ?_⟩
  · rw [getOsc_reset]
    exact inUnitInterval_zero
  · rw [getOsc_reset]
    exact (congrArg (BitVec.ofNat 4) (octSel_zero paramsLegal_params)).symm
  · rw [getFilter_reset]
    decide

end Sys2Proof.Machine

/-! The obligation about LFO_PRODUCE (R57, R202). -/

namespace Sys2Proof.Machine

/-- The modulation of an LFO run, sample by sample (R197). -/
theorem renderFm_lfoRender (l : LfoSel) (wf : Waveform) (ufm : Bool) (s : State) (n : Nat) :
    renderFm (lfoRender l wf ufm s) n s =
      if ufm then (metaOf l).map (fun j => readBuf s (lfoBuffer j) n) else none := by
  cases ufm
  · rfl
  · cases h : metaOf l <;> simp [renderFm, lfoRender, h]

/-- A change of the records, the memory and the draws alone is known from these. -/
theorem RecordsMoved.eq_of_records {s t u : State} {d : Nat} (h : RecordsMoved s u) (hfilters : u.filters = t.filters)
    (hvoices : u.voices = t.voices) (hdraws : u.draws = d) :
    u = { s with filters := t.filters, voices := t.voices, ram := u.ram, draws := d } := by
  rw [← hfilters, ← hvoices, ← hdraws]
  exact h

theorem setLfo_eq_records (s : State) (l : LfoSel) (r : Lfo) :
    setLfo s l r = { s with filters := (setLfo s l r).filters, voices := (setLfo s l r).voices } := by
  cases l <;> rfl

section
variable (F : Prims) (l : LfoSel) (wf : Waveform) (ufm : Bool) {s : State} (hN : blockLen s ≤ 4096)
  {fm : Nat → Option Word} (hfm : ∀ n, renderFm (lfoRender l wf ufm s) n s = fm n)
include hN hfm

/-- What LFO_RUN leaves besides the sample RAM, for a block of at most 4096 samples (R193, R197). -/
theorem lfoRun_eq :
    lfoRun F l wf ufm s = { setLfo s l (rephasedLfo (getLfo s l) (phaseAfter fm (getLfo s l).osc (blockLen s))) with
      ram := (lfoRun F l wf ufm s).ram, draws := s.draws + drawsIf true wf (blockLen s) } := by
  obtain rfl : (fun n => renderFm (lfoRender l wf ufm s) n s) = fm := funext hfm
  obtain ⟨hmoved, -, hdraws, -⟩ := lfoRun_leaves F l wf ufm s
  obtain ⟨o, rfl, hfilters, hvoices⟩ := render_records F (lfoRender l wf ufm s) s hN
  rw [setLfo_eq_records s l, drawsIf_true]
  exact hmoved.eq_of_records hfilters hvoices hdraws

/-- The samples LFO_RUN leaves in the LFO's own buffer (R197). -/
theorem readBuf_lfoRun (hram : RamCanonical s) {n : Nat} (hn : n < blockLen s) :
    readBuf (lfoRun F l wf ufm s) (lfoBuffer l) n =
      blockSample F s.hw wf (getLfo s l).osc fm (fun _ => (getLfo s l).depth) s.draws n := by
  obtain rfl : (fun n => renderFm (lfoRender l wf ufm s) n s) = fm := funext hfm
  obtain ⟨-, -, -, -, hvalues⟩ := render_computes F (lfoRender l wf ufm s) s hN
  exact (hvalues hram).2 (lfoBuffer l) n hn (.inl rfl)

end

/-- Settles O54: LFO_PRODUCE is one LFO run, completed. -/
theorem lfoProduceOverwritesItsOwnBuffer : Obligations.LfoProduceOverwritesItsOwnBuffer := by
  intro s unit sub cls ufm l wf N fm hready hN hmax hl hmeta hwf hfm
  subst hN
  have hrun : tryCommand (.lfoProduce unit sub cls ufm) s = .ok (lfoRun prims l wf ufm s) :=
    (tryLfoProduce_ok prims unit sub cls ufm s _).2 ⟨hready, l, wf, hl, hmeta, hwf, rfl⟩
  have hmod : ∀ n, renderFm (lfoRender l wf ufm s) n s = fm n := fun n => hfm ▸ renderFm_lfoRender l wf ufm s n
  obtain ⟨-, -, -, -, hframe, -⟩ := lfoRun_leaves prims l wf ufm s
  refine ⟨completeCommand (lfoRun prims l wf ufm s), ?_, ?_, fun a ha => ?_, fun hram n hn => ?_⟩
  · rw [exec_eq, hrun, finish_ok]
  · exact (congrArg completeCommand (lfoRun_eq prims l wf ufm hmax hmod)).trans (by cases l <;> rfl)
  · exact hframe a ha nofun
  · exact readBuf_lfoRun prims l wf ufm hmax hmod hram hn

end Sys2Proof.Machine

/-! The obligation about PAN (R61). -/

namespace Sys2Proof.Machine

/-! ### What reads the same whatever PAN is -/

section
variable (s : State) (v : Fin 32) (p : Word)

@[simp] theorem withPan_hw : (withPan s v p).hw = s.hw := by simp [withPan]
@[simp] theorem withPan_ready : (withPan s v p).ready = s.ready := by simp [withPan]
@[simp] theorem withPan_arg0 : (withPan s v p).arg0 = s.arg0 := by simp [withPan]
@[simp] theorem withPan_arg1 : (withPan s v p).arg1 = s.arg1 := by simp [withPan]
@[simp] theorem getFilter_withPan (f : Fin 4) : getFilter (withPan s v p) f = getFilter s f := rfl
@[simp] theorem readBuf_withPan (b n : Nat) : readBuf (withPan s v p) b n = readBuf s b n := rfl
@[simp] theorem writeBuf_withPan (b n : Nat) (w : Word) :
    writeBuf (withPan s v p) b n w = withPan (writeBuf s b n w) v p := rfl
@[simp] theorem fadeGain_withPan : fadeGain (withPan s v p) = fadeGain s := rfl

@[simp] theorem getLfo_withPan (l : LfoSel) : getLfo (withPan s v p) l = getLfo s l :=
  getLfo_setVoice_of_lfos (by intro j; cases j <;> rfl) l

@[simp] theorem getOsc_withPan (t : OscSel) : getOsc (withPan s v p) t = getOsc s t :=
  getOsc_setVoice_of_oscs (V := { getVoice s v with pan := p }) rfl (by intro j; cases j <;> rfl) t

/-- A reading of a voice that does not look at PAN does not see the change. -/
theorem getVoice_withPan {α : Type} (g : Voice → α) (hg : ∀ V, g { V with pan := p } = g V) (w : Fin 32) :
    g (getVoice (withPan s v p) w) = g (getVoice s w) := by
  unfold withPan
  by_cases hw : w = v
  · rw [hw, getVoice_setVoice_same, hg]
  · rw [getVoice_setVoice_ne s v w _ hw]

@[simp] theorem planVoice_withPan (w : Fin 32) : planVoice (getVoice (withPan s v p) w) = planVoice (getVoice s w) :=
  getVoice_withPan s v p planVoice (fun _ => rfl) w

@[simp] theorem vcfg_withPan (w : Fin 32) : (getVoice (withPan s v p) w).vcfg = (getVoice s w).vcfg :=
  getVoice_withPan s v p Voice.vcfg (fun _ => rfl) w

@[simp] theorem volume_withPan (w : Fin 32) : (getVoice (withPan s v p) w).volume = (getVoice s w).volume :=
  getVoice_withPan s v p Voice.volume (fun _ => rfl) w

@[simp] theorem buffersOk_withPan (mono ufm uam : Bool) :
    buffersOk (withPan s v p) mono ufm uam = buffersOk s mono ufm uam := by simp [buffersOk, withPan]
@[simp] theorem oscRenderOf_withPan (t : OscSel) (wf : Waveform) (ovw mono ufm uam : Bool) :
    oscRenderOf t wf ovw mono ufm uam (withPan s v p) = oscRenderOf t wf ovw mono ufm uam s := rfl

theorem enabledVoices_withPan : enabledVoices (withPan s v p) = enabledVoices s :=
  List.filter_congr fun w _ => by rw [vcfg_withPan, withPan_hw]

@[simp] theorem planVoices_withPan : planVoices (withPan s v p) = planVoices s := by
  simp only [planVoices, enabledVoices_withPan, planVoice_withPan]

@[simp] theorem planFilters_withPan : planFilters (withPan s v p) = planFilters s := rfl

end

/-! ### Updates that do not look at PAN -/

/-- `f` neither reads nor writes PAN: a change of it before `f` is the change after. -/
def PanFree (f : State → State) : Prop := ∀ (s : State) (v : Fin 32) (p : Word), f (withPan s v p) = withPan (f s) v p

theorem panFree_forSamples {body : Nat → State → State} (h : ∀ n, PanFree (body n)) (k : Nat) :
    PanFree (forSamples k body) := by
  intro s v p
  induction k with
  | zero => rfl
  | succ k ih => rw [forSamples_succ, ih, h k, forSamples_succ]

theorem panFree_foldl {α : Type} {f : α → State → State} (h : ∀ x, PanFree (f x)) (l : List α) :
    PanFree fun s => l.foldl (fun s x => f x s) s := by
  intro s v p
  show l.foldl (fun s x => f x s) (withPan s v p) = withPan (l.foldl (fun s x => f x s) s) v p
  induction l generalizing s with
  | nil => rfl
  | cons x l ih => rw [List.foldl_cons, List.foldl_cons, h x, ih]

theorem setVoice_comm (s : State) {v w : Fin 32} (h : v ≠ w) (V W : Voice) :
    setVoice (setVoice s v V) w W = setVoice (setVoice s w W) v V :=
  congrArg (fun voices => { s with voices := voices }) (Vector.set_comm V W (Fin.val_ne_of_ne h))

/-- An update of one voice that leaves PAN alone. -/
theorem panFree_setVoice (w : Fin 32) {g : Voice → Voice} (hg : ∀ V p, g { V with pan := p } = { g V with pan := p }) :
    PanFree fun s => setVoice s w (g (getVoice s w)) := by
  intro s v p
  simp only [withPan]
  by_cases hw : w = v
  · subst hw
    rw [getVoice_setVoice_same, getVoice_setVoice_same, setVoice_setVoice, setVoice_setVoice, hg]
  · rw [getVoice_setVoice_ne _ _ _ _ hw, getVoice_setVoice_ne _ _ _ _ (Ne.symm hw), setVoice_comm s (Ne.symm hw)]

theorem setOsc_withPan (s : State) (v : Fin 32) (p : Word) (t : OscSel) (o : Osc) :
    setOsc (withPan s v p) t o = withPan (setOsc s t o) v p := by
  rcases t with w | ⟨w, j⟩ | ⟨f, j⟩
  · exact panFree_setVoice w (g := fun V => { V with osc := o }) (fun _ _ => rfl) s v p
  · simp only [setOsc, getLfo_withPan]
    exact panFree_setVoice w (g := fun V => setVoiceLfo V j { getLfo s (.voice w j) with osc := o })
      (fun _ _ => by cases j <;> rfl) s v p
  · rfl

theorem panFree_oscAdvance (wf : Waveform) (t : OscSel) (fm : Option Word) : PanFree (oscAdvance wf t fm) := by
  intro s v p
  unfold oscAdvance
  rw [getOsc_withPan, setOsc_withPan]
  rfl

@[simp] theorem oscValue_withPan (F : Prims) (wf : Waveform) (t : OscSel) (fm : Option Word) (amp : Word) (s : State)
    (v : Fin 32) (p : Word) : oscValue F wf t fm amp (withPan s v p) = oscValue F wf t fm amp s := by
  unfold oscValue
  rw [getOsc_withPan]
  rfl

theorem panFree_putSample (ovw : Bool) (b n : Nat) (w : Word) : PanFree (putSample ovw b n w) := by
  intro s v p
  unfold putSample
  rw [readBuf_withPan, writeBuf_withPan]

theorem panFree_renderSample (F : Prims) (r : Render) (n : Nat) : PanFree (renderSample F r n) := by
  intro s v p
  have hfm : renderFm r n (withPan s v p) = renderFm r n s := rfl
  have hamp : renderAmp r n (withPan s v p) = renderAmp r n s := rfl
  unfold renderSample
  rw [oscValue_withPan, hfm, hamp, panFree_oscAdvance r.wf r.osc _ s v p]
  dsimp only
  rw [panFree_putSample, panFree_putSample]
  split <;> rfl

theorem panFree_render (F : Prims) (r : Render) : PanFree (render F r) := fun s v p =>
  panFree_forSamples (panFree_renderSample F r) (blockLen s) s v p

theorem panFree_lfoRun (F : Prims) (l : LfoSel) (wf : Waveform) (ufm : Bool) : PanFree (lfoRun F l wf ufm) := by
  intro s v p
  have hrender : lfoRender l wf ufm (withPan s v p) = lfoRender l wf ufm s := by
    simp only [lfoRender, getLfo_withPan]
  unfold lfoRun
  rw [hrender]
  exact panFree_render F _ s v p

theorem panFree_lfoRunIf (F : Prims) (l : LfoSel) (wf : Option Waveform) (ufm : Bool) :
    PanFree (lfoRunIf F l wf ufm) := by
  cases wf with
  | none => exact fun _ _ _ => rfl
  | some wf => exact panFree_lfoRun F l wf ufm

theorem panFree_voiceRender (F : Prims) (w : Fin 32) (pl : VoicePlan) : PanFree (voiceRender F w pl) := by
  intro s v p
  have hlfos : voiceLfos F w pl (withPan s v p) = withPan (voiceLfos F w pl s) v p := by
    simp only [voiceLfos, panFree_lfoRunIf F _ _ _ _ v p]
  have hrender : ∀ t, voiceRenderOf w pl (withPan t v p) = voiceRenderOf w pl t := fun t => by
    simp only [voiceRenderOf, volume_withPan]
    rfl
  simp only [voiceRender, hlfos, hrender, panFree_render F _ _ v p]
  rfl

theorem panFree_filterBlock (F : Prims) (f : Fin 4) (pl : FilterPlan) : PanFree (filterBlock F f pl) := by
  intro s v p
  unfold filterBlock
  rw [panFree_lfoRun F _ _ _ s v p, panFree_lfoRun F _ _ _ _ v p]
  exact panFree_forSamples (body := filterSample F f) (fun _ _ _ _ => rfl) (blockLen s) _ v p

theorem withPan_fadePos (s : State) (v : Fin 32) (p w : Word) :
    { withPan s v p with fadePos := w } = withPan { s with fadePos := w } v p := rfl

/-- One word of a buffer scaled by the fade gain (R240). -/
def scaleSample (g : Word) (b n : Nat) (s : State) : State := writeBuf s b n (fmul (readBuf s b n) g)

theorem panFree_scaleSample (g : Word) (b n : Nat) : PanFree (scaleSample g b n) := by
  intro s v p
  unfold scaleSample
  rw [readBuf_withPan, writeBuf_withPan]

theorem fadeSample_eq_scaleSample (n : Nat) (s : State) (h : s.fadePos.toNat < s.fadeLen.toNat) : fadeSample n s =
    { scaleSample (fadeGain s) 1 n (scaleSample (fadeGain s) 0 n s) with fadePos := s.fadePos + 1 } := by
  unfold fadeSample
  rw [if_pos h]
  rfl

theorem panFree_fadeSample (n : Nat) : PanFree (fadeSample n) := by
  intro s v p
  by_cases h : s.fadePos.toNat < s.fadeLen.toNat
  · rw [fadeSample_eq_scaleSample n s h, fadeSample_eq_scaleSample n (withPan s v p) h, fadeGain_withPan,
      panFree_scaleSample, panFree_scaleSample]
    exact withPan_fadePos _ v p (s.fadePos + 1)
  · rw [fadeSample_done n s (Nat.le_of_not_lt h), fadeSample_done n (withPan s v p) (Nat.le_of_not_lt h)]

theorem panFree_blockEnd : PanFree blockEnd := by
  intro s v p
  have hfade : fadeBlock (withPan s v p) = withPan (fadeBlock s) v p :=
    panFree_forSamples panFree_fadeSample (blockLen s) s v p
  unfold blockEnd
  rw [hfade]
  rfl

theorem panFree_processBlock (F : Prims) (vs : List (Fin 32 × VoicePlan)) (fs : List (Fin 4 × FilterPlan)) :
    PanFree (processBlock F vs fs) := by
  intro s v p
  have hvoices := panFree_foldl (f := fun x => voiceRender F x.1 x.2) (fun x => panFree_voiceRender F x.1 x.2) vs
  have hfilters := panFree_foldl (f := fun x => filterBlock F x.1 x.2) (fun x => panFree_filterBlock F x.1 x.2) fs
  exact (congrArg (fun t => blockEnd (runFilters F fs t)) (hvoices (blockBegin s) v p)).trans
    ((congrArg blockEnd (hfilters _ v p)).trans (panFree_blockEnd _ v p))

theorem panFree_initSession : PanFree initSession := by
  intro s v p
  have hvoices : (initSession (withPan s v p)).voices = (withPan (initSession s) v p).voices := by
    refine Vector.ext fun i hi => ?_
    simp only [initSession, withPan, setVoice, getVoice, Vector.getElem_mapIdx, Vector.getElem_set]
    by_cases hv : v.val = i
    · subst hv
      by_cases hexists : v.val < s.hw.nVoice
      · simp [hexists, initVoice]
      · simp [hexists]
    · simp [hv]
  exact congrArg (fun voices => { initSession s with voices := voices }) hvoices

/-! ### Commands -/

theorem panFree_commandFault (c : FaultCode) (w : Word) : PanFree (commandFault c w) := by
  intro s v p
  unfold commandFault
  cases h : s.fault with
  | true => rw [raiseFault_of_faulted c w s h, raiseFault_of_faulted c w (withPan s v p) h]; rfl
  | false => rw [raiseFault_of_clear c w s h, raiseFault_of_clear c w (withPan s v p) h]; rfl

theorem panFree_completeCommand : PanFree completeCommand := fun _ _ _ => rfl

/-- The checks of a command do not look at PAN, and its effect is PAN-free. -/
theorem tryCommand_withPan (i : Instr) (s : State) (v : Fin 32) (p : Word) :
    tryCommand i (withPan s v p) = (tryCommand i s).map (withPan · v p) := by
  cases i with
  | nop => rfl
  | init =>
    simp only [tryCommand, tryInit, withPan_arg0, withPan_arg1, withPan_hw, panFree_initSession s v p]
    cases isFinite s.arg0 && flt fZero s.arg0
    · rfl
    · cases decide (s.arg1.toNat = 0) || decide (s.hw.blockMax < s.arg1.toNat) <;> rfl
  | teardown => rfl
  | processBlock =>
    simp only [tryCommand, tryProcessBlock, withPan_ready, planVoices_withPan, planFilters_withPan,
      panFree_processBlock _ _ _ s v p]
    cases s.ready
    · rfl
    · cases planVoices s <;> cases planFilters s <;> rfl
  | blockBegin =>
    simp only [tryCommand, tryBlockBegin, withPan_ready]
    cases s.ready <;> rfl
  | blockEnd =>
    simp only [tryCommand, tryBlockEnd, withPan_ready, panFree_blockEnd s v p]
    cases s.ready <;> rfl
  | voiceRender unit =>
    simp only [tryCommand, tryVoiceRender, withPan_ready, withPan_hw, planVoice_withPan,
      panFree_voiceRender _ _ _ s v p]
    cases s.ready
    · rfl
    · cases voiceUnit s.hw unit with
      | none => rfl
      | some w =>
        dsimp only
        cases planVoice (getVoice s w) <;> rfl
  | filterBlock unit =>
    simp only [tryCommand, tryFilterBlock, withPan_ready, getFilter_withPan, panFree_filterBlock _ _ _ s v p]
    cases s.ready
    · rfl
    · cases filterUnit unit with
      | none => rfl
      | some f =>
        dsimp only
        cases planFilter (getFilter s f) <;> rfl
  | filterStep unit =>
    simp only [tryCommand, tryFilterStep, withPan_ready, getFilter_withPan, withPan_arg0, withPan_arg1]
    cases s.ready
    · rfl
    · cases filterUnit unit <;> rfl
  | oscNext unit sub cls =>
    simp only [tryCommand, tryOscNext, withPan_ready, withPan_hw, withPan_arg0, withPan_arg1, getOsc_withPan,
      oscValue_withPan, panFree_oscAdvance _ _ _ s v p]
    cases s.ready
    · rfl
    · cases oscTarget s.hw unit sub cls with
      | none => rfl
      | some t =>
        dsimp only
        cases waveformOf (getOsc s t).kind <;> rfl
  | oscRender unit sub cls ovw mono ufm uam =>
    simp only [tryCommand, tryOscRender, withPan_ready, withPan_hw, getOsc_withPan, buffersOk_withPan,
      oscRenderOf_withPan, panFree_render _ _ s v p]
    cases s.ready
    · rfl
    · cases oscTarget s.hw unit sub cls with
      | none => rfl
      | some t =>
        dsimp only
        cases buffersOk s mono ufm uam
        · rfl
        · cases waveformOf (getOsc s t).kind <;> rfl
  | lfoProduce unit sub cls ufm =>
    simp only [tryCommand, tryLfoProduce, withPan_ready, withPan_hw, getLfo_withPan, panFree_lfoRun _ _ _ _ s v p]
    cases s.ready
    · rfl
    · cases lfoTarget s.hw unit sub cls with
      | none => rfl
      | some l =>
        dsimp only
        cases ufm && (metaOf l).isNone
        · cases waveformOf (getLfo s l).osc.kind <;> rfl
        · rfl

/-- Settles O43: a command's checks and effect, its completion and its fault entry are each PAN-free. -/
theorem panIsNeverRead : Obligations.PanIsNeverRead := by
  intro i s t v p ht
  rw [exec_eq] at ht ⊢
  obtain rfl : finish (encode i) s (tryCommand i s) = t := by cases ht; rfl
  rw [tryCommand_withPan]
  cases tryCommand i s with
  | error c => exact congrArg Host.Outcome.next (panFree_commandFault c _ s v p)
  | ok u => exact congrArg Host.Outcome.next (panFree_completeCommand u v p)

end Sys2Proof.Machine

/-! SUPPORT. The address map (R87 to R93): what the port finds at an address, and at which address a location is. -/

namespace Sys2Proof.Machine

/-! ### The LFOs inside a record -/

/-- The word of a voice record at which one of its LFOs begins (R90). -/
def voiceLfoWord : VoiceLfo → Nat
  | .mf => 16
  | .f => 32
  | .ma => 48
  | .a => 64

/-- The word of a filter record at which one of its LFOs begins (R89). -/
def filterLfoWord : FilterLfo → Nat
  | .metaCut => 16
  | .cut => 32

theorem lfoAddr_voice (v : Fin 32) (j : VoiceLfo) :
    lfoAddr (.voice v j) = 0x004000 + v.val * 0x200 + 4 * voiceLfoWord j := by
  cases j <;> rfl

theorem lfoAddr_filter (f : Fin 4) (j : FilterLfo) :
    lfoAddr (.filter f j) = 0x001000 + f.val * 0x200 + 4 * filterLfoWord j := by
  cases j <;> rfl

theorem locateVoice_lfo (v : Fin 32) (j : VoiceLfo) {w : Nat} (hw : w < 16) :
    locateVoice v (voiceLfoWord j + w) = locateLfo (.voice v j) w := by
  cases j <;> simp (disch := omega) only [voiceLfoWord, locateVoice, if_neg, if_pos, Nat.add_sub_cancel_left]

theorem locateFilter_lfo (f : Fin 4) (j : FilterLfo) {w : Nat} (hw : w < 16) :
    locateFilter f (filterLfoWord j + w) = locateLfo (.filter f j) w := by
  cases j <;> simp (disch := omega) only [filterLfoWord, locateFilter, if_neg, if_pos, Nat.add_sub_cancel_left]

/-! ### From an address to its location -/

/-- At address `a` the map has a reserved word, or a location of this core whose own address is `a` (R88 to R92). -/
def LocatedAt (p : Params) (a : Nat) (l : Loc) : Prop := l = .reserved ∨ (locExists p l ∧ a = locAddr l)

theorem locatedAt_locateGlobal (p : Params) (w : Nat) : LocatedAt p (4 * w) (locateGlobal w) := by
  unfold locateGlobal
  split
  case h_23 => exact .inl rfl
  all_goals exact .inr ⟨trivial, rfl⟩

theorem locatedAt_locateOsc {p : Params} {t : OscSel} (ht : ∀ r, locExists p (.osc t r)) (w : Nat) :
    LocatedAt p (oscAddr t + 4 * w) (locateOsc t w) := by
  unfold locateOsc
  split
  case h_6 => exact .inl rfl
  all_goals exact .inr ⟨ht _, rfl⟩

theorem locatedAt_locateLfo {p : Params} {l : LfoSel} (hl : lfoExists p l) (w : Nat) :
    LocatedAt p (lfoAddr l + 4 * w) (locateLfo l w) := by
  unfold locateLfo
  split_ifs with hosc hdepth
  · exact locatedAt_locateOsc (t := .lfo l) (fun _ => hl) w
  · exact .inr ⟨hl, by rw [hdepth]; rfl⟩
  · exact .inl rfl

theorem locatedAt_locateFilterReg (p : Params) (f : Fin 4) (w : Nat) :
    LocatedAt p (0x001000 + f.val * 0x200 + 4 * w) (locateFilterReg f w) := by
  unfold locateFilterReg
  split
  case h_16 => exact .inl rfl
  all_goals exact .inr ⟨trivial, rfl⟩

theorem locatedAt_locateFilter (p : Params) (f : Fin 4) (w : Nat) :
    LocatedAt p (0x001000 + f.val * 0x200 + 4 * w) (locateFilter f w) := by
  have hlfo : ∀ j, filterLfoWord j ≤ w →
      LocatedAt p (0x001000 + f.val * 0x200 + 4 * w) (locateLfo (.filter f j) (w - filterLfoWord j)) := fun j hw => by
    have haddr := lfoAddr_filter f j
    rw [show 0x001000 + f.val * 0x200 + 4 * w = lfoAddr (.filter f j) + 4 * (w - filterLfoWord j) by omega]
    exact locatedAt_locateLfo (l := .filter f j) trivial _
  unfold locateFilter
  split_ifs with h16 h32
  · exact locatedAt_locateFilterReg p f w
  · exact hlfo .metaCut (Nat.le_of_not_lt h16)
  · exact hlfo .cut (Nat.le_of_not_lt h32)
  · exact .inl rfl

theorem locatedAt_locateVoice {p : Params} {v : Fin 32} (hv : v.val < p.nVoice) (w : Nat) :
    LocatedAt p (0x004000 + v.val * 0x200 + 4 * w) (locateVoice v w) := by
  have hlfo : ∀ j, voiceLfoWord j ≤ w →
      LocatedAt p (0x004000 + v.val * 0x200 + 4 * w) (locateLfo (.voice v j) (w - voiceLfoWord j)) := fun j hw => by
    have haddr := lfoAddr_voice v j
    rw [show 0x004000 + v.val * 0x200 + 4 * w = lfoAddr (.voice v j) + 4 * (w - voiceLfoWord j) by omega]
    exact locatedAt_locateLfo (l := .voice v j) hv _
  have hosc : 8 ≤ w → LocatedAt p (0x004000 + v.val * 0x200 + 4 * w) (locateOsc (.voice v) (w - 8)) := fun hw => by
    rw [show 0x004000 + v.val * 0x200 + 4 * w = oscAddr (.voice v) + 4 * (w - 8) by simp only [oscAddr]; omega]
    exact locatedAt_locateOsc (t := .voice v) (fun _ => hv) _
  unfold locateVoice
  split_ifs with h0 h1 h2 h8 h16 h32 h48 h64
  · exact .inr ⟨hv, by rw [h0]; rfl⟩
  · exact .inr ⟨hv, by rw [h1]; rfl⟩
  · exact .inr ⟨hv, by rw [h2]; rfl⟩
  · exact .inl rfl
  · exact hosc (Nat.le_of_not_lt h8)
  · exact hlfo .mf (Nat.le_of_not_lt h16)
  · exact hlfo .f (Nat.le_of_not_lt h32)
  · exact hlfo .ma (Nat.le_of_not_lt h48)
  · exact hlfo .a (Nat.le_of_not_lt h64)
  · exact .inl rfl

theorem locatedAt_locateRom {p : Params} {a : Nat} (h4 : a % 4 = 0) : LocatedAt p a (locateRom p a) := by
  unfold locateRom
  split_ifs with h
  · simp only [romWordLegal, Bool.and_eq_true, decide_eq_true_eq] at h
    obtain ⟨⟨⟨hlow, hkind⟩, hoct⟩, hindex⟩ := h
    exact .inr ⟨⟨_, hkind, _, hoct, _, hindex, by omega⟩, rfl⟩
  · exact .inl rfl

theorem locatedAt_of_locateRam {p : Params} {a : Nat} {l : Loc} (h4 : a % 4 = 0) (hlow : 0x100000 ≤ a)
    (h : locateRam p a = some l) : LocatedAt p a l := by
  unfold locateRam at h
  split_ifs at h with hbuf hword <;> cases h
  · exact .inr ⟨⟨_, (validBuf_iff p _).1 hbuf, _, hword, by omega⟩, rfl⟩
  · exact .inl rfl

/-- What the map has at an aligned address. -/
theorem locatedAt_of_locate {p : Params} {a : Nat} {l : Loc} (h4 : a % 4 = 0) (h : locate p a = some l) :
    LocatedAt p a l := by
  unfold locate at h
  split_ifs at h with hglobal hfilter hvoice hexists hrom hram
  · obtain rfl := Option.some.inj h
    have hloc := locatedAt_locateGlobal p (a / 4)
    rwa [show 4 * (a / 4) = a by omega] at hloc
  · obtain rfl := Option.some.inj h
    have hloc := locatedAt_locateFilter p ⟨(a - 0x001000) / 0x200, by omega⟩ ((a - 0x001000) % 0x200 / 4)
    rwa [show 0x001000 + (a - 0x001000) / 0x200 * 0x200 + 4 * ((a - 0x001000) % 0x200 / 4) = a by omega] at hloc
  · obtain rfl := Option.some.inj h
    have hloc := locatedAt_locateVoice (v := ⟨(a - 0x004000) / 0x200, by omega⟩) hexists ((a - 0x004000) % 0x200 / 4)
    rwa [show 0x004000 + (a - 0x004000) / 0x200 * 0x200 + 4 * ((a - 0x004000) % 0x200 / 4) = a by omega] at hloc
  · obtain rfl := Option.some.inj h
    exact locatedAt_locateRom h4
  · exact locatedAt_of_locateRam h4 hram.1 h

theorem hostLoc_of_misaligned (p : Params) {a : Addr} (h : a.toNat % 4 ≠ 0) : hostLoc p a = none := if_neg h

theorem hostLoc_of_aligned (p : Params) {a : Addr} (h : a.toNat % 4 = 0) : hostLoc p a = locate p a.toNat := if_pos h

/-- A location the port reaches is a reserved word, or is at its own address. -/
theorem locatedAt_of_hostLoc {p : Params} {a : Addr} {l : Loc} (h : hostLoc p a = some l) : LocatedAt p a.toNat l := by
  by_cases h4 : a.toNat % 4 = 0
  · exact locatedAt_of_locate h4 (hostLoc_of_aligned p h4 ▸ h)
  · exact absurd ((hostLoc_of_misaligned p h4).symm.trans h) nofun

/-- The address of an unreserved location the port reaches. -/
theorem toNat_eq_locAddr {p : Params} {a : Addr} {l : Loc} (h : hostLoc p a = some l) (hl : l ≠ .reserved) :
    a.toNat = locAddr l :=
  ((locatedAt_of_hostLoc h).resolve_left hl).2

/-! ### The rows of the map -/

theorem locate_filter (p : Params) (f : Fin 4) {off : Nat} (hoff : off < 0x200) :
    locate p (0x001000 + f.val * 0x200 + off) = some (locateFilter f (off / 4)) := by
  have hrow : (0x001000 + f.val * 0x200 + off - 0x001000) / 0x200 = f.val := by omega
  have hword : (0x001000 + f.val * 0x200 + off - 0x001000) % 0x200 / 4 = off / 4 := by omega
  unfold locate
  rw [if_neg (by omega), dif_pos (by omega)]
  simp only [hrow, hword]

theorem locate_voice {p : Params} {v : Fin 32} (hv : v.val < p.nVoice) {off : Nat} (hoff : off < 0x200) :
    locate p (0x004000 + v.val * 0x200 + off) = some (locateVoice v (off / 4)) := by
  have hrow : (0x004000 + v.val * 0x200 + off - 0x004000) / 0x200 = v.val := by omega
  have hword : (0x004000 + v.val * 0x200 + off - 0x004000) % 0x200 / 4 = off / 4 := by omega
  unfold locate
  rw [if_neg (by omega), dif_neg (by omega), dif_pos (by omega)]
  simp only [hrow, hword, if_pos hv]

theorem locate_rom (p : Params) {a : Nat} (h : 0x040000 ≤ a ∧ a < 0x070000) : locate p a = some (locateRom p a) := by
  unfold locate
  rw [if_neg (by omega), dif_neg (by omega), dif_neg (by omega), if_pos h]

theorem locate_ram (p : Params) {a : Nat} (h : 0x100000 ≤ a ∧ a < 0x340000) : locate p a = locateRam p a := by
  unfold locate
  rw [if_neg (by omega), dif_neg (by omega), dif_neg (by omega), if_neg (by omega), if_pos h]

/-- The rows of R87 are what is mapped. -/
theorem locate_eq_none_iff {p : Params} (hvoices : p.nVoice ≤ 32) (a : Nat) :
    locate p a = none ↔ ¬ addressMapped p a := by
  have hbuf : ∀ b, bufferExists p b → b < 144 := fun b hb => by unfold bufferExists at hb; omega
  unfold addressMapped locate
  split_ifs with hglobal hfilter hvoice hexists hrom hram
  · simp [hglobal]
  · simp [hfilter]
  · simp only [false_iff, not_not]
    omega
  · simp only [true_iff]
    rintro (h | h | h | h | ⟨b, -, hlow, -⟩) <;> omega
  · simp [hrom]
  · unfold locateRam
    split_ifs with hvalid
    · simp only [false_iff, not_not]
      exact .inr (.inr (.inr (.inr ⟨_, (validBuf_iff p _).1 hvalid, by omega, by omega⟩)))
    · simp only [true_iff]
      rintro (h | h | h | h | ⟨b, hb, hlow, hhigh⟩)
      case inr.inr.inr.inr =>
        obtain rfl : b = (a - 0x100000) / 0x4000 := by omega
        exact hvalid ((validBuf_iff p _).2 hb)
      all_goals omega
  · simp only [true_iff]
    rintro (h | h | h | h | ⟨b, hb, hlow, hhigh⟩)
    case inr.inr.inr.inr =>
      have := hbuf b hb
      omega
    all_goals omega

/-! ### From a location to its address -/

theorem oscOffset_lt (r : OscReg) : oscOffset r < 0x20 := by
  cases r <;> decide

/-- The words of the record of an LFO that exists (R56, R89, R90). -/
theorem locate_lfo {p : Params} {l : LfoSel} (hl : lfoExists p l) {off : Nat} (hoff : off < 0x40) :
    locate p (lfoAddr l + off) = some (locateLfo l (off / 4)) := by
  rcases l with ⟨v, j⟩ | ⟨f, j⟩
  · have hj : voiceLfoWord j ≤ 64 := by cases j <;> decide
    rw [lfoAddr_voice, Nat.add_assoc, locate_voice hl (by omega), Nat.mul_add_div (by decide),
      locateVoice_lfo v j (by omega)]
  · have hj : filterLfoWord j ≤ 32 := by cases j <;> decide
    rw [lfoAddr_filter, Nat.add_assoc, locate_filter p f (by omega), Nat.mul_add_div (by decide),
      locateFilter_lfo f j (by omega)]

/-- In legal parameters a location of this core is what the map has at its address. -/
theorem locate_locAddr {p : Params} (hp : paramsLegal p = true) {l : Loc} (hl : locExists p l) :
    locate p (locAddr l) = some l := by
  simp only [paramsLegal, Bool.and_eq_true, decide_eq_true_eq] at hp
  cases l with
  | global r => cases r <;> rfl
  | filter f r =>
    have hoff : filterOffset r < 0x40 := by cases r <;> decide
    refine (locate_filter p f (by omega)).trans ?_
    cases r <;> rfl
  | voice v r =>
    have hoff : voiceOffset r < 0x20 := by cases r <;> decide
    refine (locate_voice hl (by omega)).trans ?_
    cases r <;> rfl
  | osc t r =>
    have hoff := oscOffset_lt r
    cases t with
    | voice v =>
      show locate p (0x004000 + v.val * 0x200 + 0x020 + oscOffset r) = _
      rw [Nat.add_assoc, locate_voice hl (by omega)]
      cases r <;> rfl
    | lfo l =>
      refine (locate_lfo hl (by omega)).trans ?_
      cases r <;> rfl
  | depth l => exact locate_lfo hl (by decide)
  | rom a =>
    obtain ⟨k, hk, o, ho, i, hi, rfl⟩ := hl
    have hword : (0x040000 + ((k * 16 + o) * 1024 + i) * 4 - 0x040000) / 4 = (k * 16 + o) * 1024 + i := by omega
    have hlegal : romWordLegal p (0x040000 + ((k * 16 + o) * 1024 + i) * 4) = true := by
      simp only [romWordLegal, hword, Bool.and_eq_true, decide_eq_true_eq]
      omega
    show locate p (0x040000 + ((k * 16 + o) * 1024 + i) * 4) = _
    rw [locate_rom p (by omega), locateRom, if_pos hlegal]
  | ram a =>
    obtain ⟨b, hb, n, hn, rfl⟩ := hl
    have hbuf : b < 144 := by unfold bufferExists at hb; omega
    have hslot : (0x100000 + b * 0x4000 + n * 4 - 0x100000) / 0x4000 = b := by omega
    show locate p (0x100000 + b * 0x4000 + n * 4) = _
    rw [locate_ram p (by omega), locateRam, hslot, if_pos ((validBuf_iff p b).2 hb), if_pos (by omega)]
  | reserved => exact hl.elim

theorem lfoAddr_mod_four (l : LfoSel) : lfoAddr l % 4 = 0 := by
  rcases l with ⟨v, j⟩ | ⟨f, j⟩
  · rw [lfoAddr_voice]
    omega
  · rw [lfoAddr_filter]
    omega

theorem oscAddr_mod_four (t : OscSel) : oscAddr t % 4 = 0 := by
  cases t with
  | voice v =>
    show (0x004000 + v.val * 0x200 + 0x020) % 4 = 0
    omega
  | lfo l => exact lfoAddr_mod_four l

/-- Every location of this core is a word (R97). -/
theorem locAddr_mod_four {p : Params} {l : Loc} (hl : locExists p l) : locAddr l % 4 = 0 := by
  cases l with
  | global r => cases r <;> rfl
  | filter f r =>
    have hoff : filterOffset r % 4 = 0 := by cases r <;> rfl
    show (0x001000 + f.val * 0x200 + filterOffset r) % 4 = 0
    omega
  | voice v r =>
    have hoff : voiceOffset r % 4 = 0 := by cases r <;> rfl
    show (0x004000 + v.val * 0x200 + voiceOffset r) % 4 = 0
    omega
  | osc t r =>
    have hoff : oscOffset r % 4 = 0 := by cases r <;> rfl
    have haddr := oscAddr_mod_four t
    show (oscAddr t + oscOffset r) % 4 = 0
    omega
  | depth l =>
    have haddr := lfoAddr_mod_four l
    show (lfoAddr l + 0x20) % 4 = 0
    omega
  | rom a =>
    obtain ⟨k, -, o, -, i, -, rfl⟩ := hl
    show (0x040000 + ((k * 16 + o) * 1024 + i) * 4) % 4 = 0
    omega
  | ram a =>
    obtain ⟨b, -, n, -, rfl⟩ := hl
    show (0x100000 + b * 0x4000 + n * 4) % 4 = 0
    omega
  | reserved => exact hl.elim

/-- What the map has is below the end of the sample RAM (R87). -/
theorem lt_of_locate {p : Params} {a : Nat} {l : Loc} (h : locate p a = some l) : a < 0x340000 := by
  by_contra hhigh
  unfold locate at h
  rw [if_neg (by omega), dif_neg (by omega), dif_neg (by omega), if_neg (by omega), if_neg (by omega)] at h
  exact absurd h nofun

/-- In legal parameters the port reaches every location of this core, at its own address. -/
theorem hostLoc_locAddr {p : Params} (hp : paramsLegal p = true) {l : Loc} (hl : locExists p l) :
    hostLoc p (BitVec.ofNat 24 (locAddr l)) = some l := by
  have hloc := locate_locAddr hp hl
  have haddr : (BitVec.ofNat 24 (locAddr l)).toNat = locAddr l :=
    (BitVec.toNat_ofNat _ _).trans (Nat.mod_eq_of_lt ((lt_of_locate hloc).trans (by decide)))
  rw [hostLoc_of_aligned p (haddr.symm ▸ locAddr_mod_four hl), haddr, hloc]

end Sys2Proof.Machine

/-! The obligations about the host port: the address map, BUSY_ACCESS and BUS_ERROR, the sample RAM and the words that
ignore writes (R85 to R103). -/

namespace Sys2Proof.Machine

/-! ### The outcomes of a transaction -/

theorem busy_eq_false {s : State} (hidle : s.inFlight = none) : busy s = false := congrArg Option.isSome hidle

theorem busy_eq_true {s : State} {c : InFlight} (hc : s.inFlight = some c) : busy s = true := congrArg Option.isSome hc

/-- While BUSY = 0 no read is refused. -/
theorem readable_of_idle {a : Addr} {s : State} (hidle : s.inFlight = none) :
    busy s = true → readableWhileBusy a = true := fun hb => absurd (hb.symm.trans (busy_eq_false hidle)) nofun

/-- While BUSY = 1 a read of anything but STATUS and ID is refused (R101). -/
theorem hostRead_of_refused {a : Addr} {s : State} (hb : busy s = true) (ha : readableWhileBusy a = false) :
    hostRead a s = busyRefuse a s := by
  simp [hostRead, hb, ha]

section
variable {a : Addr} {s : State} (hb : busy s = true → readableWhileBusy a = true)
include hb

/-- A read that is not refused, at no mapped aligned address (R93, R97). -/
theorem hostRead_of_unmapped (hl : hostLoc s.hw a = none) : hostRead a s = busRefuse a s := by
  unfold hostRead
  rw [if_neg (by simpa using hb), hl]

/-- A read that is not refused is answered (R85). -/
theorem hostRead_of_mapped {l : Loc} (hl : hostLoc s.hw a = some l) : hostRead a s = respond .okay (readLoc s l) s := by
  unfold hostRead
  rw [if_neg (by simpa using hb), hl]

end

theorem hostWrite_of_busy {s : State} (hb : busy s = true) (a : Addr) (v : Word) :
    hostWrite a v s = busyRefuse a s := if_pos hb

theorem hostWrite_of_unmapped {a : Addr} {s : State} (hidle : s.inFlight = none) (hl : hostLoc s.hw a = none)
    (v : Word) : hostWrite a v s = busRefuse a s := by
  simp [hostWrite, busy, hidle, hl]

/-- A refused access leaves the state as it is but for PEND and the port's answer (R101, R279). -/
theorem busyRefuse_eq (a : Addr) (s : State) : busyRefuse a s = { s with
    pend := some (s.pend.getD { code := .busyAccess, addr := a })
    lastResp := some { status := .busyAccess, data := 0 } } := by
  cases hpend : s.pend <;> simp [busyRefuse, holdPending, respond, hpend]

/-- The first BUS_ERROR since reset is recorded (R276, R279). -/
theorem busRefuse_of_clear {s : State} (hf : s.fault = false) (a : Addr) : busRefuse a s = { s with
    fault := true, faultCode := .busError, faultInfo := a.setWidth 32, done := true
    lastResp := some { status := .busError, data := 0 } } := by
  simp [busRefuse, raiseFault, respond, hf]

/-- A BUS_ERROR of a faulted core leaves the record of the first fault (R286). -/
theorem busRefuse_of_faulted {s : State} (hf : s.fault = true) (a : Addr) : busRefuse a s = { s with
    done := true, lastResp := some { status := .busError, data := 0 } } := by
  simp [busRefuse, raiseFault, respond, hf]

/-- What a location reads as is the same whatever the host does next. -/
theorem readLoc_inbox (s : State) (rest : List HostEvent) (l : Loc) :
    readLoc { s with inbox := rest } l = readLoc s l := by
  cases l with
  | osc t r => exact congrArg (readOsc · r) (getOsc_congr rfl rfl t)
  | depth l => exact congrArg Lfo.depth (getLfo_congr rfl rfl l)
  | global r => cases r <;> rfl
  | _ => rfl

/-! ### The host's turn in a step (R101, R103, R112, R127) -/

/-- While the delay of a command runs, a step is the host's turn and one count of the delay (R320). -/
theorem step_of_waiting {s t : State} {w : Word} {k : Nat} (hc : s.inFlight = some { word := w, wait := k + 1 })
    (hturn : hostTurn s = t) (ht : t.inFlight = s.inFlight) :
    step s = .next { t with inFlight := some { word := w, wait := k } } := by
  simp [step, turn, countDown, hc, hturn, ht]

theorem step_of_idle {s : State} (hidle : s.inFlight = none) : step s = .next (hostTurn s) := by
  simp [step, turn, hidle]

section
variable {s : State} {rest : List HostEvent} (hpin : s.resetPin = false)
include hpin

theorem hostTurn_read {a : Addr} (hin : s.inbox = .read a :: rest) :
    hostTurn s = hostRead a { s with inbox := rest } := by
  simp [hostTurn, hostEvent, hin, hpin]

theorem hostTurn_write {a : Addr} {v : Word} (hin : s.inbox = .write a v :: rest) :
    hostTurn s = hostWrite a v { s with inbox := rest } := by
  simp [hostTurn, hostEvent, hin, hpin]

/-- While BUSY = 0 a wait ends with one read of STATUS (R127). -/
theorem hostTurn_wait_of_idle (hidle : s.inFlight = none) (hin : s.inbox = .wait :: rest) :
    hostTurn s = hostRead 0x000008#24 { s with inbox := rest } := by
  simp [hostTurn, hostEvent, hin, hpin, busy, hidle]

omit hpin in
/-- While BUSY = 1 a wait reads STATUS and stays the host's next event (R127). -/
theorem hostTurn_wait_of_busy (hb : busy s = true) (hin : s.inbox = .wait :: rest) :
    hostTurn s = hostRead 0x000008#24 s := by
  simp [hostTurn, hin, hb]

end

/-- STATUS is read whether BUSY is 1 or not (R101). -/
theorem hostRead_status (s : State) : hostRead 0x000008#24 s = respond .okay (statusWord s) s :=
  hostRead_of_mapped (l := .global .status) (fun _ => rfl) rfl

/-- ID is read whether BUSY is 1 or not (R101). -/
theorem hostRead_id (s : State) : hostRead 0x000000#24 s = respond .okay 0x4C465331#32 s :=
  hostRead_of_mapped (l := .global .id) (fun _ => rfl) rfl

section
variable {s : State} {w : Word} {k : Nat} {rest : List HostEvent}
  (hc : s.inFlight = some { word := w, wait := k + 1 }) (hpin : s.resetPin = false)
include hc hpin

/-- While BUSY = 1 a write, or a read of anything but STATUS and ID, is refused and held (R101, R279). -/
theorem step_of_refused {e : HostEvent} {a : Addr} (hin : s.inbox = e :: rest)
    (he : (∃ v, e = .write a v) ∨ (e = .read a ∧ a ≠ 0x000000#24 ∧ a ≠ 0x000008#24)) :
    step s = .next { s with
      inbox := rest
      pend := some (s.pend.getD { code := .busyAccess, addr := a })
      lastResp := some { status := .busyAccess, data := 0 }
      inFlight := some { word := w, wait := k } } := by
  have hturn : hostTurn s = busyRefuse a { s with inbox := rest } := by
    have hb : busy { s with inbox := rest } = true := busy_eq_true hc
    obtain ⟨v, rfl⟩ | ⟨rfl, hid, hstatus⟩ := he
    · exact (hostTurn_write hpin hin).trans (hostWrite_of_busy hb a v)
    · have ha : readableWhileBusy a = false := by simp [readableWhileBusy, hid, hstatus]
      exact (hostTurn_read hpin hin).trans (hostRead_of_refused hb ha)
  exact step_of_waiting hc (hturn.trans (busyRefuse_eq a _)) rfl

/-- While BUSY = 1 STATUS and ID are answered (R101). -/
theorem step_of_read_answered {a : Addr} {d : Word} (hin : s.inbox = .read a :: rest)
    (hread : hostRead a { s with inbox := rest } = respond .okay d { s with inbox := rest }) :
    step s = .next { s with
      inbox := rest
      lastResp := some { status := .okay, data := d }
      inFlight := some { word := w, wait := k } } :=
  step_of_waiting hc ((hostTurn_read hpin hin).trans hread) rfl

omit hpin in
/-- While BUSY = 1 a wait polls STATUS and goes on waiting (R127). -/
theorem step_of_wait_busy (hin : s.inbox = .wait :: rest) :
    step s = .next { s with
      lastResp := some { status := .okay, data := statusWord s }
      inFlight := some { word := w, wait := k } } :=
  step_of_waiting hc ((hostTurn_wait_of_busy (busy_eq_true hc) hin).trans (hostRead_status s)) rfl

end

/-- Settles O13: the host's turn for each event, then one count of the delay while BUSY = 1. -/
theorem busyAccessIsHeld : Obligations.BusyAccessIsHeld := by
  refine ⟨fun s w k e rest hc hpin hin => ⟨fun a he => ?_, ?_, ?_, ?_⟩, ?_, ?_, ?_, ?_, ?_⟩
  · refine (step_of_refused hc hpin hin he).trans ?_
    cases s.pend <;> rfl
  · rintro rfl
    exact step_of_read_answered hc hpin hin (hostRead_id _)
  · rintro rfl
    exact step_of_read_answered hc hpin hin (hostRead_status _)
  · rintro rfl
    exact step_of_wait_busy hc hin
  · intro s a l rest hidle hpin hin hl
    have hread := hostRead_of_mapped (s := { s with inbox := rest }) (readable_of_idle hidle) hl
    rw [step_of_idle hidle, hostTurn_read hpin hin, hread, readLoc_inbox]
    rfl
  · intro s a rest hidle hpin hin _
    rw [step_of_idle hidle, hostTurn_read hpin hin]
  · intro s a v rest hidle hpin hin
    rw [step_of_idle hidle, hostTurn_write hpin hin]
  · intro s rest hidle hpin hin
    rw [step_of_idle hidle, hostTurn_wait_of_idle hpin hidle hin, hostRead_status]
    rfl
  · intro s hidle hin
    rw [step_of_idle hidle, hostTurn, hin]

/-! ### The address map (R87 to R93, R97) -/

/-- Settles O16: a bad address is refused as BUS_ERROR, and the map and the locations' own addresses agree. -/
theorem badAddressIsBusError : Obligations.BadAddressIsBusError := by
  have hrefused : ∀ (s : State) (a : Addr) (v : Word), s.inFlight = none → hostLoc s.hw a = none →
      hostRead a s = busRefuse a s ∧ hostWrite a v s = hostRead a s := fun s a v hidle hl => by
    have hread := hostRead_of_unmapped (readable_of_idle hidle) hl
    exact ⟨hread, (hostWrite_of_unmapped hidle hl v).trans hread.symm⟩
  refine ⟨fun s a v hidle hf hl => ?_, fun s a v hidle hf hl => ?_, fun p a h => hostLoc_of_misaligned p h,
    fun p a h hvoices => ?_, fun p l hp => ⟨fun hl => hostLoc_locAddr hp hl, fun a hl => locatedAt_of_hostLoc hl⟩⟩
  · obtain ⟨hread, hwrite⟩ := hrefused s a v hidle hl
    exact ⟨hread.trans (busRefuse_of_clear hf a), hwrite⟩
  · obtain ⟨hread, hwrite⟩ := hrefused s a v hidle hl
    exact ⟨hread.trans (busRefuse_of_faulted hf a), hwrite⟩
  · rw [hostLoc_of_aligned p h]
    exact locate_eq_none_iff hvoices _

/-- Settles O17: an unreserved location determines its address. -/
theorem addressMapHasNoOverlap : Obligations.AddressMapHasNoOverlap := fun _ _ _ _ ha hb hl =>
  BitVec.eq_of_toNat_eq ((toNat_eq_locAddr ha hl).trans (toNat_eq_locAddr hb hl).symm)

/-! ### Idempotence (R99, R100) -/

theorem respond_respond (st st' : PortStatus) (d d' : Word) (s : State) :
    respond st' d' (respond st d s) = respond st' d' s := rfl

theorem busyRefuse_busyRefuse (a : Addr) (s : State) : busyRefuse a (busyRefuse a s) = busyRefuse a s := by
  cases hpend : s.pend <;> simp [busyRefuse, holdPending, respond, hpend]

theorem busRefuse_busRefuse (a : Addr) (s : State) : busRefuse a (busRefuse a s) = busRefuse a s := by
  cases hf : s.fault <;> simp [busRefuse, raiseFault, respond, hf]

theorem busy_busyRefuse (a : Addr) (s : State) : busy (busyRefuse a s) = busy s := by
  simp [busy, busyRefuse]

theorem busy_busRefuse (a : Addr) (s : State) : busy (busRefuse a s) = busy s := by
  simp [busy, busRefuse]

/-- The second read meets the same check and the same location as the first (R99). -/
theorem hostRead_hostRead (a : Addr) (s : State) : hostRead a (hostRead a s) = hostRead a s := by
  by_cases hb : busy s = true → readableWhileBusy a = true
  · cases hl : hostLoc s.hw a with
    | none =>
      have hw : (busRefuse a s).hw = s.hw := (sameData_busRefuse a s).hw
      rw [hostRead_of_unmapped hb hl, hostRead_of_unmapped (by rwa [busy_busRefuse]) (by rwa [hw]), busRefuse_busRefuse]
    | some l =>
      rw [hostRead_of_mapped hb hl, hostRead_of_mapped (s := respond _ _ s) hb hl, readLoc_respond, respond_respond]
  · obtain ⟨hbusy, ha⟩ : busy s = true ∧ readableWhileBusy a = false := by simpa using hb
    rw [hostRead_of_refused hbusy ha, hostRead_of_refused (by rwa [busy_busyRefuse]) ha, busyRefuse_busyRefuse]

theorem writeOsc_writeOsc (p : Params) (r : OscReg) (v : Word) (o : Osc) :
    writeOsc p r v (writeOsc p r v o) = writeOsc p r v o := by
  cases r <;> rfl

theorem fstatClear_fstatClear (v : Word) (c : Fstat) : fstatClear v (fstatClear v c) = fstatClear v c := by
  simp [fstatClear]

theorem writeFilter_writeFilter (r : FilterReg) (v : Word) (R : Filter) :
    writeFilter r v (writeFilter r v R) = writeFilter r v R := by
  cases r
  case fstat => simp only [writeFilter, fstatClear_fstatClear]
  all_goals rfl

theorem writeVoice_writeVoice (r : VoiceReg) (v : Word) (V : Voice) :
    writeVoice r v (writeVoice r v V) = writeVoice r v V := by
  cases r <;> rfl

theorem writeStatus_writeStatus (v : Word) (s : State) : writeStatus v (writeStatus v s) = writeStatus v s := by
  cases hv : v.getLsbD 1 <;> simp only [writeStatus, hv, if_true, Bool.false_eq_true, if_false]

theorem writeGlobal_writeGlobal {r : GlobalReg} (hr : r ≠ .cmd) (v : Word) (s : State) :
    writeGlobal r v (writeGlobal r v s) = writeGlobal r v s := by
  cases r
  case status => exact writeStatus_writeStatus v s
  case cmd => exact absurd rfl hr
  all_goals rfl

/-- Storing the same word twice is storing it once, CMD apart (R100). -/
theorem writeLoc_writeLoc {l : Loc} (hl : l ≠ .global .cmd) (v : Word) {s : State} (hram : RamCanonical s) :
    writeLoc l v (writeLoc l v s) = writeLoc l v s := by
  cases l with
  | global r => exact writeGlobal_writeGlobal (fun hr => hl (hr ▸ rfl)) v s
  | filter f r => simp only [writeLoc, getFilter_setFilter_same, setFilter_setFilter, writeFilter_writeFilter]
  | voice i r => simp only [writeLoc, getVoice_setVoice_same, setVoice_setVoice, writeVoice_writeVoice]
  | osc t r => simp only [writeLoc, getOsc_setOsc_same, setOsc_setOsc, setOsc_hw, writeOsc_writeOsc]
  | depth l => simp only [writeLoc, getLfo_setLfo_same, setLfo_setLfo]
  | rom a => rfl
  | ram a => simp only [writeLoc, writeWord_writeWord_same s.ram a v hram]
  | reserved => rfl

theorem setLfo_respond (st : PortStatus) (d : Word) (s : State) (l : LfoSel) (r : Lfo) :
    setLfo (respond st d s) l r = respond st d (setLfo s l r) := by
  cases l <;> rfl

theorem setOsc_respond (st : PortStatus) (d : Word) (s : State) (t : OscSel) (o : Osc) :
    setOsc (respond st d s) t o = respond st d (setOsc s t o) := by
  cases t with
  | voice v => rfl
  | lfo l => exact setLfo_respond st d s l { getLfo s l with osc := o }

theorem writeStatus_respond (v : Word) (st : PortStatus) (d : Word) (s : State) :
    writeStatus v (respond st d s) = respond st d (writeStatus v s) := by
  unfold writeStatus
  split <;> rfl

theorem writeGlobal_respond {r : GlobalReg} (hr : r ≠ .cmd) (v : Word) (st : PortStatus) (d : Word) (s : State) :
    writeGlobal r v (respond st d s) = respond st d (writeGlobal r v s) := by
  cases r
  case status => exact writeStatus_respond v st d s
  case cmd => exact absurd rfl hr
  all_goals rfl

/-- A write does not depend on the port's last answer. -/
theorem writeLoc_respond {l : Loc} (hl : l ≠ .global .cmd) (v : Word) (st : PortStatus) (d : Word) (s : State) :
    writeLoc l v (respond st d s) = respond st d (writeLoc l v s) := by
  cases l with
  | global r => exact writeGlobal_respond (fun hr => hl (hr ▸ rfl)) v st d s
  | osc t r => simp only [writeLoc, getOsc_respond, respond_hw, setOsc_respond]
  | depth l => simp only [writeLoc, getLfo_respond, setLfo_respond]
  | _ => rfl

theorem hw_writeLoc (l : Loc) (v : Word) (s : State) : (writeLoc l v s).hw = s.hw := by
  cases l with
  | global r => exact (sameData_writeGlobal r v s).hw
  | osc t r => exact setOsc_hw s t _
  | depth l => exact setLfo_hw s l _
  | _ => rfl

/-- CMD is at one address alone (R88). -/
theorem ne_cmd_of_hostLoc {p : Params} {a : Addr} {l : Loc} (h : hostLoc p a = some l) (ha : a ≠ 0x00000C#24) :
    l ≠ .global .cmd := by
  rintro rfl
  exact ha (addressMapHasNoOverlap p a _ _ h rfl nofun)

/-- The second write meets the same check and the same location as the first (R100). -/
theorem hostWrite_hostWrite {a : Addr} (ha : a ≠ 0x00000C#24) (v : Word) {s : State} (hram : RamCanonical s) :
    hostWrite a v (hostWrite a v s) = hostWrite a v s := by
  cases hidle : s.inFlight with
  | some c =>
    have hb := busy_eq_true hidle
    rw [hostWrite_of_busy hb, hostWrite_of_busy (by rwa [busy_busyRefuse]), busyRefuse_busyRefuse]
  | none =>
    cases hl : hostLoc s.hw a with
    | none =>
      have hw : (busRefuse a s).hw = s.hw := (sameData_busRefuse a s).hw
      rw [hostWrite_of_unmapped hidle hl,
        hostWrite_of_unmapped (by simpa [busRefuse] using hidle) (by rwa [hw]), busRefuse_busRefuse]
    | some l =>
      have hcmd := ne_cmd_of_hostLoc hl ha
      have hidle' : (respond .okay 0 (writeLoc l v s)).inFlight = none := (inFlight_writeLoc hcmd v s).trans hidle
      have hl' : hostLoc (respond .okay 0 (writeLoc l v s)).hw a = some l := by
        rwa [respond_hw, hw_writeLoc]
      rw [hostWrite_of_hostLoc hidle hl, hostWrite_of_hostLoc hidle' hl', writeLoc_respond hcmd, respond_respond,
        writeLoc_writeLoc hcmd v hram]

/-- A CMD write to a core that is neither busy nor faulted issues the word (R113). -/
theorem hostWrite_cmd {s : State} (hidle : s.inFlight = none) (hf : s.fault = false) (v : Word) :
    hostWrite 0x00000C#24 v s = { s with
      inFlight := some { word := v, wait := Config.completionDelay s.issues }
      issues := s.issues + 1
      lastResp := some { status := .okay, data := 0 } } := by
  rw [hostWrite_of_hostLoc (l := .global .cmd) hidle rfl]
  simp [writeLoc, writeGlobal, issueCommand, respond, hf]

/-- Settles O18: repeated transactions meet the same check and location, and a stored word replaces itself. -/
theorem transactionsAreIdempotent : Obligations.TransactionsAreIdempotent := by
  refine fun s a v => ⟨hostRead_hostRead a s, fun ha hram => hostWrite_hostWrite ha v hram, ?_⟩
  rintro rfl hidle hf
  have hcmd := hostWrite_cmd hidle hf v
  exact ⟨by rw [hcmd], by rw [hcmd]; rfl, hcmd⟩

/-! ### The sample RAM, the ROM and the reserved words (R91, R92, R94, R95) -/

/-- Settles O19: the write stores one word of the sample RAM, by the laws of memory. -/
theorem sampleRamHoldsWrittenWords : Obligations.SampleRamHoldsWrittenWords := by
  intro s a k v hidle hram hl
  obtain rfl : a.toNat = k := toNat_eq_locAddr hl nofun
  rw [hostWrite_of_hostLoc hidle hl]
  exact ⟨readWord_writeWord_same s.ram _ v hram, fun j hj => readByte_writeWord_same s.ram _ j v hram hj,
    fun x hx => readByte_writeWord_ne s.ram _ x v hx, rfl⟩

/-- Settles O20: neither a reserved word nor a ROM word stores anything. -/
theorem reservedAndRomWordsIgnoreWrites : Obligations.ReservedAndRomWordsIgnoreWrites := by
  intro s a v l hidle hl hro
  rw [hostWrite_of_hostLoc hidle hl]
  obtain rfl | ⟨k, rfl⟩ := hro
  · exact ⟨rfl, fun _ => rfl⟩
  · exact ⟨rfl, nofun⟩

end Sys2Proof.Machine

/-! The obligations about the command word (R111, R119, R120, R125, R126). -/

namespace Sys2Proof

open Laws

/-! ### The decoder, branch by branch -/

theorem decode_of_illegal {w : Word} (h : 12 ≤ (fieldOp w).toNat) : decode w = .error .illegalOpcode := if_pos h

theorem decode_of_reserved {w : Word} (hop : (fieldOp w).toNat < 12)
    (hrsv : w &&& ~~~(usedMask (fieldOp w).toNat) ≠ 0) : decode w = .error .reservedBits :=
  (if_neg (Nat.not_le_of_lt hop)).trans (if_pos hrsv)

theorem decode_of_fits {w : Word} (hop : (fieldOp w).toNat < 12) (hfits : w &&& ~~~(usedMask (fieldOp w).toNat) = 0) :
    decode w = commandOf (fieldOp w).toNat w :=
  (if_neg (Nat.not_le_of_lt hop)).trans (if_neg (not_not_intro hfits))

/-- Each of the twelve opcodes has a command (R119). -/
theorem exists_commandOf {op : Nat} (hop : op < 12) (w : Word) : ∃ i, commandOf op w = .ok i := by
  interval_cases op <;> exact ⟨_, rfl⟩

/-- Everything the decoder can do: the two faults of R122, or one of the twelve commands. -/
theorem decode_cases (w : Word) :
    (12 ≤ (fieldOp w).toNat ∧ decode w = .error .illegalOpcode) ∨
    ((fieldOp w).toNat < 12 ∧ w &&& ~~~(usedMask (fieldOp w).toNat) ≠ 0 ∧ decode w = .error .reservedBits) ∨
    ((fieldOp w).toNat < 12 ∧ w &&& ~~~(usedMask (fieldOp w).toNat) = 0 ∧
      ∃ i, decode w = .ok i ∧ commandOf (fieldOp w).toNat w = .ok i) := by
  rcases Nat.lt_or_ge (fieldOp w).toNat 12 with hop | hop
  · by_cases hfits : w &&& ~~~(usedMask (fieldOp w).toNat) = 0
    · obtain ⟨i, hi⟩ := exists_commandOf hop w
      exact .inr (.inr ⟨hop, hfits, i, (decode_of_fits hop hfits).trans hi, hi⟩)
    · exact .inr (.inl ⟨hop, hfits, decode_of_reserved hop hfits⟩)
  · exact .inl ⟨hop, decode_of_illegal hop⟩

/-! ### Decoding an encoding (R111, R119) -/

theorem encodingFitsTable (i : Instr) : EncodingFitsTable.Statement i := by
  cases i with
  | nop => exact EncodingFitsTable.nop
  | init => exact EncodingFitsTable.init
  | teardown => exact EncodingFitsTable.teardown
  | processBlock => exact EncodingFitsTable.processBlock
  | blockBegin => exact EncodingFitsTable.blockBegin
  | blockEnd => exact EncodingFitsTable.blockEnd
  | voiceRender unit => exact EncodingFitsTable.voiceRender unit
  | filterBlock unit => exact EncodingFitsTable.filterBlock unit
  | filterStep unit => exact EncodingFitsTable.filterStep unit
  | oscNext unit sub cls => exact EncodingFitsTable.oscNext unit sub cls
  | oscRender unit sub cls ovw mono ufm uam => exact EncodingFitsTable.oscRender unit sub cls ovw mono ufm uam
  | lfoProduce unit sub cls ufm => exact EncodingFitsTable.lfoProduce unit sub cls ufm

theorem opcodeOf_lt (i : Instr) : (opcodeOf i).toNat < 12 := by
  cases i <;> simp [opcodeOf]

/-- The fields of an encoding are the command's own. -/
theorem commandOf_encode (i : Instr) : commandOf (opcodeOf i).toNat (encode i) = .ok i := by
  cases i <;> simp [opcodeOf, commandOf, encode]

/-- Settles O1: an encoding carries the command's opcode and fits its mask, and each field reads back from its place. -/
theorem decodeOfEncodeIsTheCommand : Obligations.DecodeOfEncodeIsTheCommand := by
  intro i
  obtain ⟨hop, hfits⟩ := encodingFitsTable i
  rw [decode_of_fits (hop ▸ opcodeOf_lt i) (hop ▸ hfits), hop, commandOf_encode]

/-! ### Encoding what was decoded (R111, R125) -/

/-- A bit outside a mask is clear in a word that fits the mask. -/
theorem getLsbD_of_fits {w m : Word} (hfits : w &&& ~~~m = 0) {j : Nat} (hj : j < 32) (hm : m.getLsbD j = false) :
    w.getLsbD j = false := by
  have hbit : (w &&& ~~~m).getLsbD j = false := by rw [hfits]; exact BitVec.getLsbD_zero
  rw [BitVec.getLsbD_and, BitVec.getLsbD_not, hm] at hbit
  simpa [hj] using hbit

/-- A word that fits a mask fits every larger one. -/
theorem fits_mono {w m m' : Word} (hfits : w &&& ~~~m = 0) (hle : m &&& ~~~m' = 0) : w &&& ~~~m' = 0 := by
  apply BitVec.eq_of_getLsbD_eq
  intro j hj
  rw [BitVec.getLsbD_and, BitVec.getLsbD_not]
  cases hm : m.getLsbD j with
  | false => simp [getLsbD_of_fits hfits hj hm]
  | true =>
    have hbit : (m &&& ~~~m').getLsbD j = false := by rw [hle]; exact BitVec.getLsbD_zero
    rw [BitVec.getLsbD_and, BitVec.getLsbD_not, hm, Bool.true_and] at hbit
    rw [hbit, Bool.and_false]
    exact BitVec.getLsbD_zero.symm

section
variable {w : Word} {op : BitVec 8} (hop : fieldOp w = op)
include hop

/-- A word with no bit from 25 up is assembled of its fields (R111). -/
theorem assemble_fields (hfits : w &&& ~~~0x01FFFFFF#32 = 0) :
    assemble op (fieldUnit w) (fieldSub w) (fieldCls w) (fieldFl0 w) (fieldFl1 w) (fieldFl2 w) (fieldFl3 w) = w := by
  subst hop
  apply BitVec.eq_of_getLsbD_eq
  intro j hj
  rw [getLsbD_assemble]
  rcases Nat.lt_or_ge j 25 with hfield | hrsv
  · interval_cases j <;> simp [fieldOp, fieldUnit, fieldSub, fieldCls, fieldFl0, fieldFl1, fieldFl2, fieldFl3]
  · rw [getLsbD_of_fits hfits hj (by interval_cases j <;> rfl)]
    simp (disch := omega) only [if_neg]

/-- With no bit from 22 up either, FL1, FL2 and FL3 are clear. -/
theorem assemble_fields_fl0 (hfits : w &&& ~~~0x003FFFFF#32 = 0) :
    assemble op (fieldUnit w) (fieldSub w) (fieldCls w) (fieldFl0 w) false false false = w := by
  have hall := assemble_fields hop (fits_mono hfits (by decide))
  rwa [show fieldFl1 w = false from getLsbD_of_fits hfits (by decide) (by decide),
    show fieldFl2 w = false from getLsbD_of_fits hfits (by decide) (by decide),
    show fieldFl3 w = false from getLsbD_of_fits hfits (by decide) (by decide)] at hall

/-- With no bit from 21 up either, FL0 is clear. -/
theorem assemble_fields_cls (hfits : w &&& ~~~0x001FFFFF#32 = 0) :
    assemble op (fieldUnit w) (fieldSub w) (fieldCls w) false false false false = w := by
  have hall := assemble_fields_fl0 hop (fits_mono hfits (by decide))
  rwa [show fieldFl0 w = false from getLsbD_of_fits hfits (by decide) (by decide)] at hall

/-- With no bit from 16 up either, CLS and SUB are clear. -/
theorem assemble_fields_unit (hfits : w &&& ~~~0x0000FFFF#32 = 0) :
    assemble op (fieldUnit w) 0 false false false false false = w := by
  have hsub : fieldSub w = 0 := BitVec.eq_of_getLsbD_eq fun j hj => by
    rw [fieldSub, BitVec.getLsbD_extractLsb', getLsbD_of_fits hfits (by omega) (by interval_cases j <;> rfl)]
    simp
  have hall := assemble_fields_cls hop (fits_mono hfits (by decide))
  rwa [hsub, show fieldCls w = false from getLsbD_of_fits hfits (by decide) (by decide)] at hall

/-- With no bit from 8 up, the word is its OP. -/
theorem assemble_fields_op (hfits : w &&& ~~~0x000000FF#32 = 0) :
    assemble op 0 0 false false false false false = w := by
  have hunit : fieldUnit w = 0 := BitVec.eq_of_getLsbD_eq fun j hj => by
    rw [fieldUnit, BitVec.getLsbD_extractLsb', getLsbD_of_fits hfits (by omega) (by interval_cases j <;> rfl)]
    simp
  have hall := assemble_fields_unit hop (fits_mono hfits (by decide))
  rwa [hunit] at hall

end

/-- The command of a word that fits its opcode's mask is encoded as that word: the mask clears the fields the command
has not. -/
theorem encode_of_commandOf {w : Word} {i : Instr} (hop : (fieldOp w).toNat < 12)
    (hfits : w &&& ~~~(usedMask (fieldOp w).toNat) = 0) (hi : commandOf (fieldOp w).toNat w = .ok i) :
    encode i = w := by
  have hword : fieldOp w = BitVec.ofNat 8 (fieldOp w).toNat := by simp
  generalize (fieldOp w).toNat = op at *
  interval_cases op <;> cases hi
  iterate 6 exact assemble_fields_op hword hfits
  iterate 3 exact assemble_fields_unit hword hfits
  · exact assemble_fields_cls hword hfits
  · exact assemble_fields hword hfits
  · exact assemble_fields_fl0 hword hfits

/-- Settles O2: a word that decodes fits its opcode's mask, so it is assembled of the fields the command has. -/
theorem encodeOfDecodeIsTheWord : Obligations.EncodeOfDecodeIsTheWord := by
  intro w i hi
  obtain ⟨-, he⟩ | ⟨-, -, he⟩ | ⟨hop, hfits, k, hk, hcmd⟩ := decode_cases w
  · cases he.symm.trans hi
  · cases he.symm.trans hi
  · cases hk.symm.trans hi
    exact encode_of_commandOf hop hfits hcmd

/-- Decoding and encoding are inverse to each other (R111). -/
theorem decode_eq_ok_iff {w : Word} {i : Instr} : decode w = .ok i ↔ w = encode i :=
  ⟨fun hi => (encodeOfDecodeIsTheWord w i hi).symm, fun hw => hw ▸ decodeOfEncodeIsTheCommand i⟩

/-! ### The match/mask pairs (R120) -/

theorem getLsbD_opMask (j : Nat) : (0xFF#32).getLsbD j = decide (j < 8) := by
  have hones : 0xFF#32 = (BitVec.allOnes 8).setWidth 32 := by decide
  rw [hones, BitVec.getLsbD_setWidth, BitVec.getLsbD_allOnes, Bool.and_eq_right_iff_imp, decide_eq_true_eq,
    decide_eq_true_eq]
  omega

/-- For a mask `m` with all of OP in it, one comparison tests OP and that no bit outside `m` is set. -/
theorem match_iff {w m : Word} (op : BitVec 8) (hm : 0xFF#32 &&& ~~~m = 0) :
    w &&& (0xFF#32 ||| ~~~m) = op.setWidth 32 ↔ fieldOp w = op ∧ w &&& ~~~m = 0 := by
  have hbits : ∀ j < 32, (w &&& (0xFF#32 ||| ~~~m)).getLsbD j = (w.getLsbD j && (decide (j < 8) || !m.getLsbD j)) :=
    fun j hj => by simp only [BitVec.getLsbD_and, BitVec.getLsbD_or, BitVec.getLsbD_not, getLsbD_opMask, hj,
      decide_true, Bool.true_and]
  have hop : ∀ j < 8, m.getLsbD j = true := fun j hj => by
    by_contra hclear
    have hbit := getLsbD_of_fits hm (by omega) (Bool.eq_false_iff.2 hclear)
    rw [getLsbD_opMask] at hbit
    exact absurd hj (of_decide_eq_false hbit)
  constructor
  · intro heq
    rw [heq] at hbits
    refine ⟨BitVec.eq_of_getLsbD_eq fun j hj => ?_, BitVec.eq_of_getLsbD_eq fun j hj => ?_⟩
    · simpa [fieldOp, hj, show j < 32 by omega] using (hbits j (by omega)).symm
    · rcases Nat.lt_or_ge j 8 with h8 | h8
      · simp [hop j h8]
      · simpa [hj, Nat.not_lt.2 h8, h8] using (hbits j hj).symm
  · rintro ⟨rfl, hfits⟩
    apply BitVec.eq_of_getLsbD_eq
    intro j hj
    rw [hbits j hj]
    rcases Nat.lt_or_ge j 8 with h8 | h8
    · simp [fieldOp, h8, hj]
    · cases hmj : m.getLsbD j
      · simp [getLsbD_of_fits hfits hj hmj, h8]
      · simp [h8, Nat.not_lt.2 h8]

/-- The words that decode to a command of opcode `op` are those of its match/mask pair (R120). -/
theorem exists_decode_iff {w : Word} {op : BitVec 8} (hop : op.toNat < 12) :
    (∃ i, decode w = .ok i ∧ opcodeOf i = op) ↔ w &&& (0xFF#32 ||| ~~~(usedMask op.toNat)) = op.setWidth 32 := by
  have hmask : ∀ k < 12, 0xFF#32 &&& ~~~(usedMask k) = 0 := by decide
  rw [match_iff op (hmask _ hop)]
  constructor
  · rintro ⟨i, hi, rfl⟩
    exact decode_eq_ok_iff.1 hi ▸ encodingFitsTable i
  · rintro ⟨rfl, hfits⟩
    obtain ⟨i, hi⟩ := exists_commandOf hop w
    have hdecode := (decode_of_fits hop hfits).trans hi
    obtain rfl := decode_eq_ok_iff.1 hdecode
    exact ⟨i, hdecode, (encodingFitsTable i).1.symm⟩

theorem decode_eq_reservedBits_iff (w : Word) : decode w = .error .reservedBits ↔
    (fieldOp w).toNat < 12 ∧ w &&& ~~~(usedMask (fieldOp w).toNat) ≠ 0 := by
  refine ⟨fun h => ?_, fun ⟨hop, hrsv⟩ => decode_of_reserved hop hrsv⟩
  obtain ⟨-, he⟩ | ⟨hop, hrsv, -⟩ | ⟨-, -, i, hi, -⟩ := decode_cases w
  · cases h.symm.trans he
  · exact ⟨hop, hrsv⟩
  · cases h.symm.trans hi

/-- Each opcode has one constructor (R119). -/
theorem opcodeOf_eq_iff (i : Instr) :
    (opcodeOf i = 0#8 ↔ i = .nop) ∧ (opcodeOf i = 1#8 ↔ i = .init) ∧ (opcodeOf i = 2#8 ↔ i = .teardown) ∧
    (opcodeOf i = 3#8 ↔ i = .processBlock) ∧ (opcodeOf i = 4#8 ↔ i = .blockBegin) ∧
    (opcodeOf i = 5#8 ↔ i = .blockEnd) ∧ (opcodeOf i = 6#8 ↔ ∃ u, i = .voiceRender u) ∧
    (opcodeOf i = 7#8 ↔ ∃ u, i = .filterBlock u) ∧ (opcodeOf i = 8#8 ↔ ∃ u, i = .filterStep u) ∧
    (opcodeOf i = 9#8 ↔ ∃ u b c, i = .oscNext u b c) ∧
    (opcodeOf i = 10#8 ↔ ∃ u b c o m f a, i = .oscRender u b c o m f a) ∧
    (opcodeOf i = 11#8 ↔ ∃ u b c f, i = .lfoProduce u b c f) := by
  cases i <;> simp [opcodeOf]

/-- Settles O3: the words of each constructor are the words of its opcode, and these have the match/mask pair of
USED_MASK. -/
theorem decodeFollowsMatchAndMask : Obligations.DecodeFollowsMatchAndMask := by
  refine ⟨by decide, fun w => ⟨decode_eq_reservedBits_iff w, ?_⟩⟩
  have hpairs : ∀ op ∈ [0#8, 1#8, 2#8, 3#8, 4#8, 5#8, 6#8, 7#8, 8#8, 9#8, 10#8, 11#8], (∃ i, decode w = .ok i ∧
      opcodeOf i = op) ↔ w &&& (0xFF#32 ||| ~~~(usedMask op.toNat)) = op.setWidth 32 := fun op hop =>
    exists_decode_iff ((by simp : ∀ op ∈ _, op.toNat < 12) op hop)
  simpa [-Bool.exists_bool, opcodeOf_eq_iff, usedMask, ← exists_and_left, @exists_comm Instr] using hpairs

/-- Settles O4: each word is the encoding of its command. -/
theorem specExampleWordsDecode : Obligations.SpecExampleWordsDecode := by
  simp only [Obligations.SpecExampleWordsDecode, decode_eq_ok_iff]
  decide

end Sys2Proof

/-! The obligations about the sequencer: issue, completion and the faults of words that are no commands (R112, R113,
R122, R279). -/

namespace Sys2Proof.Machine

/-! ### The completion step (R113) -/

/-- When its delay is over, the step is the completion of the command in flight. -/
theorem step_of_due {s : State} {c : InFlight} (hc : s.inFlight = some c) (hdue : c.wait = 0) :
    step s = completeWord c.word s := by
  simp only [step, turn, hc, hdue, if_true]

theorem completeWord_of_ok {w : Word} {i : Instr} (hi : decode w = .ok i) (s : State) :
    completeWord w s = andThen (exec i s) enterPending := by
  simp only [completeWord, hi]

theorem completeWord_of_error {w : Word} {e : DecodeError} (he : decode w = .error e) (s : State) :
    completeWord w s = .next (enterPending (commandFault (decodeFault e) w s)) := by
  simp only [completeWord, he]

/-- Settles O5: the step completes the word, and the word decodes. -/
theorem stepRunsTheDecodedCommand : Obligations.StepRunsTheDecodedCommand := fun s _ _ hc hdue hi =>
  (step_of_due hc hdue).trans (completeWord_of_ok hi s)

/-- The fault of a word that is no command tells an undefined opcode from a reserved bit (R122). -/
theorem decodeFault_of_error {w : Word} {e : DecodeError} (he : decode w = .error e) :
    decodeFault e = if 12 ≤ (fieldOp w).toNat then .illegalOpcode else .reservedBits := by
  obtain ⟨hop, h⟩ | ⟨hop, -, h⟩ | ⟨-, -, i, h, -⟩ := decode_cases w <;> cases he.symm.trans h
  · exact (if_pos hop).symm
  · exact (if_neg (Nat.not_le_of_lt hop)).symm

/-- The first fault of a command (R276). -/
theorem commandFault_of_clear {s : State} (hf : s.fault = false) (c : FaultCode) (info : Word) :
    commandFault c info s =
      { s with fault := true, faultCode := c, faultInfo := info, done := true, inFlight := none } := by
  rw [commandFault, raiseFault_of_clear c info s hf]

/-- A fault held in PEND comes second, so it is dropped: DONE is set already and PEND is emptied (R279, R286). -/
theorem enterPending_of_faulted {s : State} (hf : s.fault = true) (hdone : s.done = true) :
    enterPending s = { s with pend := none } := by
  cases hq : s.pend with
  | none => rw [enterPending_of_none s hq, ← hq]
  | some q => rw [enterPending_of_some s q hq, raiseFault_of_faulted _ _ s hf, ← hdone]

/-- Settles O6: the word's fault is recorded as the first, and a fault held in PEND is dropped as the second. -/
theorem wordThatIsNoCommandFaults : Obligations.WordThatIsNoCommandFaults := by
  intro s w e hc hf he
  rw [step_of_due hc rfl, completeWord_of_error he, commandFault_of_clear hf, enterPending_of_faulted rfl rfl,
    decodeFault_of_error he]

/-! ### How a command comes into flight (R112, R288) -/

theorem inFlight_hostRead (a : Addr) (s : State) : (hostRead a s).inFlight = s.inFlight := by
  obtain ⟨-, e⟩ | ⟨-, e⟩ | ⟨l, -, e⟩ := hostRead_cases a s <;> rw [e]
  · exact holdPending_inFlight _ _ s
  · exact raiseFault_inFlight _ _ s
  · rfl

theorem inFlight_hostWrite {a : Addr} (ha : a ≠ 0x00000C#24) (v : Word) (s : State) :
    (hostWrite a v s).inFlight = s.inFlight := by
  obtain ⟨-, e⟩ | ⟨-, -, e⟩ | ⟨l, -, hl, e⟩ := hostWrite_cases a v s <;> rw [e]
  · exact holdPending_inFlight _ _ s
  · exact raiseFault_inFlight _ _ s
  · exact inFlight_writeLoc (ne_cmd_of_hostLoc hl ha) v s

/-- A CMD write to a faulted core is dropped (R288). -/
theorem hostWrite_cmd_of_faulted {s : State} (hidle : s.inFlight = none) (hf : s.fault = true) (v : Word) :
    hostWrite 0x00000C#24 v s = respond .okay 0 s := by
  rw [hostWrite_of_hostLoc (l := .global .cmd) hidle rfl]
  simp [writeLoc, writeGlobal, issueCommand, hf]

theorem inFlight_driveReset {s : State} (hidle : s.inFlight = none) (b : Bool) : (driveReset b s).inFlight = none := by
  unfold driveReset
  split
  · rfl
  · exact hidle

section
variable {s : State} {c : InFlight} (hidle : s.inFlight = none)
include hidle

theorem of_inFlight_hostWrite {a : Addr} {v : Word} (hc : (hostWrite a v s).inFlight = some c) :
    a = 0x00000C#24 ∧ v = c.word ∧ s.fault = false := by
  by_cases ha : a = 0x00000C#24
  · subst ha
    cases hf : s.fault with
    | true =>
      rw [hostWrite_cmd_of_faulted hidle hf] at hc
      cases hidle.symm.trans hc
    | false =>
      rw [hostWrite_cmd hidle hf] at hc
      cases hc
      exact ⟨rfl, rfl, rfl⟩
  · cases hidle.symm.trans ((inFlight_hostWrite ha v s).symm.trans hc)

/-- Of the host's events a CMD write alone brings a command into flight, outside reset (R113, R311). -/
theorem of_inFlight_hostEvent {e : HostEvent} (hc : (hostEvent e s).inFlight = some c) :
    e = .write 0x00000C#24 c.word ∧ s.fault = false ∧ s.resetPin = false := by
  have hread : ∀ a, (if s.resetPin then s else hostRead a s).inFlight ≠ some c := fun a h => by
    rw [apply_ite State.inFlight, inFlight_hostRead, ite_self] at h
    cases hidle.symm.trans h
  cases e with
  | read a => exact absurd hc (hread a)
  | wait => exact absurd hc (hread _)
  | reset b => cases (inFlight_driveReset hidle b).symm.trans hc
  | write a v =>
    simp only [hostEvent] at hc
    split at hc
    · cases hidle.symm.trans hc
    · next hpin =>
      obtain ⟨rfl, rfl, hf⟩ := of_inFlight_hostWrite hidle hc
      exact ⟨rfl, hf, Bool.eq_false_iff.2 hpin⟩

end

/-- Settles O11: an idle core's step is the host's turn, and of its events a CMD write alone issues a command. -/
theorem onlyCmdWritesStartCommands : Obligations.OnlyCmdWritesStartCommands := by
  intro s t c hidle hstep hc
  obtain rfl := Host.Outcome.next.inj ((step_of_idle hidle).symm.trans hstep)
  obtain ⟨-, e⟩ | ⟨-, -, hb, -⟩ | ⟨ev, rest, hin, e⟩ := hostTurn_cases s
  · cases hidle.symm.trans ((congrArg State.inFlight e).symm.trans hc)
  · cases (busy_eq_false hidle).symm.trans hb
  · rw [e] at hc
    obtain ⟨rfl, hf, hpin⟩ := of_inFlight_hostEvent (s := { s with inbox := rest }) hidle hc
    exact ⟨rest, hin, hf, hpin⟩

end Sys2Proof.Machine

/-! The obligation about the checks of a command (R113, R278, R281, R284). -/

namespace Sys2Proof.Machine

/-! ### Each check, in the terms of the statement -/

theorem waveformOf_isSome (o : Osc) : (waveformOf o.kind).isSome = kindOk o := by
  have hall : ∀ k : BitVec 3, (waveformOf k).isSome = decide (k.toNat ≤ 4) := by decide
  exact hall o.kind

theorem groupOf_isSome (route : BitVec 2) : (groupOf route).isSome = (route != 3) := by
  revert route
  decide

theorem planLfo_isSome (en : Bool) (l : Lfo) : (planLfo en l).isSome = (!en || kindOk l.osc) := by
  cases en
  · rfl
  · simp [planLfo, waveformOf_isSome]

theorem planFilter_isSome (R : Filter) : (planFilter R).isSome = filterConfigOk R := by
  unfold planFilter filterConfigOk
  rw [← waveformOf_isSome, ← waveformOf_isSome]
  cases waveformOf R.metaCut.osc.kind <;> cases waveformOf R.cut.osc.kind <;> rfl

/-- A chain of checks passes where each of them passes. -/
theorem isSome_bind {α β : Type} (o : Option α) {f : α → Option β} {b : Bool} (hf : ∀ a, (f a).isSome = b) :
    (o.bind f).isSome = (o.isSome && b) := by
  cases o
  · rfl
  · exact hf _

theorem planVoice_isSome (V : Voice) : (planVoice V).isSome = voiceConfigOk V := by
  have hchain := isSome_bind (groupOf V.vcfg.route) fun g => isSome_bind (waveformOf V.osc.kind) fun wf =>
    isSome_bind (planLfo V.vcfg.enMf V.mf) fun mf => isSome_bind (planLfo V.vcfg.enF V.f) fun f =>
    isSome_bind (planLfo V.vcfg.enMa V.ma) fun ma => isSome_bind (planLfo V.vcfg.enA V.a) fun a =>
    Option.isSome_some (a := VoicePlan.mk g wf mf f ma a)
  refine hchain.trans ?_
  simp only [groupOf_isSome, waveformOf_isSome, planLfo_isSome, voiceConfigOk, Bool.and_true, Bool.and_assoc]

theorem isSome_mapM {α β : Type} (f : α → Option β) (l : List α) :
    (l.mapM f).isSome = l.all fun a => (f a).isSome := by
  induction l with
  | nil => rfl
  | cons a l ih =>
    rw [List.mapM_cons, List.all_cons, ← ih]
    cases f a <;> cases l.mapM f <;> rfl

theorem planVoices_isSome (s : State) : (planVoices s).isSome = (List.finRange 32).all fun v =>
    !(decide (v.val < s.hw.nVoice) && (getVoice s v).vcfg.ven) || voiceConfigOk (getVoice s v) := by
  simp only [planVoices, enabledVoices, isSome_mapM, List.all_filter, Option.isSome_map, planVoice_isSome]

theorem planFilters_isSome (s : State) : (planFilters s).isSome = (List.finRange 4).all fun f =>
    !(getFilter s f).fcfg.en || filterConfigOk (getFilter s f) := by
  simp only [planFilters, enabledFilters, isSome_mapM, List.all_filter, Option.isSome_map, planFilter_isSome]

/-! ### The units (R115, R116, R121) -/

/-- SUB 0 names a voice's own oscillator, and the primary SUBs the LFOs that have a meta-LFO (R115, R116). -/
def SelectedBy (sub : BitVec 4) : OscSel → Prop
  | .voice _ => sub = 0
  | .lfo l => sub ≠ 0 ∧ (metaOf l).isSome = isPrimarySub sub

theorem selectedBy_of_voiceSub {v : Fin 32} {sub : BitVec 4} {o : OscSel} (h : voiceSub v sub = some o) :
    SelectedBy sub o := by
  have hsub : sub = BitVec.ofNat 4 sub.toNat := by simp
  unfold voiceSub at h
  generalize sub.toNat = k at h hsub
  split at h <;> cases h <;> subst hsub
  · rfl
  all_goals exact ⟨by decide, rfl⟩

theorem selectedBy_of_filterSub {f : Fin 4} {sub : BitVec 4} {o : OscSel} (h : filterSub f sub = some o) :
    SelectedBy sub o := by
  have hsub : sub = BitVec.ofNat 4 sub.toNat := by simp
  unfold filterSub at h
  generalize sub.toNat = k at h hsub
  split at h <;> cases h <;> subst hsub
  all_goals exact ⟨by decide, rfl⟩

theorem selectedBy_of_oscTarget {p : Params} {unit : BitVec 8} {sub : BitVec 4} {cls : Bool} {o : OscSel}
    (h : oscTarget p unit sub cls = some o) : SelectedBy sub o := by
  unfold oscTarget at h
  split at h <;> obtain ⟨x, -, hx⟩ := Option.bind_eq_some_iff.1 h
  · exact selectedBy_of_filterSub hx
  · exact selectedBy_of_voiceSub hx

theorem lfoTarget_eq_some_iff {p : Params} {unit : BitVec 8} {sub : BitVec 4} {cls : Bool} {l : LfoSel} :
    lfoTarget p unit sub cls = some l ↔ oscTarget p unit sub cls = some (.lfo l) := by
  unfold lfoTarget
  split <;> simp_all

theorem lfoTarget_isSome {p : Params} (hp : p.nVoice ≤ 32) (unit : BitVec 8) (sub : BitVec 4) (cls : Bool) :
    (lfoTarget p unit sub cls).isSome = lfoTargetExists p.nVoice unit sub cls := by
  unfold lfoTarget lfoTargetExists
  rw [← oscTarget_isSome p unit sub cls hp]
  cases ho : oscTarget p unit sub cls with
  | none => rfl
  | some o =>
    have hsel := selectedBy_of_oscTarget ho
    cases o with
    | voice v => rw [show sub = 0 from hsel]; rfl
    | lfo l => simpa using hsel.1

/-! ### The outcome of the checks -/

/-- The fault a command's checks end with; NONE when it executes. -/
def faultOf : Except FaultCode State → FaultCode
  | .error c => c
  | .ok _ => .none

theorem eq_error_of_faultOf_ne_none {r : Except FaultCode State} (hr : faultOf r ≠ .none) :
    r = .error (faultOf r) := by
  cases r with
  | error c => rfl
  | ok t => exact absurd rfl hr

section
variable (s : State)

/-- The checks of a command that needs a session (R119, R281). -/
theorem firstFault_of_needsReady {i : Instr} (hi : needsReady i = true) : firstFault s i =
    bif !s.ready then .notReady else bif !i.wellFormed s.hw.nVoice then .badUnit
    else bif !buffersOkOf s i then .badBuffer else bif !configOk s i then .badConfig else .none := by
  have hinit : i ≠ .init := by rintro rfl; cases hi
  simp only [firstFault, hi, hinit, decide_false, Bool.true_and, Bool.false_and, Bool.false_eq_true, if_false,
    cond_eq_ite]

theorem faultOf_tryInit : faultOf (tryInit s) = firstFault s .init := by
  simp only [tryInit, apply_ite faultOf]
  rfl

theorem faultOf_tryBlockBegin : faultOf (tryBlockBegin s) = firstFault s .blockBegin := by
  simp only [tryBlockBegin, apply_ite faultOf]
  rfl

theorem faultOf_tryBlockEnd : faultOf (tryBlockEnd s) = firstFault s .blockEnd := by
  simp only [tryBlockEnd, apply_ite faultOf]
  rfl

theorem faultOf_tryProcessBlock (F : Prims) : faultOf (tryProcessBlock F s) = firstFault s .processBlock := by
  rw [firstFault_of_needsReady s rfl]
  simp only [tryProcessBlock, configOk, ← planVoices_isSome, ← planFilters_isSome]
  cases s.ready
  · rfl
  · cases planVoices s <;> cases planFilters s <;> rfl

theorem faultOf_tryFilterStep (F : Prims) (unit : BitVec 8) :
    faultOf (tryFilterStep F unit s) = firstFault s (.filterStep unit) := by
  rw [firstFault_of_needsReady s rfl]
  simp only [tryFilterStep, Instr.wellFormed, ← filterUnit_isSome]
  cases s.ready
  · rfl
  · cases filterUnit unit <;> rfl

theorem faultOf_tryFilterBlock (F : Prims) (unit : BitVec 8) :
    faultOf (tryFilterBlock F unit s) = firstFault s (.filterBlock unit) := by
  rw [firstFault_of_needsReady s rfl]
  simp only [tryFilterBlock, Instr.wellFormed, configOk, ← filterUnit_isSome, ← planFilter_isSome]
  cases s.ready
  · rfl
  · cases filterUnit unit with
    | none => rfl
    | some f =>
      simp only [Option.all_some]
      cases planFilter (getFilter s f) <;> rfl

variable {s} (hp : s.hw.nVoice ≤ 32)
include hp

theorem faultOf_tryVoiceRender (F : Prims) (unit : BitVec 8) :
    faultOf (tryVoiceRender F unit s) = firstFault s (.voiceRender unit) := by
  rw [firstFault_of_needsReady s rfl]
  simp only [tryVoiceRender, Instr.wellFormed, configOk, ← voiceUnit_isSome _ _ hp, ← planVoice_isSome]
  cases s.ready
  · rfl
  · cases voiceUnit s.hw unit with
    | none => rfl
    | some v =>
      simp only [Option.all_some]
      cases planVoice (getVoice s v) <;> rfl

theorem faultOf_tryOscNext (F : Prims) (unit : BitVec 8) (sub : BitVec 4) (cls : Bool) :
    faultOf (tryOscNext F unit sub cls s) = firstFault s (.oscNext unit sub cls) := by
  rw [firstFault_of_needsReady s rfl]
  simp only [tryOscNext, Instr.wellFormed, configOk, ← oscTarget_isSome _ _ _ _ hp, ← waveformOf_isSome]
  cases s.ready
  · rfl
  · cases oscTarget s.hw unit sub cls with
    | none => rfl
    | some t =>
      simp only [Option.all_some]
      cases waveformOf (getOsc s t).kind <;> rfl

theorem faultOf_tryOscRender (F : Prims) (unit : BitVec 8) (sub : BitVec 4) (cls ovw mono ufm uam : Bool) :
    faultOf (tryOscRender F unit sub cls ovw mono ufm uam s) =
      firstFault s (.oscRender unit sub cls ovw mono ufm uam) := by
  rw [firstFault_of_needsReady s rfl]
  simp only [tryOscRender, Instr.wellFormed, configOk, buffersOkOf, ← oscTarget_isSome _ _ _ _ hp,
    ← waveformOf_isSome]
  cases s.ready
  · rfl
  · cases oscTarget s.hw unit sub cls with
    | none => rfl
    | some t =>
      simp only [Option.all_some]
      cases buffersOk s mono ufm uam
      · rfl
      · cases waveformOf (getOsc s t).kind <;> rfl

theorem faultOf_tryLfoProduce (F : Prims) (unit : BitVec 8) (sub : BitVec 4) (cls ufm : Bool) :
    faultOf (tryLfoProduce F unit sub cls ufm s) = firstFault s (.lfoProduce unit sub cls ufm) := by
  rw [firstFault_of_needsReady s rfl]
  simp only [tryLfoProduce, Instr.wellFormed, configOk, ← lfoTarget_isSome hp, ← waveformOf_isSome]
  cases s.ready
  · rfl
  · cases hl : lfoTarget s.hw unit sub cls with
    | none => rfl
    | some l =>
      obtain ⟨-, hmeta⟩ := selectedBy_of_oscTarget (lfoTarget_eq_some_iff.1 hl)
      simp only [Option.all_some]
      rw [← hmeta, ← Option.not_isSome]
      cases ufm <;> cases (metaOf l).isSome <;> cases waveformOf (getLfo s l).osc.kind <;> rfl

/-- The checks of every command end with the first one that fails (R113, R281). -/
theorem faultOf_tryCommand (i : Instr) : faultOf (tryCommand i s) = firstFault s i := by
  cases i with
  | nop => rfl
  | init => exact faultOf_tryInit s
  | teardown => rfl
  | processBlock => exact faultOf_tryProcessBlock s prims
  | blockBegin => exact faultOf_tryBlockBegin s
  | blockEnd => exact faultOf_tryBlockEnd s
  | voiceRender unit => exact faultOf_tryVoiceRender hp prims unit
  | filterBlock unit => exact faultOf_tryFilterBlock s prims unit
  | filterStep unit => exact faultOf_tryFilterStep s prims unit
  | oscNext unit sub cls => exact faultOf_tryOscNext hp prims unit sub cls
  | oscRender unit sub cls ovw mono ufm uam => exact faultOf_tryOscRender hp prims unit sub cls ovw mono ufm uam
  | lfoProduce unit sub cls ufm => exact faultOf_tryLfoProduce hp prims unit sub cls ufm

end

/-! ### Completion -/

theorem effectInvariant_cmdCount (k : Word) : EffectInvariant fun s => s.cmdCount = k where
  advance wf o fm s hs := (oscAdvance_cmdCount wf o fm s).trans hs
  sample _ _ _ _ _ _ hs := hs
  ladder _ _ _ _ _ hs := hs
  bookkeeping _ _ _ _ hs := hs
  init _ _ _ _ _ hs := hs
  teardown _ hs := hs

/-- The effect of a command leaves CMD_COUNT and the fault record to its completion (R113). -/
theorem completed_of_tryCommand {i : Instr} {s t : State} (h : tryCommand i s = .ok t) :
    Completed s (completeCommand t) := by
  have hcount : t.cmdCount = s.cmdCount := (effectInvariant_cmdCount s.cmdCount).tryCommand (fun _ _ _ hu => hu) h rfl
  obtain ⟨hfault, hcode, hinfo, -, -⟩ := sameFaultRecord_of_tryCommand h
  exact ⟨congrArg (· + 1) hcount, rfl, rfl, hfault, hcode, hinfo⟩

/-- Settles O7: the checks of a command end with the first one that fails, and what passes them all completes. -/
theorem commandEndsWithFirstFailedCheck : Obligations.CommandEndsWithFirstFailedCheck := by
  intro i s hp
  rw [exec_eq, ← faultOf_tryCommand hp i]
  refine ⟨fun hne => ?_, fun hnone => ?_⟩
  · rw [eq_error_of_faultOf_ne_none hne]
    rfl
  · cases h : tryCommand i s with
    | error c => exact absurd (by rw [← hnone, h]; rfl) (ne_none_of_tryCommand_error h)
    | ok t => exact ⟨completeCommand t, rfl, completed_of_tryCommand h⟩

end Sys2Proof.Machine

/-! SUPPORT. Bounds of the one rounding (R12), and what the operators of R13 answer for zeros, for values of at most a
power of two, and for the neutral operands of sum, product and quotient. -/

namespace Sys2Proof.Machine

/-! ### Bounds of the rounding -/

/-- A quotient up to a magnitude rounds to at most that magnitude. -/
theorem roundMag_le {num den m : Nat} (hden : 0 < den) (h : num ≤ den * magUnits m) : roundMag num den ≤ m := by
  obtain ⟨n, ⟨hlow, -⟩, hup, hdown⟩ := roundMag_between_neighbours num hden
  have hnm : n ≤ m := magUnits_strictMono.le_iff_le.1 (Nat.le_of_mul_le_mul_left (hlow.trans h) hden)
  obtain hlt | rfl := hnm.lt_or_eq
  · by_cases hround : RoundsUp num den n
    · rw [hup hround]
      omega
    · rw [hdown hround]
      omega
  · have hnext : den * magUnits n < den * magUnits (n + 1) :=
      Nat.mul_lt_mul_of_pos_left (magUnits_strictMono n.lt_succ_self) hden
    rw [hdown (by unfold RoundsUp; omega)]
    exact Nat.min_le_left ..

/-- A quotient from a magnitude on rounds to at least that magnitude. -/
theorem le_roundMag {num den m : Nat} (hden : 0 < den) (hm : m ≤ infMag) (h : den * magUnits m ≤ num) :
    m ≤ roundMag num den := by
  obtain ⟨n, ⟨-, hhigh⟩, hup, hdown⟩ := roundMag_between_neighbours num hden
  have hmn : m < n + 1 := magUnits_strictMono.lt_iff_lt.1 (Nat.lt_of_mul_lt_mul_left (h.trans_lt hhigh))
  by_cases hround : RoundsUp num den n
  · rw [hup hround]
    omega
  · rw [hdown hround]
    omega

theorem roundMag_zero {den : Nat} (hden : 0 < den) : roundMag 0 den = 0 :=
  Nat.le_zero.1 (roundMag_le hden (Nat.zero_le _))

/-! ### Words and their parts -/

theorem isNaN_of_isFinite {x : Word} (hx : isFinite x = true) : isNaN x = false :=
  (not_isNaN_not_isInf_of_isFinite hx).1

theorem isFinite_of_isZero {x : Word} (hx : isZero x = true) : isFinite x = true := by
  have hmag : fmag x = 0 := of_decide_eq_true hx
  rw [isFinite, hmag]
  rfl

@[simp] theorem isZero_fneg (x : Word) : isZero (fneg x) = isZero x := by simp only [isZero, fmag_fneg]

/-- A word is its sign and its magnitude. -/
theorem fpack_fsign_fmag (x : Word) : fpack (fsign x) (fmag x) = x := by
  have hmag : fmag x < 2 ^ 31 := Nat.mod_lt _ (by decide)
  have hlt := x.isLt
  have hsign : fsign x = true ↔ 2 ^ 31 ≤ x.toNat := by simp [fsign, BitVec.msb_eq_decide]
  refine BitVec.eq_of_toNat_eq ?_
  rw [toNat_fpack _ hmag, fmag]
  split
  · next hneg =>
    have hhigh := hsign.1 hneg
    omega
  · next hpos =>
    have hlow := mt hsign.2 hpos
    omega

theorem eq_zero_or_of_isZero {x : Word} (hx : isZero x = true) : x = fZero ∨ x = 0x80000000#32 := by
  have hmag : fmag x = 0 := of_decide_eq_true hx
  rw [← fpack_fsign_fmag x, hmag]
  cases fsign x
  · exact .inl rfl
  · exact .inr rfl

theorem natAbs_wordValue (x : Word) : (wordValue x).natAbs = wordUnits x := by
  unfold wordValue
  split <;> simp

theorem wordValue_neg_iff {x : Word} (hx : isZero x = false) : wordValue x < 0 ↔ fsign x = true := by
  have hunits : wordUnits x ≠ 0 := mt (isZero_iff_wordUnits x).2 (Bool.eq_false_iff.1 hx)
  rw [wordValue, ← fsign_eq_getLsbD]
  cases fsign x
  · simp
  · simp [Nat.pos_of_ne_zero hunits]

/-! ### Zeros and neutral operands -/

theorem isZero_fadd {x y : Word} (hx : isZero x = true) (hy : isZero y = true) : isZero (fadd x y) = true := by
  obtain rfl | rfl := eq_zero_or_of_isZero hx <;> obtain rfl | rfl := eq_zero_or_of_isZero hy <;> decide

theorem isZero_fsub {x y : Word} (hx : isZero x = true) (hy : isZero y = true) : isZero (fsub x y) = true :=
  isZero_fadd hx (by rwa [isZero_fneg])

theorem fabs_of_isZero {x : Word} (hx : isZero x = true) : fabs x = fZero := by
  obtain rfl | rfl := eq_zero_or_of_isZero hx <;> decide

/-- A zero added to +0 leaves it, whatever its sign. -/
theorem fadd_zero_left {x : Word} (hx : isZero x = true) : fadd fZero x = fZero := by
  obtain rfl | rfl := eq_zero_or_of_isZero hx <;> decide

theorem fadd_one_of_isZero {x : Word} (hx : isZero x = true) : fadd fOne x = fOne := by
  obtain rfl | rfl := eq_zero_or_of_isZero hx <;> decide

theorem fsub_of_isZero_right {x : Word} (y : Word) (hx : isZero x = true) (hy : y = fZero ∨ y = fOne) :
    fsub y x = y := by
  obtain rfl | rfl := hy <;> obtain rfl | rfl := eq_zero_or_of_isZero hx <;> decide

theorem isZero_fmul_left {x y : Word} (hx : isZero x = true) (hy : isFinite y = true) : isZero (fmul x y) = true := by
  rw [fmul_finite (isFinite_of_isZero hx) hy, (isZero_iff_wordUnits x).1 hx, zero_mul, roundMag_zero (by positivity),
    isZero, fmag_fpack _ (by decide)]
  rfl

theorem fmul_comm (x y : Word) : fmul x y = fmul y x := by
  simp only [fmul, Bool.or_comm, bne_comm, Nat.mul_comm]

theorem isZero_fmul_right {x y : Word} (hx : isFinite x = true) (hy : isZero y = true) : isZero (fmul x y) = true := by
  rw [fmul_comm]
  exact isZero_fmul_left hy hx

theorem isZero_fdiv {x y : Word} (hx : isZero x = true) (hy : isFinite y = true) (hy0 : isZero y = false) :
    isZero (fdiv x y) = true := by
  have hunits : wordUnits y ≠ 0 := mt (isZero_iff_wordUnits y).2 (Bool.eq_false_iff.1 hy0)
  rw [fdiv_finite (isFinite_of_isZero hx) hy hunits, (isZero_iff_wordUnits x).1 hx, zero_mul,
    roundMag_zero (Nat.pos_of_ne_zero hunits), isZero, fmag_fpack _ (by decide)]
  rfl

/-- Opposite finite values sum to +0 (R13). -/
theorem fadd_fneg_self {x : Word} (hx : isFinite x = true) : fadd (fneg x) x = fZero := by
  rw [fadd_finite (by rwa [isFinite_fneg]) hx, wordValue_fneg, neg_add_cancel, if_pos rfl, ← fsign_eq_getLsbD,
    ← fsign_eq_getLsbD, fsign_fneg]
  cases fsign x <;> rfl

theorem fsub_self {x : Word} (hx : isFinite x = true) : fsub x x = fZero := by
  rw [fsub, fadd_finite hx (by rwa [isFinite_fneg]), wordValue_fneg, add_neg_cancel, if_pos rfl, ← fsign_eq_getLsbD,
    ← fsign_eq_getLsbD, fsign_fneg]
  cases fsign x <;> rfl

/-- +0 subtracted leaves a finite word as it is, bit for bit. -/
theorem fsub_zero {x : Word} (hx : isFinite x = true) : fsub x fZero = x := by
  cases hz : isZero x with
  | true => obtain rfl | rfl := eq_zero_or_of_isZero hz <;> decide
  | false =>
    have hval : wordValue (fneg fZero) = 0 := by decide
    have hunits : wordUnits x ≠ 0 := mt (isZero_iff_wordUnits x).2 (Bool.eq_false_iff.1 hz)
    have hne : wordValue x ≠ 0 := fun e => hunits (by rw [← natAbs_wordValue, e]; rfl)
    have hround : roundMag (wordUnits x) 1 = fmag x :=
      roundMag_magUnits (Nat.le_of_lt (of_decide_eq_true hx))
    rw [fsub, fadd_finite hx (by decide), hval, add_zero, if_neg hne, natAbs_wordValue, hround]
    simp only [wordValue_neg_iff hz, Bool.decide_eq_true, fpack_fsign_fmag]

theorem fmul_one {x : Word} (hx : isFinite x = true) : fmul x fOne = x := by
  have hone : wordUnits fOne = 2 ^ 149 := by decide
  have hsign : (fOne : Word).getLsbD 31 = false := by decide
  have hround : roundMag (wordUnits x * 2 ^ 149) (2 ^ 149) = fmag x :=
    le_antisymm (roundMag_le (by positivity) (mul_comm ..).le)
      (le_roundMag (by positivity) (Nat.le_of_lt (of_decide_eq_true hx)) (mul_comm ..).le)
  rw [fmul_finite hx (by decide), hone, hsign, hround, Bool.bne_false, ← fsign_eq_getLsbD, fpack_fsign_fmag]

/-! ### Values of at most a power of two -/

/-- The magnitude of `x` is at most 2^k, so `x` is no NaN. -/
structure Within (k : Nat) (x : Word) : Prop where
  fmag_le : fmag x ≤ 0x3F800000 + k * 2 ^ 23

theorem magUnits_two_pow (k : Nat) : magUnits (0x3F800000 + k * 2 ^ 23) = 2 ^ (149 + k) := by
  have h := magUnits_significand_place (q := 2 ^ 23) (sh := 126 + k) (by omega) (.inr le_rfl)
  rw [← pow_add] at h
  convert h using 2 <;> omega

theorem within_iff_wordUnits {k : Nat} {x : Word} : Within k x ↔ wordUnits x ≤ 2 ^ (149 + k) := by
  rw [← magUnits_two_pow, wordUnits_eq_magUnits_fmag, magUnits_strictMono.le_iff_le]
  exact ⟨Within.fmag_le, Within.mk⟩

theorem Within.isFinite {k : Nat} {x : Word} (h : Within k x) (hk : k ≤ 127) : isFinite x = true := by
  have hmag := h.fmag_le
  exact decide_eq_true (by unfold infMag; omega)

theorem Within.mono {i j : Nat} {x : Word} (h : Within i x) (hij : i ≤ j) : Within j x :=
  ⟨h.fmag_le.trans (by omega)⟩

theorem Within.fneg {k : Nat} {x : Word} (h : Within k x) : Within k (fneg x) :=
  ⟨(fmag_fneg x).trans_le h.fmag_le⟩

theorem within_of_isZero {k : Nat} {x : Word} (h : isZero x = true) : Within k x :=
  have hmag : fmag x = 0 := of_decide_eq_true h
  ⟨hmag.trans_le (Nat.zero_le _)⟩

theorem within_one : Within 0 fOne := ⟨by decide⟩

/-- Packing a rounded quotient of at most 2^k gives a value of at most 2^k. -/
theorem within_fpack_roundMag (neg : Bool) {num den k : Nat} (hden : 0 < den) (h : num ≤ den * 2 ^ (149 + k)) :
    Within k (fpack neg (roundMag num den)) := by
  refine ⟨?_⟩
  rw [fmag_fpack _ ((roundMag_le_infMag ..).trans_lt infMag_lt_two_pow)]
  exact roundMag_le hden (by rwa [magUnits_two_pow])

theorem Within.fadd {k : Nat} {x y : Word} (hx : Within k x) (hy : Within k y) (hk : k ≤ 127) :
    Within (k + 1) (fadd x y) := by
  rw [fadd_finite (hx.isFinite hk) (hy.isFinite hk)]
  split
  · exact within_of_isZero (by cases (x.getLsbD 31 && y.getLsbD 31) <;> rfl)
  · refine within_fpack_roundMag _ one_pos ?_
    rw [within_iff_wordUnits, ← natAbs_wordValue] at hx hy
    rw [← add_assoc, pow_succ]
    omega

theorem Within.fsub {k : Nat} {x y : Word} (hx : Within k x) (hy : Within k y) (hk : k ≤ 127) :
    Within (k + 1) (fsub x y) := hx.fadd hy.fneg hk

theorem Within.fmul {i j : Nat} {x y : Word} (hx : Within i x) (hy : Within j y) (hi : i ≤ 127) (hj : j ≤ 127) :
    Within (i + j) (fmul x y) := by
  rw [fmul_finite (hx.isFinite hi) (hy.isFinite hj)]
  refine within_fpack_roundMag _ (by positivity) ?_
  calc wordUnits x * wordUnits y ≤ 2 ^ (149 + i) * 2 ^ (149 + j) :=
        Nat.mul_le_mul (within_iff_wordUnits.1 hx) (within_iff_wordUnits.1 hy)
    _ = 2 ^ 149 * 2 ^ (149 + (i + j)) := by ring

/-- A value between -1 and 1. -/
theorem within_zero_of_fle {x : Word} (hlow : fle 0xBF800000#32 x = true) (hhigh : fle x fOne = true) : Within 0 x := by
  simp only [fle, Bool.and_eq_true, decide_eq_true_eq] at hlow hhigh
  have hneg : fkey 0xBF800000#32 = -0x3F800000 := rfl
  have hone : fkey fOne = 0x3F800000 := rfl
  rw [hneg] at hlow
  rw [hone] at hhigh
  obtain ⟨-, hlow⟩ := hlow
  obtain ⟨-, hhigh⟩ := hhigh
  unfold fkey at hlow hhigh
  refine ⟨?_⟩
  split at hlow <;> simp_all

/-! ### Signs and lower bounds -/

theorem one_le_fpack_roundMag {num den : Nat} (hden : 0 < den) (h : den * 2 ^ 149 ≤ num) :
    2 ^ 149 ≤ wordValue (fpack false (roundMag num den)) := by
  have hone : magUnits 0x3F800000 = 2 ^ 149 := magUnits_two_pow 0
  rw [wordValue_fpack _ ((roundMag_le_infMag ..).trans_lt infMag_lt_two_pow), if_neg Bool.false_ne_true]
  have hmono := magUnits_strictMono.monotone (le_roundMag (m := 0x3F800000) hden (by decide) (hone.symm ▸ h))
  rw [hone] at hmono
  exact_mod_cast hmono

/-- A sum of at least 1 rounds to at least 1. -/
theorem one_le_fadd {x y : Word} (hx : isFinite x = true) (hy : isFinite y = true)
    (h : 2 ^ 149 ≤ wordValue x + wordValue y) : 2 ^ 149 ≤ wordValue (fadd x y) := by
  rw [fadd_finite hx hy, if_neg (by omega), decide_eq_false (by omega)]
  exact one_le_fpack_roundMag one_pos (by omega)

theorem one_le_wordUnits {x : Word} (h : 2 ^ 149 ≤ wordValue x) :
    x.getLsbD 31 = false ∧ 2 ^ 149 ≤ wordUnits x := by
  unfold wordValue at h
  split at h
  · omega
  · next hs => exact ⟨Bool.eq_false_iff.2 hs, by omega⟩

theorem one_le_fmul {x y : Word} (hx : isFinite x = true) (hy : isFinite y = true) (hx1 : 2 ^ 149 ≤ wordValue x)
    (hy1 : 2 ^ 149 ≤ wordValue y) : 2 ^ 149 ≤ wordValue (fmul x y) := by
  obtain ⟨hsx, hux⟩ := one_le_wordUnits hx1
  obtain ⟨hsy, huy⟩ := one_le_wordUnits hy1
  rw [fmul_finite hx hy, hsx, hsy]
  exact one_le_fpack_roundMag (by positivity) (Nat.mul_le_mul hux huy)

/-- A product of a value that is not positive and one that is not negative is not positive. -/
theorem fmul_nonpos {x y : Word} (hx : isFinite x = true) (hy : isFinite y = true) (hx0 : wordValue x ≤ 0)
    (hy0 : 0 ≤ wordValue y) : wordValue (fmul x y) ≤ 0 := by
  cases hz : isZero (fmul x y) with
  | true => simp [wordValue, (isZero_iff_wordUnits _).1 hz]
  | false =>
    have hnx : isZero x = false := Bool.eq_false_iff.2 fun e => Bool.eq_false_iff.1 hz (isZero_fmul_left e hy)
    have hny : isZero y = false := Bool.eq_false_iff.2 fun e => Bool.eq_false_iff.1 hz (isZero_fmul_right hx e)
    have hux : wordUnits x ≠ 0 := mt (isZero_iff_wordUnits x).2 (Bool.eq_false_iff.1 hnx)
    have hsx : fsign x = true := (wordValue_neg_iff hnx).1 (by rw [← natAbs_wordValue] at hux; omega)
    have hsy : fsign y = false := Bool.eq_false_iff.2 fun e => (((wordValue_neg_iff hny).2 e).trans_le hy0).false
    rw [fmul_finite hx hy, ← fsign_eq_getLsbD, ← fsign_eq_getLsbD, hsx, hsy,
      wordValue_fpack _ ((roundMag_le_infMag ..).trans_lt infMag_lt_two_pow)]
    simp

/-! ### TANH (R17) -/

theorem tanh_of_isNaN {x : Word} (h : isNaN x = true) : prims.tanh x = qNaN := tanhLegal_of_isNaN _ h

theorem tanh_of_isZero {x : Word} (h : isZero x = true) : prims.tanh x = x :=
  tanhLegal_of_isZero _ (isNaN_of_isFinite (isFinite_of_isZero h)) h

theorem within_tanh {x : Word} (h : isNaN x = false) : Within 0 (prims.tanh x) :=
  have hbounds := tanhLegal_bounds Config.tanhGiven h
  within_zero_of_fle hbounds.1 hbounds.2

end Sys2Proof.Machine

/-! The obligations about the Newton iteration and about R163 as the spec writes it: how the iteration ends (R143, R150
to R153), in general and from updates that are NaN, that meet the test at once, or that move nothing. -/

namespace Sys2Proof.Machine

/-! ### The iteration as a whole -/

/-- How the iteration of `R`'s step ends when it starts at guess `j` with `n` updates left. -/
structure EndsFrom (F : Prims) (R : Filter) (x m : Word) (j n : Nat) (dz : Bool) (r : NewtonEnd) : Prop where
  started : j ≤ r.k
  moved : n ≠ 0 → j < r.k
  capped : r.k ≤ j + n
  guess : r.g = guessAfter F R x m r.k
  converged : r.conv = true → j < r.k ∧ testMet F R x m (r.k - 1) = true
  exhausted : r.conv = false → r.k = j + n ∧ ∀ i, j ≤ i → i < r.k → testMet F R x m i = false
  notBefore : ∀ i, j ≤ i → i + 1 < r.k → testMet F R x m i = false
  detzero : r.detzero = true ↔
    dz = true ∨ ∃ i, j ≤ i ∧ i < r.k ∧ isZero (newtonUpdate F (stepConsts F R x m) (guessAfter F R x m i)).2 = true

/-- An iteration that ends at the cap at once. -/
theorem endsFrom_cap (F : Prims) (R : Filter) (x m : Word) (j : Nat) (dz : Bool) :
    EndsFrom F R x m j 0 dz { g := guessAfter F R x m j, k := j, conv := false, detzero := dz } where
  started := le_rfl
  moved h := absurd rfl h
  capped := le_rfl
  guess := rfl
  converged := nofun
  exhausted _ := ⟨rfl, fun _ hi hlt => absurd hlt hi.not_gt⟩
  notBefore _ hi hlt := absurd (Nat.lt_of_succ_lt hlt) hi.not_gt
  detzero := ⟨.inl, fun h => h.resolve_right fun ⟨_, hi, hlt, _⟩ => hi.not_gt hlt⟩

/-- An iteration whose next update meets the test. -/
theorem endsFrom_met {F : Prims} {R : Filter} {x m : Word} {j : Nat} (hmet : testMet F R x m j = true) (n : Nat)
    (dz : Bool) :
    EndsFrom F R x m j (n + 1) dz
      { g := guessAfter F R x m (j + 1), k := j + 1, conv := true
        detzero := dz || isZero (newtonUpdate F (stepConsts F R x m) (guessAfter F R x m j)).2 } where
  started := j.le_succ
  moved _ := j.lt_succ_self
  capped := Nat.add_le_add_left (Nat.le_add_left 1 n) j
  guess := rfl
  converged _ := ⟨j.lt_succ_self, hmet⟩
  exhausted := nofun
  notBefore _ hi hlt := absurd (Nat.lt_of_succ_lt_succ hlt) hi.not_gt
  detzero := by
    rw [Bool.or_eq_true]
    refine or_congr_right ⟨fun h => ⟨j, le_rfl, j.lt_succ_self, h⟩, fun ⟨i, hi, hlt, h⟩ => ?_⟩
    obtain rfl : i = j := le_antisymm (Nat.le_of_lt_succ hlt) hi
    exact h

/-- An iteration whose next update does not meet the test ends as the one after that update does. -/
theorem EndsFrom.of_not_met {F : Prims} {R : Filter} {x m : Word} {j n : Nat} {dz : Bool} {r : NewtonEnd}
    (hmet : testMet F R x m j = false)
    (h : EndsFrom F R x m (j + 1) n
      (dz || isZero (newtonUpdate F (stepConsts F R x m) (guessAfter F R x m j)).2) r) :
    EndsFrom F R x m j (n + 1) dz r := by
  obtain ⟨hstarted, -, hcapped, hguess, hconverged, hexhausted, hbefore, hdetzero⟩ := h
  have hextend : ∀ {p : Nat → Prop}, (∀ i, j + 1 ≤ i → p i → testMet F R x m i = false) →
      ∀ i, j ≤ i → p i → testMet F R x m i = false := fun h i hi hp => by
    obtain hlt | rfl := hi.lt_or_eq
    · exact h i hlt hp
    · exact hmet
  refine ⟨by omega, fun _ => hstarted, by omega, hguess, fun h => ⟨hstarted, (hconverged h).2⟩,
    fun h => ⟨by have hcap := (hexhausted h).1; omega, hextend (hexhausted h).2⟩, hextend hbefore, ?_⟩
  rw [hdetzero, Bool.or_eq_true, or_assoc]
  refine or_congr_right ⟨?_, ?_⟩
  · rintro (h | ⟨i, hi, hlt, h⟩)
    · exact ⟨j, le_rfl, hstarted, h⟩
    · exact ⟨i, Nat.le_of_succ_le hi, hlt, h⟩
  · rintro ⟨i, hi, hlt, h⟩
    obtain hgt | rfl := hi.lt_or_eq
    · exact .inr ⟨i, hgt, hlt, h⟩
    · exact .inl h

/-- The test of the iteration is the test between two guesses (R151, R152). -/
theorem fle_l1Norm_guess (F : Prims) (R : Filter) (x m : Word) (j : Nat) :
    fle (l1Norm (quadSub (newtonUpdate F (stepConsts F R x m) (guessAfter F R x m j)).1 (guessAfter F R x m j))) R.eps =
      testMet F R x m j := rfl

/-- The iteration follows the guesses, by induction on the updates left. -/
theorem newtonLoop_endsFrom (F : Prims) (R : Filter) (x m : Word) (n j : Nat) (dz : Bool) :
    EndsFrom F R x m j n dz (newtonLoop F (stepConsts F R x m) R.eps n (guessAfter F R x m j) j dz) := by
  induction n generalizing j dz with
  | zero => exact endsFrom_cap F R x m j dz
  | succ n ih =>
    rw [newtonLoop, fle_l1Norm_guess]
    cases hmet : testMet F R x m j with
    | true => exact endsFrom_met hmet n dz
    | false => exact (ih (j + 1) _).of_not_met hmet

/-! ### One component of the update at a time -/

section
variable (F : Prims) (R : Filter) (x m : Word)

theorem quadAt_field (s3mode : Bool) (w k4r : Word) (v : Quad) (z : Word) (i : Fin 4) :
    quadAt (field F s3mode w k4r v z).e i = fieldAt F s3mode w k4r (quadAt v) z i := by
  fin_cases i
  · rfl
  · rfl
  · rfl
  · cases s3mode <;> rfl

theorem fb_field (s3mode : Bool) (w k4r : Word) (v : Quad) (z : Word) :
    (field F s3mode w k4r v z).fb = feedbackAt F k4r (quadAt v) z := rfl

theorem quadAt_residual (c : StepConsts) (g fg : Quad) (i : Fin 4) :
    quadAt (residual c g fg) i = residualAt c.h (quadAt g) (quadAt c.s) (quadAt fg) (quadAt c.fp) i := by
  fin_cases i <;> rfl

theorem quadAt_jacX (a w k4r z : Word) (s3mode : Bool) (v : Quad) (i : Fin 4) :
    quadAt (jacX a (sechSq (field F s3mode w k4r v z).t)) i = diagonalAt F a (quadAt v) i := by
  fin_cases i <;> rfl

theorem quadAt_jacY (c : StepConsts) (w k4r z fb : Word) (s3mode : Bool) (v : Quad) (i : Fin 4) :
    quadAt (jacY c (sechSq (field F s3mode w k4r v z).t) fb) i = couplingAt F c.jmode c.a c.c2 fb (quadAt v) i := by
  unfold jacY couplingAt
  fin_cases i
  · rfl
  all_goals
    cases c.jmode <;> simp [quadAt, sechSq, oneMinusSq, field]

theorem jacDet_eq_detOf (X Y : Quad) : jacDet X Y = detOf (quadAt X) (quadAt Y) := rfl

theorem quadAt_delta (X Y E : Quad) (i : Fin 4) :
    quadAt (delta (jacDet X Y) X Y E) i = deltaAt (quadAt X) (quadAt Y) (quadAt E) i := by
  fin_cases i <;> rfl

theorem quadAt_quadSub (g d : Quad) (i : Fin 4) : quadAt (quadSub g d) i = fsub (quadAt g i) (quadAt d i) := by
  fin_cases i <;> rfl

/-- The update of the machine is the pseudocode's, component by component (R143, R150). -/
theorem newtonUpdate_eq_updateAt (g : Quad) :
    (∀ i, quadAt (newtonUpdate F (stepConsts F R x m) g).1 i = (updateAt F R x m (quadAt g)).1 i) ∧
      (newtonUpdate F (stepConsts F R x m) g).2 = (updateAt F R x m (quadAt g)).2 := by
  have hfield : ∀ s3 w k4r v z, quadAt (field F s3 w k4r v z).e = fieldAt F s3 w k4r (quadAt v) z :=
    fun s3 w k4r v z => funext (quadAt_field F s3 w k4r v z)
  have hX : ∀ a s3 w k4r v z, quadAt (jacX a (sechSq (field F s3 w k4r v z).t)) = diagonalAt F a (quadAt v) :=
    fun a s3 w k4r v z => funext (quadAt_jacX F a w k4r z s3 v)
  have hY : ∀ c s3 w k4r v z fb, quadAt (jacY c (sechSq (field F s3 w k4r v z).t) fb) =
      couplingAt F c.jmode c.a c.c2 fb (quadAt v) := fun c s3 w k4r v z fb => funext (quadAt_jacY F c w k4r z fb s3 v)
  have hE : ∀ c g fg, quadAt (residual c g fg) =
      residualAt c.h (quadAt g) (quadAt c.s) (quadAt fg) (quadAt c.fp) := fun c g fg => funext (quadAt_residual c g fg)
  constructor
  · intro i
    simp only [newtonUpdate, quadAt_quadSub, quadAt_delta, hX, hY, hE, hfield, fb_field]
    simp only [stepConsts, hfield]
    rfl
  · simp only [newtonUpdate, jacDet_eq_detOf, hX, hY, fb_field]
    rfl

end

/-! ### Iterations from NaN updates, from a test met at once, and from a fixed point -/

/-- Four times the canonical NaN. -/
def quadNaN : Quad where
  v0 := qNaN
  v1 := qNaN
  v2 := qNaN
  v3 := qNaN

theorem quadSub_delta_of_isNaN (g X Y E : Quad) {det : Word} (h : isNaN det = true) :
    quadSub g (delta det X Y E) = quadNaN := by
  have hdelta : delta det X Y E = quadNaN := by simp only [delta, delta1, fdiv_of_isNaN (.inr h), quadNaN]
  simp only [hdelta, quadSub, quadNaN, fsub_of_isNaN (.inr isNaN_qNaN)]

theorem quadSub_quadNaN (g : Quad) : quadSub quadNaN g = quadNaN := by
  simp only [quadSub, quadNaN, fsub_of_isNaN (.inl isNaN_qNaN)]

/-- Updates with a NaN determinant never meet the test: they go on to the cap and leave NaNs (R152, R160). -/
theorem newtonLoop_of_isNaN {F : Prims} {c : StepConsts} (h : ∀ g, isNaN (newtonUpdate F c g).2 = true) (eps : Word)
    (n : Nat) (g : Quad) (k : Nat) (dz : Bool) :
    newtonLoop F c eps (n + 1) g k dz = { g := quadNaN, k := k + (n + 1), conv := false, detzero := dz } := by
  have hup : ∀ g, (newtonUpdate F c g).1 = quadNaN := fun g => quadSub_delta_of_isNaN g _ _ _ (h g)
  have hnorm : isNaN (l1Norm quadNaN) = true := by decide
  have hzero : ∀ g, isZero (newtonUpdate F c g).2 = false := fun g => Bool.eq_false_iff.2 fun hz => by
    simpa [isNaN_of_isFinite (isFinite_of_isZero hz)] using h g
  induction n generalizing g k with
  | zero => simp only [newtonLoop, hup, quadSub_quadNaN, (comparisons_of_isNaN (.inl hnorm)).2.1, hzero, Bool.or_false,
      Bool.false_eq_true, if_false, Nat.zero_add]
  | succ n ih =>
    rw [newtonLoop, hup, quadSub_quadNaN, (comparisons_of_isNaN (.inl hnorm)).2.1, if_neg Bool.false_ne_true, hzero,
      Bool.or_false, ih]
    simp only [NewtonEnd.mk.injEq, true_and, and_true]
    omega

/-- An update that meets the test ends the iteration (R152). -/
theorem newtonLoop_of_met {F : Prims} {c : StepConsts} {eps : Word} {n : Nat} {g : Quad} (hn : n ≠ 0)
    (h : fle (l1Norm (quadSub (newtonUpdate F c g).1 g)) eps = true) (k : Nat) (dz : Bool) :
    newtonLoop F c eps n g k dz = { g := (newtonUpdate F c g).1, k := k + 1, conv := true,
                                    detzero := dz || isZero (newtonUpdate F c g).2 } := by
  obtain ⟨n, rfl⟩ := Nat.exists_eq_succ_of_ne_zero hn
  rw [newtonLoop, if_pos h]

/-- A guess that the update leaves alone stays (R160). -/
theorem newtonLoop_of_fixed {F : Prims} {c : StepConsts} {g : Quad} (hup : (newtonUpdate F c g).1 = g)
    (hdet : isZero (newtonUpdate F c g).2 = false) (eps : Word) (n k : Nat) (dz : Bool) :
    (newtonLoop F c eps n g k dz).g = g ∧ (newtonLoop F c eps n g k dz).detzero = dz := by
  induction n generalizing k with
  | zero => exact ⟨rfl, rfl⟩
  | succ n ih =>
    rw [newtonLoop, hup, hdet, Bool.or_false]
    split
    · exact ⟨rfl, rfl⟩
    · exact ih (k + 1)

/-! ### When an update is NaN -/

theorem isNaN_fadd {x y : Word} (h : isNaN x = true ∨ isNaN y = true) : isNaN (fadd x y) = true := by
  rw [fadd_of_isNaN h]; exact isNaN_qNaN

theorem isNaN_fsub {x y : Word} (h : isNaN x = true ∨ isNaN y = true) : isNaN (fsub x y) = true := by
  rw [fsub_of_isNaN h]; exact isNaN_qNaN

theorem isNaN_fmul {x y : Word} (h : isNaN x = true ∨ isNaN y = true) : isNaN (fmul x y) = true := by
  rw [fmul_of_isNaN h]; exact isNaN_qNaN

theorem isNaN_prod4_of_first {a b c d : Word} (h : isNaN a = true) : isNaN (prod4 a b c d) = true :=
  isNaN_fmul (.inl (isNaN_fmul (.inl (isNaN_fmul (.inl h)))))

/-- A NaN input reaches the determinant through the feedback, a NaN cutoff through the diagonal (R142, R147, R148). -/
theorem isNaN_newtonUpdate {c : StepConsts} (h : isNaN c.u = true ∨ isNaN c.a = true) (g : Quad) :
    isNaN (newtonUpdate prims c g).2 = true := by
  refine isNaN_fsub ?_
  obtain hu | ha := h
  · have hfb : isNaN (field prims c.s3mode c.w c.k4r g c.u).fb = true :=
      (congrArg isNaN (tanh_of_isNaN (isNaN_fadd (.inr hu)))).trans isNaN_qNaN
    exact .inr (isNaN_prod4_of_first (isNaN_fmul (.inr (isNaN_fsub (.inr (isNaN_fmul (.inl hfb)))))))
  · exact .inl (isNaN_prod4_of_first (isNaN_fadd (.inr (isNaN_fmul (.inl ha)))))

/-- A step with a NaN input or cutoff goes on to the cap and leaves NaNs (R160). -/
theorem newtonSolve_of_isNaN {R : Filter} {x m : Word} (hmax : R.maxit ≠ 0)
    (h : isNaN (stepConsts prims R x m).u = true ∨ isNaN (stepConsts prims R x m).a = true) :
    newtonSolve prims R x m = { g := quadNaN, k := R.maxit.toNat, conv := false, detzero := false } := by
  obtain ⟨n, hn⟩ := Nat.exists_eq_succ_of_ne_zero (n := R.maxit.toNat)
    fun e => hmax (BitVec.eq_of_toNat_eq e)
  rw [newtonSolve, hn, newtonLoop_of_isNaN (isNaN_newtonUpdate h), Nat.zero_add]

/-! ### The obligations about the iteration, and about R163 as written -/

/-- R142: with S3MODE = 0 the last field component is `w` times the +0 of opposite values. -/
theorem isZero_field_v3 {w k4r z : Word} {v : Quad} (hw : isFinite w = true) (hv : isNaN v.v3 = false) :
    isZero (field prims false w k4r v z).e.v3 = true := by
  have hsum : fadd (fneg (prims.tanh v.v3)) (prims.tanh v.v3) = fZero :=
    fadd_fneg_self ((within_tanh hv).isFinite (by decide))
  exact isZero_fmul_right hw ((congrArg isZero hsum).trans rfl)

/-- Settles O46: the iteration follows the guesses of its updates, and each update is the pseudocode's. -/
theorem newtonIterationIsBounded : Obligations.NewtonIterationIsBounded := by
  refine ⟨?_, newtonUpdate_eq_updateAt, fun w k4r z v => isZero_field_v3⟩
  rintro F R x m r hmax rfl
  have hends : EndsFrom F R x m 0 R.maxit.toNat false (newtonSolve F R x m) := newtonLoop_endsFrom ..
  obtain ⟨-, hmoved, hcapped, hguess, hconverged, hexhausted, hbefore, hdetzero⟩ := hends
  have hpos := hmoved fun e => hmax (BitVec.eq_of_toNat_eq e)
  rw [Nat.zero_add] at hcapped
  refine ⟨hpos, hcapped, fun h => ?_, hguess, ⟨fun h => (hconverged h).2, fun h => ?_⟩,
    fun j hj => hbefore j j.zero_le ?_, ?_⟩
  · exact (hexhausted h).1.trans (Nat.zero_add _)
  · by_contra hconv
    have hnot := (hexhausted (Bool.eq_false_iff.2 hconv)).2 _ (Nat.zero_le _) (Nat.sub_lt hpos one_pos)
    exact Bool.false_ne_true (hnot.symm.trans h)
  · exact Nat.lt_sub_iff_add_lt.1 hj
  · simpa using hdetzero

/-- A filter at rest with an infinite IN_GAIN. -/
def infiniteGainFilter : Filter := { Filter.reset with inGain := 0x7F800000#32 }

/-- Refutes O50: with an infinite IN_GAIN the scaled input 0 * infinity is a NaN (log entry 10). -/
theorem not_silentStepStaysSilentAsWritten : ¬ Obligations.SilentStepStaysSilentAsWritten := by
  intro h
  have hnan : isNaN (stepConsts prims infiniteGainFilter fZero fZero).u = true := by decide
  have hend := newtonSolve_of_isNaN (R := infiniteGainFilter) (by decide) (.inl hnan)
  obtain ⟨hk, -⟩ := h infiniteGainFilter fZero fZero _ hend.symm (by decide) (by decide) (by decide) (by decide)
    (by decide) (by decide) (by decide) (by decide) (by decide) (by decide) (by decide) (by decide) (by decide)
    (by decide)
  exact absurd hk (by decide)

end Sys2Proof.Machine

/-! The obligations about a step from silence and about FILTER_STEP (R155, R156, R160, R163). -/

namespace Sys2Proof.Machine

/-! ### Products of four -/

theorem isZero_prod4_of_first {a b c d : Word} (ha : isZero a = true) (hb : isFinite b = true) (hc : isFinite c = true)
    (hd : isFinite d = true) : isZero (prod4 a b c d) = true :=
  isZero_fmul_left (isZero_fmul_left (isZero_fmul_left ha hb) hc) hd

theorem isZero_prod4_of_last {a b c d : Word} (ha : Within 1 a) (hb : Within 1 b) (hc : Within 1 c)
    (hd : isZero d = true) : isZero (prod4 a b c d) = true :=
  isZero_fmul_right (((ha.fmul hb (by decide) (by decide)).fmul hc (by decide) (by decide)).isFinite (by decide)) hd

theorem within_prod4 {k : Nat} (hk : k ≤ 30) {a b c d : Word} (ha : Within k a) (hb : Within k b) (hc : Within k c)
    (hd : Within k d) : Within (k + k + k + k) (prod4 a b c d) :=
  ((ha.fmul hb (by omega) (by omega)).fmul hc (by omega) (by omega)).fmul hd (by omega) (by omega)

/-! ### Vectors of zeros -/

/-- Each component is a zero. -/
structure Quad.IsZero (q : Quad) : Prop where
  v0 : isZero q.v0 = true
  v1 : isZero q.v1 = true
  v2 : isZero q.v2 = true
  v3 : isZero q.v3 = true

/-- Each component has a magnitude of at most 2^k. -/
structure Quad.IsWithin (k : Nat) (q : Quad) : Prop where
  v0 : Within k q.v0
  v1 : Within k q.v1
  v2 : Within k q.v2
  v3 : Within k q.v3

/-- A difference of zeros has norm +0, which is at most any EPS that +0 is at most (R151). -/
theorem l1Norm_of_isZero {d : Quad} (h : d.IsZero) : l1Norm d = fZero := by
  simp only [l1Norm, fabs_of_isZero h.v0, fabs_of_isZero h.v1, fabs_of_isZero h.v2, fabs_of_isZero h.v3]
  decide

theorem quadSub_isZero {g d : Quad} (hg : g.IsZero) (hd : d.IsZero) : (quadSub g d).IsZero :=
  ⟨isZero_fsub hg.v0 hd.v0, isZero_fsub hg.v1 hd.v1, isZero_fsub hg.v2 hd.v2, isZero_fsub hg.v3 hd.v3⟩

/-! ### The field, the residual and the Jacobian at zeros (R163) -/

theorem within_oneMinusSq {t : Word} (h : Within 0 t) : Within 1 (oneMinusSq t) :=
  have hsq : Within 0 (fmul t t) := h.fmul h (by decide) (by decide)
  within_one.fsub hsq (by decide)

theorem oneMinusSq_of_isZero {t : Word} (h : isZero t = true) : oneMinusSq t = fOne :=
  fsub_of_isZero_right fOne (isZero_fmul_left h (isFinite_of_isZero h)) (.inr rfl)

section
variable {s3mode : Bool} {w k4r z : Word} {v : Quad}

/-- FIELD at zeros is zero where `w` and the feedback gain are finite. -/
theorem field_of_isZero (hw : isFinite w = true) (hk : isFinite k4r = true) (hv : v.IsZero) (hz : isZero z = true) :
    (field prims s3mode w k4r v z).e.IsZero ∧ (field prims s3mode w k4r v z).t = v ∧
      isZero (field prims s3mode w k4r v z).fb = true := by
  have hfb : isZero (prims.tanh (fadd (fmul k4r v.v3) z)) = true := by
    have harg := isZero_fadd (isZero_fmul_right hk hv.v3) hz
    rwa [tanh_of_isZero harg]
  have hneg : ∀ {x y : Word}, isZero x = true → isZero y = true → isZero (fmul w (fadd (fneg x) y)) = true :=
    fun hx hy => isZero_fmul_right hw (isZero_fadd (by rwa [isZero_fneg]) hy)
  simp only [field, tanh_of_isZero hv.v0, tanh_of_isZero hv.v1, tanh_of_isZero hv.v2, tanh_of_isZero hv.v3]
  refine ⟨⟨hneg hv.v0 (by rwa [isZero_fneg]), hneg hv.v1 hv.v0, hneg hv.v2 hv.v1, hneg hv.v3 ?_⟩, trivial, hfb⟩
  cases s3mode
  · exact hv.v3
  · exact hv.v2

/-- FIELD with a zero `w` is zero where no operand of TANH is a NaN (R160). -/
theorem field_of_isZero_w (hw : isZero w = true) (h0 : isNaN v.v0 = false) (h1 : isNaN v.v1 = false)
    (h2 : isNaN v.v2 = false) (h3 : isNaN v.v3 = false) (hz : isNaN (fadd (fmul k4r v.v3) z) = false) :
    (field prims s3mode w k4r v z).e.IsZero ∧ (field prims s3mode w k4r v z).t.IsWithin 0 ∧
      Within 0 (field prims s3mode w k4r v z).fb := by
  have hmul : ∀ {x y : Word}, Within 0 x → Within 0 y → isZero (fmul w (fadd (fneg x) y)) = true :=
    fun hx hy => isZero_fmul_left hw ((hx.fneg.fadd hy (by decide)).isFinite (by decide))
  have ht0 := within_tanh h0
  have ht1 := within_tanh h1
  have ht2 := within_tanh h2
  have ht3 := within_tanh h3
  refine ⟨⟨hmul ht0 (within_tanh hz).fneg, hmul ht1 ht0, hmul ht2 ht1, hmul ht3 ?_⟩, ⟨ht0, ht1, ht2, ht3⟩,
    within_tanh hz⟩
  cases s3mode
  · exact ht3
  · exact ht2

end

/-- The residual's field term at zero fields. -/
theorem isZero_fmul_fields {h fg fp : Word} (hh : isFinite h = true) (hfg : isZero fg = true) (hfp : isZero fp = true) :
    isZero (fmul h (fadd fg fp)) = true := isZero_fmul_right hh (isZero_fadd hfg hfp)

theorem isZero_residual1 {h g s fg fp : Word} (hh : isFinite h = true) (hg : isZero g = true) (hs : isZero s = true)
    (hfg : isZero fg = true) (hfp : isZero fp = true) : isZero (residual1 h g s fg fp) = true :=
  isZero_fsub (isZero_fsub hg hs) (isZero_fmul_fields hh hfg hfp)

/-- At the state itself the residual of zero fields is +0. -/
theorem residual1_self {h g fg fp : Word} (hh : isFinite h = true) (hg : isFinite g = true) (hfg : isZero fg = true)
    (hfp : isZero fp = true) : residual1 h g g fg fp = fZero := by
  rw [residual1, fsub_self hg]
  exact fsub_of_isZero_right fZero (isZero_fmul_fields hh hfg hfp) (.inl rfl)

/-! ### The update from silence (R163) -/

/-- The quotient of zero terms and a proper determinant is zero. -/
theorem isZero_delta1 {det Xp Xr Xl Yi Yl Yr Fi Fp Fr Fl : Word} (hdet : isFinite det = true)
    (hdet0 : isZero det = false) (hXp : Within 1 Xp) (hXr : Within 1 Xr) (hXl : Within 1 Xl) (hYi : Within 1 Yi)
    (hYl : Within 1 Yl) (hYr : Within 1 Yr) (hFi : isZero Fi = true) (hFp : isZero Fp = true) (hFr : isZero Fr = true)
    (hFl : isZero Fl = true) : isZero (delta1 det Xp Xr Xl Yi Yl Yr Fi Fp Fr Fl) = true :=
  isZero_fdiv (isZero_fadd (isZero_fadd (isZero_fadd (isZero_prod4_of_last hXp hXr hXl hFi)
    (isZero_prod4_of_last hYi hXp hXr hFl)) (isZero_prod4_of_last hYi hYl hXp hFr))
    (isZero_prod4_of_last hYi hYl hYr hFp)) hdet hdet0

theorem delta_isZero {det : Word} {X Y E : Quad} (hdet : isFinite det = true) (hdet0 : isZero det = false)
    (hX : X.IsWithin 1) (hY : Y.IsWithin 1) (hE : E.IsZero) : (delta det X Y E).IsZero where
  v0 := isZero_delta1 hdet hdet0 hX.v1 hX.v2 hX.v3 hY.v0 hY.v3 hY.v2 hE.v0 hE.v1 hE.v2 hE.v3
  v1 := isZero_delta1 hdet hdet0 hX.v2 hX.v3 hX.v0 hY.v1 hY.v0 hY.v3 hE.v1 hE.v2 hE.v3 hE.v0
  v2 := isZero_delta1 hdet hdet0 hX.v3 hX.v0 hX.v1 hY.v2 hY.v1 hY.v0 hE.v2 hE.v3 hE.v0 hE.v1
  v3 := isZero_delta1 hdet hdet0 hX.v0 hX.v1 hX.v2 hY.v3 hY.v2 hY.v1 hE.v3 hE.v0 hE.v1 hE.v2

/-- The Jacobian's constants of a step lie where R163's reason needs them: 0 <= a <= 1 and -1 <= c2 <= 0. -/
structure Moderate (c : StepConsts) : Prop where
  within_a : Within 0 c.a
  a_nonneg : 0 ≤ wordValue c.a
  within_c2 : Within 0 c.c2
  c2_nonpos : wordValue c.c2 ≤ 0

section
variable {c : StepConsts} (hc : Moderate c)
include hc

theorem within_diagonal : Within 1 (fadd fOne c.a) := within_one.fadd hc.within_a (by decide)

theorem one_le_diagonal : 2 ^ 149 ≤ wordValue (fadd fOne c.a) := by
  have hone : wordValue fOne = 2 ^ 149 := by decide
  have ha := hc.a_nonneg
  exact one_le_fadd (by decide) (hc.within_a.isFinite (by decide)) (by omega)

theorem one_le_prod4_diagonal :
    2 ^ 149 ≤ wordValue (prod4 (fadd fOne c.a) (fadd fOne c.a) (fadd fOne c.a) (fadd fOne c.a)) := by
  have hx := within_diagonal hc
  have hx1 := one_le_diagonal hc
  have hxx := hx.fmul hx (by decide) (by decide)
  have hxxx := hxx.fmul hx (by decide) (by decide)
  have hfin := hx.isFinite (by decide)
  exact one_le_fmul (hxxx.isFinite (by decide)) hfin
    (one_le_fmul (hxx.isFinite (by decide)) hfin (one_le_fmul hfin hfin hx1 hx1) hx1) hx1

theorem prod4_coupling_nonpos : wordValue (prod4 c.c2 c.a c.a c.a) ≤ 0 := by
  have hca := hc.within_c2.fmul hc.within_a (by decide) (by decide)
  have hcaa := hca.fmul hc.within_a (by decide) (by decide)
  have ha := hc.within_a.isFinite (by decide)
  exact fmul_nonpos (hcaa.isFinite (by decide)) ha
    (fmul_nonpos (hca.isFinite (by decide)) ha
      (fmul_nonpos (hc.within_c2.isFinite (by decide)) ha hc.c2_nonpos hc.a_nonneg) hc.a_nonneg) hc.a_nonneg

/-- R163: the determinant is at least 1, the product of the couplings being not positive. -/
theorem det_of_moderate {det : Word} (hdet : det =
      fsub (prod4 (fadd fOne c.a) (fadd fOne c.a) (fadd fOne c.a) (fadd fOne c.a)) (prod4 c.c2 c.a c.a c.a)) :
    isFinite det = true ∧ isZero det = false := by
  have hx := within_diagonal hc
  have hP := within_prod4 (by decide) hx hx hx hx
  have hQ := (within_prod4 (by decide) hc.within_c2 hc.within_a hc.within_a hc.within_a).mono (j := 1 + 1 + 1 + 1)
    (by decide)
  have hP1 := one_le_prod4_diagonal hc
  have hQ0 := prod4_coupling_nonpos hc
  have hdet1 : 2 ^ 149 ≤ wordValue det := by
    rw [hdet]
    exact one_le_fadd (hP.isFinite (by decide)) (hQ.fneg.isFinite (by decide)) (by rw [wordValue_fneg]; omega)
  refine ⟨hdet ▸ (hP.fsub hQ (by decide)).isFinite (by decide), Bool.eq_false_iff.2 fun hz => ?_⟩
  have hunits := (one_le_wordUnits hdet1).2
  rw [(isZero_iff_wordUnits _).1 hz] at hunits
  omega

/-- From silence one update stays silent (R163). -/
theorem newtonUpdate_of_silent {g : Quad} (hg : g.IsZero) (hs : c.s.IsZero) (hfp : c.fp.IsZero) (hu : isZero c.u = true)
    (hw : isFinite c.w = true) (hh : isFinite c.h = true) (hk : isFinite c.k4r = true) :
    (newtonUpdate prims c g).1.IsZero := by
  obtain ⟨he, ht, hfb⟩ := field_of_isZero (s3mode := c.s3mode) hw hk hg hu
  have ha := hc.within_a.isFinite (by decide)
  have hq : sechSq (field prims c.s3mode c.w c.k4r g c.u).t = ⟨fOne, fOne, fOne, fOne⟩ := by
    simp only [sechSq, ht, oneMinusSq_of_isZero hg.v0, oneMinusSq_of_isZero hg.v1, oneMinusSq_of_isZero hg.v2,
      oneMinusSq_of_isZero hg.v3]
  have hX : jacX c.a ⟨fOne, fOne, fOne, fOne⟩ = ⟨fadd fOne c.a, fadd fOne c.a, fadd fOne c.a, fadd fOne c.a⟩ := by
    simp only [jacX, fmul_one ha]
  have hY : jacY c ⟨fOne, fOne, fOne, fOne⟩ (field prims c.s3mode c.w c.k4r g c.u).fb = ⟨c.c2, c.a, c.a, c.a⟩ := by
    simp only [jacY, oneMinusSq_of_isZero hfb, fmul_one (hc.within_c2.isFinite (by decide)), ite_self, fmul_one ha]
  have hE : (residual c g (field prims c.s3mode c.w c.k4r g c.u).e).IsZero :=
    ⟨isZero_residual1 hh hg.v0 hs.v0 he.v0 hfp.v0, isZero_residual1 hh hg.v1 hs.v1 he.v1 hfp.v1,
      isZero_residual1 hh hg.v2 hs.v2 he.v2 hfp.v2, isZero_residual1 hh hg.v3 hs.v3 he.v3 hfp.v3⟩
  obtain ⟨hdet, hdet0⟩ := det_of_moderate hc rfl
  have hx := within_diagonal hc
  have hc2 := hc.within_c2.mono zero_le_one
  have ha1 := hc.within_a.mono zero_le_one
  simp only [newtonUpdate, hq, hX, hY]
  exact quadSub_isZero hg (delta_isZero hdet hdet0 ⟨hx, hx, hx, hx⟩ ⟨hc2, ha1, ha1, ha1⟩ hE)

end

theorem moderate_of_fle {c : StepConsts} (ha0 : fle fZero c.a = true) (ha1 : fle c.a fOne = true)
    (hc1 : fle 0xBF800000#32 c.c2 = true) (hc0 : fle c.c2 fZero = true) : Moderate c := by
  have hzero : wordValue fZero = 0 := by decide
  have hnum : ∀ {x y : Word}, fle x y = true → isNaN x = false ∧ isNaN y = false := fun h => by
    simp only [fle, Bool.and_eq_true, Bool.not_eq_true'] at h
    exact h.1
  have ha : 0 ≤ wordValue c.a := hzero ▸ (fle_iff_wordValue (hnum ha0).1 (hnum ha0).2).1 ha0
  have hc2 : wordValue c.c2 ≤ 0 := hzero ▸ (fle_iff_wordValue (hnum hc0).1 (hnum hc0).2).1 hc0
  refine ⟨within_zero_of_fle ?_ ha1, ha, within_zero_of_fle hc1 ?_, hc2⟩
  · have hneg : wordValue 0xBF800000#32 ≤ 0 := by decide
    exact (fle_iff_wordValue (by decide) (hnum ha0).2).2 (hneg.trans ha)
  · have hone : 0 ≤ wordValue fOne := by decide
    exact (fle_iff_wordValue (hnum hc0).1 (by decide)).2 (hc2.trans hone)

/-- Settles O51: the first update from silence is silent, so its norm +0 meets the test. -/
theorem silentStepStaysSilentWhenModerate : Obligations.SilentStepStaysSilentWhenModerate := by
  rintro R x m r c rfl rfl hmax hs0 hs1 hs2 hs3 hxp hx heps hgain hout hw hh hk ha0 ha1 hc1 hc0
  have hs : R.s.IsZero := ⟨hs0, hs1, hs2, hs3⟩
  have hu : isZero (stepConsts prims R x m).u = true := isZero_fmul_left hx hgain
  have hfp : (stepConsts prims R x m).fp.IsZero := (field_of_isZero hw hk hs hxp).1
  have hup : (newtonUpdate prims (stepConsts prims R x m) R.s).1.IsZero :=
    newtonUpdate_of_silent (moderate_of_fle ha0 ha1 hc1 hc0) hs hs hfp hu hw hh hk
  have hnorm := l1Norm_of_isZero (quadSub_isZero hup hs)
  have hend : newtonSolve prims R x m = _ :=
    newtonLoop_of_met (fun e => hmax (BitVec.eq_of_toNat_eq e)) (hnorm ▸ heps) 0 false
  simp only [ladderOut, hend]
  exact ⟨trivial, trivial, hup.v0, hup.v1, hup.v2, hup.v3, isZero_fmul_left hup.v3 hout⟩

/-! ### FILTER_STEP with a zero cutoff (R160) -/

theorem isFinite_fmul_half {x : Word} (hx : isFinite x = true) : isFinite (fmul x fHalf) = true := by
  have hhalf : wordUnits fHalf = 2 ^ 148 := by decide
  have hround : roundMag (wordUnits x * 2 ^ 148) (2 ^ 149) ≤ fmag x :=
    roundMag_le (by positivity) (by rw [wordUnits_eq_magUnits_fmag]; omega)
  have hmag : fmag x < infMag := of_decide_eq_true hx
  rw [fmul_finite hx (by decide), hhalf, isFinite, fmag_fpack _ (hround.trans_lt (hmag.trans infMag_lt_two_pow))]
  exact decide_eq_true (hround.trans_lt hmag)

/-- A finite product has a finite factor beside -2: a NaN stays a NaN, and an infinity an infinity. -/
theorem isFinite_of_fmul_minusTwo {x : Word} (h : isFinite (fmul fMinusTwo x) = true) : isFinite x = true := by
  have hnan : isNaN x = false := Bool.eq_false_iff.2 fun hx => by
    have hqNaN : isFinite qNaN = false := by decide
    rw [fmul_of_isNaN (.inr hx), hqNaN] at h
    exact Bool.false_ne_true h
  have hinf : isInf x = false := Bool.eq_false_iff.2 fun hx => by
    have hzero : (isZero fMinusTwo || isZero x) = false := by
      rw [Bool.or_eq_false_iff]
      refine ⟨by decide, Bool.eq_false_iff.2 fun hz => ?_⟩
      exact Bool.false_ne_true ((isInf_eq_false_of_isZero hz).symm.trans hx)
    have hinfinity : ∀ neg, isFinite (infinity neg) = false := by decide
    rw [fmul_inf (by decide) hnan (.inr hx), hzero, if_neg Bool.false_ne_true, hinfinity] at h
    exact Bool.false_ne_true h
  have hle : ¬ infMag < fmag x := of_decide_eq_false hnan
  have hne : fmag x ≠ infMag := of_decide_eq_false hinf
  exact decide_eq_true (by omega)

/-- With zero couplings, a unit diagonal and a residual of +0 the quotient is +0. -/
theorem delta1_of_unit {Yi Yl Yr : Word} (hYi : isZero Yi = true) (hYl : isZero Yl = true) (hYr : isZero Yr = true) :
    delta1 fOne fOne fOne fOne Yi Yl Yr fZero fZero fZero fZero = fZero := by
  have hone : isFinite fOne = true := by decide
  have hzero : isFinite fZero = true := by decide
  have hfirst : prod4 fOne fOne fOne fZero = fZero := by decide
  have hquot : fdiv fZero fOne = fZero := by decide
  rw [delta1, hfirst, fadd_zero_left (isZero_prod4_of_first hYi hone hone hzero),
    fadd_zero_left (isZero_prod4_of_first hYi (isFinite_of_isZero hYl) hone hzero),
    fadd_zero_left (isZero_prod4_of_first hYi (isFinite_of_isZero hYl) (isFinite_of_isZero hYr) hzero), hquot]

theorem delta_of_unit {Y : Quad} (hY : Y.IsZero) :
    delta fOne ⟨fOne, fOne, fOne, fOne⟩ Y ⟨fZero, fZero, fZero, fZero⟩ = ⟨fZero, fZero, fZero, fZero⟩ := by
  simp only [delta, delta1_of_unit hY.v0 hY.v3 hY.v2, delta1_of_unit hY.v1 hY.v0 hY.v3,
    delta1_of_unit hY.v2 hY.v1 hY.v0, delta1_of_unit hY.v3 hY.v2 hY.v1]

theorem jacDet_of_unit {Y : Quad} (hY : Y.IsZero) : jacDet ⟨fOne, fOne, fOne, fOne⟩ Y = fOne := by
  have hprod : prod4 fOne fOne fOne fOne = fOne := by decide
  rw [jacDet, hprod]
  exact fsub_of_isZero_right fOne (isZero_prod4_of_first hY.v0 (isFinite_of_isZero hY.v1) (isFinite_of_isZero hY.v2)
    (isFinite_of_isZero hY.v3)) (.inr rfl)

/-- Every component is finite. -/
structure Quad.IsFinite (q : Quad) : Prop where
  v0 : isFinite q.v0 = true
  v1 : isFinite q.v1 = true
  v2 : isFinite q.v2 = true
  v3 : isFinite q.v3 = true

theorem quadSub_zero {g : Quad} (hg : g.IsFinite) : quadSub g ⟨fZero, fZero, fZero, fZero⟩ = g := by
  simp only [quadSub, fsub_zero hg.v0, fsub_zero hg.v1, fsub_zero hg.v2, fsub_zero hg.v3]

theorem quadSub_self {g : Quad} (hg : g.IsFinite) : quadSub g g = ⟨fZero, fZero, fZero, fZero⟩ := by
  simp only [quadSub, fsub_self hg.v0, fsub_self hg.v1, fsub_self hg.v2, fsub_self hg.v3]

/-- With a zero cutoff an update leaves the state alone, bit for bit, and divides by 1 (R160). -/
theorem newtonUpdate_of_isZero_w {c : StepConsts} (hw : isZero c.w = true) (ha : isZero c.a = true)
    (hc2 : isZero c.c2 = true) (hh : isFinite c.h = true) (hs : c.s.IsFinite) (hfp : c.fp.IsZero)
    (hz : isNaN (fadd (fmul c.k4r c.s.v3) c.u) = false) : newtonUpdate prims c c.s = (c.s, fOne) := by
  obtain ⟨he, ht, hfb⟩ := field_of_isZero_w (s3mode := c.s3mode) hw (isNaN_of_isFinite hs.v0) (isNaN_of_isFinite hs.v1)
    (isNaN_of_isFinite hs.v2) (isNaN_of_isFinite hs.v3) hz
  have hq : ∀ {t : Word}, Within 0 t → isFinite (oneMinusSq t) = true := fun h =>
    (within_oneMinusSq h).isFinite (by decide)
  have hmul : ∀ {t : Word}, Within 0 t → isZero (fmul c.a (oneMinusSq t)) = true := fun h => isZero_fmul_left ha (hq h)
  have hX : jacX c.a (sechSq (field prims c.s3mode c.w c.k4r c.s c.u).t) = ⟨fOne, fOne, fOne, fOne⟩ := by
    simp only [jacX, sechSq, fadd_one_of_isZero (hmul ht.v0), fadd_one_of_isZero (hmul ht.v1),
      fadd_one_of_isZero (hmul ht.v2), fadd_one_of_isZero (hmul ht.v3)]
  have hY : (jacY c (sechSq (field prims c.s3mode c.w c.k4r c.s c.u).t)
      (field prims c.s3mode c.w c.k4r c.s c.u).fb).IsZero := by
    refine ⟨isZero_fmul_left hc2 (hq hfb), ?_, ?_, ?_⟩
    all_goals
      simp only [jacY, sechSq]
      split
    exacts [hmul ht.v0, hmul ht.v1, hmul ht.v1, hmul ht.v2, hmul ht.v2, hmul ht.v3]
  have hE : residual c c.s (field prims c.s3mode c.w c.k4r c.s c.u).e = ⟨fZero, fZero, fZero, fZero⟩ := by
    simp only [residual, residual1_self hh hs.v0 he.v0 hfp.v0, residual1_self hh hs.v1 he.v1 hfp.v1,
      residual1_self hh hs.v2 he.v2 hfp.v2, residual1_self hh hs.v3 he.v3 hfp.v3]
  simp only [newtonUpdate, hX, hE, jacDet_of_unit hY, delta_of_unit hY, quadSub_zero hs]

/-! ### The obligation about FILTER_STEP -/

/-- Settles O45: the step commits its solution; a NaN input or modulation makes every update NaN, and a zero cutoff
makes the state a fixed point of the update. -/
theorem filterStepCommits : Obligations.FilterStepCommits := by
  rintro s unit f R r hready hunit rfl rfl
  refine ⟨?_, fun hnan hmax => ?_, fun hw0 hT hres hs0 hs1 hs2 hs3 hprev hin => ?_⟩
  · have hok := (tryFilterStep_ok prims unit s _).2 ⟨hready, f, hunit, rfl⟩
    rw [exec_eq, show tryCommand (.filterStep unit) s = _ from hok]
    rfl
  · have hsolve := newtonSolve_of_isNaN (R := getFilter s f) (x := s.arg0) (m := s.arg1) hmax
      (hnan.imp (fun hx => isNaN_fmul (.inl hx)) fun hm => isNaN_fmul (.inr (isNaN_fmul (.inl (isNaN_fadd (.inr hm))))))
    rw [hsolve]
    exact ⟨rfl, rfl, rfl, rfl, fmul_of_isNaN (.inl isNaN_qNaN)⟩
  · set R := getFilter s f
    set c := stepConsts prims R s.arg0 s.arg1
    have hs : R.s.IsFinite := ⟨hs0, hs1, hs2, hs3⟩
    have hw : isZero c.w = true := isZero_fmul_left hw0 (by decide)
    have hh : isFinite c.h = true := isFinite_fmul_half (isFinite_of_fmul_minusTwo hT)
    have ha : isZero c.a = true := isZero_fmul_right hh hw
    have hc2 : isZero c.c2 = true := isZero_fmul_left (isZero_fmul_right hT hw) hres
    have hfp : c.fp.IsZero := (field_of_isZero_w hw (isNaN_of_isFinite hs0) (isNaN_of_isFinite hs1)
      (isNaN_of_isFinite hs2) (isNaN_of_isFinite hs3) hprev).1
    have hup : newtonUpdate prims c R.s = (R.s, fOne) := newtonUpdate_of_isZero_w hw ha hc2 hh hs hfp hin
    have hfixed : (newtonUpdate prims c R.s).1 = R.s ∧ isZero (newtonUpdate prims c R.s).2 = false := by
      rw [hup]
      exact ⟨rfl, (by decide : isZero fOne = false)⟩
    obtain ⟨hg, hdz⟩ := newtonLoop_of_fixed hfixed.1 hfixed.2 R.eps R.maxit.toNat 0 false
    refine ⟨hg, hdz, fun hmax heps => ?_⟩
    have hnorm : l1Norm (quadSub (newtonUpdate prims c R.s).1 R.s) = fZero := by
      rw [hfixed.1, quadSub_self hs]
      decide
    have hend : newtonSolve prims R s.arg0 s.arg1 = _ :=
      newtonLoop_of_met (fun e => hmax (BitVec.eq_of_toNat_eq e)) (hnorm ▸ heps) 0 false
    rw [hend]
    exact ⟨rfl, rfl⟩

end Sys2Proof.Machine

/-! The obligations about FILTER_BLOCK (R161, R164). -/

namespace Sys2Proof.Machine

/-! ### Phases and samples depend on the modulation so far -/

theorem phaseAfter_congr {fm fm' : Nat → Option Word} (o : Osc) {n : Nat} (h : ∀ k < n, fm k = fm' k) :
    phaseAfter fm o n = phaseAfter fm' o n := by
  induction n with
  | zero => rfl
  | succ n ih => rw [phaseAfter, phaseAfter, ih fun k hk => h k (Nat.lt_succ_of_lt hk), h n n.lt_succ_self]

theorem blockSample_congr (F : Prims) (p : Params) (wf : Waveform) (o : Osc) {fm fm' : Nat → Option Word}
    (amp : Nat → Word) (d : Nat) {n : Nat} (h : ∀ k ≤ n, fm k = fm' k) :
    blockSample F p wf o fm amp d n = blockSample F p wf o fm' amp d n := by
  have hphase := phaseAfter_congr o (n := n + 1) fun k hk => h k (Nat.le_of_lt_succ hk)
  unfold blockSample
  rw [hphase]

/-! ### Buffers outside the one that was written -/

/-- What leaves the bytes outside one buffer's block alone leaves the words of the others alone. -/
theorem readBuf_of_frame {s t : State} {b b' N n : Nat}
    (hframe : ∀ a, ¬ inBuffer b' N a → readByte t.ram a = readByte s.ram a) (hN : N ≤ 4096) (hn : n < 4096)
    (h : b ≠ b' ∨ N ≤ n) : readBuf t b n = readBuf s b n := by
  refine readWord_congr _ _ _ fun j hj => hframe _ ?_
  unfold inBuffer bufAddr
  omega

theorem readByte_lfoRun (F : Prims) (l : LfoSel) (wf : Waveform) (ufm : Bool) (s : State) {a : Nat}
    (h : ¬ inBuffer (lfoBuffer l) (blockLen s) a) : readByte (lfoRun F l wf ufm s).ram a = readByte s.ram a := by
  obtain ⟨-, -, -, -, hframe, -⟩ := lfoRun_leaves F l wf ufm s
  exact hframe a h nofun

theorem ramCanonical_lfoRun (F : Prims) (l : LfoSel) (wf : Waveform) (ufm : Bool) {s : State} (h : RamCanonical s) :
    RamCanonical (lfoRun F l wf ufm s) := by
  obtain ⟨-, -, -, hwf, -⟩ := lfoRun_leaves F l wf ufm s
  exact hwf h

/-! ### The two LFO runs of FILTER_BLOCK -/

/-- The first of FILTER_BLOCK's two LFO runs (R161). -/
def filterMetaRun (F : Prims) (f : Fin 4) (pl : FilterPlan) (s : State) : State :=
  lfoRun F (.filter f .metaCut) pl.metaWf false s

/-- Both LFO runs of FILTER_BLOCK (R161). -/
def filterLfoRuns (F : Prims) (f : Fin 4) (pl : FilterPlan) (s : State) : State :=
  lfoRun F (.filter f .cut) pl.cutWf true (filterMetaRun F f pl s)

theorem filterBlock_eq (F : Prims) (f : Fin 4) (pl : FilterPlan) (s : State) :
    filterBlock F f pl s = forSamples (blockLen s) (filterSample F f) (filterLfoRuns F f pl s) := rfl

theorem lfoBuffer_cut (f : Fin 4) : lfoBuffer (.filter f .cut) = 9 + 2 * f.val := rfl

/-- The cutoff LFO's modulation is the meta-cutoff LFO's samples (R116, R197). -/
theorem renderFm_cut (f : Fin 4) (wf : Waveform) (s : State) (n : Nat) :
    renderFm (lfoRender (.filter f .cut) wf true s) n s = some (readBuf s (8 + 2 * f.val) n) := rfl

/-- A filter's record in a state known from the record, the memory and the draws. -/
theorem getFilter_of_eq {s s1 : State} {f : Fin 4} {R : Filter} {ram : Memory} {draws : Nat}
    (h : s1 = { setFilter s f R with ram := ram, draws := draws }) : getFilter s1 f = R := by
  subst h
  exact getFilter_setFilter_same s f R

/-- Replacing the cutoff LFO after the filter's record was replaced. -/
theorem setLfo_cut_of_eq {s s1 : State} {f : Fin 4} {R : Filter} {ram : Memory} {draws : Nat}
    (h : s1 = { setFilter s f R with ram := ram, draws := draws }) (l : Lfo) :
    setLfo s1 (.filter f .cut) l = { setFilter s f { R with cut := l } with ram := ram, draws := draws } := by
  have hget := getFilter_of_eq h
  rw [setLfo, hget, h]
  exact congrArg (fun t : State => { t with ram := ram, draws := draws }) (setFilter_setFilter s f R _)

section
variable (F : Prims) (f : Fin 4) (pl : FilterPlan) {s : State}

@[simp] theorem blockLen_filterMetaRun : blockLen (filterMetaRun F f pl s) = blockLen s := blockLen_lfoRun ..

theorem readByte_filterLfoRuns {a : Nat} (hmeta : ¬ inBuffer (8 + 2 * f.val) (blockLen s) a)
    (hcut : ¬ inBuffer (9 + 2 * f.val) (blockLen s) a) :
    readByte (filterLfoRuns F f pl s).ram a = readByte s.ram a := by
  have hlast := readByte_lfoRun F (.filter f .cut) pl.cutWf true (filterMetaRun F f pl s) (a := a)
    (by rwa [blockLen_filterMetaRun])
  exact hlast.trans (readByte_lfoRun F (.filter f .metaCut) pl.metaWf false s hmeta)

theorem ramCanonical_filterLfoRuns (h : RamCanonical s) : RamCanonical (filterLfoRuns F f pl s) :=
  ramCanonical_lfoRun _ _ _ _ (ramCanonical_lfoRun _ _ _ _ h)

variable (hN : blockLen s ≤ 4096)
include hN

/-- Any other buffer is as it was. -/
theorem readBuf_filterLfoRuns {b n : Nat} (hn : n < 4096) (hmeta : b ≠ 8 + 2 * f.val) (hcut : b ≠ 9 + 2 * f.val) :
    readBuf (filterLfoRuns F f pl s) b n = readBuf s b n := by
  have hlast : readBuf (filterLfoRuns F f pl s) b n = readBuf (filterMetaRun F f pl s) b n :=
    readBuf_of_frame (N := blockLen (filterMetaRun F f pl s)) (fun _ => readByte_lfoRun F (.filter f .cut) _ _ _)
      (by rwa [blockLen_filterMetaRun]) hn (.inl hcut)
  exact hlast.trans (readBuf_of_frame (fun _ => readByte_lfoRun F (.filter f .metaCut) _ _ _) hN hn (.inl hmeta))

/-- The cutoff LFO's run leaves the meta-cutoff LFO's samples. -/
theorem readBuf_filterLfoRuns_meta {n : Nat} (hn : n < 4096) :
    readBuf (filterLfoRuns F f pl s) (8 + 2 * f.val) n = readBuf (filterMetaRun F f pl s) (8 + 2 * f.val) n :=
  readBuf_of_frame (N := blockLen (filterMetaRun F f pl s)) (fun _ => readByte_lfoRun F (.filter f .cut) _ _ _)
    (by rwa [blockLen_filterMetaRun]) hn (.inl (by rw [lfoBuffer_cut]; omega))

theorem filterMetaRun_eq : filterMetaRun F f pl s = { setFilter s f { getFilter s f with
      metaCut := rephasedLfo (getFilter s f).metaCut
        (phaseAfter (fun _ => none) (getFilter s f).metaCut.osc (blockLen s)) }
    with ram := (filterMetaRun F f pl s).ram, draws := s.draws + drawsIf true pl.metaWf (blockLen s) } :=
  lfoRun_eq F (.filter f .metaCut) pl.metaWf false hN (renderFm_lfoRender _ _ _ _)

theorem getLfo_filterMetaRun : getLfo (filterMetaRun F f pl s) (.filter f .cut) = (getFilter s f).cut := by
  have hget := getFilter_of_eq (filterMetaRun_eq F f pl hN)
  exact (congrArg Filter.cut hget).trans rfl

theorem readBuf_filterMetaRun (hram : RamCanonical s) {n : Nat} (hn : n < blockLen s) :
    readBuf (filterMetaRun F f pl s) (8 + 2 * f.val) n = blockSample F s.hw pl.metaWf (getFilter s f).metaCut.osc
      (fun _ => none) (fun _ => (getFilter s f).metaCut.depth) s.draws n :=
  readBuf_lfoRun F (.filter f .metaCut) pl.metaWf false hN (renderFm_lfoRender _ _ _ _) hram hn

variable {fm : Nat → Option Word}
  (hfm : ∀ n < blockLen s, some (readBuf (filterMetaRun F f pl s) (8 + 2 * f.val) n) = fm n)
include hfm

/-- What both LFO runs leave besides the sample RAM; `fm` is the cutoff LFO's modulation. -/
theorem filterLfoRuns_eq : filterLfoRuns F f pl s = { setFilter s f { getFilter s f with
      metaCut := rephasedLfo (getFilter s f).metaCut
        (phaseAfter (fun _ => none) (getFilter s f).metaCut.osc (blockLen s))
      cut := rephasedLfo (getFilter s f).cut (phaseAfter fm (getFilter s f).cut.osc (blockLen s)) }
    with
      ram := (filterLfoRuns F f pl s).ram
      draws := s.draws + drawsIf true pl.metaWf (blockLen s) + drawsIf true pl.cutWf (blockLen s) } := by
  have hmeta := filterMetaRun_eq F f pl hN
  have hrun := lfoRun_eq F (.filter f .cut) pl.cutWf true (s := filterMetaRun F f pl s)
    (by rwa [blockLen_filterMetaRun]) (renderFm_cut f _ _)
  rw [getLfo_filterMetaRun F f pl hN, blockLen_filterMetaRun, phaseAfter_congr _ hfm, congrArg State.draws hmeta,
    setLfo_cut_of_eq hmeta] at hrun
  exact hrun

theorem readBuf_filterLfoRuns_cut (hram : RamCanonical s) {n : Nat} (hn : n < blockLen s) :
    readBuf (filterLfoRuns F f pl s) (9 + 2 * f.val) n = blockSample F s.hw pl.cutWf (getFilter s f).cut.osc fm
      (fun _ => (getFilter s f).cut.depth) (s.draws + drawsIf true pl.metaWf (blockLen s)) n := by
  have hlen : n < blockLen (filterMetaRun F f pl s) := by rwa [blockLen_filterMetaRun]
  have hvalue := readBuf_lfoRun F (.filter f .cut) pl.cutWf true (s := filterMetaRun F f pl s)
    (by rwa [blockLen_filterMetaRun]) (renderFm_cut f _ _) (ramCanonical_lfoRun _ _ _ _ hram) hlen
  have hhw : (filterMetaRun F f pl s).hw = s.hw := lfoRun_hw ..
  rw [getLfo_filterMetaRun F f pl hN, congrArg State.draws (filterMetaRun_eq F f pl hN), hhw,
    blockSample_congr _ _ _ _ _ _ fun k hk => hfm k (hk.trans_lt hn)] at hvalue
  exact hvalue

end

/-! ### The samples of FILTER_BLOCK -/

/-- A filter's record after `n` steps fed with the samples `xm` (R161). -/
def ladderRun (F : Prims) (R : Filter) (xm : Nat → Word × Word) : Nat → Filter
  | 0 => R
  | n + 1 => ladderRecord F (ladderRun F R xm n) (xm n).1 (xm n).2

/-- The output of the step that follows `n` steps (R161). -/
def ladderRunOut (F : Prims) (R : Filter) (xm : Nat → Word × Word) (n : Nat) : Word :=
  ladderOut F (ladderRun F R xm n) (xm n).1 (xm n).2

/-- The configuration and the LFOs of a filter are what its steps leave alone (R141). -/
theorem ladderRun_config (F : Prims) (R : Filter) (xm : Nat → Word × Word) (n : Nat) : ladderRun F R xm n = { R with
    s := (ladderRun F R xm n).s, xprev := (ladderRun F R xm n).xprev, lastIters := (ladderRun F R xm n).lastIters
    fstat := (ladderRun F R xm n).fstat } := by
  induction n with
  | zero => rfl
  | succ n ih =>
    rw [ladderRun, ih]
    rfl

/-- The steps do not look at the LFOs (R141). -/
theorem ladderRun_lfos (F : Prims) (R : Filter) (xm : Nat → Word × Word) (a b : Lfo) (n : Nat) :
    ladderRun F { R with metaCut := a, cut := b } xm n = { ladderRun F R xm n with metaCut := a, cut := b } := by
  induction n with
  | zero => rfl
  | succ n ih =>
    rw [ladderRun, ladderRun, ih]
    rfl

theorem ladderRunOut_lfos (F : Prims) (R : Filter) (xm : Nat → Word × Word) (a b : Lfo) (n : Nat) :
    ladderRunOut F { R with metaCut := a, cut := b } xm n = ladderRunOut F R xm n := by
  rw [ladderRunOut, ladderRun_lfos]
  rfl

/-- The input and the modulation of sample `n` as a block that starts in `s` finds them (R161). -/
def filterFeed (f : Fin 4) (s : State) (n : Nat) : Word × Word := (filterInput f n s, filterMod f n s)

/-- What `n` samples of FILTER_BLOCK do from `s`: the filter's record runs on, and the outputs are accumulated. -/
structure FilterSamples (F : Prims) (f : Fin 4) (s : State) (n : Nat) (t : State) : Prop where
  moved : t = { s with filters := t.filters, ram := t.ram }
  filters : t.filters = (setFilter s f (ladderRun F (getFilter s f) (filterFeed f s) n)).filters
  frame : ∀ a, ¬ inBuffer (filterOut f) n a → readByte t.ram a = readByte s.ram a
  canonical : RamCanonical s → RamCanonical t
  values : RamCanonical s → ∀ k < n, readBuf t (filterOut f) k =
    fadd (readBuf s (filterOut f) k) (ladderRunOut F (getFilter s f) (filterFeed f s) k)

theorem filterFeed_of_samples {F : Prims} {f : Fin 4} {s t : State} {n : Nat} (h : FilterSamples F f s n t)
    (hn : n < 4096) : filterFeed f t n = filterFeed f s n := by
  have hread : ∀ b, b ≠ filterOut f → readBuf t b n = readBuf s b n := fun b hb =>
    readBuf_of_frame h.frame hn.le hn (.inl hb)
  have hout : filterOut f < 2 := Nat.mod_lt _ two_pos
  have hwritten : t.written = s.written := (congrArg State.written h.moved).trans rfl
  rw [filterFeed, filterFeed, filterInput, filterInput, filterMod, filterMod, hwritten,
    hread (filterIn f) (by unfold filterIn; omega), hread (lfoBuffer (.filter f .cut)) (by rw [lfoBuffer_cut]; omega)]

/-- One more sample of FILTER_BLOCK. -/
theorem filterSample_samples {F : Prims} {f : Fin 4} {s t : State} {n : Nat} (h : FilterSamples F f s n t)
    (hn : n < 4096) : FilterSamples F f s (n + 1) (filterSample F f n t) := by
  have hfeed := filterFeed_of_samples h hn
  have hrecord : getFilter t f = ladderRun F (getFilter s f) (filterFeed f s) n := by
    rw [getFilter_congr h.filters, getFilter_setFilter_same]
  have hout : ladderOut F (getFilter t f) (filterFeed f t n).1 (filterFeed f t n).2 =
      ladderRunOut F (getFilter s f) (filterFeed f s) n := by
    rw [hfeed, hrecord, ladderRunOut]
  have hram : (filterSample F f n t).ram =
      (putSample false (filterOut f) n (ladderRunOut F (getFilter s f) (filterFeed f s) n) t).ram := by
    rw [← hout]
    rfl
  refine ⟨?_, ?_, fun a ha => ?_, fun hs => ?_, fun hs k hk => ?_⟩
  · exact (congrArg (fun u : State => { u with filters := (filterSample F f n t).filters,
                                               ram := (filterSample F f n t).ram }) h.moved)
  · show (setFilter t f (ladderRecord F (getFilter t f) (filterFeed f t n).1 (filterFeed f t n).2)).filters = _
    rw [hfeed, hrecord, setFilter_filters, h.filters, ← setFilter_filters, setFilter_setFilter]
    rfl
  · rw [hram, ← h.frame a fun hin => ha (inBuffer_succ _ _ _ hin)]
    refine readByte_putSample_ne _ _ _ _ _ a ?_
    by_contra hc
    exact ha (inBuffer_of_word (filterOut f) (n + 1) n a n.lt_succ_self (by omega))
  · rw [RamCanonical, hram]
    exact memoryWf_putSample _ _ _ _ _ (h.canonical hs)
  · rw [readBuf_congr hram]
    obtain hlt | rfl := Nat.lt_succ_iff_lt_or_eq.1 hk
    · rw [readBuf_putSample_ne _ _ _ _ _ _ _ hn (by omega) (.inr (by omega))]
      exact h.values hs k hlt
    · rw [readBuf_putSample_same _ _ _ _ _ (h.canonical hs),
        readBuf_of_frame h.frame hn.le hn (.inr le_rfl)]
      rfl

theorem forSamples_filterSample (F : Prims) (f : Fin 4) (s : State) {N : Nat} (hN : N ≤ 4096) :
    FilterSamples F f s N (forSamples N (filterSample F f) s) :=
  forSamples_induct (FilterSamples F f s) _ s N
    ⟨rfl, congrArg State.filters (setFilter_getFilter s f).symm, fun _ _ => rfl, id,
      fun _ _ hk => absurd hk (Nat.not_lt_zero _)⟩
    fun _ _ hn h => filterSample_samples h (by omega)

/-! ### FILTER_BLOCK as a whole -/

theorem exec_filterBlock {s : State} {unit : BitVec 8} {f : Fin 4} {pl : FilterPlan} (hready : s.ready = true)
    (hunit : filterUnit unit = some f) (hplan : planFilter (getFilter s f) = some pl) :
    exec (.filterBlock unit) s = .next (completeCommand (filterBlock prims f pl s)) := by
  have hok : tryCommand (.filterBlock unit) s = _ :=
    (tryFilterBlock_ok prims unit s _).2 ⟨hready, f, pl, hunit, hplan, rfl⟩
  rw [exec_eq, hok, finish_ok]

section
variable (F : Prims) (f : Fin 4) (pl : FilterPlan) {s : State} (hN : blockLen s ≤ 4096)
include hN

theorem filterBlock_samples :
    FilterSamples F f (filterLfoRuns F f pl s) (blockLen s) (filterBlock F f pl s) := by
  rw [filterBlock_eq]
  exact forSamples_filterSample F f _ hN

theorem readByte_filterBlock {a : Nat} (hout : ¬ inBuffer (f.val % 2) (blockLen s) a)
    (hmeta : ¬ inBuffer (8 + 2 * f.val) (blockLen s) a) (hcut : ¬ inBuffer (9 + 2 * f.val) (blockLen s) a) :
    readByte (filterBlock F f pl s).ram a = readByte s.ram a :=
  ((filterBlock_samples F f pl hN).frame a hout).trans (readByte_filterLfoRuns F f pl hmeta hcut)

/-- The samples leave every buffer but the output's as the LFO runs left it. -/
theorem readBuf_filterBlock {b n : Nat} (hn : n < 4096) (hb : 2 ≤ b) :
    readBuf (filterBlock F f pl s) b n = readBuf (filterLfoRuns F f pl s) b n := by
  have hout : f.val % 2 < 2 := Nat.mod_lt _ two_pos
  exact readBuf_of_frame (filterBlock_samples F f pl hN).frame hN hn (.inl (by unfold filterOut; omega))

end

/-- Settles O47: the LFO runs and then the samples, each with what it computes and leaves. -/
theorem filterBlockFrame : Obligations.FilterBlockFrame := by
  rintro s unit f R N metaWf cutWf hready rfl hN hunit rfl hmetaWf hcutWf
  set pl : FilterPlan := { metaWf := metaWf, cutWf := cutWf }
  have hplan : planFilter (getFilter s f) = some pl := by simp only [planFilter, hmetaWf, hcutWf, pl]
  set u := filterBlock prims f pl s
  have hsamples := filterBlock_samples prims f pl hN
  have hmeta : ∀ n < 4096, readBuf u (8 + 2 * f.val) n = readBuf (filterMetaRun prims f pl s) (8 + 2 * f.val) n :=
    fun n hn => (readBuf_filterBlock prims f pl hN hn (by omega)).trans (readBuf_filterLfoRuns_meta prims f pl hN hn)
  have hfm : ∀ n < blockLen s, some (readBuf (filterMetaRun prims f pl s) (8 + 2 * f.val) n) =
      modulation (completeCommand u) true (8 + 2 * f.val) n := fun n hn => congrArg some (hmeta n (hn.trans_le hN)).symm
  have hruns := filterLfoRuns_eq prims f pl hN hfm
  have hrecord : getFilter u f = ladderRun prims (getFilter (filterLfoRuns prims f pl s) f)
      (filterFeed f (filterLfoRuns prims f pl s)) (blockLen s) := by
    rw [getFilter_congr hsamples.filters, getFilter_setFilter_same]
  refine ⟨completeCommand u, exec_filterBlock hready hunit hplan, ?_, fun f' hf' => ?_, ?_, fun a => ?_,
    fun hram n hn => ⟨?_, ?_⟩⟩
  · have hmoved := hsamples.moved.trans
      (congrArg (fun t : State => { t with filters := u.filters, ram := u.ram }) hruns)
    exact congrArg completeCommand hmoved
  · have hother : getFilter u f' = getFilter (filterLfoRuns prims f pl s) f' := by
      rw [getFilter_congr hsamples.filters, getFilter_setFilter_ne _ _ _ _ hf']
    refine hother.trans ?_
    rw [hruns]
    exact getFilter_setFilter_ne s f f' _ hf'
  · show getFilter u f = _
    have hconfig := hrecord.trans (ladderRun_config prims _ _ _)
    rw [← hrecord, getFilter_of_eq hruns] at hconfig
    exact hconfig
  · exact readByte_filterBlock prims f pl hN
  · exact (hmeta n (hn.trans_le hN)).trans (readBuf_filterMetaRun prims f pl hN hram hn)
  · exact (readBuf_filterBlock prims f pl hN (hn.trans_le hN) (by omega)).trans
      (readBuf_filterLfoRuns_cut prims f pl hN hfm hram hn)

/-! ### FILTER_STEPs fed one at a time -/

/-- One FILTER_STEP with its operands written before it (R160). -/
theorem fedStep_eq {s : State} {unit : BitVec 8} {f : Fin 4} (hready : s.ready = true)
    (hunit : filterUnit unit = some f) (x m : Word) : fedStep unit x m s = completeCommand
      { setFilter { s with arg0 := x, arg1 := m } f (ladderRecord prims (getFilter s f) x m) with
        result := ladderOut prims (getFilter s f) x m } := by
  have hok : tryCommand (.filterStep unit) { s with arg0 := x, arg1 := m } = _ :=
    (tryFilterStep_ok prims unit _ _).2 ⟨hready, f, hunit, rfl⟩
  rw [fedStep, exec_eq, hok, finish_ok]
  rfl

section
variable {s : State} {unit : BitVec 8} {f : Fin 4} (hready : s.ready = true) (hunit : filterUnit unit = some f)
  (xm : Nat → Word × Word)
include hready hunit

theorem fedSteps_records (n : Nat) : (fedSteps unit xm s n).ready = true ∧
    getFilter (fedSteps unit xm s n) f = ladderRun prims (getFilter s f) xm n := by
  induction n with
  | zero => exact ⟨hready, rfl⟩
  | succ n ih =>
    obtain ⟨hr, hrecord⟩ := ih
    rw [fedSteps, fedStep_eq hr hunit, hrecord]
    exact ⟨hr, getFilter_setFilter_same _ f _⟩

theorem fedSteps_result (n : Nat) : (fedSteps unit xm s (n + 1)).result = ladderRunOut prims (getFilter s f) xm n := by
  obtain ⟨hr, hrecord⟩ := fedSteps_records hready hunit xm n
  rw [fedSteps, fedStep_eq hr hunit, hrecord]
  rfl

end

theorem ladderRun_congr (F : Prims) (R : Filter) {xm xm' : Nat → Word × Word} {n : Nat} (h : ∀ k < n, xm k = xm' k) :
    ladderRun F R xm n = ladderRun F R xm' n := by
  induction n with
  | zero => rfl
  | succ n ih => rw [ladderRun, ladderRun, ih fun k hk => h k (Nat.lt_succ_of_lt hk), h n n.lt_succ_self]

theorem ladderRunOut_congr (F : Prims) (R : Filter) {xm xm' : Nat → Word × Word} {n : Nat} (h : ∀ k ≤ n, xm k = xm' k) :
    ladderRunOut F R xm n = ladderRunOut F R xm' n := by
  rw [ladderRunOut, ladderRunOut, ladderRun_congr F R fun k hk => h k hk.le, h n le_rfl]

/-- Settles O48: the block's samples and the fed steps run the same ladder on the same feed, and no step looks at the
LFOs. -/
theorem filterBlockIsStepsFedOneAtATime : Obligations.FilterBlockIsStepsFedOneAtATime := by
  intro s t unit f hready hN hram hunit hconfig hexec xm hxm
  obtain ⟨pl, hplan⟩ := Option.isSome_iff_exists.1 ((planFilter_isSome _).trans hconfig)
  obtain rfl : completeCommand (filterBlock prims f pl s) = t :=
    Host.Outcome.next.inj ((exec_filterBlock hready hunit hplan).symm.trans hexec)
  set u := filterBlock prims f pl s
  set v := filterLfoRuns prims f pl s
  have hN' : blockLen s ≤ 4096 := hN
  have hsamples : FilterSamples prims f v (blockLen s) u := filterBlock_samples prims f pl hN'
  have hruns : v = _ := filterLfoRuns_eq prims f pl hN' fun _ _ => rfl
  have hfeed : ∀ n < blockLen s, filterFeed f v n = xm n := fun n hn => by
    have hn4 : n < 4096 := hn.trans_le hN'
    have hcut : readBuf u (9 + 2 * f.val) n = readBuf v (9 + 2 * f.val) n :=
      readBuf_filterBlock prims f pl hN' hn4 (by omega)
    have hin : readBuf v (2 + f.val) n = readBuf s (2 + f.val) n :=
      readBuf_filterLfoRuns prims f pl hN' hn4 (by omega) (by omega)
    have hwritten : v.written = s.written := (congrArg State.written hruns).trans rfl
    rw [hxm n, ← hin, ← hwritten]
    exact congrArg (Prod.mk _) hcut.symm
  have hrecord : getFilter u f = ladderRun prims (getFilter v f) xm (blockLen s) := by
    rw [getFilter_congr hsamples.filters, getFilter_setFilter_same, ladderRun_congr prims _ hfeed]
  rw [getFilter_of_eq hruns, ladderRun_lfos, ← (fedSteps_records hready hunit xm _).2] at hrecord
  refine ⟨(congrArg Filter.s hrecord).trans rfl, (congrArg Filter.xprev hrecord).trans rfl,
    (congrArg Filter.fstat hrecord).trans rfl, (congrArg Filter.lastIters hrecord).trans rfl, fun n hn => ?_⟩
  have hvalue := hsamples.values (ramCanonical_filterLfoRuns prims f pl hram) n hn
  rw [ladderRunOut_congr prims _ fun k hk => hfeed k (hk.trans_lt hn), getFilter_of_eq hruns, ladderRunOut_lfos,
    ← fedSteps_result hready hunit] at hvalue
  have hold : readBuf v (f.val % 2) n = readBuf s (f.val % 2) n :=
    readBuf_filterLfoRuns prims f pl hN' (hn.trans_le hN') (by omega) (by omega)
  rw [← hold]
  exact hvalue

end Sys2Proof.Machine

/-! The obligations about WRAP and octave selection (R191, R192, R203, R204). -/

namespace Sys2Proof.Machine

/-! ### Comparisons of words in order -/

theorem fle_eq_false_of_flt {x y : Word} (h : flt y x = true) : fle x y = false := by
  simp only [flt, Bool.and_eq_true, decide_eq_true_eq] at h
  simp [fle, h.2]

/-- Words in order and not strictly so are equal. -/
theorem feq_of_fle_of_not_flt {x y : Word} (hle : fle x y = true) (hlt : flt x y = false) :
    feq x y = true ∧ fle y x = true := by
  simp only [fle, Bool.and_eq_true, Bool.not_eq_true', decide_eq_true_eq] at hle
  obtain ⟨⟨hx, hy⟩, hkey⟩ := hle
  simp only [flt, hx, hy, Bool.not_false, Bool.true_and, decide_eq_false_iff_not] at hlt
  have heq : fkey x = fkey y := by omega
  simp [feq, fle, hx, hy, heq]

theorem flt_of_fle_of_flt {x y z : Word} (hle : fle x y = true) (hlt : flt y z = true) : flt x z = true := by
  simp only [fle, flt, Bool.and_eq_true, Bool.not_eq_true', decide_eq_true_eq] at hle hlt ⊢
  exact ⟨⟨hle.1.1, hlt.1.2⟩, by omega⟩

/-! ### WRAP (R191) -/

theorem wrap_of_not_finite {v : Word} (h : isFinite v = false) : wrap v = fZero := by
  have hmag : infMag ≤ fmag v := Nat.not_lt.1 (of_decide_eq_false h)
  have hclass : isNaN v = true ∨ isInf v = true := by
    simp only [isNaN, isInf, decide_eq_true_eq]
    omega
  exact if_pos (Bool.or_eq_true _ _ ▸ hclass)

theorem wrap_of_finite {v : Word} (h : isFinite v = true) :
    wrap v = if fle fOne (fsub v (ffloor v)) then fZero else fsub v (ffloor v) := by
  obtain ⟨hnan, hinf⟩ := not_isNaN_not_isInf_of_isFinite h
  rw [wrap, hnan, hinf]
  rfl

/-- The fractional part is at most 1: it is below 1 exactly, and rounds to at most 1. -/
theorem within_fsub_ffloor {v : Word} (hv : isFinite v = true) : Within 0 (fsub v (ffloor v)) := by
  obtain ⟨hfin, hval⟩ := ffloor_finite hv
  rw [fsub, fadd_finite hv (by rwa [isFinite_fneg]), wordValue_fneg, hval]
  split
  · exact within_of_isZero (by cases (v.getLsbD 31 && (fneg (ffloor v)).getLsbD 31) <;> rfl)
  · exact within_fpack_roundMag _ one_pos (by omega)

/-- Settles O55: the fractional part is at most 1 after rounding, and WRAP answers +0 for 1. -/
theorem phaseAdvanceLandsInUnitInterval : Obligations.PhaseAdvanceLandsInUnitInterval := by
  refine ⟨fun _ _ => inUnitInterval_wrap _, fun _ v _ => inUnitInterval_wrap v, fun _ => wrap_of_not_finite,
    fun v hv hlt => ?_, fun v hv hlt => ?_⟩
  · rw [wrap_of_finite hv, fle_eq_false_of_flt hlt, if_neg Bool.false_ne_true]
  · obtain ⟨-, hle⟩ := minus_one_le_le_one_of_fmag_le (within_fsub_ffloor hv).fmag_le
    obtain ⟨heq, hge⟩ := feq_of_fle_of_not_flt hle hlt
    exact ⟨heq, by rw [wrap_of_finite hv, if_pos hge]⟩

/-! ### OCTSEL (R192) -/

/-- What the loop of OCTSEL answers from octave `n` with `k` more: an octave in range, below its upper edge unless it is
the last, and the first such. -/
structure SelectsOctave (base fr : Word) (k n m : Nat) : Prop where
  first_le : n ≤ m
  le_last : m ≤ n + k
  below : m = n + k ∨ flt fr (fmul base (fofNat (2 ^ (m + 1)))) = true
  not_below : ∀ j, n ≤ j → j < m → flt fr (fmul base (fofNat (2 ^ (j + 1)))) = false

theorem octSelFrom_selects (base fr : Word) (k n : Nat) : SelectsOctave base fr k n (octSelFrom base fr k n) := by
  induction k generalizing n with
  | zero => exact ⟨le_rfl, le_rfl, .inl rfl, fun j hn hj => absurd hj (Nat.not_lt.2 hn)⟩
  | succ k ih =>
    unfold octSelFrom
    split
    · next hbelow => exact ⟨le_rfl, Nat.le_add_right .., .inr hbelow, fun j hn hj => absurd hj (Nat.not_lt.2 hn)⟩
    · next hnot =>
      obtain ⟨hfirst, hlast, hbelow, hmin⟩ := ih (n + 1)
      refine ⟨by omega, by omega, hbelow.imp_left (by omega), fun j hn hj => ?_⟩
      obtain rfl | hlt := hn.eq_or_lt
      · exact Bool.eq_false_iff.2 hnot
      · exact hmin j hlt hj

theorem octSel_selects (p : Params) (fr : Word) : SelectsOctave p.wtBase fr (p.wtNoct - 1) 0 (octSel p fr) :=
  octSelFrom_selects ..

/-- Settles O56: the selected octave is the first whose upper edge is above the frequency; an edge above `f2` is above
every `f1 ≤ f2`, and none is above a NaN. -/
theorem octaveSelectionIsMonotone : Obligations.OctaveSelectionIsMonotone := by
  refine ⟨fun p f1 f2 hle => ?_, fun p fr hnan => ?_, fun p fr n hn => ?_⟩
  · have h1 := octSel_selects p f1
    have h2 := octSel_selects p f2
    by_contra hlt
    have hnot := h1.not_below (octSel p f2) (Nat.zero_le _) (Nat.not_le.1 hlt)
    obtain hlast | hbelow := h2.below
    · exact hlt (hlast ▸ h1.le_last)
    · exact Bool.false_ne_true (hnot.symm.trans (flt_of_fle_of_flt hle hbelow))
  · obtain hlast | hbelow := (octSel_selects p fr).below
    · rw [hlast, Nat.zero_add]
    · exact absurd hbelow (Bool.eq_false_iff.1 (comparisons_of_isNaN (.inl hnan)).1)
  · subst hn
    obtain ⟨-, hlast, hbelow, hmin⟩ := octSel_selects p fr
    rw [Nat.zero_add] at hlast hbelow
    exact ⟨hlast, hbelow, fun k hk => hmin k (Nat.zero_le k) hk⟩

end Sys2Proof.Machine

/-! The obligation about OSC_RENDER (R196, R201), and what every RENDER leaves, as one equation. -/

namespace Sys2Proof.Machine

theorem setOsc_eq_records (s : State) (t : OscSel) (o : Osc) :
    setOsc s t o = { s with filters := (setOsc s t o).filters, voices := (setOsc s t o).voices } := by
  rcases t with v | ⟨v, j⟩ | ⟨f, j⟩ <;> rfl

theorem completeCommand_setOsc (s : State) (t : OscSel) (o : Osc) (ram : Memory) (draws : Nat) :
    completeCommand { setOsc s t o with ram := ram, draws := draws } =
      { setOsc s t o with
        ram := ram, draws := draws, cmdCount := s.cmdCount + 1, done := true, inFlight := none } := by
  rw [completeCommand, setOsc_cmdCount]

/-- What RENDER leaves besides the sample RAM, for a block of at most 4096 samples (R193, R196). -/
theorem render_eq (F : Prims) (r : Render) {s : State} (hN : blockLen s ≤ 4096) :
    render F r s = { setOsc s r.osc (rephased (getOsc s r.osc)
        (phaseAfter (fun k => renderFm r k s) (getOsc s r.osc) (blockLen s))) with
      ram := (render F r s).ram, draws := s.draws + drawsIf true r.wf (blockLen s) } := by
  obtain ⟨hmoved, -, hdraws, -⟩ := render_leaves F r s
  obtain ⟨o, rfl, hfilters, hvoices⟩ := render_records F r s hN
  rw [setOsc_eq_records s r.osc, drawsIf_true]
  exact hmoved.eq_of_records hfilters hvoices hdraws

/-- The samples RENDER leaves in the buffers it writes (R195, R196). -/
theorem readBuf_render (F : Prims) (r : Render) {s : State} (hN : blockLen s ≤ 4096) (hram : RamCanonical s) {b n : Nat}
    (hn : n < blockLen s) (hb : r.Writes b) :
    readBuf (render F r s) b n = if r.ovw then renderValue F r s n else fadd (readBuf s b n) (renderValue F r s n) := by
  obtain ⟨-, -, -, -, hvalues⟩ := render_computes F r s hN
  exact (hvalues hram).2 b n hn hb

/-- The modulation of a render whose buffer is named only when it is used (R196). -/
theorem renderFm_eq_modulation {r : Render} {used : Bool} {b : Nat} (h : r.fmb = if used then some b else none)
    (n : Nat) (s : State) : renderFm r n s = modulation s used b n := by
  rw [renderFm, h]
  cases used <;> rfl

theorem renderAmp_eq_amplitude {r : Render} {used : Bool} {b : Nat} (h : r.amb = if used then some b else none)
    (n : Nat) (s : State) : renderAmp r n s = amplitude s r.amp used b n := by
  rw [renderAmp, h]
  cases used <;> rfl

/-- Settles O53: OSC_RENDER is one render of the target, completed. -/
theorem oscRenderFrame : Obligations.OscRenderFrame := by
  intro s unit sub cls ovw mono ufm uam o wf N hready hN hmax ho hbuf hwf
  subst hN
  set r := oscRenderOf o wf ovw mono ufm uam s
  have hrun : tryCommand (.oscRender unit sub cls ovw mono ufm uam) s = .ok (render prims r s) :=
    (tryOscRender_ok prims unit sub cls ovw mono ufm uam s _).2 ⟨hready, hbuf, o, wf, ho, hwf, rfl⟩
  have hfm : (fun k => renderFm r k s) = modulation s ufm s.arg1.toNat :=
    funext fun k => renderFm_eq_modulation rfl k s
  have hamp : (fun k => renderAmp r k s) = amplitude s s.arg3 uam s.arg2.toNat :=
    funext fun k => renderAmp_eq_amplitude rfl k s
  have hstate := render_eq prims r hmax
  rw [hfm] at hstate
  obtain ⟨-, -, -, -, hframe, -⟩ := render_leaves prims r s
  refine ⟨completeCommand (render prims r s), ?_, ?_, hframe, fun hram b hb n hn x hx => ?_⟩
  · rw [exec_eq, hrun, finish_ok]
  · exact (congrArg completeCommand hstate).trans (completeCommand_setOsc ..)
  · have hvalue : renderValue prims r s n = x := by
      rw [hx, renderValue, hfm, hamp]
      rfl
    rw [← hvalue]
    exact readBuf_render prims r hmax hram hn hb

end Sys2Proof.Machine

/-! The obligation about OSC_NEXT and the table interpolation (R194, R195, R200, R205). -/

namespace Sys2Proof.Machine

/-! ### OSC_NEXT (R200) -/

theorem drawsOf_add (wf : Waveform) (d : Nat) : d + drawsOf wf = if wf = .noise then d + 1 else d := by
  cases wf <;> simp [drawsOf]

theorem exec_oscNext {s : State} {unit : BitVec 8} {sub : BitVec 4} {cls : Bool} {t : OscSel} {wf : Waveform}
    (hready : s.ready = true) (ht : oscTarget s.hw unit sub cls = some t)
    (hwf : waveformOf (getOsc s t).kind = some wf) :
    exec (.oscNext unit sub cls) s = .next { setOsc s t (advance (some s.arg0) (getOsc s t)) with
      result := fmul s.arg1 (wave prims s.hw wf s.draws (advance (some s.arg0) (getOsc s t)))
      draws := if wf = .noise then s.draws + 1 else s.draws
      cmdCount := s.cmdCount + 1
      done := true
      inFlight := none } := by
  have hrun : tryCommand (.oscNext unit sub cls) s = .ok { oscAdvance wf t (some s.arg0) s with
      result := oscValue prims wf t (some s.arg0) s.arg1 s } :=
    (tryOscNext_ok prims unit sub cls s _).2 ⟨hready, t, wf, ht, hwf, rfl⟩
  rw [exec_eq, hrun, finish_ok, completeCommand, ← drawsOf_add, oscAdvance_cmdCount]
  rfl

/-! ### Integers and differences within the table (R194) -/

/-- The integers up to `2 ^ 23` convert exactly (R13). -/
theorem fofNat_exact {k : Nat} (hk : k ≤ 2 ^ 23) :
    isFinite (fofNat k) = true ∧ (fofNat k).getLsbD 31 = false ∧ wordUnits (fofNat k) = k * 2 ^ 149 := by
  obtain ⟨m, hm, hunits⟩ := exists_magUnits_eq_natCast hk
  have hlt : m < 2 ^ 31 := hm.trans infMag_lt_two_pow
  have hpack : fofNat k = fpack false m := by rw [fofNat, ← hunits, roundMag_magUnits hm.le]
  rw [hpack, isFinite, fmag_fpack _ hlt, ← fsign_eq_getLsbD, fsign_fpack _ hlt, wordUnits_eq_magUnits_fmag,
    fmag_fpack _ hlt]
  exact ⟨decide_eq_true hm, rfl, hunits⟩

theorem wordValue_of_sign_false {x : Word} (h : x.getLsbD 31 = false) : wordValue x = wordUnits x := by
  rw [wordValue, h, if_neg Bool.false_ne_true]

theorem wordValue_fofNat {k : Nat} (hk : k ≤ 2 ^ 23) : wordValue (fofNat k) = k * 2 ^ 149 := by
  obtain ⟨-, hsign, hunits⟩ := fofNat_exact hk
  rw [wordValue_of_sign_false hsign, hunits]
  norm_cast

theorem fle_zero_fpack {m : Nat} (hm : m ≤ infMag) : fle fZero (fpack false m) = true := by
  have hnum : isNaN fZero = false := by decide
  have hzero : wordValue fZero = 0 := by decide
  rw [fle_iff_wordValue hnum (isNaN_fpack false hm), wordValue_fpack _ (hm.trans_lt infMag_lt_two_pow), hzero]
  exact Int.natCast_nonneg _

/-- A difference between 0 and 1 rounds into [0, 1]. -/
theorem fsub_mem_unit {x y : Word} (hx : isFinite x = true) (hy : isFinite y = true)
    (hlow : wordValue y ≤ wordValue x) (hhigh : wordValue x ≤ wordValue y + 2 ^ 149) :
    fle fZero (fsub x y) = true ∧ fle (fsub x y) fOne = true := by
  rw [fsub, fadd_finite hx (by rwa [isFinite_fneg]), wordValue_fneg]
  split
  · cases (x.getLsbD 31 && (fneg y).getLsbD 31) <;> decide
  · have hpos : ¬ wordValue x + -wordValue y < 0 := by omega
    have hwithin : Within 0 (fpack false (roundMag (wordValue x + -wordValue y).natAbs 1)) :=
      within_fpack_roundMag false one_pos (by omega)
    rw [decide_eq_false hpos]
    exact ⟨fle_zero_fpack (roundMag_le_infMag ..), (minus_one_le_le_one_of_fmag_le hwithin.fmag_le).2⟩

/-- A word in [0, 1) has no sign and at most the magnitude of 1. -/
theorem sign_and_within_of_inUnitInterval {x : Word} (h : inUnitInterval x = true) :
    x.getLsbD 31 = false ∧ Within 0 x := by
  have hlt : x.toNat < 0x3F800000 := of_decide_eq_true h
  refine ⟨?_, ⟨(Nat.mod_le ..).trans (by omega)⟩⟩
  rw [← fsign_eq_getLsbD, fsign, BitVec.msb_eq_decide]
  exact decide_eq_false (by omega)

section
variable {ph : Word} (hph : inUnitInterval ph = true) {len : Nat} (hlen : len ≤ 2 ^ 23)
include hph hlen

/-- The table position of a phase in [0, 1) lies in [0, `len`] (R194, R205). -/
theorem tablePosition_bounds : isFinite (fmul ph (fofNat len)) = true ∧ 0 ≤ wordValue (fmul ph (fofNat len)) ∧
    wordValue (fmul ph (fofNat len)) ≤ len * 2 ^ 149 := by
  obtain ⟨hsign, hwithin⟩ := sign_and_within_of_inUnitInterval hph
  obtain ⟨hfin, hsign', hunits⟩ := fofNat_exact hlen
  have hmag : fmag (fofNat len) < infMag := of_decide_eq_true hfin
  have hround : roundMag (wordUnits ph * (len * 2 ^ 149)) (2 ^ 149) ≤ fmag (fofNat len) := by
    rw [← hunits]
    exact roundMag_le (by positivity) (Nat.mul_le_mul_right _ (within_iff_wordUnits.1 hwithin))
  have hlt := hround.trans_lt (hmag.trans infMag_lt_two_pow)
  have hunits' := magUnits_strictMono.monotone hround
  rw [← wordUnits_eq_magUnits_fmag, hunits] at hunits'
  rw [fmul_finite (hwithin.isFinite (Nat.zero_le _)) hfin, hunits, hsign, hsign', Bool.bne_false, isFinite, fmag_fpack _ hlt,
    wordValue_fpack _ hlt, if_neg Bool.false_ne_true]
  exact ⟨decide_eq_true (hround.trans_lt hmag), Int.natCast_nonneg _, by exact_mod_cast hunits'⟩

/-- The position is between the sample at or below it and the next, the last sample's next being `len` (R194, R205). -/
theorem tableIndex_bounds (hpos : 1 ≤ len) :
    wordValue (fofNat (tableIndex len (fmul ph (fofNat len)))) ≤ wordValue (fmul ph (fofNat len)) ∧
      wordValue (fmul ph (fofNat len)) ≤ wordValue (fofNat (tableIndex len (fmul ph (fofNat len)))) + 2 ^ 149 := by
  obtain ⟨-, hlow, hhigh⟩ := tablePosition_bounds hph hlen
  have hfloor : floorInt (fmul ph (fofNat len)) = wordValue (fmul ph (fofNat len)) / 2 ^ 149 := by
    rw [floorInt, fexact_eq_wordValue]
  have hindex : tableIndex len (fmul ph (fofNat len)) ≤ len - 1 := Nat.min_le_right ..
  rw [wordValue_fofNat (hindex.trans (by omega)), tableIndex, hfloor]
  omega

end

/-- A ROM word of the parameters' own tables is where the map has it (R91). -/
theorem locate_romAddr {p : Params} (hoct : p.wtNoct ≤ 16) (hlen : p.wtLen ≤ 1024) {k o i : Nat} (hk : k < 3)
    (ho : o < p.wtNoct) (hi : i < p.wtLen) : locate p (romAddr k o i) = some (.rom (romAddr k o i)) := by
  have hlegal : romWordLegal p (romAddr k o i) = true := by
    unfold romWordLegal romAddr
    simp only [Bool.and_eq_true, decide_eq_true_eq]
    omega
  rw [locate_rom p (by unfold romAddr; omega), locateRom, if_pos hlegal]

theorem table_sizes_of_paramsLegal {p : Params} (h : paramsLegal p = true) :
    2 ≤ p.wtLen ∧ p.wtLen ≤ 1024 ∧ p.wtNoct ≤ 16 := by
  simp only [paramsLegal, Bool.and_eq_true, decide_eq_true_eq] at h
  omega

/-- Settles O52: OSC_NEXT is one phase advance and one evaluation, completed; the table position of a phase in [0, 1)
lies within the table. -/
theorem oscNextAdvancesThenEvaluates : Obligations.OscNextAdvancesThenEvaluates := by
  refine ⟨fun s unit sub cls t wf o hready ht hwf ho => ?_,
    fun p k oct ph pos t0 t1 i0 i1 hp hoct hph hpos hi0 hi1 ht0 ht1 => ?_⟩
  · obtain rfl : o = advance (some s.arg0) (getOsc s t) := ho
    rw [exec_oscNext hready ht hwf]
    cases wf <;> rfl
  · obtain ⟨hlen2, hlen, hnoct⟩ := table_sizes_of_paramsLegal hp
    have hlen' : p.wtLen ≤ 2 ^ 23 := by omega
    subst hpos
    obtain ⟨hfin, hlow, hhigh⟩ := tablePosition_bounds hph hlen'
    obtain rfl : i0 = tableIndex p.wtLen (fmul ph (fofNat p.wtLen)) := hi0
    obtain ⟨hbelow, habove⟩ := tableIndex_bounds hph hlen' (by omega)
    have hindex : tableIndex p.wtLen (fmul ph (fofNat p.wtLen)) ≤ p.wtLen - 1 := Nat.min_le_right ..
    obtain ⟨hlenFin, -⟩ := fofNat_exact hlen'
    obtain ⟨hindexFin, -⟩ := fofNat_exact (hindex.trans (by omega))
    obtain ⟨hfrac0, hfrac1⟩ := fsub_mem_unit hfin hindexFin hbelow habove
    have hfloor : 0 ≤ floorInt (fmul ph (fofNat p.wtLen)) := by
      rw [floorInt, fexact_eq_wordValue]
      exact Int.ediv_nonneg hlow (by positivity)
    have hle : fle (fmul ph (fofNat p.wtLen)) (fofNat p.wtLen) = true := by
      rwa [fle_iff_wordValue (isNaN_of_isFinite hfin) (isNaN_of_isFinite hlenFin), wordValue_fofNat hlen']
    subst hi1 ht0 ht1
    exact ⟨rfl, hfloor, hle, hfrac0, hfrac1, locate_romAddr hnoct hlen k.isLt hoct (by omega),
      locate_romAddr hnoct hlen k.isLt hoct (Nat.mod_lt _ (by omega))⟩

end Sys2Proof.Machine

/-! The obligation about the values VOICE_RENDER writes (R195, R196, R197, R236, R237). -/

namespace Sys2Proof.Machine

theorem blockSample_congr_amp (F : Prims) (p : Params) (wf : Waveform) (o : Osc) (fm : Nat → Option Word)
    {amp amp' : Nat → Word} (d : Nat) {n : Nat} (h : amp n = amp' n) :
    blockSample F p wf o fm amp d n = blockSample F p wf o fm amp' d n := by
  unfold blockSample
  rw [h]

/-! ### What a run leaves to the other LFOs and to the voices -/

theorem lfoBuffer_injective {l k : LfoSel} (h : lfoBuffer l = lfoBuffer k) : l = k := by
  rcases l with ⟨v, i⟩ | ⟨f, i⟩ <;> rcases k with ⟨w, j⟩ | ⟨g, j⟩ <;> cases i <;> cases j <;>
    simp only [lfoBuffer] at h <;>
    simp only [LfoSel.voice.injEq, LfoSel.filter.injEq, reduceCtorEq, and_true, and_false] <;> omega

theorem eight_le_lfoBuffer (l : LfoSel) : 8 ≤ lfoBuffer l := by
  rcases l with ⟨v, i⟩ | ⟨f, i⟩ <;> cases i <;> simp only [lfoBuffer] <;> omega

/-- From `s` to `t` LFO `l`'s record and the words of its buffer stay as they are. -/
structure Spares (l : LfoSel) (s t : State) : Prop where
  lfo : getLfo t l = getLfo s l
  buf : ∀ n < 4096, readBuf t (lfoBuffer l) n = readBuf s (lfoBuffer l) n

theorem Spares.refl (l : LfoSel) (s : State) : Spares l s s := ⟨rfl, fun _ _ => rfl⟩

theorem Spares.trans {l : LfoSel} {s t u : State} (h : Spares l s t) (h' : Spares l t u) : Spares l s u :=
  ⟨h'.lfo.trans h.lfo, fun n hn => (h'.buf n hn).trans (h.buf n hn)⟩

/-- What LFO runs leave alone: the parameters, the session, what a voice's own oscillator has, and the group buffers. -/
structure LfosOnly (s t : State) : Prop where
  hw : t.hw = s.hw
  len : blockLen t = blockLen s
  written : t.written = s.written
  osc : ∀ v, getOsc t (.voice v) = getOsc s (.voice v)
  volume : ∀ v, (getVoice t v).volume = (getVoice s v).volume
  ram : RamCanonical s → RamCanonical t
  buf : ∀ b < 8, ∀ n < 4096, readBuf t b n = readBuf s b n

theorem LfosOnly.refl (s : State) : LfosOnly s s :=
  ⟨rfl, rfl, rfl, fun _ => rfl, fun _ => rfl, id, fun _ _ _ _ => rfl⟩

theorem LfosOnly.trans {s t u : State} (h : LfosOnly s t) (h' : LfosOnly t u) : LfosOnly s u :=
  ⟨h'.hw.trans h.hw, h'.len.trans h.len, h'.written.trans h.written, fun v => (h'.osc v).trans (h.osc v),
    fun v => (h'.volume v).trans (h.volume v), fun hs => h'.ram (h.ram hs),
    fun b hb n hn => (h'.buf b hb n hn).trans (h.buf b hb n hn)⟩

theorem volume_setLfo (s : State) (l : LfoSel) (r : Lfo) (v : Fin 32) :
    (getVoice (setLfo s l r) v).volume = (getVoice s v).volume := by
  rcases l with ⟨w, j⟩ | ⟨f, j⟩
  · by_cases hv : v = w
    · subst hv
      rw [setLfo, getVoice_setVoice_same]
      cases j <;> rfl
    · rw [setLfo, getVoice_setVoice_ne _ _ _ _ hv]
  · rfl

/-- The waveform of an LFO if it is enabled. -/
def enabledWf (en : Bool) (wf : Waveform) : Option Waveform := if en then some wf else none

theorem enabledWf_isSome (en : Bool) (wf : Waveform) : (enabledWf en wf).isSome = en := by cases en <;> rfl

theorem readBuf_lfoRun_ne (F : Prims) (l : LfoSel) (wf : Waveform) (ufm : Bool) {s : State} (hN : blockLen s ≤ 4096)
    {b n : Nat} (hb : b ≠ lfoBuffer l) (hn : n < 4096) : readBuf (lfoRun F l wf ufm s) b n = readBuf s b n :=
  readBuf_of_frame (fun _ => readByte_lfoRun F l wf ufm s) hN hn (.inl hb)

/-- One LFO run leaves alone what LFO runs leave alone. -/
theorem lfosOnly_lfoRun (F : Prims) (l : LfoSel) (wf : Waveform) (ufm : Bool) {s : State} (hN : blockLen s ≤ 4096) :
    LfosOnly s (lfoRun F l wf ufm s) where
  hw := lfoRun_hw ..
  len := blockLen_lfoRun ..
  written := (congrArg State.written (lfoRun_eq F l wf ufm hN fun _ => rfl)).trans (setLfo_written ..)
  osc v := (congrArg (getOsc · (.voice v)) (lfoRun_eq F l wf ufm hN fun _ => rfl)).trans
    (getOsc_setOsc_ne s (.lfo l) (.voice v) _ nofun)
  volume v := (congrArg (fun t => (getVoice t v).volume) (lfoRun_eq F l wf ufm hN fun _ => rfl)).trans
    (volume_setLfo ..)
  ram := ramCanonical_lfoRun F l wf ufm
  buf _ hb _ hn := readBuf_lfoRun_ne F l wf ufm hN (hb.trans_le (eight_le_lfoBuffer l)).ne hn

/-- Another LFO's record and buffer stay as they are. -/
theorem spares_lfoRun (F : Prims) {l k : LfoSel} (hk : k ≠ l) (wf : Waveform) (ufm : Bool) {s : State}
    (hN : blockLen s ≤ 4096) : Spares k s (lfoRun F l wf ufm s) where
  lfo := (congrArg (getLfo · k) (lfoRun_eq F l wf ufm hN fun _ => rfl)).trans (getLfo_setLfo_ne s l k _ hk)
  buf _ hn := readBuf_lfoRun_ne F l wf ufm hN (mt lfoBuffer_injective hk) hn

section
variable {s p : State} (hp : LfosOnly s p) (hN : blockLen s ≤ 4096) (F : Prims) (l : LfoSel) (en : Bool) (wf : Waveform)
  (ufm : Bool)
include hp hN

theorem LfosOnly.lfoRunIf : LfosOnly s (lfoRunIf F l (enabledWf en wf) ufm p) := by
  cases en with
  | false => exact hp
  | true => exact hp.trans (lfosOnly_lfoRun F l wf ufm (hp.len.trans_le hN))

theorem LfosOnly.spares_lfoRunIf {k : LfoSel} (hk : k ≠ l) :
    Spares k p (Machine.lfoRunIf F l (enabledWf en wf) ufm p) := by
  cases en with
  | false => exact .refl k p
  | true => exact spares_lfoRun F hk wf ufm (hp.len.trans_le hN)

theorem LfosOnly.draws_lfoRunIf : (Machine.lfoRunIf F l (enabledWf en wf) ufm p).draws =
    p.draws + drawsIf en wf (blockLen s) := by
  rw [← hp.len]
  cases en with
  | false => rw [drawsIf_false]; rfl
  | true => exact (congrArg State.draws (lfoRun_eq F l wf ufm (hp.len.trans_le hN) fun _ => rfl)).trans rfl

end

/-- `t` shows LFO `l`'s run over a block of `N` samples from its record in `s` on: its phase and its samples, modulated by
`fm`, with `d` the number of its first noise draw (R197). -/
def LfoRan (F : Prims) (l : LfoSel) (wf : Waveform) (s t : State) (fm : Nat → Option Word) (d N : Nat) : Prop :=
  (getLfo t l).osc.phase = phaseAfter fm (getLfo s l).osc N ∧ ∀ n < N, readBuf t (lfoBuffer l) n =
    blockSample F s.hw wf (getLfo s l).osc fm (fun _ => (getLfo s l).depth) d n

/-- Other LFOs' runs may come before an enabled LFO's run, and what spares it may come after. -/
theorem lfoRan_of_lfoRunIf {F : Prims} {l : LfoSel} {en : Bool} {wf : Waveform} {ufm : Bool} {s p t : State}
    (hN : blockLen s ≤ 4096) (hram : RamCanonical s) (hp : LfosOnly s p) (hbefore : Spares l s p)
    (hafter : Spares l (lfoRunIf F l (enabledWf en wf) ufm p) t) {fm : Nat → Option Word}
    (hfm : ∀ n < blockLen s, renderFm (lfoRender l wf ufm p) n p = fm n) (hen : en = true) :
    LfoRan F l wf s t fm p.draws (blockLen s) := by
  subst hen
  rw [← hp.len] at hN hfm ⊢
  rw [LfoRan, ← hbefore.lfo, ← hp.hw]
  refine ⟨?_, fun n hn => ?_⟩
  · rw [hafter.lfo, ← phaseAfter_congr _ hfm]
    exact (congrArg (fun u => (getLfo u l).osc.phase) (lfoRun_eq F l wf ufm hN fun _ => rfl)).trans
      (congrArg (fun r : Lfo => r.osc.phase) (getLfo_setLfo_same p l _))
  · rw [hafter.buf n (hn.trans_le hN), ← blockSample_congr _ _ _ _ _ _ fun k hk => hfm k (hk.trans_lt hn)]
    exact readBuf_lfoRun F l wf ufm hN (fun _ => rfl) (hp.ram hram) hn

/-- A modulation buffer that stays as it is can be read later (R116, R197). -/
theorem renderFm_lfoRender_of_spares {l m : LfoSel} (hmeta : metaOf l = some m) (wf : Waveform) (used : Bool)
    {s t : State} (h : Spares m s t) {n : Nat} (hn : n < 4096) :
    renderFm (lfoRender l wf used s) n s = modulation t used (lfoBuffer m) n := by
  rw [renderFm_lfoRender, hmeta, modulation, h.buf n hn]
  rfl

/-! ### The LFO runs of VOICE_RENDER -/

theorem planLfo_eq {en : Bool} {l : Lfo} {wf : Waveform} (h : en = true → waveformOf l.osc.kind = some wf) :
    planLfo en l = some (enabledWf en wf) := by
  cases en with
  | false => rfl
  | true => exact congrArg (Option.map some) (h rfl)

/-- The plan of a voice with configuration `c`, given its group and its waveforms (R237). -/
def voicePlanOf (c : Vcfg) (g : Group) (wf mfWf fWf maWf aWf : Waveform) : VoicePlan where
  group := g
  wf := wf
  mf := enabledWf c.enMf mfWf
  f := enabledWf c.enF fWf
  ma := enabledWf c.enMa maWf
  a := enabledWf c.enA aWf

theorem planVoice_eq_voicePlanOf {V : Voice} {g : Group} {wf mfWf fWf maWf aWf : Waveform}
    (hg : groupOf V.vcfg.route = some g) (hwf : waveformOf V.osc.kind = some wf)
    (hmf : V.vcfg.enMf = true → waveformOf V.mf.osc.kind = some mfWf)
    (hf : V.vcfg.enF = true → waveformOf V.f.osc.kind = some fWf)
    (hma : V.vcfg.enMa = true → waveformOf V.ma.osc.kind = some maWf)
    (ha : V.vcfg.enA = true → waveformOf V.a.osc.kind = some aWf) :
    planVoice V = some (voicePlanOf V.vcfg g wf mfWf fWf maWf aWf) := by
  rw [planVoice, hg, hwf, planLfo_eq hmf, planLfo_eq hf, planLfo_eq hma, planLfo_eq ha]
  rfl

section
variable (F : Prims) (v : Fin 32) (c : Vcfg) (g : Group) (wf mfWf fWf maWf aWf : Waveform) (s : State)

/-- The state after the meta-frequency LFO's run, the first of VOICE_RENDER (R237). -/
def voiceMfRun : State := lfoRunIf F (.voice v .mf) (enabledWf c.enMf mfWf) false s

/-- The state after the runs of both meta-LFOs (R237). -/
def voiceMetaRuns : State := lfoRunIf F (.voice v .ma) (enabledWf c.enMa maWf) false (voiceMfRun F v c mfWf s)

/-- The state after the frequency LFO's run, the third of VOICE_RENDER (R237). -/
def voiceFRun : State :=
  lfoRunIf F (.voice v .f) (enabledWf c.enF fWf) c.enMf (voiceMetaRuns F v c mfWf maWf s)

/-- The state after all four LFO runs of VOICE_RENDER (R237). -/
def voiceLfoRuns : State :=
  lfoRunIf F (.voice v .a) (enabledWf c.enA aWf) c.enMa (voiceFRun F v c mfWf fWf maWf s)

theorem voiceLfos_voicePlanOf :
    voiceLfos F v (voicePlanOf c g wf mfWf fWf maWf aWf) s = voiceLfoRuns F v c mfWf fWf maWf aWf s := by
  rw [voiceLfos, voicePlanOf, enabledWf_isSome, enabledWf_isSome]
  rfl

end

section
variable (F : Prims) (v : Fin 32) (c : Vcfg) (mfWf fWf maWf aWf : Waveform) {s : State} (hN : blockLen s ≤ 4096)
include hN

theorem lfosOnly_voiceMfRun : LfosOnly s (voiceMfRun F v c mfWf s) := (LfosOnly.refl s).lfoRunIf hN ..

theorem lfosOnly_voiceMetaRuns : LfosOnly s (voiceMetaRuns F v c mfWf maWf s) :=
  (lfosOnly_voiceMfRun F v c mfWf hN).lfoRunIf hN ..

theorem lfosOnly_voiceFRun : LfosOnly s (voiceFRun F v c mfWf fWf maWf s) :=
  (lfosOnly_voiceMetaRuns F v c mfWf maWf hN).lfoRunIf hN ..

theorem lfosOnly_voiceLfoRuns : LfosOnly s (voiceLfoRuns F v c mfWf fWf maWf aWf s) :=
  (lfosOnly_voiceFRun F v c mfWf fWf maWf hN).lfoRunIf hN ..

/-- The noise draws are taken in the order of the runs (log entry 4). -/
theorem draws_voiceLfoRuns {d1 d2 d3 d4 : Nat} (h1 : d1 = s.draws + drawsIf c.enMf mfWf (blockLen s))
    (h2 : d2 = d1 + drawsIf c.enMa maWf (blockLen s)) (h3 : d3 = d2 + drawsIf c.enF fWf (blockLen s))
    (h4 : d4 = d3 + drawsIf c.enA aWf (blockLen s)) :
    (voiceMfRun F v c mfWf s).draws = d1 ∧ (voiceMetaRuns F v c mfWf maWf s).draws = d2 ∧
      (voiceFRun F v c mfWf fWf maWf s).draws = d3 ∧ (voiceLfoRuns F v c mfWf fWf maWf aWf s).draws = d4 := by
  have hmf : (voiceMfRun F v c mfWf s).draws = d1 := h1 ▸ (LfosOnly.refl s).draws_lfoRunIf hN ..
  have hma : (voiceMetaRuns F v c mfWf maWf s).draws = d2 :=
    h2 ▸ hmf ▸ (lfosOnly_voiceMfRun F v c mfWf hN).draws_lfoRunIf hN ..
  have hf : (voiceFRun F v c mfWf fWf maWf s).draws = d3 :=
    h3 ▸ hma ▸ (lfosOnly_voiceMetaRuns F v c mfWf maWf hN).draws_lfoRunIf hN ..
  exact ⟨hmf, hma, hf, h4 ▸ hf ▸ (lfosOnly_voiceFRun F v c mfWf fWf maWf hN).draws_lfoRunIf hN ..⟩

/-- Every enabled LFO's run shows in a state that spares the LFOs from the last run on: no run touches the record or the
buffer of another LFO. -/
theorem lfosRan_voiceLfoRuns (hram : RamCanonical s) {t : State}
    (ht : ∀ l, Spares l (voiceLfoRuns F v c mfWf fWf maWf aWf s) t) :
    (c.enMf = true → LfoRan F (.voice v .mf) mfWf s t (fun _ => none) s.draws (blockLen s)) ∧
    (c.enMa = true → LfoRan F (.voice v .ma) maWf s t (fun _ => none) (voiceMfRun F v c mfWf s).draws (blockLen s)) ∧
    (c.enF = true → LfoRan F (.voice v .f) fWf s t (modulation t c.enMf (lfoBuffer (.voice v .mf)))
      (voiceMetaRuns F v c mfWf maWf s).draws (blockLen s)) ∧
    (c.enA = true → LfoRan F (.voice v .a) aWf s t (modulation t c.enMa (lfoBuffer (.voice v .ma)))
      (voiceFRun F v c mfWf fWf maWf s).draws (blockLen s)) := by
  have mfOnly := lfosOnly_voiceMfRun F v c mfWf hN
  have metaOnly := lfosOnly_voiceMetaRuns F v c mfWf maWf hN
  have fOnly := lfosOnly_voiceFRun F v c mfWf fWf maWf hN
  have mfRun : ∀ k, k ≠ .voice v .mf → Spares k s (voiceMfRun F v c mfWf s) := fun k hk =>
    (LfosOnly.refl s).spares_lfoRunIf hN F _ _ _ _ hk
  have maRun : ∀ k, k ≠ .voice v .ma → Spares k (voiceMfRun F v c mfWf s) (voiceMetaRuns F v c mfWf maWf s) :=
    fun k hk => mfOnly.spares_lfoRunIf hN F _ _ _ _ hk
  have fRun : ∀ k, k ≠ .voice v .f →
      Spares k (voiceMetaRuns F v c mfWf maWf s) (voiceFRun F v c mfWf fWf maWf s) := fun k hk =>
    metaOnly.spares_lfoRunIf hN F _ _ _ _ hk
  have aRun : ∀ k, k ≠ .voice v .a → Spares k (voiceFRun F v c mfWf fWf maWf s) t := fun k hk =>
    (fOnly.spares_lfoRunIf hN F _ _ _ _ hk).trans (ht k)
  have mfLater : Spares (.voice v .mf) (voiceMetaRuns F v c mfWf maWf s) t :=
    (fRun _ (by nofun)).trans (aRun _ (by nofun))
  have maLater : Spares (.voice v .ma) (voiceFRun F v c mfWf fWf maWf s) t := aRun _ nofun
  have fEarlier : Spares (.voice v .f) s (voiceMetaRuns F v c mfWf maWf s) :=
    (mfRun _ (by nofun)).trans (maRun _ (by nofun))
  have aEarlier : Spares (.voice v .a) s (voiceFRun F v c mfWf fWf maWf s) :=
    (mfRun _ (by nofun)).trans ((maRun _ (by nofun)).trans (fRun _ (by nofun)))
  refine ⟨?_, ?_, ?_, ?_⟩
  · exact lfoRan_of_lfoRunIf hN hram (.refl s) (.refl _ s) ((maRun _ (by nofun)).trans mfLater)
      fun n _ => renderFm_lfoRender (.voice v .mf) mfWf false s n
  · exact lfoRan_of_lfoRunIf hN hram mfOnly (mfRun _ (by nofun)) ((fRun _ (by nofun)).trans maLater)
      fun n _ => renderFm_lfoRender (.voice v .ma) maWf false _ n
  · exact lfoRan_of_lfoRunIf hN hram metaOnly fEarlier (aRun _ (by nofun))
      fun n hn => renderFm_lfoRender_of_spares rfl _ _ mfLater (hn.trans_le hN)
  · exact lfoRan_of_lfoRunIf hN hram fOnly aEarlier (ht _)
      fun n hn => renderFm_lfoRender_of_spares rfl _ _ maLater (hn.trans_le hN)

end

/-! ### The voice's own render (R236, R237) -/

/-- The render of a voice into its group spares every LFO. -/
theorem spares_voiceRender (F : Prims) (v : Fin 32) (pl : VoicePlan) {p : State} (hN : blockLen p ≤ 4096) (l : LfoSel) :
    Spares l p (render F (voiceRenderOf v pl p) p) where
  lfo := (congrArg (getLfo · l) (render_eq F (voiceRenderOf v pl p) hN)).trans
    ((getLfo_congr rfl rfl l).trans (getLfo_setVoice_of_lfos (i := v) (by intro j; cases j <;> rfl) l))
  buf n hn := by
    obtain ⟨-, -, -, hothers, -⟩ := render_computes F (voiceRenderOf v pl p) p hN
    have hbuf : groupBuf pl.group ≤ 4 := by cases pl.group <;> decide
    have hlfo := eight_le_lfoBuffer l
    refine hothers _ n hn (.inr ?_)
    rintro (hwrites | ⟨-, hwrites⟩) <;> simp only [voiceRenderOf] at hwrites <;> omega

section
variable (F : Prims) (v : Fin 32) (pl : VoicePlan) {s p t : State} (hN : blockLen s ≤ 4096) (hp : LfosOnly s p)
  (ht : ∀ l, Spares l p t)
include hN hp

theorem draws_voiceRender :
    (render F (voiceRenderOf v pl p) p).draws = p.draws + drawsIf true pl.wf (blockLen s) := by
  rw [← hp.len]
  exact congrArg State.draws (render_eq F (voiceRenderOf v pl p) (hp.len.trans_le hN))

/-- The group's buffers after the voice's render: overwritten if the group was not written yet, else added to (R236). -/
theorem readBuf_voiceRender (hram : RamCanonical s) {b n : Nat} (hb : b < 2) (hn : n < blockLen s) :
    readBuf (render F (voiceRenderOf v pl p) p) (groupBuf pl.group + b) n =
      if writtenBit s.written pl.group
      then fadd (readBuf s (groupBuf pl.group + b) n) (renderValue F (voiceRenderOf v pl p) p n)
      else renderValue F (voiceRenderOf v pl p) p n := by
  have hbuf : groupBuf pl.group ≤ 4 := by cases pl.group <;> decide
  have hwrites : (voiceRenderOf v pl p).Writes (groupBuf pl.group + b) := by
    obtain rfl | rfl : b = 0 ∨ b = 1 := by omega
    · exact .inl rfl
    · exact .inr ⟨rfl, rfl⟩
  rw [readBuf_render F _ (hp.len.trans_le hN) (hp.ram hram) (hp.len.symm ▸ hn) hwrites,
    hp.buf _ (by omega) n (hn.trans_le hN), voiceRenderOf, hp.written]
  cases writtenBit s.written pl.group <;> rfl

include ht

/-- The voice's phase after its render; `t` still has the frequency LFO's samples. -/
theorem phase_voiceRender : (getOsc (render F (voiceRenderOf v pl p) p) (.voice v)).phase =
    phaseAfter (modulation t pl.f.isSome (lfoBuffer (.voice v .f))) (getOsc s (.voice v)) (blockLen s) := by
  obtain ⟨-, -, hosc, -⟩ := render_computes F (voiceRenderOf v pl p) p (hp.len.trans_le hN)
  refine (congrArg Osc.phase hosc).trans ?_
  rw [hp.len]
  show phaseAfter _ (getOsc p (.voice v)) _ = _
  rw [hp.osc]
  exact phaseAfter_congr _ fun k hk => (renderFm_eq_modulation rfl k p).trans
    (by rw [modulation, modulation, (ht _).buf k (hk.trans_le hN)])

/-- A sample of the voice's render; `t` still has the samples of its primary LFOs. -/
theorem renderValue_voiceRender {n : Nat} (hn : n < blockLen s) : renderValue F (voiceRenderOf v pl p) p n =
    blockSample F s.hw pl.wf (getOsc s (.voice v)) (modulation t pl.f.isSome (lfoBuffer (.voice v .f)))
      (amplitude t (getVoice s v).volume pl.a.isSome (lfoBuffer (.voice v .a))) p.draws n := by
  have hfm : ∀ k ≤ n, renderFm (voiceRenderOf v pl p) k p =
      modulation t pl.f.isSome (lfoBuffer (.voice v .f)) k := fun k hk =>
    (renderFm_eq_modulation rfl k p).trans
      (by rw [modulation, modulation, (ht _).buf k ((hk.trans_lt hn).trans_le hN)])
  have hamp : renderAmp (voiceRenderOf v pl p) n p =
      amplitude t (getVoice s v).volume pl.a.isSome (lfoBuffer (.voice v .a)) n :=
    (renderAmp_eq_amplitude rfl n p).trans
      (by rw [amplitude, amplitude, (ht _).buf n (hn.trans_le hN), ← hp.volume v]; rfl)
  rw [renderValue, blockSample_congr _ _ _ _ _ _ hfm, blockSample_congr_amp _ _ _ _ _ _ hamp, hp.hw]
  show blockSample F s.hw pl.wf (getOsc p (.voice v)) _ _ _ n = _
  rw [hp.osc]

end

/-! ### The obligation -/

theorem exec_voiceRender {s : State} {unit : BitVec 8} {v : Fin 32} {pl : VoicePlan} (hready : s.ready = true)
    (hunit : voiceUnit s.hw unit = some v) (hplan : planVoice (getVoice s v) = some pl) :
    exec (.voiceRender unit) s = .next (completeCommand (voiceRender prims v pl s)) := by
  have hrun : tryCommand (.voiceRender unit) s = .ok (voiceRender prims v pl s) :=
    (tryVoiceRender_ok prims unit s _).2 ⟨hready, v, pl, hunit, hplan, rfl⟩
  rw [exec_eq, hrun, finish_ok]

/-- Settles O41: the four LFO runs each show in the end state, as nothing after a run touches its buffer, and the voice's
render reads the buffers they leave. -/
theorem voiceRenderOverwritesThenAccumulates : Obligations.VoiceRenderOverwritesThenAccumulates := by
  intro s t unit v V c g N d1 d2 d3 d4 wf mfWf fWf maWf aWf hready hN hmax hram hunit hV hc hg hwf hmf hf hma ha
    hd1 hd2 hd3 hd4 hexec
  subst hN hV hc
  have hplan := planVoice_eq_voicePlanOf hg hwf hmf hf hma ha
  set pl := voicePlanOf (getVoice s v).vcfg g wf mfWf fWf maWf aWf
  set p := voiceLfoRuns prims v (getVoice s v).vcfg mfWf fWf maWf aWf s
  rw [exec_voiceRender hready hunit hplan, voiceRender, voiceLfos_voicePlanOf] at hexec
  set u := render prims (voiceRenderOf v pl p) p
  have ht : completeCommand { u with written := setWritten u.written g } = t := Host.Outcome.next.inj hexec
  have hbufs : ∀ b n, readBuf t b n = readBuf u b n := fun b n => ht ▸ rfl
  have hvoices : ∀ o, getOsc t o = getOsc u o := fun o => ht ▸ getOsc_congr rfl rfl o
  have hlfos : ∀ l, Spares l u t := fun l => ⟨ht ▸ getLfo_congr rfl rfl l, fun n _ => hbufs _ n⟩
  have hp : LfosOnly s p := lfosOnly_voiceLfoRuns prims v _ mfWf fWf maWf aWf hmax
  have hspares : ∀ l, Spares l p t := fun l => (spares_voiceRender prims v pl (hp.len.trans_le hmax) l).trans (hlfos l)
  obtain ⟨hdraws1, hdraws2, hdraws3, hdraws4⟩ :=
    draws_voiceLfoRuns prims v (getVoice s v).vcfg mfWf fWf maWf aWf hmax hd1 hd2 hd3 hd4
  obtain ⟨hmfRan, hmaRan, hfRan, haRan⟩ := lfosRan_voiceLfoRuns prims v _ mfWf fWf maWf aWf hmax hram hspares
  rw [hdraws1] at hmaRan
  rw [hdraws2] at hfRan
  rw [hdraws3] at haRan
  have hfUsed : pl.f.isSome = (getVoice s v).vcfg.enF := enabledWf_isSome ..
  have haUsed : pl.a.isSome = (getVoice s v).vcfg.enA := enabledWf_isSome ..
  have hphase := phase_voiceRender prims v pl hmax hp hspares
  rw [hfUsed] at hphase
  have hf17 : lfoBuffer (.voice v .f) = 17 + 4 * v.val := by rw [lfoBuffer]; omega
  have hma18 : lfoBuffer (.voice v .ma) = 18 + 4 * v.val := by rw [lfoBuffer]; omega
  have ha19 : lfoBuffer (.voice v .a) = 19 + 4 * v.val := by rw [lfoBuffer]; omega
  rw [← hf17, ← hma18, ← ha19]
  refine ⟨hmfRan, hmaRan, hfRan, haRan, (congrArg Osc.phase (hvoices (.voice v))).trans hphase, ?_,
    fun b hb n hn x hx => ?_⟩
  · rw [← hdraws4, ← ht]
    exact draws_voiceRender prims v pl hmax hp
  · have hread := readBuf_voiceRender prims v pl hmax hp hram hb hn
    rw [renderValue_voiceRender prims v pl hmax hp hspares hn, hfUsed, haUsed, hdraws4] at hread
    rw [hbufs, hx]
    exact hread

end Sys2Proof.Machine


/-! The obligations about the session commands and BLOCK_BEGIN (R231 to R234). -/

namespace Sys2Proof.Machine

/-- Settles O35: NOP has no check and no effect, so its completion is all it does. -/
theorem nopOnlyCompletes : Obligations.NopOnlyCompletes := fun s => exec_eq .nop s

/-- INIT on an LFO keeps its depth (R232). -/
theorem depth_initVoice (sr : Word) (V : Voice) (j : VoiceLfo) :
    (voiceLfo (initVoice sr V) j).depth = (voiceLfo V j).depth := by
  cases j <;> rfl

/-- INIT on a voice restarts each of its oscillators (R232). -/
theorem getOsc_initSession_of_voice {s : State} {v : Fin 32} (hv : v.val < s.hw.nVoice) {o : OscSel}
    (ho : o = .voice v ∨ ∃ j, o = .lfo (.voice v j)) :
    getOsc (initSession s) o = initOsc s.arg0 (getOsc s o) := by
  rcases ho with rfl | ⟨j, rfl⟩
  · rw [getOsc, getVoice_initSession, if_pos hv]
    rfl
  · rw [getOsc, getLfo, getVoice_initSession, if_pos hv]
    cases j <;> rfl

/-- Settles O36: the checks of INIT pass, and each record is the restarted one. -/
theorem initStartsASession : Obligations.InitStartsASession := by
  intro s hfinite hpositive hlow hhigh
  have hrun : tryCommand .init s = .ok (initSession s) :=
    (tryInit_ok s _).2 ⟨hfinite, hpositive, hlow, hhigh, rfl⟩
  refine ⟨completeCommand (initSession s), ?_, rfl, fun _ => rfl, getFilter_initSession s, fun v hv => ?_,
    fun v hv => (getVoice_initSession s v).trans (if_neg (Nat.not_lt.2 hv))⟩
  · rw [exec_eq, hrun, finish_ok]
  · have hvoice : getVoice (completeCommand (initSession s)) v = initVoice s.arg0 (getVoice s v) :=
      (getVoice_initSession s v).trans (if_pos hv)
    refine ⟨fun o ho => ?_, fun j => ?_, ?_⟩
    · exact (getOsc_congr rfl rfl o).trans (getOsc_initSession_of_voice hv ho)
    · rw [getLfo, hvoice]
      exact depth_initVoice s.arg0 (getVoice s v) j
    · rw [hvoice]
      exact ⟨rfl, rfl, rfl⟩

/-- Settles O37: TEARDOWN has no check, and its effect clears the RAM and restarts the filters. -/
theorem teardownEndsTheSession : Obligations.TeardownEndsTheSession := fun s =>
  ⟨completeCommand (teardownSession s), exec_eq .teardown s, rfl, fun _ => rfl, getFilter_teardownSession s⟩

theorem exec_blockBegin {s : State} (hready : s.ready = true) :
    exec .blockBegin s = .next (completeCommand (blockBegin s)) := by
  have hrun : tryCommand .blockBegin s = .ok (blockBegin s) := (tryBlockBegin_ok s _).2 ⟨hready, rfl⟩
  rw [exec_eq, hrun, finish_ok]

/-- Settles O38: with the session ready BLOCK_BEGIN executes, and WRITTEN is all it changes. -/
theorem blockBeginClearsWritten : Obligations.BlockBeginClearsWritten := fun _ hready => exec_blockBegin hready

end Sys2Proof.Machine

/-! SUPPORT. What commutes with the loops of a block: changes of a state that its samples neither read nor write. -/

namespace Sys2Proof.Machine

theorem forSamples_commute {body : Nat → State → State} {g : State → State}
    (h : ∀ n, Function.Commute (body n) g) (k : Nat) : Function.Commute (forSamples k body) g := by
  induction k with
  | zero => exact fun _ => rfl
  | succ k ih => exact (h k).comp_left ih

/-- `g` changes nothing that a render of the oscillator `o` reads or writes (R195, R196). -/
structure ApartFrom (o : OscSel) (g : State → State) : Prop where
  len : ∀ s, blockLen (g s) = blockLen s
  read : ∀ s b n, readBuf (g s) b n = readBuf s b n
  write : ∀ b n v, Function.Commute (writeBuf · b n v) g
  advance : ∀ wf fm, Function.Commute (oscAdvance wf o fm) g
  value : ∀ F wf fm amp s, oscValue F wf o fm amp (g s) = oscValue F wf o fm amp s

namespace ApartFrom

variable {o : OscSel} {g : State → State} (h : ApartFrom o g)
include h

theorem putSample (ovw : Bool) (b n : Nat) (v : Word) : Function.Commute (putSample ovw b n v) g := fun s => by
  unfold Machine.putSample
  rw [h.read]
  exact h.write b n _ s

theorem renderSample (F : Prims) {r : Render} (ho : r.osc = o) (n : Nat) :
    Function.Commute (renderSample F r n) g := fun s => by
  subst ho
  have hread : ∀ b, readBuf (g s) b n = readBuf s b n := fun b => h.read s b n
  unfold Machine.renderSample
  rw [renderFm_congr r n hread, renderAmp_congr r n hread, h.value, (h.advance r.wf _).eq s]
  dsimp only
  rw [(h.putSample _ _ _ _).eq, (h.putSample _ _ _ _).eq]
  split <;> rfl

theorem render (F : Prims) {r : Render} (ho : r.osc = o) : Function.Commute (render F r) g := fun s => by
  unfold Machine.render
  rw [h.len]
  exact forSamples_commute (h.renderSample F ho) _ s

end ApartFrom

theorem ApartFrom.lfoRun {l : LfoSel} {g : State → State} (h : ApartFrom (.lfo l) g)
    (hlfo : ∀ s, getLfo (g s) l = getLfo s l) (F : Prims) (wf : Waveform) (ufm : Bool) :
    Function.Commute (lfoRun F l wf ufm) g := fun s => by
  unfold Machine.lfoRun lfoRender
  rw [hlfo]
  exact h.render F rfl s

/-- What is apart from a filter's LFOs and from its samples is apart from its block (R161). -/
theorem filterBlock_commute {f : Fin 4} {g : State → State} (h : ∀ j, ApartFrom (.lfo (.filter f j)) g)
    (hlfo : ∀ s j, getLfo (g s) (.filter f j) = getLfo s (.filter f j)) (F : Prims)
    (hsample : ∀ n, Function.Commute (filterSample F f n) g) (pl : FilterPlan) :
    Function.Commute (filterBlock F f pl) g := fun s => by
  unfold filterBlock
  rw [(h .metaCut).len, (h .metaCut).lfoRun (hlfo · .metaCut) F _ _ s, (h .cut).lfoRun (hlfo · .cut) F _ _ _]
  exact forSamples_commute hsample _ _

end Sys2Proof.Machine

/-! The obligation about filters and voice records (R244). -/

namespace Sys2Proof.Machine

/-- A voice record is apart from the LFOs of the filters. -/
theorem apartFrom_setVoice (f : Fin 4) (j : FilterLfo) (v : Fin 32) (V : Voice) :
    ApartFrom (.lfo (.filter f j)) (setVoice · v V) where
  len _ := rfl
  read _ _ _ := rfl
  write _ _ _ _ := rfl
  advance _ _ _ := rfl
  value _ _ _ _ _ := rfl

theorem filterBlock_setVoice (F : Prims) (f : Fin 4) (pl : FilterPlan) (s : State) (v : Fin 32) (V : Voice) :
    filterBlock F f pl (setVoice s v V) = setVoice (filterBlock F f pl s) v V :=
  filterBlock_commute (fun j => apartFrom_setVoice f j v V) (fun _ _ => rfl) F (fun _ _ => rfl) pl s

theorem tryFilterBlock_setVoice (F : Prims) (unit : BitVec 8) (s : State) (v : Fin 32) (V : Voice) :
    tryFilterBlock F unit (setVoice s v V) = (tryFilterBlock F unit s).map (setVoice · v V) := by
  simp only [tryFilterBlock, setVoice_ready, getFilter_setVoice, filterBlock_setVoice]
  cases s.ready
  · rfl
  · cases filterUnit unit with
    | none => rfl
    | some f =>
      dsimp only
      cases planFilter (getFilter s f) <;> rfl

theorem commandFault_setVoice (c : FaultCode) (w : Word) (s : State) (v : Fin 32) (V : Voice) :
    commandFault c w (setVoice s v V) = setVoice (commandFault c w s) v V := by
  unfold commandFault
  cases h : s.fault with
  | true => rw [raiseFault_of_faulted c w s h, raiseFault_of_faulted c w (setVoice s v V) h]; rfl
  | false => rw [raiseFault_of_clear c w s h, raiseFault_of_clear c w (setVoice s v V) h]; rfl

/-- Settles O49: the checks of FILTER_BLOCK, its samples, its completion and its fault entry each commute with a change
of a voice record. -/
theorem filtersDoNotReadVoices : Obligations.FiltersDoNotReadVoices := by
  intro s t unit v V ht
  rw [exec_eq] at ht ⊢
  obtain rfl := Host.Outcome.next.inj ht
  simp only [tryCommand, tryFilterBlock_setVoice]
  cases tryFilterBlock prims unit s with
  | error c => exact congrArg Host.Outcome.next (commandFault_setVoice c _ s v V)
  | ok u => rfl

end Sys2Proof.Machine

/-! The obligation about what VOICE_RENDER leaves unchanged (R197, R237). -/

namespace Sys2Proof.Machine

/-- `W` is the voice `V` with other phases. -/
def VoiceRephased (V W : Voice) : Prop :=
  W = { V with
    osc := rephased V.osc W.osc.phase
    mf := rephasedLfo V.mf W.mf.osc.phase, f := rephasedLfo V.f W.f.osc.phase
    ma := rephasedLfo V.ma W.ma.osc.phase, a := rephasedLfo V.a W.a.osc.phase }

theorem VoiceRephased.refl (V : Voice) : VoiceRephased V V := rfl

theorem VoiceRephased.trans {V W X : Voice} (h : VoiceRephased V W) (h' : VoiceRephased W X) : VoiceRephased V X := by
  refine Eq.trans h' ?_
  rw [h]
  rfl

/-- From `s` to `t` nothing moves but the phases of voice `v`, the sample RAM and the draws. -/
structure VoiceMoved (v : Fin 32) (s t : State) : Prop where
  rest : t = { s with voices := t.voices, ram := t.ram, draws := t.draws }
  others : ∀ w, w ≠ v → getVoice t w = getVoice s w
  voice : VoiceRephased (getVoice s v) (getVoice t v)

theorem VoiceMoved.refl (v : Fin 32) (s : State) : VoiceMoved v s s := ⟨rfl, fun _ _ => rfl, .refl _⟩

theorem VoiceMoved.trans {v : Fin 32} {s t u : State} (h : VoiceMoved v s t) (h' : VoiceMoved v t u) :
    VoiceMoved v s u where
  rest := h'.rest.trans
    (congrArg (fun x : State => { x with voices := u.voices, ram := u.ram, draws := u.draws }) h.rest)
  others w hw := (h'.others w hw).trans (h.others w hw)
  voice := h.voice.trans h'.voice

theorem VoiceMoved.len {v : Fin 32} {s t : State} (h : VoiceMoved v s t) : blockLen t = blockLen s :=
  (congrArg blockLen h.rest).trans rfl

/-- The oscillators of a voice: its own, and its LFOs' (R58). -/
def IsOfVoice (v : Fin 32) (o : OscSel) : Prop := o = .voice v ∨ ∃ j, o = .lfo (.voice v j)

/-- Another phase in an oscillator of a voice moves that voice alone. -/
theorem voiceMoved_setOsc {v : Fin 32} {o : OscSel} (ho : IsOfVoice v o) (s : State) (p : Word) :
    VoiceMoved v s (setOsc s o (rephased (getOsc s o) p)) := by
  rcases ho with rfl | ⟨j, rfl⟩
  · refine ⟨rfl, fun w hw => getVoice_setVoice_ne s v w _ hw, ?_⟩
    rw [setOsc, getVoice_setVoice_same]
    rfl
  · refine ⟨rfl, fun w hw => getVoice_setVoice_ne s v w _ hw, ?_⟩
    rw [setOsc, setLfo, getVoice_setVoice_same]
    cases j <;> rfl

/-- A render of an oscillator of a voice moves that voice alone (R196). -/
theorem voiceMoved_render (F : Prims) {v : Fin 32} {r : Render} (ho : IsOfVoice v r.osc) (s : State) :
    VoiceMoved v s (render F r s) := by
  obtain ⟨hmoved, ⟨p, -, hfilters, hvoices⟩, -⟩ := render_leaves F r s
  have hset := voiceMoved_setOsc ho s p
  have hkept : (render F r s).filters = s.filters := hfilters.trans ((congrArg State.filters hset.rest).trans rfl)
  refine ⟨?_, fun w hw => (getVoice_congr hvoices w).trans (hset.others w hw), ?_⟩
  · rw [RecordsMoved, hkept] at hmoved
    exact hmoved
  · rw [getVoice_congr hvoices]
    exact hset.voice

theorem voiceMoved_lfoRunIf (F : Prims) (v : Fin 32) (j : VoiceLfo) (wf : Option Waveform) (ufm : Bool) (s : State) :
    VoiceMoved v s (lfoRunIf F (.voice v j) wf ufm s) := by
  cases wf with
  | none => exact .refl v s
  | some wf => exact voiceMoved_render F (.inr ⟨j, rfl⟩) s

theorem voiceMoved_voiceLfos (F : Prims) (v : Fin 32) (pl : VoicePlan) (s : State) :
    VoiceMoved v s (voiceLfos F v pl s) :=
  (((voiceMoved_lfoRunIf F v .mf _ _ s).trans (voiceMoved_lfoRunIf F v .ma _ _ _)).trans
    (voiceMoved_lfoRunIf F v .f _ _ _)).trans (voiceMoved_lfoRunIf F v .a _ _ _)

/-- The state VOICE_RENDER leaves before it sets its WRITTEN bit (R237). -/
def voiceSamples (F : Prims) (v : Fin 32) (pl : VoicePlan) (s : State) : State :=
  render F (voiceRenderOf v pl (voiceLfos F v pl s)) (voiceLfos F v pl s)

theorem voiceRender_eq (F : Prims) (v : Fin 32) (pl : VoicePlan) (s : State) : voiceRender F v pl s =
    { voiceSamples F v pl s with written := setWritten (voiceSamples F v pl s).written pl.group } := rfl

theorem voiceMoved_voiceSamples (F : Prims) (v : Fin 32) (pl : VoicePlan) (s : State) :
    VoiceMoved v s (voiceSamples F v pl s) :=
  (voiceMoved_voiceLfos F v pl s).trans (voiceMoved_render F (.inl rfl) _)

/-! ### What a disabled LFO keeps -/

theorem getLfo_lfoRunIf {F : Prims} {l k : LfoSel} {wf : Option Waveform} (hk : wf.isSome = true → k ≠ l) (ufm : Bool)
    (s : State) : getLfo (lfoRunIf F l wf ufm s) k = getLfo s k := by
  cases wf with
  | none => rfl
  | some wf =>
    obtain ⟨-, ⟨p, -, hfilters, hvoices⟩, -⟩ := lfoRun_leaves F l wf ufm s
    exact (getLfo_congr hfilters hvoices k).trans (getLfo_setLfo_ne s l k _ (hk rfl))

/-- Whether the plan of a voice runs its LFO `j` (R237). -/
def VoicePlan.runs (pl : VoicePlan) : VoiceLfo → Bool
  | .mf => pl.mf.isSome
  | .f => pl.f.isSome
  | .ma => pl.ma.isSome
  | .a => pl.a.isSome

/-- An LFO that is not enabled stays as it is. -/
theorem getLfo_voiceSamples (F : Prims) (v : Fin 32) {pl : VoicePlan} {j : VoiceLfo} (hj : pl.runs j = false)
    (s : State) : getLfo (voiceSamples F v pl s) (.voice v j) = getLfo s (.voice v j) := by
  have hne : ∀ i, pl.runs i = true → LfoSel.voice v j ≠ .voice v i := by
    rintro i hi heq
    cases heq
    exact absurd hi (Bool.eq_false_iff.1 hj)
  have hlfos : getLfo (voiceLfos F v pl s) (.voice v j) = getLfo s (.voice v j) := by
    rw [voiceLfos, getLfo_lfoRunIf (hne .a), getLfo_lfoRunIf (hne .f), getLfo_lfoRunIf (hne .ma),
      getLfo_lfoRunIf (hne .mf)]
  obtain ⟨-, ⟨p, -, hfilters, hvoices⟩, -⟩ :=
    render_leaves F (voiceRenderOf v pl (voiceLfos F v pl s)) (voiceLfos F v pl s)
  refine Eq.trans ?_ hlfos
  exact (getLfo_congr hfilters hvoices _).trans (getLfo_setVoice_of_lfos (i := v) (by intro i; cases i <;> rfl) _)

/-! ### The bytes VOICE_RENDER leaves alone -/

theorem readByte_lfoRunIf {F : Prims} {l : LfoSel} {wf : Option Waveform} {ufm : Bool} {s : State} {a : Nat}
    (h : ¬ (wf.isSome = true ∧ inBuffer (lfoBuffer l) (blockLen s) a)) :
    readByte (lfoRunIf F l wf ufm s).ram a = readByte s.ram a := by
  cases wf with
  | none => rfl
  | some wf => exact readByte_lfoRun F l wf ufm s fun ha => h ⟨rfl, ha⟩

@[simp] theorem blockLen_lfoRunIf (F : Prims) (l : LfoSel) (wf : Option Waveform) (ufm : Bool) (s : State) :
    blockLen (lfoRunIf F l wf ufm s) = blockLen s := by
  cases wf with
  | none => rfl
  | some wf => exact blockLen_lfoRun F l wf ufm s

theorem readByte_voiceLfos (F : Prims) (v : Fin 32) (pl : VoicePlan) (s : State) {a : Nat}
    (h : ∀ j, ¬ (pl.runs j = true ∧ inBuffer (lfoBuffer (.voice v j)) (blockLen s) a)) :
    readByte (voiceLfos F v pl s).ram a = readByte s.ram a := by
  have hrun : ∀ (j : VoiceLfo) (ufm : Bool) (t : State) (wf : Option Waveform), wf.isSome = pl.runs j →
      blockLen t = blockLen s → readByte (lfoRunIf F (.voice v j) wf ufm t).ram a = readByte t.ram a :=
    fun j ufm t wf hwf hlen => readByte_lfoRunIf (by rw [hwf, hlen]; exact h j)
  rw [voiceLfos, hrun .a _ _ _ rfl (by simp), hrun .f _ _ _ rfl (by simp), hrun .ma _ _ _ rfl (by simp),
    hrun .mf _ _ _ rfl rfl]

theorem readByte_voiceSamples (F : Prims) (v : Fin 32) (pl : VoicePlan) (s : State) {a : Nat}
    (hleft : ¬ inBuffer (groupBuf pl.group) (blockLen s) a)
    (hright : ¬ inBuffer (groupBuf pl.group + 1) (blockLen s) a)
    (hlfos : ∀ j, ¬ (pl.runs j = true ∧ inBuffer (lfoBuffer (.voice v j)) (blockLen s) a)) :
    readByte (voiceSamples F v pl s).ram a = readByte s.ram a := by
  obtain ⟨-, -, -, -, hframe, -⟩ := render_leaves F (voiceRenderOf v pl (voiceLfos F v pl s)) (voiceLfos F v pl s)
  rw [(voiceMoved_voiceLfos F v pl s).len] at hframe
  exact (hframe a hleft fun h => hright h.2).trans (readByte_voiceLfos F v pl s hlfos)

/-! ### The obligation -/

theorem isSome_of_planLfo {en : Bool} {l : Lfo} {wf : Option Waveform} (h : planLfo en l = some wf) :
    wf.isSome = en := by
  cases en with
  | false => cases h; rfl
  | true =>
    obtain ⟨w, -, rfl⟩ := Option.map_eq_some_iff.1 h
    rfl

/-- What the plan of a voice takes from its configuration (R237). -/
structure PlanOf (V : Voice) (pl : VoicePlan) : Prop where
  group : groupOf V.vcfg.route = some pl.group
  mf : pl.runs .mf = V.vcfg.enMf
  f : pl.runs .f = V.vcfg.enF
  ma : pl.runs .ma = V.vcfg.enMa
  a : pl.runs .a = V.vcfg.enA

theorem planOf_of_planVoice {V : Voice} {pl : VoicePlan} (h : planVoice V = some pl) : PlanOf V pl := by
  obtain ⟨g, hg, h⟩ := Option.bind_eq_some_iff.1 h
  obtain ⟨wf, -, h⟩ := Option.bind_eq_some_iff.1 h
  obtain ⟨mf, hmf, h⟩ := Option.bind_eq_some_iff.1 h
  obtain ⟨f, hf, h⟩ := Option.bind_eq_some_iff.1 h
  obtain ⟨ma, hma, h⟩ := Option.bind_eq_some_iff.1 h
  obtain ⟨a, ha, h⟩ := Option.bind_eq_some_iff.1 h
  cases h
  exact ⟨hg, isSome_of_planLfo hmf, isSome_of_planLfo hf, isSome_of_planLfo hma, isSome_of_planLfo ha⟩

/-- Settles O40: the LFO runs and the voice's render each move the voice's phases, the draws and their own buffers. -/
theorem voiceRenderFrame : Obligations.VoiceRenderFrame := by
  intro s unit v g hready _ hunit hconfig hgroup
  obtain ⟨pl, hplan⟩ := Option.isSome_iff_exists.1 ((planVoice_isSome (getVoice s v)).trans hconfig)
  obtain ⟨hg, hmf, hf, hma, ha⟩ := planOf_of_planVoice hplan
  obtain rfl : pl.group = g := Option.some.inj (hg.symm.trans hgroup)
  have hmoved := voiceMoved_voiceSamples prims v pl s
  set u := voiceSamples prims v pl s
  have hphase : ∀ {j}, pl.runs j = false →
      (voiceLfo (getVoice u v) j).osc.phase = (voiceLfo (getVoice s v) j).osc.phase :=
    fun hj => congrArg (fun l : Lfo => l.osc.phase) (getLfo_voiceSamples prims v hj s)
  refine ⟨completeCommand (voiceRender prims v pl s), exec_voiceRender hready hunit hplan, ?_, hmoved.others,
    ⟨_, _, _, _, _, hmoved.voice, fun h => hphase (hmf.trans h), fun h => hphase (hf.trans h),
      fun h => hphase (hma.trans h), fun h => hphase (ha.trans h)⟩,
    fun a hleft hright hmfBuf hfBuf hmaBuf haBuf => ?_⟩
  · exact congrArg (fun x : State => completeCommand { x with written := setWritten x.written pl.group }) hmoved.rest
  · refine readByte_voiceSamples prims v pl s hleft hright fun j => ?_
    cases j with
    | mf => rwa [hmf]
    | f => rwa [hf, lfoBuffer, Nat.add_right_comm]
    | ma => rwa [hma, lfoBuffer, Nat.add_right_comm]
    | a => rwa [ha, lfoBuffer, Nat.add_right_comm]

end Sys2Proof.Machine

/-! The obligation about BLOCK_END (R238, R240). -/

namespace Sys2Proof.Machine

/-! ### One sample of the fade -/

section
variable {s : State} {n : Nat} (hfading : s.fadePos.toNat < s.fadeLen.toNat) (hn : n < 4096)
include hfading hn

theorem fadeSample_moves : fadeSample n s = { s with ram := (fadeSample n s).ram, fadePos := s.fadePos + 1 } := by
  rw [fadeSample_fading n s hfading hn]

theorem fadeSample_ram_of_fading : (fadeSample n s).ram = (writeBuf (writeBuf s 0 n (fmul (readBuf s 0 n) (fadeGain s)))
    1 n (fmul (readBuf s 1 n) (fadeGain s))).ram := by
  rw [fadeSample_fading n s hfading hn]
  rfl

theorem ramCanonical_fadeSample (hram : RamCanonical s) : RamCanonical (fadeSample n s) := by
  rw [RamCanonical, fadeSample_ram_of_fading hfading hn]
  exact memoryWf_writeWord _ _ _ (memoryWf_writeWord _ _ _ hram)

theorem readBuf_fadeSample_same (hram : RamCanonical s) {b : Nat} (hb : b < 2) :
    readBuf (fadeSample n s) b n = fmul (readBuf s b n) (fadeGain s) := by
  rw [readBuf_congr (fadeSample_ram_of_fading hfading hn)]
  obtain rfl | rfl : b = 0 ∨ b = 1 := by omega
  · rw [readBuf_writeBuf_ne _ _ _ _ _ _ hn hn (.inl (by omega)), readBuf_writeBuf_same _ _ _ _ hram]
  · exact readBuf_writeBuf_same _ _ _ _ (memoryWf_writeWord _ _ _ hram)

theorem readBuf_fadeSample_ne {b m : Nat} (hm : m < 4096) (hne : m ≠ n) :
    readBuf (fadeSample n s) b m = readBuf s b m := by
  rw [readBuf_congr (fadeSample_ram_of_fading hfading hn), readBuf_writeBuf_ne _ _ _ _ _ _ hn hm (.inr hne),
    readBuf_writeBuf_ne _ _ _ _ _ _ hn hm (.inr hne)]

theorem readByte_fadeSample {a : Nat} (h0 : a < bufAddr 0 n ∨ bufAddr 0 n + 4 ≤ a)
    (h1 : a < bufAddr 1 n ∨ bufAddr 1 n + 4 ≤ a) : readByte (fadeSample n s).ram a = readByte s.ram a := by
  rw [fadeSample_ram_of_fading hfading hn, writeBuf_ram, readByte_writeWord_ne _ _ _ _ h1, writeBuf_ram,
    readByte_writeWord_ne _ _ _ _ h0]

end

/-! ### The fade over the block -/

/-- FADE_POS after `n` samples of the fade (R240). -/
def fadePosAfter (s : State) (n : Nat) : Word :=
  if s.fadePos.toNat < s.fadeLen.toNat then BitVec.ofNat 32 (min (s.fadePos.toNat + n) s.fadeLen.toNat) else s.fadePos

/-- The output sample `n` after the fade, `x` before it (R240). -/
def fadedSample (s : State) (n : Nat) (x : Word) : Word :=
  if s.fadePos.toNat + n < s.fadeLen.toNat then
    fmul x (fdiv (fofNat (s.fadePos.toNat + n)) (fofNat s.fadeLen.toNat))
  else x

/-- The fade has come as far as its position says: it moves one place with each sample, and stops at FADE_LEN. -/
theorem toNat_fadePosAfter (s : State) (n : Nat) :
    (fadePosAfter s n).toNat = if s.fadePos.toNat < s.fadeLen.toNat
      then min (s.fadePos.toNat + n) s.fadeLen.toNat else s.fadePos.toNat := by
  have hlen := s.fadeLen.isLt
  unfold fadePosAfter
  split
  · rw [BitVec.toNat_ofNat, Nat.mod_eq_of_lt (by omega)]
  · rfl

theorem fadePosAfter_lt_iff (s : State) (n : Nat) :
    (fadePosAfter s n).toNat < s.fadeLen.toNat ↔ s.fadePos.toNat + n < s.fadeLen.toNat := by
  rw [toNat_fadePosAfter]
  split <;> omega

theorem toNat_fadePosAfter_of_lt {s : State} {n : Nat} (h : s.fadePos.toNat + n < s.fadeLen.toNat) :
    (fadePosAfter s n).toNat = s.fadePos.toNat + n := by
  rw [toNat_fadePosAfter, if_pos (by omega), Nat.min_eq_left h.le]

theorem fadePosAfter_zero (s : State) : fadePosAfter s 0 = s.fadePos := by
  refine BitVec.eq_of_toNat_eq ?_
  rw [toNat_fadePosAfter]
  split <;> omega

theorem fadePosAfter_succ_of_lt {s : State} {n : Nat} (h : s.fadePos.toNat + n < s.fadeLen.toNat) :
    fadePosAfter s (n + 1) = fadePosAfter s n + 1 := by
  have hlen := s.fadeLen.isLt
  refine BitVec.eq_of_toNat_eq ?_
  rw [BitVec.toNat_add, toNat_fadePosAfter_of_lt h, toNat_fadePosAfter, if_pos (by omega)]
  have hone : (1 : Word).toNat = 1 := rfl
  omega

theorem fadePosAfter_succ_of_le {s : State} {n : Nat} (h : s.fadeLen.toNat ≤ s.fadePos.toNat + n) :
    fadePosAfter s (n + 1) = fadePosAfter s n := by
  refine BitVec.eq_of_toNat_eq ?_
  rw [toNat_fadePosAfter, toNat_fadePosAfter]
  split <;> omega

/-- What `n` samples of the fade leave: FADE_POS moved, each output sample so far faded, every other byte as it was. -/
structure Faded (s : State) (n : Nat) (t : State) : Prop where
  rest : t = { s with ram := t.ram, fadePos := fadePosAfter s n }
  canonical : RamCanonical t
  faded : ∀ b < 2, ∀ m < n, readBuf t b m = fadedSample s m (readBuf s b m)
  frame : ∀ a, ¬ inBuffer 0 n a → ¬ inBuffer 1 n a → readByte t.ram a = readByte s.ram a

theorem Faded.pos {s t : State} {n : Nat} (h : Faded s n t) : t.fadePos = fadePosAfter s n :=
  (congrArg State.fadePos h.rest).trans rfl

theorem Faded.len {s t : State} {n : Nat} (h : Faded s n t) : t.fadeLen = s.fadeLen :=
  (congrArg State.fadeLen h.rest).trans rfl

/-- The samples still to come are as they were. -/
theorem Faded.later {s t : State} {n : Nat} (h : Faded s n t) {b m : Nat} (hn : n ≤ m) (hm : m < 4096) :
    readBuf t b m = readBuf s b m :=
  readWord_congr _ _ _ fun j hj => h.frame _ (by unfold inBuffer bufAddr; omega) (by unfold inBuffer bufAddr; omega)

/-- Past FADE_LEN the samples stay as they are (R240). -/
theorem Faded.succ_of_done {s t : State} {n : Nat} (h : Faded s n t) (hn : n < 4096)
    (hdone : s.fadeLen.toNat ≤ s.fadePos.toNat + n) : Faded s (n + 1) t where
  rest := by rw [fadePosAfter_succ_of_le hdone]; exact h.rest
  canonical := h.canonical
  faded b hb m hm := by
    rcases Nat.lt_succ_iff_lt_or_eq.1 hm with hm | rfl
    · exact h.faded b hb m hm
    · rw [h.later le_rfl hn, fadedSample, if_neg (Nat.not_lt.2 hdone)]
  frame a h0 h1 := h.frame a (fun ha => h0 (inBuffer_succ _ _ _ ha)) fun ha => h1 (inBuffer_succ _ _ _ ha)

/-- Below FADE_LEN the next sample is multiplied by its gain (R240). -/
theorem Faded.succ_of_fading {s t : State} {n : Nat} (h : Faded s n t) (hn : n < 4096)
    (hpos : s.fadePos.toNat + n < s.fadeLen.toNat) : Faded s (n + 1) (fadeSample n t) := by
  have hfading : t.fadePos.toNat < t.fadeLen.toNat := by
    rw [h.pos, h.len, fadePosAfter_lt_iff]
    exact hpos
  have hgain : fadeGain t = fdiv (fofNat (s.fadePos.toNat + n)) (fofNat s.fadeLen.toNat) := by
    rw [fadeGain, h.pos, h.len, toNat_fadePosAfter_of_lt hpos]
  have hword : ∀ {b a}, ¬ inBuffer b (n + 1) a → a < bufAddr b n ∨ bufAddr b n + 4 ≤ a := fun {b a} hb => by
    by_contra hc
    exact hb (inBuffer_of_word b (n + 1) n a n.lt_succ_self (by omega))
  refine ⟨?_, ramCanonical_fadeSample hfading hn h.canonical, fun b hb m hm => ?_, fun a h0 h1 => ?_⟩
  · rw [fadePosAfter_succ_of_lt hpos, ← h.pos]
    exact (fadeSample_moves hfading hn).trans
      (congrArg (fun x : State => { x with ram := (fadeSample n t).ram, fadePos := t.fadePos + 1 }) h.rest)
  · rcases Nat.lt_succ_iff_lt_or_eq.1 hm with hm | rfl
    · rw [readBuf_fadeSample_ne hfading hn (hm.trans hn) hm.ne, h.faded b hb m hm]
    · rw [readBuf_fadeSample_same hfading hn h.canonical hb, h.later le_rfl hn, fadedSample, if_pos hpos, hgain]
  · rw [readByte_fadeSample hfading hn (hword h0) (hword h1)]
    exact h.frame a (fun ha => h0 (inBuffer_succ _ _ _ ha)) fun ha => h1 (inBuffer_succ _ _ _ ha)

theorem Faded.fadeSample {s t : State} {n : Nat} (h : Faded s n t) (hn : n < 4096) :
    Faded s (n + 1) (fadeSample n t) := by
  by_cases hfading : s.fadePos.toNat + n < s.fadeLen.toNat
  · exact h.succ_of_fading hn hfading
  · rw [fadeSample_done n t (Nat.not_lt.1 (by rwa [h.pos, h.len, fadePosAfter_lt_iff]))]
    exact h.succ_of_done hn (Nat.not_lt.1 hfading)

theorem faded_fadeBlock {s : State} (hram : RamCanonical s) (hN : blockLen s ≤ 4096) :
    Faded s (blockLen s) (fadeBlock s) :=
  forSamples_induct (Faded s) Machine.fadeSample s (blockLen s)
    ⟨by rw [fadePosAfter_zero], hram, fun _ _ _ hm => absurd hm (Nat.not_lt_zero _), fun _ _ _ => rfl⟩
    fun _ _ hn h => h.fadeSample (by omega)

theorem exec_blockEnd {s : State} (hready : s.ready = true) :
    exec .blockEnd s = .next (completeCommand (blockEnd s)) := by
  have hrun : tryCommand .blockEnd s = .ok (blockEnd s) := (tryBlockEnd_ok s _).2 ⟨hready, rfl⟩
  rw [exec_eq, hrun, finish_ok]

/-- Settles O39: BLOCK_END is the fade over the block, and a block counted. -/
theorem blockEndAppliesTheFade : Obligations.BlockEndAppliesTheFade := by
  intro s hready hram hN
  have hfade := faded_fadeBlock hram hN
  refine ⟨completeCommand (blockEnd s), exec_blockEnd hready, ?_, hfade.faded, hfade.frame⟩
  exact congrArg (fun x : State => completeCommand { x with blockCount := s.blockCount + 1 }) hfade.rest

end Sys2Proof.Machine

/-! The obligation about PROCESS_BLOCK and its parts (R239, R241). -/

namespace Sys2Proof.Machine

/-! ### The count of commands is apart from the block -/

/-- `s` with `k` commands counted and the last of them completed (R113). -/
def countedAs (k : Word) (s : State) : State := { s with cmdCount := k, done := true, inFlight := none }

theorem completeCommand_countedAs (k : Word) (s : State) :
    completeCommand (countedAs k s) = countedAs (k + 1) s := rfl

theorem completeCommand_eq_countedAs (s : State) : completeCommand s = countedAs (s.cmdCount + 1) s := rfl

theorem apartFrom_countedAs (o : OscSel) (k : Word) : ApartFrom o (countedAs k) where
  len _ := rfl
  read _ _ _ := rfl
  write _ _ _ _ := rfl
  advance _ _ _ := by rcases o with v | ⟨v, j⟩ | ⟨f, j⟩ <;> rfl
  value _ _ _ _ _ := by rcases o with v | ⟨v, j⟩ | ⟨f, j⟩ <;> rfl

theorem lfoRunIf_countedAs (F : Prims) (l : LfoSel) (wf : Option Waveform) (ufm : Bool) (k : Word) (s : State) :
    lfoRunIf F l wf ufm (countedAs k s) = countedAs k (lfoRunIf F l wf ufm s) := by
  cases wf with
  | none => rfl
  | some wf => exact (apartFrom_countedAs (.lfo l) k).lfoRun (fun _ => by cases l <;> rfl) F wf ufm s

theorem voiceRender_countedAs (F : Prims) (v : Fin 32) (pl : VoicePlan) (k : Word) (s : State) :
    voiceRender F v pl (countedAs k s) = countedAs k (voiceRender F v pl s) := by
  have hlfos : voiceLfos F v pl (countedAs k s) = countedAs k (voiceLfos F v pl s) := by
    simp only [voiceLfos, lfoRunIf_countedAs]
  have hrender := (apartFrom_countedAs (.voice v) k).render F (r := voiceRenderOf v pl (voiceLfos F v pl s)) rfl
    (voiceLfos F v pl s)
  rw [voiceRender_eq, voiceSamples, hlfos]
  exact congrArg (fun x : State => { x with written := setWritten x.written pl.group }) hrender

theorem filterBlock_countedAs (F : Prims) (f : Fin 4) (pl : FilterPlan) (k : Word) (s : State) :
    filterBlock F f pl (countedAs k s) = countedAs k (filterBlock F f pl s) :=
  filterBlock_commute (fun _ => apartFrom_countedAs _ k) (fun _ _ => rfl) F (fun _ _ => rfl) pl s

theorem scaleSample_countedAs (g : Word) (b n : Nat) (k : Word) (s : State) :
    scaleSample g b n (countedAs k s) = countedAs k (scaleSample g b n s) := rfl

theorem fadeSample_countedAs (n : Nat) (k : Word) (s : State) :
    fadeSample n (countedAs k s) = countedAs k (fadeSample n s) := by
  by_cases h : s.fadePos.toNat < s.fadeLen.toNat
  · have hgain : fadeGain (countedAs k s) = fadeGain s := rfl
    rw [fadeSample_eq_scaleSample n s h, fadeSample_eq_scaleSample n (countedAs k s) h, hgain, scaleSample_countedAs,
      scaleSample_countedAs]
    rfl
  · rw [fadeSample_done n s (Nat.le_of_not_lt h), fadeSample_done n (countedAs k s) (Nat.le_of_not_lt h)]

theorem blockEnd_countedAs (k : Word) (s : State) : blockEnd (countedAs k s) = countedAs k (blockEnd s) :=
  congrArg (fun x : State => { x with blockCount := s.blockCount + 1 })
    (forSamples_commute (fun n => fadeSample_countedAs n k) (blockLen s) s)

/-! ### The checks of the parts stay passed -/

/-- The voices and filters are configured in `t` as in `s`: the checks of VOICE_RENDER and FILTER_BLOCK go alike. -/
structure SamePlans (s t : State) : Prop where
  hw : t.hw = s.hw
  voice : ∀ v, planVoice (getVoice t v) = planVoice (getVoice s v)
  filter : ∀ f, planFilter (getFilter t f) = planFilter (getFilter s f)

theorem planVoice_setVoiceLfo (V : Voice) (j : VoiceLfo) {l : Lfo} (h : l.osc.kind = (voiceLfo V j).osc.kind) :
    planVoice (setVoiceLfo V j l) = planVoice V := by
  cases j <;> simp only [setVoiceLfo, planVoice, planLfo, h] <;> rfl

theorem planFilter_setFilterLfo (R : Filter) (j : FilterLfo) {l : Lfo} (h : l.osc.kind = (filterLfo R j).osc.kind) :
    planFilter (setFilterLfo R j l) = planFilter R := by
  cases j <;> simp only [setFilterLfo, planFilter, h] <;> rfl

theorem SamePlans.setVoice {s t : State} (h : SamePlans s t) {v : Fin 32} {V : Voice}
    (hV : planVoice V = planVoice (getVoice t v)) : SamePlans s (setVoice t v V) where
  hw := h.hw
  voice w := by
    by_cases hw : w = v
    · rw [hw, getVoice_setVoice_same, hV, h.voice]
    · rw [getVoice_setVoice_ne _ _ _ _ hw, h.voice]
  filter := h.filter

theorem SamePlans.setFilter {s t : State} (h : SamePlans s t) {f : Fin 4} {R : Filter}
    (hR : planFilter R = planFilter (getFilter t f)) : SamePlans s (setFilter t f R) where
  hw := h.hw
  voice := h.voice
  filter g := by
    by_cases hg : g = f
    · rw [hg, getFilter_setFilter_same, hR, h.filter]
    · rw [getFilter_setFilter_ne _ _ _ _ hg, h.filter]

/-- An oscillator that keeps its KIND changes no plan. -/
theorem SamePlans.setOsc {s t : State} (h : SamePlans s t) (o : OscSel) {x : Osc} (hx : x.kind = (getOsc t o).kind) :
    SamePlans s (setOsc t o x) := by
  rcases o with v | ⟨v, j⟩ | ⟨f, j⟩
  · refine h.setVoice ?_
    have hkind : x.kind = (getVoice t v).osc.kind := hx
    simp only [planVoice, hkind]
  · exact h.setVoice (planVoice_setVoiceLfo _ j hx)
  · exact h.setFilter (planFilter_setFilterLfo _ j hx)

theorem effectInvariant_samePlans (s : State) : EffectInvariant (SamePlans s) where
  advance _ o _ t h := by
    obtain ⟨hhw, hvoice, hfilter⟩ := h.setOsc o (x := advance _ (getOsc t o)) rfl
    exact ⟨hhw, hvoice, hfilter⟩
  sample _ _ _ _ _ _ h := ⟨h.hw, h.voice, h.filter⟩
  ladder _ _ _ _ _ h := h.setFilter rfl
  bookkeeping _ _ _ _ h := ⟨h.hw, h.voice, h.filter⟩
  init t _ _ _ _ h := ⟨h.hw,
    fun v => Eq.trans (by rw [getVoice_initSession]; split <;> rfl) (h.voice v),
    fun f => Eq.trans (by rw [getFilter_initSession]; rfl) (h.filter f)⟩
  teardown t h := ⟨h.hw, h.voice, fun f => Eq.trans (by rw [getFilter_teardownSession]; rfl) (h.filter f)⟩

theorem voiceRender_ready (F : Prims) (v : Fin 32) (pl : VoicePlan) (s : State) :
    (voiceRender F v pl s).ready = s.ready :=
  (congrArg State.ready (voiceMoved_voiceSamples F v pl s).rest).trans rfl

theorem filterBlock_ready (F : Prims) (f : Fin 4) (pl : FilterPlan) (s : State) :
    (filterBlock F f pl s).ready = s.ready := by
  obtain ⟨hmeta, -⟩ := lfoRun_leaves F (.filter f .metaCut) pl.metaWf false s
  obtain ⟨hcut, -⟩ := lfoRun_leaves F (.filter f .cut) pl.cutWf true (filterMetaRun F f pl s)
  exact (forSamples_const State.ready (filterSample F f) _ _ fun _ _ => rfl).trans
    ((congrArg State.ready (recordsMoved_trans hmeta hcut)).trans rfl)

/-- In `t` the parts of the block that started in `s` pass their checks as they would in `s`. -/
structure InBlock (s t : State) : Prop extends SamePlans s t where
  ready : t.ready = true

theorem InBlock.counted {s t : State} (h : InBlock s t) (k : Word) : InBlock s (countedAs k t) :=
  ⟨⟨h.hw, h.voice, h.filter⟩, h.ready⟩

/-! ### Commands one after another -/

theorem runCommands_cons {i : Instr} {s t : State} (h : exec i s = .next t) (is : List Instr) :
    runCommands (i :: is) s = runCommands is t := by
  rw [runCommands, h]

theorem runCommands_append {is : List Instr} {s t : State} (h : runCommands is s = .next t) (js : List Instr) :
    runCommands (is ++ js) s = runCommands js t := by
  induction is generalizing s with
  | nil => cases h; rfl
  | cons i is ih =>
    rw [runCommands_cons (exec_eq i s)] at h
    rw [List.cons_append, runCommands_cons (exec_eq i s), ih h]

/-- `cmd` is a part of the block started in `s`, with the effect `effect`. -/
structure IsPart (s : State) (cmd : Instr) (effect : State → State) : Prop where
  runs : ∀ t, InBlock s t → exec cmd t = .next (completeCommand (effect t))
  keeps : ∀ t, InBlock s t → InBlock s (effect t)
  apart : ∀ k, Function.Commute effect (countedAs k)

/-- Parts issued one by one have their effects one after another, and each is counted. -/
theorem runCommands_parts {α : Type} {s : State} {cmd : α → Instr} {effect : α → State → State} {xs : List α}
    (hparts : ∀ x ∈ xs, IsPart s (cmd x) (effect x)) {t : State} (ht : InBlock s t) (k : Word) :
    InBlock s (xs.foldl (fun t x => effect x t) t) ∧ ∃ k', runCommands (xs.map cmd) (countedAs k t) =
      .next (countedAs k' (xs.foldl (fun t x => effect x t) t)) := by
  induction xs generalizing t k with
  | nil => exact ⟨ht, k, rfl⟩
  | cons x xs ih =>
    obtain ⟨hx, hxs⟩ := List.forall_mem_cons.1 hparts
    rw [List.map_cons, List.foldl_cons, runCommands_cons (hx.runs _ (ht.counted k)), (hx.apart k).eq t,
      completeCommand_countedAs]
    exact ih hxs (hx.keeps t ht) (k + 1)

/-! ### The parts of PROCESS_BLOCK -/

theorem isPart_voiceRender {s : State} {v : Fin 32} {pl : VoicePlan} (hv : v.val < s.hw.nVoice)
    (hplan : planVoice (getVoice s v) = some pl) :
    IsPart s (.voiceRender (BitVec.ofNat 8 v.val)) (voiceRender prims v pl) where
  runs t ht := exec_voiceRender ht.ready
    ((voiceUnit_eq_some _ _ _).2 ⟨by rw [BitVec.toNat_ofNat]; omega, ht.hw ▸ hv⟩) ((ht.voice v).trans hplan)
  keeps t ht := ⟨(effectInvariant_samePlans s).voiceRender ht.toSamePlans prims (ht.hw ▸ hv) pl,
    (voiceRender_ready ..).trans ht.ready⟩
  apart k := voiceRender_countedAs prims v pl k

theorem isPart_filterBlock {s : State} {f : Fin 4} {pl : FilterPlan} (hplan : planFilter (getFilter s f) = some pl) :
    IsPart s (.filterBlock (BitVec.ofNat 8 f.val)) (filterBlock prims f pl) where
  runs t ht := exec_filterBlock ht.ready ((filterUnit_eq_some _ _).2 (by rw [BitVec.toNat_ofNat]; omega))
    ((ht.filter f).trans hplan)
  keeps t ht := ⟨(effectInvariant_samePlans s).filterBlock ht.toSamePlans prims f pl,
    (filterBlock_ready ..).trans ht.ready⟩
  apart k := filterBlock_countedAs prims f pl k

/-- What is planned are the units to be planned, each with its own plan. -/
theorem eq_map_fst_of_mapM {α β : Type} {f : α → Option β} {l : List α} {r : List (α × β)}
    (h : (l.mapM fun a => (f a).map fun b => (a, b)) = some r) : l = r.map Prod.fst ∧ ∀ x ∈ r, f x.1 = some x.2 := by
  induction l generalizing r with
  | nil =>
    obtain rfl : [] = r := by simpa using h
    exact ⟨rfl, nofun⟩
  | cons a l ih =>
    simp only [List.mapM_cons, Option.pure_def, Option.bind_eq_bind, Option.bind_eq_some_iff, Option.map_eq_some_iff,
      Option.some.injEq] at h
    obtain ⟨_, ⟨b, hb, rfl⟩, rest, hrest, rfl⟩ := h
    obtain ⟨rfl, hplans⟩ := ih hrest
    exact ⟨rfl, List.forall_mem_cons.2 ⟨hb, hplans⟩⟩

/-- The voices' commands, issued one by one, render the voices PROCESS_BLOCK has planned (R239). -/
theorem runCommands_voices {s t : State} {vs : List (Fin 32 × VoicePlan)} (hvs : planVoices s = some vs)
    (ht : InBlock s t) (k : Word) : InBlock s (renderVoices prims vs t) ∧ ∃ k',
      runCommands ((enabledVoices s).map fun v => .voiceRender (BitVec.ofNat 8 v.val)) (countedAs k t) =
        .next (countedAs k' (renderVoices prims vs t)) := by
  obtain ⟨hunits, hplans⟩ := eq_map_fst_of_mapM hvs
  have hrun := runCommands_parts (cmd := fun x : Fin 32 × VoicePlan => .voiceRender (BitVec.ofNat 8 x.1.val))
    (effect := fun x => voiceRender prims x.1 x.2)
    (fun x hx => isPart_voiceRender (lt_nVoice_of_mem_planVoices hvs x hx) (hplans x hx)) ht k
  rw [hunits, List.map_map]
  exact hrun

/-- The filters' commands, issued one by one, run the filters PROCESS_BLOCK has planned (R239). -/
theorem runCommands_filters {s t : State} {fs : List (Fin 4 × FilterPlan)} (hfs : planFilters s = some fs)
    (ht : InBlock s t) (k : Word) : InBlock s (runFilters prims fs t) ∧ ∃ k',
      runCommands ((enabledFilters s).map fun f => .filterBlock (BitVec.ofNat 8 f.val)) (countedAs k t) =
        .next (countedAs k' (runFilters prims fs t)) := by
  obtain ⟨hunits, hplans⟩ := eq_map_fst_of_mapM hfs
  have hrun := runCommands_parts (cmd := fun x : Fin 4 × FilterPlan => .filterBlock (BitVec.ofNat 8 x.1.val))
    (effect := fun x => filterBlock prims x.1 x.2) (fun x hx => isPart_filterBlock (hplans x hx)) ht k
  rw [hunits, List.map_map]
  exact hrun

/-- Settles O42: each part passes in its turn the checks PROCESS_BLOCK made at the start, and its effect is apart from
the count of commands. -/
theorem processBlockIsItsPartsInOrder : Obligations.ProcessBlockIsItsPartsInOrder := by
  intro s hready hconfig
  obtain ⟨hvoicesOk, hfiltersOk⟩ := Bool.and_eq_true_iff.1 hconfig
  obtain ⟨vs, hvs⟩ := Option.isSome_iff_exists.1 ((planVoices_isSome s).trans hvoicesOk)
  obtain ⟨fs, hfs⟩ := Option.isSome_iff_exists.1 ((planFilters_isSome s).trans hfiltersOk)
  have hrun : tryCommand .processBlock s = .ok (processBlock prims vs fs s) :=
    (tryProcessBlock_ok prims s _).2 ⟨hready, vs, fs, hvs, hfs, rfl⟩
  have hcount : (processBlock prims vs fs s).cmdCount = s.cmdCount :=
    (effectInvariant_cmdCount s.cmdCount).tryCommand (fun _ _ _ hu => hu) hrun rfl
  have hbegin : InBlock s (blockBegin s) := ⟨⟨rfl, fun _ => rfl, fun _ => rfl⟩, hready⟩
  obtain ⟨hvoices, kv, hvoicesRun⟩ := runCommands_voices hvs hbegin ((blockBegin s).cmdCount + 1)
  obtain ⟨hfilters, kf, hfiltersRun⟩ := runCommands_filters hfs hvoices kv
  refine ⟨completeCommand (processBlock prims vs fs s), countedAs (kf + 1) (processBlock prims vs fs s), ?_, ?_, ?_⟩
  · rw [exec_eq, hrun, finish_ok]
  · rw [List.cons_append, List.cons_append, runCommands_cons (exec_blockBegin hready), completeCommand_eq_countedAs,
      runCommands_append ((runCommands_append hvoicesRun _).trans hfiltersRun),
      runCommands_cons (exec_blockEnd (hfilters.counted kf).ready), blockEnd_countedAs]
    rfl
  · rw [completeCommand_eq_countedAs, hcount]
    rfl

end Sys2Proof.Machine

/-! The obligations about fault entry and the faulted core (R276, R279, R285, R286, R288). -/

namespace Sys2Proof.Machine

/-! ### Fault entry (R276, R286) -/

/-- A later fault of a command ends it and sets DONE, and the record of the first stays (R286). -/
theorem commandFault_of_faulted {s : State} (hf : s.fault = true) (c : FaultCode) (info : Word) :
    commandFault c info s = { s with done := true, inFlight := none } := by
  rw [commandFault, raiseFault_of_faulted c info s hf]

/-- Settles O8, by the two cases of FAULT, for a command and for the host port. -/
theorem faultEntryWritesOnlyTheFaultRecord : Obligations.FaultEntryWritesOnlyTheFaultRecord := fun c info s =>
  ⟨fun hf => commandFault_of_clear hf c info, fun hf => commandFault_of_faulted hf c info,
    raiseFault_of_clear c info s, raiseFault_of_faulted c info s⟩

/-! ### The fault held in PEND (R279) -/

/-- The end of a command, completed or faulted, leaves the fault held in PEND. -/
theorem pend_finish (w : Word) (i : Instr) (s : State) : (finish w s (tryCommand i s)).pend = s.pend := by
  cases he : tryCommand i s with
  | error c => exact commandFault_pend c w s
  | ok t => exact (sameFaultRecord_of_tryCommand he).pend

/-- Entering the held fault records it unless a first fault is recorded already (R279, R286). -/
theorem enterPending_eq {s : State} {q : Pend} (hq : s.pend = some q) : enterPending s = { s with
    pend := none
    done := true
    fault := true
    faultCode := if s.fault then s.faultCode else q.code
    faultInfo := if s.fault then s.faultInfo else q.addr.setWidth 32 } := by
  rw [enterPending_of_some s q hq]
  cases hf : s.fault with
  | false => rw [raiseFault_of_clear _ _ s hf]; rfl
  | true => simp [raiseFault_of_faulted _ _ s hf, hf]

/-- Settles O14: the step is the command's outcome followed by the entry of the held fault, which the outcome leaves
in PEND. -/
theorem pendingFaultIsEnteredAfterTheCommand : Obligations.PendingFaultIsEnteredAfterTheCommand := by
  intro s w i q u hc hq hi hu
  have hpend : u.pend = some q := by
    obtain rfl := Host.Outcome.next.inj ((exec_eq i s).symm.trans hu)
    exact (pend_finish _ i s).trans hq
  rw [stepRunsTheDecodedCommand s _ i hc rfl hi, hu, andThen, enterPending_eq hpend]

/-! ### A faulted core (R285, R286, R288) -/

/-- Settles O10: an idle core's step is the host's turn, and its CMD write is dropped. -/
theorem faultedCoreDropsCommands : Obligations.FaultedCoreDropsCommands := by
  intro s w rest hf hidle hpin hin
  rw [step_of_idle hidle, hostTurn_write hpin hin, hostWrite_cmd_of_faulted (s := { s with inbox := rest }) hidle hf w]
  rfl

/-- The core is faulted, and its first fault is `c` with FAULT_INFO `info`. -/
structure FaultedWith (c : FaultCode) (info : Word) (s : State) : Prop where
  fault : s.fault = true
  faultCode : s.faultCode = c
  faultInfo : s.faultInfo = info

namespace FaultedWith

variable {c : FaultCode} {info : Word} {s : State} (h : FaultedWith c info s)
include h

theorem congr {t : State} (hst : SameFaultRecord s t) : FaultedWith c info t :=
  ⟨hst.fault.trans h.fault, hst.faultCode.trans h.faultCode, hst.faultInfo.trans h.faultInfo⟩

/-- A later fault leaves the record of the first (R286). -/
theorem raiseFault (c' : FaultCode) (i : Word) : FaultedWith c info (raiseFault c' i s) := by
  rw [raiseFault_of_faulted c' i s h.fault]
  exact ⟨h.fault, h.faultCode, h.faultInfo⟩

theorem commandFault (c' : FaultCode) (w : Word) : FaultedWith c info (commandFault c' w s) := by
  rw [commandFault_of_faulted h.fault c' w]
  exact ⟨h.fault, h.faultCode, h.faultInfo⟩

theorem enterPending : FaultedWith c info (enterPending s) := by
  cases hq : s.pend with
  | none => exact (enterPending_of_none s hq).symm ▸ h
  | some q =>
    rw [enterPending_eq hq]
    exact ⟨rfl, (if_pos h.fault).trans h.faultCode, (if_pos h.fault).trans h.faultInfo⟩

theorem respond (st : PortStatus) (d : Word) : FaultedWith c info (respond st d s) :=
  ⟨h.fault, h.faultCode, h.faultInfo⟩

theorem busRefuse (a : Addr) : FaultedWith c info (busRefuse a s) := (h.raiseFault _ _).respond _ _

/-- A refused access goes to PEND, not to the record (R279). -/
theorem busyRefuse (a : Addr) : FaultedWith c info (busyRefuse a s) := by
  rw [busyRefuse_eq]
  exact ⟨h.fault, h.faultCode, h.faultInfo⟩

theorem hostRead (a : Addr) : FaultedWith c info (hostRead a s) := by
  obtain ⟨-, e⟩ | ⟨-, e⟩ | ⟨l, -, e⟩ := hostRead_cases a s <;> rw [e]
  · exact h.busyRefuse a
  · exact h.busRefuse a
  · exact h.respond _ _

/-- No location a write reaches is FAULT, FAULT_CODE or FAULT_INFO (R35, R47). -/
theorem hostWrite (a : Addr) (v : Word) : FaultedWith c info (hostWrite a v s) := by
  obtain ⟨-, e⟩ | ⟨-, -, e⟩ | ⟨l, -, -, e⟩ := hostWrite_cases a v s <;> rw [e]
  · exact h.busyRefuse a
  · exact h.busRefuse a
  · exact (h.congr (sameFaultRecord_writeLoc l v s)).respond _ _

/-- Of the host's events a reset alone can clear the record (R285). -/
theorem hostEvent {e : HostEvent} (he : ∀ b, e ≠ .reset b) : FaultedWith c info (hostEvent e s) := by
  have hport {t : State} (ht : FaultedWith c info t) : FaultedWith c info (if s.resetPin then s else t) := by
    split
    · exact h
    · exact ht
  cases e with
  | read a => exact hport (h.hostRead a)
  | write a v => exact hport (h.hostWrite a v)
  | wait => exact hport (h.hostRead _)
  | reset b => exact absurd rfl (he b)

theorem hostTurn (hin : ∀ b rest, s.inbox ≠ .reset b :: rest) : FaultedWith c info (hostTurn s) := by
  obtain ⟨-, e⟩ | ⟨rest, -, -, e⟩ | ⟨ev, rest, hev, e⟩ := hostTurn_cases s <;> rw [e]
  · exact h
  · exact h.hostRead _
  · have htaken : FaultedWith c info { s with inbox := rest } := ⟨h.fault, h.faultCode, h.faultInfo⟩
    exact htaken.hostEvent fun b hb => hin b rest (hb ▸ hev)

theorem countDown : FaultedWith c info (countDown s) :=
  h.congr (by constructor <;> simp)

theorem finish (w : Word) (i : Instr) : FaultedWith c info (finish w s (tryCommand i s)) := by
  cases he : tryCommand i s with
  | error c' => exact h.commandFault c' w
  | ok t =>
    obtain ⟨hf, hcode, hinfo⟩ := h.congr (sameFaultRecord_of_tryCommand he)
    exact ⟨hf, hcode, hinfo⟩

end FaultedWith

/-- Settles O9: the host's turn without a reset, a completion and the fault of a word that is no command each keep the
record of the first fault. -/
theorem firstFaultIsKeptUntilReset : Obligations.FirstFaultIsKeptUntilReset := by
  intro s t hf hin hstep
  have h : FaultedWith s.faultCode s.faultInfo s := ⟨hf, rfl, rfl⟩
  have ht : FaultedWith s.faultCode s.faultInfo t := by
    obtain ⟨-, rfl⟩ | ⟨c, -, -, rfl⟩ | ⟨c, i, -, -, -, rfl⟩ | ⟨c, e, -, -, -, rfl⟩ := step_cases s t hstep
    · exact h.hostTurn hin
    · exact (h.hostTurn hin).countDown
    · exact (h.finish _ i).enterPending
    · exact (h.commandFault _ _).enterPending
  exact ⟨ht.fault, ht.faultCode, ht.faultInfo⟩

end Sys2Proof.Machine

/-! SUPPORT. No command reads or writes the host's list or the port's answer (log entry 5): its checks, its effect, its
completion and its faults commute with a change of them. -/

namespace Sys2Proof.Machine

/-- `s` with `rest` for the host to do next and `resp` as the port's last answer. -/
def withPort (rest : List HostEvent) (resp : Option PortResp) (s : State) : State :=
  { s with inbox := rest, lastResp := resp }

section
variable {rest : List HostEvent} {resp : Option PortResp}

/-! ### What reads the same whatever the port holds -/

@[simp] theorem withPort_hw (s : State) : (withPort rest resp s).hw = s.hw := rfl
@[simp] theorem withPort_ready (s : State) : (withPort rest resp s).ready = s.ready := rfl
@[simp] theorem withPort_arg0 (s : State) : (withPort rest resp s).arg0 = s.arg0 := rfl
@[simp] theorem withPort_arg1 (s : State) : (withPort rest resp s).arg1 = s.arg1 := rfl
@[simp] theorem getFilter_withPort (s : State) (f : Fin 4) : getFilter (withPort rest resp s) f = getFilter s f := rfl
@[simp] theorem getVoice_withPort (s : State) (v : Fin 32) : getVoice (withPort rest resp s) v = getVoice s v := rfl
@[simp] theorem getOsc_withPort (s : State) (o : OscSel) : getOsc (withPort rest resp s) o = getOsc s o :=
  getOsc_congr rfl rfl o
@[simp] theorem getLfo_withPort (s : State) (l : LfoSel) : getLfo (withPort rest resp s) l = getLfo s l :=
  getLfo_congr rfl rfl l
@[simp] theorem buffersOk_withPort (s : State) (mono ufm uam : Bool) :
    buffersOk (withPort rest resp s) mono ufm uam = buffersOk s mono ufm uam := rfl
@[simp] theorem planVoices_withPort (s : State) : planVoices (withPort rest resp s) = planVoices s := rfl
@[simp] theorem planFilters_withPort (s : State) : planFilters (withPort rest resp s) = planFilters s := rfl

/-! ### The loops of a block -/

theorem apartFrom_withPort (o : OscSel) : ApartFrom o (withPort rest resp) where
  len _ := rfl
  read _ _ _ := rfl
  write _ _ _ _ := rfl
  advance _ _ _ := by rcases o with v | ⟨v, j⟩ | ⟨f, j⟩ <;> rfl
  value _ _ _ _ _ := by rcases o with v | ⟨v, j⟩ | ⟨f, j⟩ <;> rfl

theorem lfoRun_withPort (F : Prims) (l : LfoSel) (wf : Waveform) (ufm : Bool) :
    Function.Commute (lfoRun F l wf ufm) (withPort rest resp) :=
  (apartFrom_withPort (.lfo l)).lfoRun (getLfo_withPort · l) F wf ufm

theorem lfoRunIf_withPort (F : Prims) (l : LfoSel) (wf : Option Waveform) (ufm : Bool) :
    Function.Commute (lfoRunIf F l wf ufm) (withPort rest resp) := by
  cases wf with
  | none => exact fun _ => rfl
  | some wf => exact lfoRun_withPort F l wf ufm

theorem voiceLfos_withPort (F : Prims) (v : Fin 32) (pl : VoicePlan) :
    Function.Commute (voiceLfos F v pl) (withPort rest resp) := fun s => by
  simp only [voiceLfos, (lfoRunIf_withPort F _ _ _).eq]

theorem voiceRender_withPort (F : Prims) (v : Fin 32) (pl : VoicePlan) :
    Function.Commute (voiceRender F v pl) (withPort rest resp) := fun s => by
  have hrender : Function.Commute (render F (voiceRenderOf v pl (voiceLfos F v pl s))) (withPort rest resp) :=
    (apartFrom_withPort (.voice v)).render F rfl
  unfold voiceRender
  rw [(voiceLfos_withPort F v pl).eq]
  exact congrArg (fun x : State => { x with written := setWritten x.written pl.group }) (hrender _)

theorem filterBlock_withPort (F : Prims) (f : Fin 4) (pl : FilterPlan) :
    Function.Commute (filterBlock F f pl) (withPort rest resp) :=
  filterBlock_commute (fun _ => apartFrom_withPort _) (fun _ _ => rfl) F (fun _ _ => rfl) pl

theorem scaleSample_withPort (g : Word) (b n : Nat) (s : State) :
    scaleSample g b n (withPort rest resp s) = withPort rest resp (scaleSample g b n s) := rfl

theorem fadeSample_withPort (n : Nat) : Function.Commute (fadeSample n) (withPort rest resp) := fun s => by
  by_cases h : s.fadePos.toNat < s.fadeLen.toNat
  · have hgain : fadeGain (withPort rest resp s) = fadeGain s := rfl
    rw [fadeSample_eq_scaleSample n s h, fadeSample_eq_scaleSample n (withPort rest resp s) h, hgain,
      scaleSample_withPort, scaleSample_withPort]
    rfl
  · rw [fadeSample_done n s (Nat.le_of_not_lt h), fadeSample_done n (withPort rest resp s) (Nat.le_of_not_lt h)]

theorem blockEnd_withPort : Function.Commute blockEnd (withPort rest resp) := fun s =>
  congrArg (fun x : State => { x with blockCount := s.blockCount + 1 })
    (forSamples_commute (fadeSample_withPort) (blockLen s) s)

theorem processBlock_withPort (F : Prims) (vs : List (Fin 32 × VoicePlan)) (fs : List (Fin 4 × FilterPlan)) :
    Function.Commute (processBlock F vs fs) (withPort rest resp) := by
  have hbegin : Function.Commute blockBegin (withPort rest resp) := fun _ => rfl
  have hvoices : Function.Commute (renderVoices F vs) (withPort rest resp) :=
    fun _ => List.foldl_hom _ fun t x => (voiceRender_withPort F x.1 x.2).eq t
  have hfilters : Function.Commute (runFilters F fs) (withPort rest resp) :=
    fun _ => List.foldl_hom _ fun t x => (filterBlock_withPort F x.1 x.2).eq t
  exact (blockEnd_withPort).comp_left (hfilters.comp_left (hvoices.comp_left hbegin))

/-! ### Commands and their ends -/

/-- The checks of a command do not look at the port, and its effect commutes with a change of it. -/
theorem tryCommand_withPort (i : Instr) (s : State) :
    tryCommand i (withPort rest resp s) = (tryCommand i s).map (withPort rest resp) := by
  cases i with
  | nop => rfl
  | init =>
    unfold tryCommand tryInit
    rw [apply_ite (Except.map _), apply_ite (Except.map _)]
    rfl
  | teardown => rfl
  | processBlock =>
    simp only [tryCommand, tryProcessBlock, withPort_ready, planVoices_withPort, planFilters_withPort,
      (processBlock_withPort _ _ _).eq]
    cases s.ready
    · rfl
    · cases planVoices s <;> cases planFilters s <;> rfl
  | blockBegin =>
    unfold tryCommand tryBlockBegin
    rw [apply_ite (Except.map _)]
    rfl
  | blockEnd =>
    simp only [tryCommand, tryBlockEnd, withPort_ready, (blockEnd_withPort).eq]
    cases s.ready <;> rfl
  | voiceRender unit =>
    simp only [tryCommand, tryVoiceRender, withPort_ready, withPort_hw, getVoice_withPort,
      (voiceRender_withPort _ _ _).eq]
    cases s.ready
    · rfl
    · cases voiceUnit s.hw unit with
      | none => rfl
      | some v =>
        dsimp only
        cases planVoice (getVoice s v) <;> rfl
  | filterBlock unit =>
    simp only [tryCommand, tryFilterBlock, withPort_ready, getFilter_withPort, (filterBlock_withPort _ _ _).eq]
    cases s.ready
    · rfl
    · cases filterUnit unit with
      | none => rfl
      | some f =>
        dsimp only
        cases planFilter (getFilter s f) <;> rfl
  | filterStep unit =>
    simp only [tryCommand]
    unfold tryFilterStep
    rw [apply_ite (Except.map _)]
    cases filterUnit unit <;> rfl
  | oscNext unit sub cls =>
    simp only [tryCommand, tryOscNext, withPort_ready, withPort_hw, withPort_arg0, withPort_arg1, getOsc_withPort,
      (apartFrom_withPort _).value, ((apartFrom_withPort _).advance _ _).eq]
    cases s.ready
    · rfl
    · cases oscTarget s.hw unit sub cls with
      | none => rfl
      | some o =>
        dsimp only
        cases waveformOf (getOsc s o).kind <;> rfl
  | oscRender unit sub cls ovw mono ufm uam =>
    have hrender (o : OscSel) (wf : Waveform) :
        Function.Commute (render prims (oscRenderOf o wf ovw mono ufm uam s)) (withPort rest resp) :=
      (apartFrom_withPort o).render prims rfl
    have hoperands (o : OscSel) (wf : Waveform) :
        oscRenderOf o wf ovw mono ufm uam (withPort rest resp s) = oscRenderOf o wf ovw mono ufm uam s := rfl
    simp only [tryCommand, tryOscRender, withPort_ready, withPort_hw, getOsc_withPort, buffersOk_withPort, hoperands,
      (hrender _ _).eq]
    cases s.ready
    · rfl
    · cases oscTarget s.hw unit sub cls with
      | none => rfl
      | some o =>
        dsimp only
        cases buffersOk s mono ufm uam
        · rfl
        · cases waveformOf (getOsc s o).kind <;> rfl
  | lfoProduce unit sub cls ufm =>
    simp only [tryCommand, tryLfoProduce, withPort_ready, withPort_hw, getLfo_withPort,
      (lfoRun_withPort _ _ _ _).eq]
    cases s.ready
    · rfl
    · cases lfoTarget s.hw unit sub cls with
      | none => rfl
      | some l =>
        dsimp only
        cases ufm && (metaOf l).isNone
        · cases waveformOf (getLfo s l).osc.kind <;> rfl
        · rfl

theorem raiseFault_withPort (c : FaultCode) (info : Word) :
    Function.Commute (raiseFault c info) (withPort rest resp) := fun s => by
  unfold raiseFault
  rw [apply_ite (withPort rest resp)]
  rfl

theorem commandFault_withPort (c : FaultCode) (w : Word) :
    Function.Commute (commandFault c w) (withPort rest resp) := fun s =>
  congrArg (fun x : State => { x with inFlight := none }) (raiseFault_withPort c w s)

theorem enterPending_withPort : Function.Commute enterPending (withPort rest resp) := fun s => by
  cases hpend : s.pend with
  | none => rw [enterPending_of_none s hpend, enterPending_of_none (withPort rest resp s) hpend]
  | some q =>
    rw [enterPending_of_some s q hpend, enterPending_of_some (withPort rest resp s) q hpend,
      (raiseFault_withPort _ _).eq]
    rfl

/-- The completion step of a command word takes no notice of the port (R112, R113). -/
theorem completeWord_withPort (w : Word) (s : State) :
    completeWord w (withPort rest resp s) = andThen (completeWord w s) (withPort rest resp) := by
  cases hw : decode w with
  | error e =>
    rw [completeWord_of_error hw, completeWord_of_error hw, (commandFault_withPort _ w).eq,
      (enterPending_withPort).eq]
    rfl
  | ok i =>
    rw [completeWord_of_ok hw, completeWord_of_ok hw, exec_eq, exec_eq, tryCommand_withPort]
    have hfinish : finish (encode i) (withPort rest resp s) ((tryCommand i s).map (withPort rest resp)) =
        withPort rest resp (finish (encode i) s (tryCommand i s)) := by
      cases tryCommand i s with
      | error c => exact commandFault_withPort c _ s
      | ok t => rfl
    rw [hfinish, andThen, (enterPending_withPort).eq]
    rfl

end

end Sys2Proof.Machine

/-! The obligation about the delay of a command (R101, R103, R320). -/

namespace Sys2Proof.Machine

/-! ### Polling a command in flight (R101, R103, R127) -/

/-- `s` with the command word `w` in flight and `k` steps of its delay still to pass. -/
def inFlightFor (w : Word) (k : Nat) (s : State) : State := { s with inFlight := some { word := w, wait := k } }

/-- An event with which the host only polls a command in flight (R101, R127). -/
def IsPoll (e : HostEvent) : Prop := e = .wait ∨ e = .read 0x000000#24 ∨ e = .read 0x000008#24

/-- After at most `k` host turns of polling in `s`, `rest` is left to do and `resp` is the port's last answer; where it
is of STATUS, that is the STATUS of `s`, with its BUSY bit. -/
structure PolledTo (s : State) (k : Nat) (rest : List HostEvent) (resp : Option PortResp) : Prop where
  taken : ∃ pre, s.inbox = pre ++ rest ∧ pre.length ≤ k
  answer : resp = s.lastResp ∨ resp = some { status := .okay, data := 0x4C465331#32 } ∨
    resp = some { status := .okay, data := statusWord s }
  silent : s.inbox = [] → resp = s.lastResp

theorem PolledTo.refl (s : State) : PolledTo s 0 s.inbox s.lastResp := ⟨⟨[], rfl, le_rfl⟩, .inl rfl, fun _ => rfl⟩

/-- One turn of polling, then `k` more while the same command is in flight. -/
theorem PolledTo.cons {s : State} {w : Word} {j k : Nat} {rest rest' : List HostEvent} {resp resp' : Option PortResp}
    (hb : busy s = true) (h : PolledTo s 1 rest resp)
    (h' : PolledTo (inFlightFor w j (withPort rest resp s)) k rest' resp') : PolledTo s (k + 1) rest' resp' := by
  have hstatus : statusWord (inFlightFor w j (withPort rest resp s)) = statusWord s := by
    unfold statusWord
    rw [hb]
    rfl
  obtain ⟨⟨pre, hpre, hlen⟩, hanswer, hsilent⟩ := h
  obtain ⟨⟨pre', hpre', hlen'⟩, hanswer', hsilent'⟩ := h'
  have hrest : rest = pre' ++ rest' := hpre'
  refine ⟨⟨pre ++ pre', ?_, ?_⟩, ?_, fun hnil => ?_⟩
  · rw [hpre, hrest, List.append_assoc]
  · rw [List.length_append]
    omega
  · rw [hstatus] at hanswer'
    obtain rfl | hid | hst := hanswer'
    · exact hanswer
    · exact .inr (.inl hid)
    · exact .inr (.inr hst)
  · have hrestnil : rest = [] := (List.append_eq_nil_iff.1 (hpre.symm.trans hnil)).2
    exact (hsilent' hrestnil).trans (hsilent hnil)

section
variable {s : State} {w : Word} {k : Nat} (hc : s.inFlight = some { word := w, wait := k + 1 })
include hc

/-- While a command waits, a read of ID or STATUS is answered, unless the reset input is asserted (R101, R311). -/
theorem step_of_polling_read {a : Addr} {d : Word} {rest : List HostEvent} (hin : s.inbox = .read a :: rest)
    (hread : hostRead a { s with inbox := rest } = respond .okay d { s with inbox := rest }) :
    ∃ resp, (resp = s.lastResp ∨ resp = some { status := .okay, data := d }) ∧
      step s = .next (inFlightFor w k (withPort rest resp s)) := by
  cases hpin : s.resetPin with
  | false => exact ⟨_, .inr rfl, step_of_read_answered hc hpin hin hread⟩
  | true =>
    have hturn : hostTurn s = withPort rest s.lastResp s := by simp [hostTurn, hostEvent, hin, hpin, withPort]
    exact ⟨_, .inl rfl, step_of_waiting hc hturn rfl⟩

/-- While a command waits, a turn of a host that only polls moves nothing but the port and the delay (R101, R103). -/
theorem step_of_polling (hpoll : ∀ e ∈ s.inbox, IsPoll e) :
    ∃ rest resp, PolledTo s 1 rest resp ∧ step s = .next (inFlightFor w k (withPort rest resp s)) := by
  cases hin : s.inbox with
  | nil =>
    have hturn : hostTurn s = s := by rw [hostTurn, hin]
    exact ⟨s.inbox, s.lastResp, ⟨⟨[], rfl, by decide⟩, .inl rfl, fun _ => rfl⟩, step_of_waiting hc hturn rfl⟩
  | cons e rest =>
    have htaken : ∃ pre, s.inbox = pre ++ rest ∧ pre.length ≤ 1 := ⟨[e], hin, le_rfl⟩
    have hne : s.inbox ≠ [] := hin ▸ List.cons_ne_nil e rest
    obtain rfl | rfl | rfl := hpoll e (hin ▸ List.mem_cons_self)
    · refine ⟨s.inbox, some { status := .okay, data := statusWord s }, ⟨⟨[], rfl, by decide⟩, .inr (.inr rfl), ?_⟩, ?_⟩
      · exact fun hnil => absurd hnil hne
      · exact step_of_wait_busy hc hin
    · obtain ⟨resp, hresp, hstep⟩ := step_of_polling_read hc hin (hostRead_id _)
      exact ⟨rest, resp, ⟨htaken, hresp.imp_right .inl, fun hnil => absurd hnil hne⟩, hstep⟩
    · obtain ⟨resp, hresp, hstep⟩ := step_of_polling_read hc hin (hostRead_status _)
      exact ⟨rest, resp, ⟨htaken, hresp.imp_right .inr, fun hnil => absurd hnil hne⟩, hstep⟩

end

/-! ### The delay run out -/

theorem run_succ_of_next {M : Host.Core} {s t : M.State} (h : M.step s = .next t) (k : Nat) :
    M.run (k + 1) s = M.run k t := by
  rw [Host.Core.run, h]

theorem run_one {M : Host.Core} (s : M.State) : M.run 1 s = M.step s := by
  rw [Host.Core.run]
  cases M.step s <;> rfl

/-- Polled throughout its delay, a command comes to its completion step as issued, but for the port (R320). -/
theorem run_of_polling {s : State} {w : Word} {k : Nat} (hc : s.inFlight = some { word := w, wait := k })
    (hpoll : ∀ e ∈ s.inbox, IsPoll e) :
    ∃ rest resp, PolledTo s k rest resp ∧
      Host.Core.run Sys2Proof.core (k + 1) s = step (inFlightFor w 0 (withPort rest resp s)) := by
  induction k generalizing s with
  | zero =>
    have hs : inFlightFor w 0 (withPort s.inbox s.lastResp s) = s := by
      rw [inFlightFor, ← hc]
      rfl
    exact ⟨s.inbox, s.lastResp, .refl s, (run_one (M := Sys2Proof.core) s).trans (congrArg step hs.symm)⟩
  | succ k ih =>
    obtain ⟨rest, resp, hturn, hstep⟩ := step_of_polling hc hpoll
    obtain ⟨pre, hpre, -⟩ := hturn.taken
    have hpoll' : ∀ e ∈ rest, IsPoll e := fun e he => hpoll e (hpre ▸ List.mem_append_right pre he)
    obtain ⟨rest', resp', hturns, hrun⟩ := ih (s := inFlightFor w k (withPort rest resp s)) rfl hpoll'
    have hfirst := run_succ_of_next (M := Sys2Proof.core) hstep (k + 1)
    exact ⟨rest', resp', hturn.cons (busy_eq_true hc) hturns, hfirst.trans hrun⟩

/-- What the host does next, and what the port answered last, has no part in a completion (R112, R320). -/
theorem step_inFlightFor_withPort {s t : State} {w : Word} (h : step (inFlightFor w 0 s) = .next t)
    (rest : List HostEvent) (resp : Option PortResp) :
    step (inFlightFor w 0 (withPort rest resp s)) = .next (withPort rest resp t) := by
  have hdue (u : State) : step (inFlightFor w 0 u) = completeWord w (inFlightFor w 0 u) :=
    step_of_due (c := { word := w, wait := 0 }) rfl rfl
  have hdone : completeWord w (inFlightFor w 0 s) = .next t := (hdue s).symm.trans h
  calc step (inFlightFor w 0 (withPort rest resp s))
    _ = completeWord w (withPort rest resp (inFlightFor w 0 s)) := hdue _
    _ = .next (withPort rest resp t) := by rw [completeWord_withPort, hdone, andThen]

/-- Settles O12, by induction on the delay: each turn of polling leaves the command to complete in the same state but
for the port, of which the completion step takes no notice. -/
theorem completionDoesNotDependOnTheDelay : Obligations.CompletionDoesNotDependOnTheDelay := by
  intro k s w hc
  refine ⟨fun hnil => ?_, fun t hpoll hstep => ?_⟩
  · obtain ⟨rest, resp, ⟨⟨pre, hpre, -⟩, -, hsilent⟩, hrun⟩ := run_of_polling hc (by simp [hnil])
    obtain rfl : rest = s.inbox := (List.append_eq_nil_iff.1 (hpre.symm.trans hnil)).2.trans hnil.symm
    rw [hrun, hsilent hnil]
    rfl
  · obtain ⟨rest, resp, ⟨⟨pre, hpre, hlen⟩, hanswer, -⟩, hrun⟩ := run_of_polling hc hpoll
    exact ⟨pre, rest, resp, hpre, hlen, hanswer, hrun.trans (step_inFlightFor_withPort hstep rest resp)⟩

end Sys2Proof.Machine

/-! The obligation about the reset input (R79, R311). -/

namespace Sys2Proof.Machine

theorem countDown_of_idle {s : State} (hidle : s.inFlight = none) : countDown s = s := by
  simp [countDown, hidle]

/-- A reset event is taken at once, a command in flight or not, unless that command is due in this very step (R311). -/
theorem step_reset {s : State} {b : Bool} {rest : List HostEvent} (hdue : ∀ c, s.inFlight = some c → c.wait ≠ 0)
    (hin : s.inbox = .reset b :: rest) : step s = .next (countDown (driveReset b { s with inbox := rest })) := by
  have hturn : hostTurn s = driveReset b { s with inbox := rest } := by simp [hostTurn, hostEvent, hin]
  obtain hc | ⟨c, hc⟩ := Option.eq_none_or_eq_some s.inFlight
  · have hidle := inFlight_driveReset (s := { s with inbox := rest }) hc b
    rw [step_of_idle hc, hturn, countDown_of_idle hidle]
  · simp only [step, turn, hc, if_neg (hdue c hc), hturn]

/-- Asserting or releasing the reset input abandons a waiting command and restores the reset values (R311). -/
theorem step_reset_of_asserted {s : State} {b : Bool} {rest : List HostEvent}
    (hdue : ∀ c, s.inFlight = some c → c.wait ≠ 0) (hin : s.inbox = .reset b :: rest)
    (h : b = true ∨ s.resetPin = true) : step s = .next { State.reset with
      hw := s.hw, inbox := rest, draws := s.draws, issues := s.issues, resetPin := b } := by
  rw [step_reset hdue hin, driveReset_of_asserted b { s with inbox := rest } h, countDown_of_idle rfl]

/-- While the reset input is asserted the port takes the host's transactions and ignores them (R311). -/
theorem step_of_held_in_reset {s : State} {e : HostEvent} {rest : List HostEvent} (hidle : s.inFlight = none)
    (hpin : s.resetPin = true) (hin : s.inbox = e :: rest) (he : ∀ b, e ≠ .reset b) :
    step s = .next { s with inbox := rest } := by
  have hturn : hostTurn s = hostEvent e { s with inbox := rest } := by simp [hostTurn, hin, busy_eq_false hidle]
  rw [step_of_idle hidle, hturn]
  cases e with
  | reset b => exact absurd rfl (he b)
  | _ => simp [hostEvent, hpin]

/-- Settles O27: asserting and releasing the reset input are the same change of it, an unasserted input left so is none,
and a core held in reset ignores each kind of transaction. -/
theorem resetInputRestoresResetValues : Obligations.ResetInputRestoresResetValues := by
  refine fun s rest hdue => ⟨fun hpin hin => ?_, fun hpin hidle hin => ?_, fun hin => ?_, fun a v hidle hpin hin => ?_,
    fun a hidle hpin hin => ?_, fun hidle hpin hin => ?_⟩
  · exact step_reset_of_asserted hdue hin (.inr hpin)
  · rw [step_reset hdue hin, driveReset_of_unasserted { s with inbox := rest } hpin,
      countDown_of_idle (s := { s with inbox := rest }) hidle]
  · exact step_reset_of_asserted hdue hin (.inl rfl)
  · exact step_of_held_in_reset hidle hpin hin nofun
  · exact step_of_held_in_reset hidle hpin hin nofun
  · exact step_of_held_in_reset hidle hpin hin nofun

end Sys2Proof.Machine
